-- ==== Sys2Proof/Word.lean ====
section
/-! DEFINITION. The word types: a register word is 32 bits (R20), a memory byte 8 (R81, R82), a table entry or sample
intermediate 16 (R53), a statistics accumulator 64 (R43). -/

namespace Sys2Proof

/-- A register or command word. -/
abbrev Word := BitVec 32

/-- A byte of the source or destination space. -/
abbrev Byte := BitVec 8

/-- A 16-bit table entry. -/
abbrev Half := BitVec 16

/-- A statistics accumulator. -/
abbrev Quad := BitVec 64

end Sys2Proof
end

