-- ==== Sys2Proof/Syntax.lean ====
section
/-! DEFINITION. The commands of the opcode map (R112), one constructor a row, and the accesses a host program is made of
(R126). -/

namespace Sys2Proof

/-- The five commands (R112). A flag is a Boolean operand (R111); every other operand of a command is a field of the
configuration snapshot. -/
inductive Instr where
  /-- NOP (R154). -/
  | nop
  /-- LUT_BUILD with its flags F0 LVL, F1 G8, F2 G16 (R113, R199). -/
  | lutBuild (lvl g8 g16 : Bool)
  /-- BAYER_DECODE with its flag F0 B (R114, R254). -/
  | bayerDecode (build : Bool)
  /-- DEMOSAIC (R280). -/
  | demosaic
  /-- YUV_CONVERT (R230). -/
  | yuvConvert
  deriving DecidableEq, Repr

/-- One access of the outside world to the block and its memories: the statements of a host program (R126; WR and CMD
are `write`, RD is `read`), the host's use of the SRC and DST memories (R81, R82, R100, R102), and the reset input
(R340). Offsets and widths are kept as the host gave them: which ones have a meaning is `HostOp.wf`. -/
inductive HostOp where
  /-- A register write of `width` bits at byte offset `off`. -/
  | write (off : Nat) (value : Word) (width : Nat)
  /-- A register read of `width` bits at byte offset `off`. -/
  | read (off : Nat) (width : Nat)
  /-- WAIT: the host reads STATUS until BUSY = 0. -/
  | wait
  /-- The host writes a byte of SRC. -/
  | srcWrite (addr : Nat) (value : Byte)
  /-- The host reads a byte of SRC. -/
  | srcRead (addr : Nat)
  /-- The host writes a byte of DST. -/
  | dstWrite (addr : Nat) (value : Byte)
  /-- The host reads a byte of DST. -/
  | dstRead (addr : Nat)
  /-- The reset input is asserted (R340). -/
  | hardReset
  deriving DecidableEq, Repr

/-- An access still to come, and how many engine steps of a running command fall before it (R365, I12; log 3). -/
structure HostEvent where
  after : Nat
  op : HostOp
  deriving DecidableEq, Repr

/-- The pseudo-instructions of R127. -/
inductive Pseudo where
  | bayerRender
  | lutBuildAll
  | cancel
  | srst
  | clr
  | run (i : Instr)
  deriving DecidableEq, Repr

end Sys2Proof
end

