-- ==== Sys2Proof/WellFormed.lean ====
section
/-! DEFINITION. Which terms have a meaning. Every command term is well formed: its operands are single bits and R113
calls every combination legal. A register access has a meaning iff it is 32 bits wide, word aligned and inside the
window (R20, R23, I2, I3). -/

namespace Sys2Proof

/-- Every term of `Instr` is a command of R112: no combination of its flags is illegal (R113, R114). -/
abbrev Instr.wf : Instr → Bool
  | .nop => true
  | .lutBuild _ _ _ => true
  | .bayerDecode _ => true
  | .demosaic => true
  | .yuvConvert => true

/-- REG_WINDOW (R7, R20). -/
def regWindow : Nat := 0x200

/-- The access width the window serves (R20). -/
def regWidth : Nat := 32

/-- R20, R23: a register access is an aligned 32-bit access below 0x200; the other accesses have no such form. -/
def HostOp.wf : HostOp → Bool
  | .write off _ width => width == regWidth && off % 4 == 0 && decide (off < regWindow)
  | .read off width => width == regWidth && off % 4 == 0 && decide (off < regWindow)
  | .wait => true
  | .srcWrite _ _ => true
  | .srcRead _ => true
  | .dstWrite _ _ => true
  | .dstRead _ => true
  | .hardReset => true

end Sys2Proof
end

