-- ==== Sys2Proof/Decode.lean ====
section
/-! DEFINITION. The command word (R110 to R117): the opcode map as rows of match and mask, the decoder, total and
stateless, which rejects an illegal word by name (R115), and the encoder. -/

namespace Sys2Proof

/-- One row of the opcode map (R112). -/
structure OpcodeRow where
  mnemonic : String
  pattern : Word
  mask : Word
  deriving DecidableEq, Repr

def rowNop : OpcodeRow := ⟨"NOP", 0x00000000, 0xFFFFFFFF⟩
def rowLutBuild : OpcodeRow := ⟨"LUT_BUILD", 0x00000001, 0xFFFFFF8F⟩
def rowBayerDecode : OpcodeRow := ⟨"BAYER_DECODE", 0x00000002, 0xFFFFFFEF⟩
def rowDemosaic : OpcodeRow := ⟨"DEMOSAIC", 0x00000003, 0xFFFFFFFF⟩
def rowYuvConvert : OpcodeRow := ⟨"YUV_CONVERT", 0x00000004, 0xFFFFFFFF⟩

/-- The opcode map (R112). -/
def opcodeRows : List OpcodeRow := [rowNop, rowLutBuild, rowBayerDecode, rowDemosaic, rowYuvConvert]

/-- "A word w selects mnemonic m iff (w & mask_m) = match_m" (R112). -/
def OpcodeRow.selects (r : OpcodeRow) (w : Word) : Bool := w &&& r.mask == r.pattern

/-- Why a word is illegal (R115). -/
inductive IllegalReason where
  /-- OP in 0x5..0xF. -/
  | reservedOpcode
  /-- A bit of RSV, 31:7, is 1. -/
  | reservedBit
  /-- A flag its opcode's row marks 0 is 1. -/
  | flagMustBeZero
  deriving DecidableEq, Repr

/-- What the decoder makes of a word: exactly one command, or an illegal word (R116). -/
inductive Decoded where
  | command (i : Instr)
  | illegal (why : IllegalReason)
  deriving DecidableEq, Repr

/-- The reason an illegal word is illegal; where several hold, the opcode comes first, then the reserved bits. -/
def illegalReason (w : Word) : IllegalReason :=
  if 5 ≤ w.toNat % 16 then .reservedOpcode
  else if 128 ≤ w.toNat then .reservedBit
  else .flagMustBeZero

/-- Decoding (R112, R115, R116). -/
def decode (w : Word) : Decoded :=
  if rowNop.selects w then .command .nop
  else if rowLutBuild.selects w then .command (.lutBuild (w.getLsbD 4) (w.getLsbD 5) (w.getLsbD 6))
  else if rowBayerDecode.selects w then .command (.bayerDecode (w.getLsbD 4))
  else if rowDemosaic.selects w then .command .demosaic
  else if rowYuvConvert.selects w then .command .yuvConvert
  else .illegal (illegalReason w)

/-- Flag `f` at bit `k` of a word. -/
def flagBit (f : Bool) (k : Nat) : Word := if f then 1#32 <<< k else 0

/-- The command word of a command (R112, R199, R254). -/
def encode : Instr → Word
  | .nop => 0x00000000
  | .lutBuild lvl g8 g16 => 0x00000001 ||| flagBit lvl 4 ||| flagBit g8 5 ||| flagBit g16 6
  | .bayerDecode build => 0x00000002 ||| flagBit build 4
  | .demosaic => 0x00000003
  | .yuvConvert => 0x00000004

/-- The command of a decoded word. -/
def Decoded.command? : Decoded → Option Instr
  | .command i => some i
  | .illegal _ => none

/-- The host's numbering: bit 0 of `w` is bit 0 of the one command word, and every bit from `nbits` up is 0. A word that
does not fit the 32 bits of CMD32 is none. -/
def decodeTableWord (nbits w : Nat) : Option Instr :=
  let v := w % 2 ^ nbits
  if v < 2 ^ 32 then (decode (BitVec.ofNat 32 v)).command? else none

/-- The textual form of a command (R126): its mnemonic and the names of the flags that are 1. -/
def Instr.text : Instr → String
  | .nop => "NOP"
  | .lutBuild lvl g8 g16 =>
    let flags := (if lvl then ["lvl"] else []) ++ (if g8 then ["g8"] else []) ++ (if g16 then ["g16"] else [])
    if flags = [] then "LUT_BUILD" else "LUT_BUILD " ++ ",".intercalate flags
  | .bayerDecode build => if build then "BAYER_DECODE build" else "BAYER_DECODE"
  | .demosaic => "DEMOSAIC"
  | .yuvConvert => "YUV_CONVERT"

/-- The host accesses a pseudo-instruction stands for (R127). -/
def Pseudo.expand : Pseudo → List HostOp
  | .bayerRender => [.write 0x00C (encode (.bayerDecode true)) 32]
  | .lutBuildAll => [.write 0x00C (encode (.lutBuild true true true)) 32]
  | .cancel => [.write 0x008 0x1 32]
  | .srst => [.write 0x008 0x2 32]
  | .clr => [.write 0x010 0x1E 32]
  | .run i => [.write 0x00C (encode i) 32, .wait]

end Sys2Proof
end

