-- ==== Sys2Proof/Config.lean ====
section
/-! DEFINITION. What an implementation fixes (the OPEN parameters of R7) and the free values: the values the spec
leaves open while the machine goes on. A free value is an opaque constant, applied to the counter `draws` of the state,
which every draw advances, or, for the contents of the memories at power-on, by itself; nothing can be proved about what it
is. -/

namespace Sys2Proof

/-- A stretch of bytes that a platform maps into both spaces: `len` source bytes from `src` on are the destination bytes
from `dst` on (R83, I4). -/
structure Overlap where
  src : Nat
  dst : Nat
  len : Nat
  deriving DecidableEq, Repr

/-- The OPEN parameters of R7, and how the platform maps the two spaces. They are a field of the state, so a claim about
every state quantifies over them. -/
structure Params where
  /-- SRC_MEM_BYTES: size of the source space. -/
  srcBytes : Nat
  /-- DST_MEM_BYTES: size of the destination space. -/
  dstBytes : Nat
  /-- DEMOSAIC_WORKERS: rows the demosaic pass may hold in progress at once. -/
  workers : Nat
  /-- GAIN_UNITY_TOL: gain codes this near to 1.0 count as 1.0. -/
  gainTol : Nat
  /-- The bytes the platform maps into both spaces (R83, I4; log 14): none where the spaces are distinct. -/
  shared : List Overlap
  deriving DecidableEq, Repr

/-- The ranges R7 gives the parameters, and shared bytes that exist in both spaces. -/
abbrev Params.wf (p : Params) : Prop :=
  1 ≤ p.srcBytes ∧ p.srcBytes ≤ 2 ^ 32 ∧ 1 ≤ p.dstBytes ∧ p.dstBytes ≤ 2 ^ 32 ∧ 1 ≤ p.workers ∧ p.gainTol ≤ 65535 ∧
    ∀ o ∈ p.shared, o.src + o.len ≤ p.srcBytes ∧ o.dst + o.len ≤ p.dstBytes

/-- The parameters `State.reset` starts from. DESIGN CHOICE, unsafe (log 1): R7 leaves the first three open; the
tolerance is the spec's default; the spaces are distinct (R83). -/
def Params.initial : Params :=
  { srcBytes := 2 ^ 32, dstBytes := 2 ^ 32, workers := 1, gainTol := 0, shared := [] }

namespace Config

/-- The bytes the platform memory holds at SRC addresses at power-on, as address and value (R344, I13; log 2): any list, so
any contents; an address it does not name holds 0. -/
opaque powerOnSrc : List (Nat × Byte)

/-- The bytes the platform memory holds at DST addresses at power-on, likewise (R344, I13; log 2). -/
opaque powerOnDst : List (Nat × Byte)

/-- What a STATS register reads while a command runs (R44, I5), by draw (log 7). -/
opaque statsWhileBusy : Nat → Word

/-- Which of the values a destination byte held during the running command a host read returns (R100, I6, I7), by draw
(log 9). -/
opaque dstReadChoice : Nat → Nat

/-- Whether a byte of a pixel write in flight at a reset landed (R342, I9), by draw and address (log 8). -/
opaque tornByte : Nat → Nat → Bool

/-- Whether an entry of the table being filled at a reset was stored (R342, I9), by draw, table code and index
(log 8). -/
opaque tornEntry : Nat → Nat → Nat → Bool

/-- What a read of a source byte raced for gives (R102, I8; a byte the command also writes through a shared mapping: R83,
I4), by command or draw, reader and address (log 10, log 14). -/
opaque racedSrc : Nat → Nat → Nat → Byte

/-- What a read of a destination byte raced for gives (R102, I8), by command or draw, reader and address (log 10). -/
opaque racedDst : Nat → Nat → Nat → Byte

/-- What a destination byte raced for holds when the command has ended (R102, I8; R83, I4), by command and address
(log 10, log 14). -/
opaque racedFinal : Nat → Nat → Byte

/-- What a source byte raced for holds when the command has ended (R102, I8), by command and address (log 10). -/
opaque racedSrcFinal : Nat → Nat → Byte

/-- What a STATS sum computed from a byte the command read and wrote through a shared mapping holds (R83, I4), by command,
statistic and channel (log 14). -/
opaque aliasedSum : Nat → Bool → Nat → Quad

/-- The 16-bit result of a table application whose left-justified index does not fit 16 bits, a stale or port-written
LVL entry of 2^b or more (R173, R201, R351), by command and pixel (log 17). -/
opaque wideIndex : Nat → Nat → Half

end Config

end Sys2Proof
end

