-- ==== Sys2Proof/Machine/Memory.lean ====
section
/-! DEFINITION. The SRC and DST spaces (R80 to R84): byte-addressed plain memory held as the bytes that differ from what
an unlisted address reads as, in rising order of address. -/

namespace Sys2Proof.Machine

/-- A memory: its listed bytes. -/
abbrev Memory := List Host.Cell

/-- What an address reads as that the list does not name. DESIGN CHOICE (log 2), of the way a memory is written down only:
every contents of a space of finitely many bytes is some list, and which one a space holds at power-on is a free value
(`Config.powerOnSrc`, `Config.powerOnDst`; I13). -/
def Memory.blank : Byte := 0

/-- The byte at an address. -/
def Memory.read : Memory → Nat → Byte
  | [], _ => Memory.blank
  | (b, v) :: m, a => if a = b then v else Memory.read m a

/-- The memory with one byte set, in the canonical form. -/
def Memory.write : Memory → Nat → Byte → Memory
  | [], a, v => if v = Memory.blank then [] else [(a, v)]
  | (b, w) :: m, a, v =>
    if a < b then (if v = Memory.blank then (b, w) :: m else (a, v) :: (b, w) :: m)
    else if a = b then (if v = Memory.blank then m else (a, v) :: m)
    else (b, w) :: Memory.write m a v

/-- The memory of a space of `size` bytes that holds the given bytes, in the canonical form. -/
def Memory.ofCells (size : Nat) (cells : List Host.Cell) : Memory :=
  (cells.filter fun c => decide (c.1 < size)).foldl (fun m c => Memory.write m c.1 c.2) []

/-- The canonical form: addresses strictly rising, no listed byte equal to what an unlisted address reads as. -/
def Memory.wf : Memory → Bool
  | [] => true
  | (a, v) :: m => v != Memory.blank && m.all (fun c => decide (a < c.1)) && Memory.wf m

/-- Every listed address lies in a space of `size` bytes. -/
def Memory.below (m : Memory) (size : Nat) : Bool := m.all fun c => decide (c.1 < size)

/-- `MemRead(a, n)`: n bytes, the least significant at address a (R84). -/
def Memory.readN (m : Memory) (a : Nat) : Nat → Nat
  | 0 => 0
  | n + 1 => (Memory.read m a).toNat + 256 * Memory.readN m (a + 1) n

/-- `MemWrite(a, n, v)`: byte k of v to address a+k (R84). -/
def Memory.writeN (m : Memory) (a : Nat) : Nat → Nat → Memory
  | 0, _ => m
  | n + 1, v => Memory.writeN (Memory.write m a (BitVec.ofNat 8 v)) (a + 1) n (v / 256)

/-- Byte k of a number, `v[8k+7:8k]` (R84). -/
def byteOf (v k : Nat) : Byte := BitVec.ofNat 8 (v / 256 ^ k)

end Sys2Proof.Machine
end

