-- ==== Sys2Proof/Machine/Fields.lean ====
section
/-! DEFINITION. Bit fields and two's complement (R9, R10): a field of a register, read as a number. -/

namespace Sys2Proof.Machine

/-- The field `v[lo+len-1 : lo]` as a number (R9). -/
def field (v : Word) (lo len : Nat) : Nat := (v.toNat >>> lo) % 2 ^ len

/-- The bit `v[i]` (R9). -/
def flag (v : Word) (i : Nat) : Bool := v.toNat.testBit i

/-- `sext(v[15:0]) = v[15:0] - 2^16 * v[15]` (R10). -/
def sext16 (v : Word) : Int :=
  (field v 0 16 : Int) - if flag v 15 then 65536 else 0

/-- A Boolean as bit `i` of a word. -/
def bitAt (b : Bool) (i : Nat) : Word := if b then 1#32 <<< i else 0

/-- The bits `[i+len-1 : i]` of a number (R9). -/
def natBits (n lo len : Nat) : Nat := (n >>> lo) % 2 ^ len

end Sys2Proof.Machine
end

