-- ==== Sys2Proof/Machine/Ram.lean ====
section
/-! DEFINITION. A lookup-table RAM of 2^d entries (R53): a balanced tree over the bits of the index, least significant
bit first, with one leaf an entry. Reading and storing one entry touch d nodes, and two RAMs of one size hold the same
entries iff they are the same tree. -/

namespace Sys2Proof.Machine

/-- The entries of a table. -/
inductive Ram (α : Type) where
  | leaf (v : α)
  | node (even odd : Ram α)
  deriving DecidableEq, Repr

/-- Entry `i`. -/
def Ram.read {α : Type} : Ram α → Nat → α
  | .leaf v, _ => v
  | .node even odd, i => if i % 2 = 0 then Ram.read even (i / 2) else Ram.read odd (i / 2)

/-- The table with entry `i` set. -/
def Ram.write {α : Type} : Ram α → Nat → α → Ram α
  | .leaf _, _, v => .leaf v
  | .node even odd, i, v =>
    if i % 2 = 0 then .node (Ram.write even (i / 2) v) odd else .node even (Ram.write odd (i / 2) v)

/-- The table of 2^d entries whose entry `i` is `f i`. -/
def Ram.build {α : Type} : Nat → (Nat → α) → Ram α
  | 0, f => .leaf (f 0)
  | d + 1, f => .node (Ram.build d fun i => f (2 * i)) (Ram.build d fun i => f (2 * i + 1))

/-- The table of 2^d entries that all hold `v`. -/
def Ram.const {α : Type} : Nat → α → Ram α
  | 0, v => .leaf v
  | d + 1, v => .node (Ram.const d v) (Ram.const d v)

/-- The tree has the shape of a table of 2^d entries. -/
def Ram.hasDepth {α : Type} : Ram α → Nat → Bool
  | .leaf _, d => d == 0
  | .node _ _, 0 => false
  | .node even odd, d + 1 => Ram.hasDepth even d && Ram.hasDepth odd d

end Sys2Proof.Machine
end

