-- ==== Sys2Proof/Machine/Regs.lean ====
section
/-! DEFINITION. The register records: colour channels, plane descriptors, the configuration registers that make the
operands of every command, the statistics, the lookup tables; with their reset values (R61, R340). -/

namespace Sys2Proof.Machine

/-- A colour channel, and equally a pattern label (R13, R120). -/
inductive Chan where
  | r
  | g
  | b
  deriving DecidableEq, Repr

/-- One thing per channel. -/
structure PerChan (α : Type) where
  r : α
  g : α
  b : α
  deriving DecidableEq, Repr

def PerChan.get {α : Type} (p : PerChan α) : Chan → α
  | .r => p.r
  | .g => p.g
  | .b => p.b

def PerChan.set {α : Type} (p : PerChan α) (c : Chan) (v : α) : PerChan α :=
  match c with
  | .r => { p with r := v }
  | .g => { p with g := v }
  | .b => { p with b := v }

/-- A plane number (R37). -/
inductive PlaneId where
  | p0
  | p1
  | p2
  deriving DecidableEq, Repr

/-- A plane descriptor: Pn_OFFSET, Pn_PSTRIDE, Pn_RSTRIDE, Pn_CFG (R37). -/
structure PlaneRegs where
  offset : Word
  pstride : Word
  rstride : Word
  cfg : Word
  deriving DecidableEq, Repr

/-- A column of the CSC matrix: its input component (R41). -/
inductive CscCol where
  | y
  | u
  | v
  deriving DecidableEq, Repr

/-- A row of the CSC matrix (R41). -/
structure CscRow where
  y : Word
  u : Word
  v : Word
  deriving DecidableEq, Repr

def CscRow.get (r : CscRow) : CscCol → Word
  | .y => r.y
  | .u => r.u
  | .v => r.v

def CscRow.set (r : CscRow) (c : CscCol) (w : Word) : CscRow :=
  match c with
  | .y => { r with y := w }
  | .u => { r with u := w }
  | .v => { r with v := w }

/-- The configuration registers, offsets 0x020 to 0x0B8: what the snapshot copies (R142). -/
structure CfgRegs where
  srcOffset : Word
  srcSize : Word
  dstBase : Word
  dstStride : Word
  dim : Word
  renderCfg : Word
  patternTile : Word
  yuvCfg : Word
  p0 : PlaneRegs
  p1 : PlaneRegs
  p2 : PlaneRegs
  level : Word
  gain : PerChan Word
  csc : PerChan CscRow
  cscYoff : Word
  cscCoff : Word
  deriving DecidableEq, Repr

def CfgRegs.plane (c : CfgRegs) : PlaneId → PlaneRegs
  | .p0 => c.p0
  | .p1 => c.p1
  | .p2 => c.p2

def CfgRegs.setPlane (c : CfgRegs) (n : PlaneId) (p : PlaneRegs) : CfgRegs :=
  match n with
  | .p0 => { c with p0 := p }
  | .p1 => { c with p1 := p }
  | .p2 => { c with p2 := p }

/-- A plane descriptor after reset: BITS 8, BYTE8 (R340). -/
def PlaneRegs.reset : PlaneRegs := ⟨0, 0, 0, 0x00000008⟩

/-- The configuration registers after reset: the reset column of 10_state section 2 and R41, R42. -/
def CfgRegs.reset : CfgRegs where
  srcOffset := 0
  srcSize := 0
  dstBase := 0
  dstStride := 0
  dim := 0
  renderCfg := 0
  patternTile := 0
  yuvCfg := 0
  p0 := PlaneRegs.reset
  p1 := PlaneRegs.reset
  p2 := PlaneRegs.reset
  level := 0
  gain := ⟨0x00010000, 0x00010000, 0x00010000⟩
  csc := ⟨⟨0x000012A1, 0x00000000, 0x00001989⟩, ⟨0x000012A1, 0x0000F9BB, 0x0000F2FE⟩, ⟨0x000012A1, 0x00002047, 0x00000000⟩⟩
  cscYoff := 0x00001000
  cscCoff := 0x00008000

/-- The snapshot after reset: "All are 0 or empty after reset" (R50). -/
def CfgRegs.zero : CfgRegs where
  srcOffset := 0
  srcSize := 0
  dstBase := 0
  dstStride := 0
  dim := 0
  renderCfg := 0
  patternTile := 0
  yuvCfg := 0
  p0 := ⟨0, 0, 0, 0⟩
  p1 := ⟨0, 0, 0, 0⟩
  p2 := ⟨0, 0, 0, 0⟩
  level := 0
  gain := ⟨0, 0, 0⟩
  csc := ⟨⟨0, 0, 0⟩, ⟨0, 0, 0⟩, ⟨0, 0, 0⟩⟩
  cscYoff := 0
  cscCoff := 0

/-- One statistic of one channel: a sum and a weight (R43). -/
structure ChanStat where
  sum : Quad
  cnt : Quad
  deriving DecidableEq, Repr

/-- The twelve accumulators: unweighted (s = 0) and centre-weighted (s = 1) by channel (R43, R52). -/
structure Stats where
  unweighted : PerChan ChanStat
  centre : PerChan ChanStat
  deriving DecidableEq, Repr

def ChanStat.zero : ChanStat := ⟨0, 0⟩

def Stats.zero : Stats :=
  ⟨⟨ChanStat.zero, ChanStat.zero, ChanStat.zero⟩, ⟨ChanStat.zero, ChanStat.zero, ChanStat.zero⟩⟩

/-- A table group (R47, R200). -/
inductive Group where
  | lvl
  | g8
  | g16
  deriving DecidableEq, Repr

/-- The seven lookup tables; an entry nothing has written since power-on is none (R53, R60). -/
structure Luts where
  lvl : Ram (Option Half)
  g8 : PerChan (Ram (Option Byte))
  g16 : PerChan (Ram (Option Half))
  deriving DecidableEq, Repr

/-- Every entry unwritten: the tables at power-on (R340). -/
def Luts.unwritten : Luts where
  lvl := Ram.const 16 none
  g8 := ⟨Ram.const 8 none, Ram.const 8 none, Ram.const 8 none⟩
  g16 := ⟨Ram.const 16 none, Ram.const 16 none, Ram.const 16 none⟩

/-- LUT_VALID (R47). -/
structure LutValid where
  lvl : Bool
  g8 : Bool
  g16 : Bool
  deriving DecidableEq, Repr

def LutValid.none : LutValid := ⟨false, false, false⟩

def LutValid.get (v : LutValid) : Group → Bool
  | .lvl => v.lvl
  | .g8 => v.g8
  | .g16 => v.g16

def LutValid.set (v : LutValid) (g : Group) (b : Bool) : LutValid :=
  match g with
  | .lvl => { v with lvl := b }
  | .g8 => { v with g8 := b }
  | .g16 => { v with g16 := b }

end Sys2Proof.Machine
end

