-- ==== Sys2Proof/Machine/State.lean ====
section
/-! DEFINITION. The state of the block and of what surrounds it, the reasons a step can stop, and the state right after
hardware reset. -/

namespace Sys2Proof.Machine

/-- STATUS.ERR_CODE, in check order (R300). -/
inductive ErrCode where
  | none
  | illegalCmd
  | cfgDim
  | cfgDst
  | cfgSrc
  | unsupported
  | cfgBits
  | cfgStride
  | cfgLevel
  | cfgGain
  | cfgPattern
  | cfgLut
  deriving DecidableEq, Repr

/-- STATUS.PASS (R27). -/
inductive Pass where
  | idle
  | lut
  | raw
  | demosaic
  | yuv
  deriving DecidableEq, Repr

/-- How a command ends (R147). -/
inductive Ending where
  | done
  | error (code : ErrCode)
  | cancelled
  deriving DecidableEq, Repr

/-- What a raw pixel gives: the own channel's output and its 16-bit value for the statistics (R259). -/
structure RawValue where
  out : Nat
  s16 : Nat
  deriving DecidableEq, Repr

/-- How far the raw pass is with a pixel: one access or one update a step (R258, R259, R365). -/
inductive RawPhase where
  /-- The source bytes of the sample are being read, in the order of `Dep`; those read so far. -/
  | fetch (got : List Byte)
  /-- The entry at the raw code is to be read: of G8c, or of LVL. -/
  | look (raw : Nat)
  /-- The entry of G16c at the left-justified index is to be read. -/
  | gain (index : Nat)
  /-- The value is to be accumulated (R260). -/
  | count (v : RawValue)
  /-- The pixel is to be written (R263). -/
  | write (out : Nat)
  deriving DecidableEq, Repr

/-- How far the YUV pass is with a pixel (R234 to R236, R365). -/
inductive YuvPhase where
  /-- The bytes of the Y, U and V samples are being read; those read so far. -/
  | fetch (got : List Byte)
  /-- The converted pixel is to be written. -/
  | write (v : PerChan Nat)
  deriving DecidableEq, Repr

/-- How far a demosaic worker is with its pixel (R285, R286, R288, R365). -/
inductive WorkPhase where
  /-- At the cancel point before the pixel. -/
  | gate
  /-- The channels the averaging rule needs are being read; those read so far. -/
  | read (got : List Nat)
  /-- The pixel is to be written. -/
  | write (v : PerChan Nat)
  /-- The row is finished and is to be counted. -/
  | count
  deriving DecidableEq, Repr

/-- A demosaic worker: the row it owns, the pixel it is at, and how far it is with it (R286, R288). -/
structure Worker where
  y : Nat
  x : Nat
  phase : WorkPhase
  deriving DecidableEq, Repr

/-- A pass a command has still to run (R97, R146). -/
inductive PassPlan where
  | lut (groups : List Group)
  | raw
  | demosaic
  | yuv
  deriving DecidableEq, Repr

/-- Where the engine stands within the running command (R50, R51): what its next step does (R365). -/
inductive Pos where
  /-- No command runs. -/
  | idle
  /-- Accepted; the outcome of validation is still to be reported (R144, R153). -/
  | checked (verdict : Option ErrCode)
  /-- Between two passes. -/
  | between
  /-- PASS shows the pass, and PROGRESS is to be cleared for it (R146). -/
  | starting (p : PassPlan)
  /-- At the cancel point before the first of the groups left (R200). -/
  | lutOpen (groups : List Group)
  /-- The group's LUT_VALID bit is to be cleared (R200). -/
  | lutClear (group : Group) (groups : List Group)
  /-- Filling a group: that many of its entries are stored (R200). -/
  | lutFill (group : Group) (groups : List Group) (stored : Nat)
  /-- The group's LUT_VALID bit is to be set (R200). -/
  | lutMark (group : Group) (groups : List Group)
  /-- The group is to be counted in PROGRESS (R200). -/
  | lutCount (groups : List Group)
  /-- STATS are to be cleared (R257). -/
  | rawClear
  /-- At the cancel point before a row of the raw pass (R258). -/
  | rawRow (y : Nat)
  /-- At a pixel of a row of the raw pass, or past its last one (R258). -/
  | rawPix (y x : Nat) (rowTrunc : Bool) (phase : RawPhase)
  /-- In the demosaic pass: the rows in progress, the rows not started, and whether a worker has seen the pending cancel
  (R285, R286, R288). -/
  | demosaic (active : List Worker) (waiting : List Nat) (stopped : Bool)
  /-- At the cancel point before a row of the YUV pass (R238). -/
  | yuvRow (y : Nat)
  /-- At a pixel of a row of the YUV pass, or past its last one (R238). -/
  | yuvPix (y x : Nat) (rowTrunc : Bool) (phase : YuvPhase)
  /-- A truncated row is counted; `trunc` is to be set and the pass left (R238, R258). -/
  | truncated
  deriving DecidableEq, Repr

/-- A source byte the running command has read, and the pixel it was read for (R102; log 10). -/
structure SrcRead where
  addr : Nat
  x : Nat
  y : Nat
  deriving DecidableEq, Repr

/-- What the running command set out from, so that it can be run again with reads that turn out to be raced for (R102;
log 10). -/
structure Launch where
  /-- The number of the command, which its free values go by (log 7). -/
  key : Nat
  pos : Pos
  todo : List PassPlan
  stats : Stats
  luts : Luts
  lutValid : LutValid
  sched : List Nat
  dst : Memory
  deriving DecidableEq, Repr

/-- Everything the spec gives the machine, and what the model adds (last group, each with its log entry). -/
structure State where
  /-- The OPEN parameters (R7). -/
  params : Params
  /-- The configuration registers, as the host wrote them (R31 to R42). -/
  regs : CfgRegs
  /-- IRQ_EN (R29). -/
  irqEn : Word
  /-- CMD's read value: the last command word accepted (R26). -/
  cmd : Word
  /-- STATUS.BUSY, the engine's `busy` (R27, R50). -/
  busy : Bool
  /-- STATUS.DONE (R27). -/
  done : Bool
  /-- STATUS.ERROR (R27). -/
  error : Bool
  /-- STATUS.CANCELLED (R27). -/
  cancelled : Bool
  /-- STATUS.OVERRUN (R27). -/
  overrun : Bool
  /-- STATUS.TRUNC, the engine's `trunc` (R27, R50; log 6). -/
  trunc : Bool
  /-- STATUS.ERR_CODE (R27, R300). -/
  errCode : ErrCode
  /-- STATUS.PASS, the engine's `pass` (R27, R50). -/
  pass : Pass
  /-- PROGRESS (R30). -/
  progress : Word
  /-- The accepted command word (R50). -/
  op : Word
  /-- The configuration snapshot of the running command (R50, R142). -/
  cfg : CfgRegs
  /-- A cancel request waits for the next cancel point (R50, R150). -/
  cancelPending : Bool
  /-- Where the engine stands (R50, R51). -/
  pos : Pos
  /-- The passes still to start (R97). -/
  todo : List PassPlan
  /-- STATS (R43, R52). -/
  stats : Stats
  /-- The seven lookup tables (R53). -/
  luts : Luts
  /-- LUT_VALID (R47). -/
  lutValid : LutValid
  /-- LUT_ADDR (R45). -/
  lutAddr : Word
  /-- The source space (R81). -/
  src : Memory
  /-- The destination space (R82). -/
  dst : Memory
  /-- Model's own: what the host will do, oldest first (log 3). -/
  host : List HostEvent
  /-- Model's own: the words the host's reads returned, newest first (log 3). -/
  reads : List Word
  /-- Model's own, free: the choices of the demosaic schedule still to be used (R286, I10; log 11). -/
  sched : List Nat
  /-- Model's own, free: how many free values have been drawn (log 7). -/
  draws : Nat
  /-- Model's own: the destination bytes the running command has overwritten, newest first, each with the value it held
  before (R100; log 9). -/
  overwritten : List Host.Cell
  /-- Model's own: the source bytes the running command has read, newest first (R102; log 10). -/
  srcRead : List SrcRead
  /-- Model's own: the addresses of the destination pixels the running command has read, newest first (R102; log 10). -/
  dstRead : List Nat
  /-- Model's own: source bytes another agent has written since the running command was accepted, of those it may read
  (R102; log 10). -/
  srcForeign : List Nat
  /-- Model's own: destination bytes another agent has written since the running command was accepted, of those it may use
  (R102; log 10). -/
  dstForeign : List Nat
  /-- Model's own: what the running command set out from; none while none runs (log 10). -/
  launch : Option Launch
  /-- Model's own: the engine steps the running command has taken (log 10). -/
  ticks : Nat
  /-- Model's own: after how many engine steps of the running command its cancel request came (log 10). -/
  cancelAt : Option Nat
  deriving DecidableEq, Repr

/-- Why the machine stops. -/
inductive Fault where
  /-- UNINIT_LUT (R60, R306): a table entry nothing has written was read, by the port (`lutPortRead`) or by a raw pass
  (`rawStep`). Safe: the block goes on with a value no source gives. -/
  | uninitLut
  /-- The engine met a snapshot that validation rejects, or a plan no command makes (`engineMove`). Safe: no command that
  passed validation raises it (log 16). -/
  | unvalidated
  deriving DecidableEq, Repr

/-- What has no meaning in the spec. -/
inductive Refusal where
  /-- A command without a meaning in this model: raised by no arm. -/
  | notModelled (mnemonic : String)
  /-- A register access of a width other than 32 bits (R23, I2), raised by `hostPerform`. Safe. -/
  | accessWidth
  /-- A register access at an offset that is no multiple of 4 (R23, I2), raised by `hostPerform`. Safe. -/
  | misaligned
  /-- A register access at or above offset 0x200 (R20, I3), raised by `hostPerform`. Safe. -/
  | outsideWindow
  /-- A host access to a source or destination address that does not exist (R81, R82), raised by `hostPerform`. Safe. -/
  | outsideMemory
  deriving DecidableEq, Repr

/-- The machine right after power-on (R340, R343, R344), with the parameters of log 1, any contents of the two memories
(I13; log 2), and a host that does nothing (R345). -/
def State.reset : State where
  params := Params.initial
  regs := CfgRegs.reset
  irqEn := 0
  cmd := 0
  busy := false
  done := false
  error := false
  cancelled := false
  overrun := false
  trunc := false
  errCode := .none
  pass := .idle
  progress := 0
  op := 0
  cfg := CfgRegs.zero
  cancelPending := false
  pos := .idle
  todo := []
  stats := Stats.zero
  luts := Luts.unwritten
  lutValid := LutValid.none
  lutAddr := 0
  src := Memory.ofCells Params.initial.srcBytes Config.powerOnSrc
  dst := Memory.ofCells Params.initial.dstBytes Config.powerOnDst
  host := []
  reads := []
  sched := []
  draws := 0
  overwritten := []
  srcRead := []
  dstRead := []
  srcForeign := []
  dstForeign := []
  launch := none
  ticks := 0
  cancelAt := none

/-- What a step, an access or a command answers. -/
abbrev Result := Host.Outcome State Fault Refusal

end Sys2Proof.Machine
end

