-- ==== Sys2Proof/Machine/Operands.lean ====
section
/-! DEFINITION. The operands of the commands: the fields of the configuration registers and what their codes mean
(10_state sections 4 to 6, 30_encoding section 3), the pattern model (45_bayer_decode section 1), and the register map
(10_state section 2). -/

namespace Sys2Proof.Machine

/-! ### Fields of the configuration registers -/

/-- W: DIM bits 15:0 (R33). -/
def CfgRegs.width (c : CfgRegs) : Nat := field c.dim 0 16

/-- H: DIM bits 31:16 (R33). -/
def CfgRegs.height (c : CfgRegs) : Nat := field c.dim 16 16

/-- RENDER_CFG bit 0: 0 little-endian, 1 big-endian (R34). -/
def CfgRegs.bigEndian (c : CfgRegs) : Bool := flag c.renderCfg 0

/-- RENDER_CFG bit 1 DST_FMT: 0 BGRA32, 1 BGRA64 (R34, R125). -/
def CfgRegs.bgra64 (c : CfgRegs) : Bool := flag c.renderCfg 1

/-- RENDER_CFG bit 2 DEMOSAIC_EN (R34). -/
def CfgRegs.demosaicEn (c : CfgRegs) : Bool := flag c.renderCfg 2

/-- RENDER_CFG bits 7:4 PATTERN_ID (R34). -/
def CfgRegs.patternId (c : CfgRegs) : Nat := field c.renderCfg 4 4

/-- YUV_CFG bit 0 HSUB, as the exponent of R232 (R36). -/
def CfgRegs.hsub (c : CfgRegs) : Nat := field c.yuvCfg 0 1

/-- YUV_CFG bit 1 VSUB, as the exponent of R232 (R36). -/
def CfgRegs.vsub (c : CfgRegs) : Nat := field c.yuvCfg 1 1

/-- LEVEL bits 15:0 BLACK (R39). -/
def CfgRegs.black (c : CfgRegs) : Nat := field c.level 0 16

/-- LEVEL bits 31:16 WHITE (R39). -/
def CfgRegs.white (c : CfgRegs) : Nat := field c.level 16 16

/-- The gain code of a channel (R40, R194). -/
def CfgRegs.gainCode (c : CfgRegs) (k : Chan) : Nat := (c.gain.get k).toNat

/-- Pn_PSTRIDE (R37). -/
def PlaneRegs.pixelStride (p : PlaneRegs) : Nat := field p.pstride 0 16

/-- Pn_RSTRIDE (R37). -/
def PlaneRegs.rowStride (p : PlaneRegs) : Nat := p.rstride.toNat

/-- Pn_CFG bits 4:0 BITS (R37). -/
def PlaneRegs.bits (p : PlaneRegs) : Nat := field p.cfg 0 5

/-- Pn_CFG bits 6:5 LAYOUT (R37). -/
def PlaneRegs.layout (p : PlaneRegs) : Nat := field p.cfg 5 2

/-- Pn_CFG bit 7 MSB_ALIGN (R37, R124). -/
def PlaneRegs.msbAlign (p : PlaneRegs) : Bool := flag p.cfg 7

/-- P0_CFG bit 8 LVL_EN (R38). -/
def CfgRegs.lvlEn (c : CfgRegs) : Bool := flag c.p0.cfg 8

/-- Bytes of a destination pixel (R87). -/
def CfgRegs.bpp (c : CfgRegs) : Nat := if c.bgra64 then 8 else 4

/-- The destination address of pixel (x, y) (R87). -/
def CfgRegs.dstAddr (c : CfgRegs) (x y : Nat) : Nat :=
  c.dstBase.toNat + y * c.dstStride.toNat + x * c.bpp

/-- ceil(a / b). -/
def ceilDiv (a b : Nat) : Nat := (a + b - 1) / b

/-- The width of a plane (R232): W for P0, ceil(W / 2^HSUB) for the chroma planes of a YUV_CONVERT. -/
def CfgRegs.planeWidth (c : CfgRegs) : PlaneId → Nat
  | .p0 => c.width
  | .p1 => ceilDiv c.width (2 ^ c.hsub)
  | .p2 => ceilDiv c.width (2 ^ c.hsub)

/-! ### Sample containers -/

/-- The geometry of a MIPI group (R175): N samples in G bytes, F fragment bits a sample. -/
structure MipiGeom where
  samples : Nat
  bytes : Nat
  frag : Nat
  deriving DecidableEq, Repr

/-- E = G - N extra bytes (R175). -/
def MipiGeom.extra (g : MipiGeom) : Nat := g.bytes - g.samples

/-- The MIPI geometries: b = 10, 12, 14 (R175). -/
def mipiGeom (b : Nat) : Option MipiGeom :=
  if b = 10 then some ⟨4, 5, 2⟩
  else if b = 12 then some ⟨2, 3, 4⟩
  else if b = 14 then some ⟨4, 7, 6⟩
  else none

/-- A sample container with a legal depth (R122, R123). -/
inductive Container where
  | byte8
  | word16 (b : Nat)
  | mipi (b : Nat) (geom : MipiGeom)
  deriving DecidableEq, Repr

/-- The container a plane descriptor codes, none where its LAYOUT is reserved or its BITS illegal for it (R122, R123). -/
def PlaneRegs.container (p : PlaneRegs) : Option Container :=
  if p.layout = 0 then (if p.bits = 8 then some .byte8 else none)
  else if p.layout = 1 then (if 9 ≤ p.bits ∧ p.bits ≤ 16 then some (.word16 p.bits) else none)
  else if p.layout = 2 then (mipiGeom p.bits).map (Container.mipi p.bits)
  else none

/-- Effective bits of a container. -/
def Container.depth : Container → Nat
  | .byte8 => 8
  | .word16 b => b
  | .mipi b _ => b

/-- The table groups a decode needs, by P0 layout (R255). -/
def CfgRegs.needed (c : CfgRegs) : List Group := if c.p0.layout = 0 then [.g8] else [.lvl, .g16]

/-! ### The pattern model -/

/-- The 2x2 patterns RGGB, BGGR, GRBG, GBRG (R121), by id, row, column. -/
def bayer2 (id r c : Nat) : Chan :=
  match id, r, c with
  | 0, 0, 0 => .r
  | 0, 1, 1 => .b
  | 1, 0, 0 => .b
  | 1, 1, 1 => .r
  | 2, 0, 1 => .r
  | 2, 1, 0 => .b
  | 3, 0, 1 => .b
  | 3, 1, 0 => .r
  | _, _, _ => .g

/-- A 2-bit pattern label, none where reserved (R120). -/
def labelCode (n : Nat) : Option Chan :=
  if n = 0 then some .r else if n = 1 then some .g else if n = 2 then some .b else none

/-- Height and width of the active tile (R121, R250). -/
def CfgRegs.tileSize (c : CfgRegs) : Nat := if c.patternId < 4 ∨ c.patternId = 8 then 2 else 4

/-- `label(r, c)` of the active tile (R35, R121), none where the id or the label is reserved. The 4x4 patterns 4 to 7
repeat each label of the 2x2 pattern over a 2x2 cell. -/
def CfgRegs.label (c : CfgRegs) (row col : Nat) : Option Chan :=
  if c.patternId < 4 then some (bayer2 c.patternId row col)
  else if c.patternId < 8 then some (bayer2 (c.patternId - 4) (row / 2) (col / 2))
  else if c.patternId < 10 then labelCode (field c.patternTile (8 * row + 2 * col) 2)
  else none

/-- `color(x, y) = label(y mod h, x mod w)` (R251), the own channel of the pixel (R252). -/
def CfgRegs.color (c : CfgRegs) (x y : Nat) : Option Chan := c.label (y % c.tileSize) (x % c.tileSize)

/-- The centre region (R253). -/
def CfgRegs.inCentre (c : CfgRegs) (x y : Nat) : Bool :=
  decide (c.width / 3 ≤ x ∧ x < c.width - c.width / 3 ∧ c.height / 3 ≤ y ∧ y < c.height - c.height / 3)

/-! ### The register map -/

/-- A register of a plane descriptor (R37). -/
inductive PlaneReg where
  | offset
  | pstride
  | rstride
  | cfg
  deriving DecidableEq, Repr

/-- The configuration registers by name. -/
inductive CfgReg where
  | srcOffset
  | srcSize
  | dstBase
  | dstStride
  | dim
  | renderCfg
  | patternTile
  | yuvCfg
  | plane (n : PlaneId) (r : PlaneReg)
  | level
  | gain (c : Chan)
  | csc (row : Chan) (col : CscCol)
  | cscYoff
  | cscCoff
  deriving DecidableEq, Repr

/-- Which half of which of the two values of a statistic (R43). -/
inductive StatWord where
  | sumLo
  | sumHi
  | cntLo
  | cntHi
  deriving DecidableEq, Repr

/-- The registers of the window by name (10_state section 2). `stat true` is the centre-weighted statistic. -/
inductive Reg where
  | id
  | version
  | ctrl
  | cmd
  | status
  | irqEn
  | progress
  | cfg (r : CfgReg)
  | stat (centre : Bool) (c : Chan) (w : StatWord)
  | lutAddr
  | lutData
  | lutValid
  deriving DecidableEq, Repr

def Chan.index : Chan → Nat
  | .r => 0
  | .g => 1
  | .b => 2

def PlaneId.index : PlaneId → Nat
  | .p0 => 0
  | .p1 => 1
  | .p2 => 2

def PlaneReg.index : PlaneReg → Nat
  | .offset => 0
  | .pstride => 1
  | .rstride => 2
  | .cfg => 3

def CscCol.index : CscCol → Nat
  | .y => 0
  | .u => 1
  | .v => 2

def StatWord.index : StatWord → Nat
  | .sumLo => 0
  | .sumHi => 1
  | .cntLo => 2
  | .cntHi => 3

/-- Offsets of the configuration registers (10_state section 2, R37, R41). -/
def CfgReg.offset : CfgReg → Nat
  | .srcOffset => 0x020
  | .srcSize => 0x024
  | .dstBase => 0x028
  | .dstStride => 0x02C
  | .dim => 0x030
  | .renderCfg => 0x034
  | .patternTile => 0x038
  | .yuvCfg => 0x03C
  | .plane n r => 0x040 + 0x10 * n.index + 4 * r.index
  | .level => 0x070
  | .gain c => 0x080 + 4 * c.index
  | .csc row col => 0x090 + 4 * (3 * row.index + col.index)
  | .cscYoff => 0x0B4
  | .cscCoff => 0x0B8

/-- Offsets of the registers (10_state section 2, R43). -/
def Reg.offset : Reg → Nat
  | .id => 0x000
  | .version => 0x004
  | .ctrl => 0x008
  | .cmd => 0x00C
  | .status => 0x010
  | .irqEn => 0x014
  | .progress => 0x018
  | .cfg r => r.offset
  | .stat centre c w => 0x100 + 0x40 * (if centre then 1 else 0) + 0x10 * c.index + 4 * w.index
  | .lutAddr => 0x180
  | .lutData => 0x184
  | .lutValid => 0x188

def Chan.all : List Chan := [.r, .g, .b]
def PlaneId.all : List PlaneId := [.p0, .p1, .p2]
def PlaneReg.all : List PlaneReg := [.offset, .pstride, .rstride, .cfg]
def CscCol.all : List CscCol := [.y, .u, .v]
def StatWord.all : List StatWord := [.sumLo, .sumHi, .cntLo, .cntHi]

/-- Every configuration register, in order of offset. -/
def CfgReg.all : List CfgReg :=
  [.srcOffset, .srcSize, .dstBase, .dstStride, .dim, .renderCfg, .patternTile, .yuvCfg] ++
  (PlaneId.all.flatMap fun n => PlaneReg.all.map (CfgReg.plane n)) ++ [.level] ++ Chan.all.map CfgReg.gain ++
  (Chan.all.flatMap fun row => CscCol.all.map (CfgReg.csc row)) ++ [.cscYoff, .cscCoff]

/-- Every register of the window, in order of offset. -/
def Reg.all : List Reg :=
  [.id, .version, .ctrl, .cmd, .status, .irqEn, .progress] ++ CfgReg.all.map Reg.cfg ++
  ([false, true].flatMap fun s => Chan.all.flatMap fun c => StatWord.all.map (Reg.stat s c)) ++
  [.lutAddr, .lutData, .lutValid]

/-- The register at an offset, none where the offset is unmapped (R21). -/
def Reg.ofOffset (off : Nat) : Option Reg := Reg.all.find? fun r => r.offset == off

/-- The implemented bits of a configuration register: the others are reserved (R22, R34, R36 to R38, R41, R42). -/
def CfgReg.mask : CfgReg → Word
  | .srcOffset => 0xFFFFFFFF
  | .srcSize => 0xFFFFFFFF
  | .dstBase => 0xFFFFFFFF
  | .dstStride => 0xFFFFFFFF
  | .dim => 0xFFFFFFFF
  | .renderCfg => 0x000000F7
  | .patternTile => 0xFFFFFFFF
  | .yuvCfg => 0x00000003
  | .plane _ .offset => 0xFFFFFFFF
  | .plane _ .pstride => 0x0000FFFF
  | .plane _ .rstride => 0xFFFFFFFF
  | .plane .p0 .cfg => 0x000001FF
  | .plane .p1 .cfg => 0x000000FF
  | .plane .p2 .cfg => 0x000000FF
  | .level => 0xFFFFFFFF
  | .gain _ => 0xFFFFFFFF
  | .csc _ _ => 0x0000FFFF
  | .cscYoff => 0x0000FFFF
  | .cscCoff => 0x0000FFFF

/-- The implemented bits of IRQ_EN (R29). -/
def irqEnMask : Word := 0x0000001E

/-- The implemented bits of LUT_ADDR (R45). -/
def lutAddrMask : Word := 0x8007FFFF

def PlaneRegs.get (p : PlaneRegs) : PlaneReg → Word
  | .offset => p.offset
  | .pstride => p.pstride
  | .rstride => p.rstride
  | .cfg => p.cfg

def PlaneRegs.set (p : PlaneRegs) (r : PlaneReg) (v : Word) : PlaneRegs :=
  match r with
  | .offset => { p with offset := v }
  | .pstride => { p with pstride := v }
  | .rstride => { p with rstride := v }
  | .cfg => { p with cfg := v }

/-- The word a configuration register holds. -/
def CfgRegs.get (c : CfgRegs) : CfgReg → Word
  | .srcOffset => c.srcOffset
  | .srcSize => c.srcSize
  | .dstBase => c.dstBase
  | .dstStride => c.dstStride
  | .dim => c.dim
  | .renderCfg => c.renderCfg
  | .patternTile => c.patternTile
  | .yuvCfg => c.yuvCfg
  | .plane n r => (c.plane n).get r
  | .level => c.level
  | .gain k => c.gain.get k
  | .csc row col => (c.csc.get row).get col
  | .cscYoff => c.cscYoff
  | .cscCoff => c.cscCoff

/-- The registers with one configuration register's word replaced. -/
def CfgRegs.set (c : CfgRegs) (r : CfgReg) (v : Word) : CfgRegs :=
  match r with
  | .srcOffset => { c with srcOffset := v }
  | .srcSize => { c with srcSize := v }
  | .dstBase => { c with dstBase := v }
  | .dstStride => { c with dstStride := v }
  | .dim => { c with dim := v }
  | .renderCfg => { c with renderCfg := v }
  | .patternTile => { c with patternTile := v }
  | .yuvCfg => { c with yuvCfg := v }
  | .plane n r => c.setPlane n ((c.plane n).set r v)
  | .level => { c with level := v }
  | .gain k => { c with gain := c.gain.set k v }
  | .csc row col => { c with csc := c.csc.set row ((c.csc.get row).set col v) }
  | .cscYoff => { c with cscYoff := v }
  | .cscCoff => { c with cscCoff := v }

/-- A host write of a configuration register: reserved bits ignore it (R22). -/
def CfgRegs.write (c : CfgRegs) (r : CfgReg) (v : Word) : CfgRegs := c.set r (v &&& r.mask)

/-- Every reserved bit of every configuration register is 0 (R22). -/
def CfgRegs.reservedZero (c : CfgRegs) : Bool := CfgReg.all.all fun r => c.get r &&& r.mask == c.get r

end Sys2Proof.Machine
end

