-- ==== Sys2Proof/Machine/Flags.lean ====
section
/-! DEFINITION. STATUS, its flags and codes, the W1C write, LUT_VALID's word, and the interrupt output
(10_state section 3, 60_exceptions). -/

namespace Sys2Proof.Machine

/-- The code of an error (R300). -/
def ErrCode.code : ErrCode → Word
  | .none => 0
  | .illegalCmd => 1
  | .cfgDim => 2
  | .cfgDst => 3
  | .cfgSrc => 4
  | .unsupported => 5
  | .cfgBits => 6
  | .cfgStride => 7
  | .cfgLevel => 8
  | .cfgGain => 9
  | .cfgPattern => 10
  | .cfgLut => 11

/-- The code of a pass (R27). -/
def Pass.code : Pass → Word
  | .idle => 0
  | .lut => 1
  | .raw => 2
  | .demosaic => 3
  | .yuv => 4

/-- STATUS as the host reads it (R27). -/
def State.status (s : State) : Word :=
  bitAt s.busy 0 ||| bitAt s.done 1 ||| bitAt s.error 2 ||| bitAt s.cancelled 3 ||| bitAt s.overrun 4 |||
  bitAt s.trunc 5 ||| (s.errCode.code <<< 8) ||| (s.pass.code <<< 12)

/-- A host write of STATUS: write 1 to clear DONE, ERROR, CANCELLED, OVERRUN, nothing else (R28). -/
def State.clearStatus (s : State) (v : Word) : State :=
  { s with
    done := s.done && !flag v 1
    error := s.error && !flag v 2
    cancelled := s.cancelled && !flag v 3
    overrun := s.overrun && !flag v 4 }

/-- LUT_VALID as the host reads it (R47). -/
def LutValid.word (v : LutValid) : Word := bitAt v.lvl 0 ||| bitAt v.g8 1 ||| bitAt v.g16 2

/-- The interrupt output IRQ (R311, R312). -/
def State.irq (s : State) : Bool :=
  (s.done && flag s.irqEn 1) || (s.error && flag s.irqEn 2) || (s.cancelled && flag s.irqEn 3) ||
  (s.overrun && flag s.irqEn 4)

/-- The word of one statistic register (R43). -/
def Stats.word (t : Stats) (centre : Bool) (c : Chan) (w : StatWord) : Word :=
  let v := if centre then t.centre.get c else t.unweighted.get c
  match w with
  | .sumLo => v.sum.extractLsb' 0 32
  | .sumHi => v.sum.extractLsb' 32 32
  | .cntLo => v.cnt.extractLsb' 0 32
  | .cntHi => v.cnt.extractLsb' 32 32

end Sys2Proof.Machine
end

