-- ==== Sys2Proof/Machine/Ops.lean ====
section
/-! DEFINITION. The named operations over the state that every command shares: the start of a command (`accept`, R140),
its end (`finish`, R147; the block has no other "exception", R310, R313), the engine's accesses to SRC and DST (R84 to
R87), and the register part of both resets (R340, R341). The acknowledgement of an end is `State.clearStatus`
(R28, R314). -/

namespace Sys2Proof.Machine

/-! ### Start and end of a command -/

/-- Accepting the command word `w` (R140), with the snapshot of R142. The counter of free values moves on, so that two
commands never share one (log 7). -/
def accept (w : Word) (s : State) : State :=
  { s with
    busy := true
    op := w
    cmd := w
    done := false
    error := false
    cancelled := false
    trunc := false
    errCode := .none
    progress := 0
    cancelPending := false
    cfg := s.regs
    draws := s.draws + 1
    overwritten := []
    srcRead := []
    dstRead := []
    srcForeign := []
    dstForeign := []
    launch := none
    ticks := 0
    cancelAt := none }

/-- A CMD write or a table-port access while BUSY (R141, R205). -/
def State.setOverrun (s : State) : State := { s with overrun := true }

/-- The number of the running command, which its free values go by (log 7). -/
def State.key (s : State) : Nat := (s.launch.map Launch.key).getD 0

/-! ### Bytes mapped into both spaces -/

/-- The destination byte that is the source byte `a`, on a platform that maps it into both spaces (R83, I4). -/
def aliasOf (p : Params) (a : Nat) : Option Nat :=
  (p.shared.find? fun o => decide (o.src ≤ a ∧ a < o.src + o.len)).map fun o => o.dst + (a - o.src)

/-- The source bytes that are the destination byte `d` (R83, I4). -/
def sourcesOf (p : Params) (d : Nat) : List Nat :=
  ((p.shared.filter fun o => decide (o.dst ≤ d ∧ d < o.dst + o.len)).map fun o => o.src + (d - o.dst)).filter
    fun a => aliasOf p a == some d

/-- What the platform memory holds at a source address (R81, R93). -/
def State.srcAt (s : State) (a : Nat) : Byte :=
  match aliasOf s.params a with
  | some d => Memory.read s.dst d
  | none => Memory.read s.src a

/-! ### What the running command has used, and what is raced for -/

/-- The running command has read the source byte. -/
def State.hasRead (s : State) (a : Nat) : Bool := s.srcRead.any fun r => r.addr == a

/-- The running command has written the destination byte. -/
def State.hasWritten (s : State) (a : Nat) : Bool := s.overwritten.any fun c => c.1 == a

/-- The running command has read or written the destination byte. -/
def State.hasTouched (s : State) (a : Nat) : Bool :=
  s.hasWritten a || s.dstRead.any fun d => decide (d ≤ a ∧ a < d + s.cfg.bpp)

/-- A source byte the running command has read is a destination byte it has written (R83, I4). -/
def State.isAliased (s : State) (r : SrcRead) : Bool :=
  match aliasOf s.params r.addr with
  | some d => s.hasWritten d
  | none => false

/-- The running command has broken R83's requirement: its result is unspecified (I4; log 14). -/
def State.overlaps (s : State) : Bool := s.srcRead.any s.isAliased

/-- The source bytes raced for: another agent has written them and the running command has read them (R102). -/
def State.racedSources (s : State) : List Nat := s.srcForeign.filter s.hasRead

/-- The destination bytes whose content is unspecified: those another agent has written and the running command has read
or written, also through a shared mapping (R102), and every one the command has written where it overlaps (R83, I4). -/
def State.racedBytes (s : State) : List Nat :=
  s.dstForeign.filter s.hasTouched ++ s.racedSources.filterMap (aliasOf s.params) ++
    if s.overlaps then s.overwritten.map Prod.fst else []

/-- The destination space once a command is over: a byte raced for holds an unspecified value (R102, I8; log 10). -/
def State.settledDst (s : State) : Memory :=
  s.racedBytes.foldl (fun m a => Memory.write m a (Config.racedFinal s.key a)) s.dst

/-- The source space once a command is over, likewise (R102, I8; log 10). -/
def State.settledSrc (s : State) : Memory :=
  (s.racedSources.filter fun a => aliasOf s.params a == none).foldl
    (fun m a => Memory.write m a (Config.racedSrcFinal s.key a)) s.src

/-- One statistic of a channel once a command is over: its sum is unspecified where a pixel of the channel was computed
from an aliased byte (R83, I4; log 14). -/
def State.settledStat (s : State) (centre : Bool) (ch : Chan) (t : ChanStat) : ChanStat :=
  if s.srcRead.any fun r => s.isAliased r && s.cfg.color r.x r.y == some ch then
    { t with sum := Config.aliasedSum s.key centre ch.index }
  else t

/-- Only a BAYER_DECODE, in its raw pass, writes STATS (R52). -/
def writesStats : Instr → Bool
  | .nop => false
  | .lutBuild _ _ _ => false
  | .bayerDecode _ => true
  | .demosaic => false
  | .yuvConvert => false

/-- STATS once a command is over. -/
def State.settledStats (s : State) : Stats :=
  if s.overlaps && ((decode s.op).command?.any writesStats) then
    let one (centre : Bool) (p : PerChan ChanStat) : PerChan ChanStat :=
      ⟨s.settledStat centre .r p.r, s.settledStat centre .g p.g, s.settledStat centre .b p.b⟩
    ⟨one false s.stats.unweighted, one true s.stats.centre⟩
  else s.stats

/-- No command runs any more: what R147 does before its case split, and the model's records of the command dropped. -/
def State.quiesce (s : State) : State :=
  { s with
    busy := false
    pass := .idle
    cancelPending := false
    pos := .idle
    todo := []
    stats := s.settledStats
    src := s.settledSrc
    dst := s.settledDst
    overwritten := []
    srcRead := []
    dstRead := []
    srcForeign := []
    dstForeign := []
    launch := none
    ticks := 0
    cancelAt := none }

/-- `finish(outcome[, code])` (R147). STATUS.TRUNC is the engine's `trunc` (log 6). -/
def finish (e : Ending) (s : State) : State :=
  match e with
  | .done => { s.quiesce with done := true }
  | .error code => { s.quiesce with error := true, errCode := code }
  | .cancelled => { s.quiesce with cancelled := true }

/-- An illegal command word: accepted, then ended at once (R115, R143); while busy it is ignored like any other
(R141). -/
def illegalCommand (w : Word) (s : State) : State :=
  if s.busy then s.setOverrun else finish (.error .illegalCmd) (accept w s)

/-! ### The source space -/

/-- `Avail(a)` (R86). -/
def CfgRegs.avail (c : CfgRegs) (a : Nat) : Bool := decide (a < c.srcSize.toNat)

/-- `MemRead(SRC, a, 1)` by the engine (R84), for reader `salt`: a byte another agent writes during the command gives an
unspecified value (R102; log 10), and so does one the command has itself written through a shared mapping (R83, I4;
log 14). -/
def State.srcByte (s : State) (salt a : Nat) : Byte :=
  if s.srcForeign.contains a || s.isAliased ⟨a, 0, 0⟩ then Config.racedSrc s.key salt a else s.srcAt a

/-- A source byte has been read for pixel (x, y). -/
def State.noteSrc (s : State) (a x y : Nat) : State := { s with srcRead := ⟨a, x, y⟩ :: s.srcRead }

/-- A destination pixel has been read at its address. -/
def State.noteDst (s : State) (a : Nat) : State := { s with dstRead := a :: s.dstRead }

/-- The address holds a byte of the plane, of width w and height h, that a sample of it depends on (R85, R171, R172,
R176): the byte at r of row q, r and q from the row stride. -/
def CfgRegs.planeHolds (c : CfgRegs) (p : PlaneRegs) (w h a : Nat) : Bool :=
  let off := a - (c.srcOffset.toNat + p.offset.toNat)
  let q := off / p.rowStride
  let r := off % p.rowStride
  decide (c.srcOffset.toNat + p.offset.toNat ≤ a) && decide (q < h) &&
    match p.container with
    | some .byte8 => decide (r / p.pixelStride < w) && decide (r % p.pixelStride < 1)
    | some (.word16 _) => decide (r / p.pixelStride < w) && decide (r % p.pixelStride < 2)
    | some (.mipi _ g) => decide (r < g.bytes * ceilDiv w g.samples)
    | none => false

/-- The height of a plane (R232). -/
def CfgRegs.planeHeight (c : CfgRegs) : PlaneId → Nat
  | .p0 => c.height
  | .p1 => ceilDiv c.height (2 ^ c.vsub)
  | .p2 => ceilDiv c.height (2 ^ c.vsub)

/-- The address holds a byte that a sample of plane n depends on, the plane at its own size (R232). -/
def CfgRegs.inPlane (c : CfgRegs) (n : PlaneId) (a : Nat) : Bool :=
  c.planeHolds (c.plane n) (c.planeWidth n) (c.planeHeight n) a

/-- A command of this snapshot may read the source byte: it is available and lies in a plane the command reads (R37,
R86). -/
def CfgRegs.mayRead (c : CfgRegs) (i : Instr) (a : Nat) : Bool :=
  c.avail a &&
    match i with
    | .nop => false
    | .lutBuild _ _ _ => false
    | .bayerDecode _ => c.inPlane .p0 a
    | .demosaic => false
    | .yuvConvert => c.inPlane .p0 a || c.inPlane .p1 a || c.inPlane .p2 a

/-! ### The destination space -/

/-- `MemRead(DST, a, 1)` by the engine, for reader `salt` (R84): a byte another agent writes during the command gives an
unspecified value (R102; log 10). -/
def State.dstByte (s : State) (salt a : Nat) : Byte :=
  if s.dstForeign.contains a then Config.racedDst s.key salt a else Memory.read s.dst a

/-- `MemRead(DST, a, n)` by the engine (R84). -/
def State.dstWord (s : State) (salt a : Nat) : Nat → Nat
  | 0 => 0
  | n + 1 => (s.dstByte salt a).toNat + 256 * s.dstWord salt (a + 1) n

/-- The engine stores one destination byte; the value it replaces is kept for R100 (log 9). -/
def State.putByte (s : State) (a : Nat) (v : Byte) : State :=
  { s with dst := Memory.write s.dst a v, overwritten := (a, Memory.read s.dst a) :: s.overwritten }

/-- `MemWrite(DST, a, n, v)`: byte k of v to address a+k (R84). -/
def State.putWord (s : State) (a : Nat) : Nat → Nat → State
  | 0, _ => s
  | n + 1, v => (s.putByte a (BitVec.ofNat 8 v)).putWord (a + 1) n (v / 256)

/-- The address lies in the frame of the snapshot, so that a command that writes pixels may read or write it (R87,
R102). -/
def CfgRegs.inFrame (c : CfgRegs) (a : Nat) : Bool :=
  decide (c.dstBase.toNat ≤ a ∧
    (a - c.dstBase.toNat) / c.dstStride.toNat < c.height ∧
    (a - c.dstBase.toNat) % c.dstStride.toNat < c.width * c.bpp)

/-- A command of this snapshot may read or write the destination byte: it writes pixels and the byte is in its frame. -/
def CfgRegs.mayWrite (c : CfgRegs) (i : Instr) (a : Nat) : Bool :=
  match i with
  | .nop => false
  | .lutBuild _ _ _ => false
  | .bayerDecode _ => c.inFrame a
  | .demosaic => c.inFrame a
  | .yuvConvert => c.inFrame a

/-! ### What the running command may use -/

/-- A command runs that performs its passes: its validation has not failed (R144). -/
def State.performs (s : State) : Bool :=
  s.busy && match s.pos with
    | .checked (some _) => false
    | _ => true

/-- The running command performs passes and `p` holds of it. -/
def State.running (s : State) (p : Instr → Bool) : Bool :=
  s.performs && (decode s.op).command?.any p

/-- The running command may read the source byte. -/
def State.usesSrc (s : State) (a : Nat) : Bool := s.running fun i => s.cfg.mayRead i a

/-- The running command may read or write the destination byte. -/
def State.usesDst (s : State) (a : Nat) : Bool := s.running fun i => s.cfg.mayWrite i a

/-! ### Resets -/

/-- What both resets do to the registers and the engine (R340, R341): everything but tables and memories. -/
def State.resetRegisters (s : State) : State :=
  { s with
    regs := CfgRegs.reset
    irqEn := 0
    cmd := 0
    busy := false
    done := false
    error := false
    cancelled := false
    overrun := false
    trunc := false
    errCode := .none
    pass := .idle
    progress := 0
    op := 0
    cfg := CfgRegs.zero
    cancelPending := false
    pos := .idle
    todo := []
    stats := Stats.zero
    lutValid := LutValid.none
    lutAddr := 0
    overwritten := []
    srcRead := []
    dstRead := []
    srcForeign := []
    dstForeign := []
    launch := none
    ticks := 0
    cancelAt := none }

end Sys2Proof.Machine
end

