-- ==== Sys2Proof/Machine/Lut.lean ====
section
/-! DEFINITION. The lookup tables (42_lut): the functions they hold, filling a group, and the host port. -/

namespace Sys2Proof.Machine

/-! ### The functions -/

/-- `L_b(i)` for the levels bl, wh (R190). -/
def levelFn (b bl wh i : Nat) : Nat :=
  if i ≤ bl then 0
  else if wh ≤ i then 2 ^ b - 1
  else (i - bl) * (2 ^ b - 1) / (wh - bl)

/-- `(bl, wh)` of the snapshot at depth b (R190). -/
def CfgRegs.levels (c : CfgRegs) (b : Nat) : Nat × Nat := if c.lvlEn then (c.black, c.white) else (0, 2 ^ b - 1)

/-- `L_b(i)` of the snapshot (R190). -/
def CfgRegs.level_b (c : CfgRegs) (b i : Nat) : Nat := levelFn b (c.levels b).1 (c.levels b).2 i

/-- `Gain_n(i, g)` with the unity band `tol` (R192). -/
def gainFn (tol n i g : Nat) : Nat :=
  if (g - 65536) + (65536 - g) ≤ tol then i else min (i * g / 65536) (2 ^ n - 1)

/-- `G8c[i]` (R196). -/
def CfgRegs.g8Entry (c : CfgRegs) (tol : Nat) (k : Chan) (i : Nat) : Nat :=
  gainFn tol 8 (c.level_b 8 i) (c.gainCode k)

/-- `LVL[i]` (R197). -/
def CfgRegs.lvlEntry (c : CfgRegs) (i : Nat) : Nat := c.level_b c.p0.bits i

/-- `G16c[i]` (R198). -/
def CfgRegs.g16Entry (c : CfgRegs) (tol : Nat) (k : Chan) (i : Nat) : Nat := gainFn tol 16 i (c.gainCode k)

/-! ### Filling a group -/

/-- The whole table G8c (R196). -/
def fillG8 (c : CfgRegs) (tol : Nat) (k : Chan) : Ram (Option Byte) :=
  Ram.build 8 fun i => some (BitVec.ofNat 8 (c.g8Entry tol k i))

/-- The whole table G16c (R198). -/
def fillG16 (c : CfgRegs) (tol : Nat) (k : Chan) : Ram (Option Half) :=
  Ram.build 16 fun i => some (BitVec.ofNat 16 (c.g16Entry tol k i))

/-- The whole table LVL (R197). -/
def fillLvl (c : CfgRegs) : Ram (Option Half) :=
  Ram.build 16 fun i => some (BitVec.ofNat 16 (c.lvlEntry i))

/-- Entries of the tables of a group (R53). -/
def Group.entries : Group → Nat
  | .lvl => 65536
  | .g8 => 768
  | .g16 => 196608

/-- The channel whose table comes at place n of a group: R, G, B (R200). -/
def chanAt (n : Nat) : Chan := if n = 0 then .r else if n = 1 then .g else .b

/-- One entry of a group stored, number n in the order table by table, index by index (R200; log 8). -/
def Luts.storeEntry (t : Luts) (c : CfgRegs) (tol : Nat) (g : Group) (n : Nat) : Luts :=
  match g with
  | .lvl => { t with lvl := Ram.write t.lvl n (some (BitVec.ofNat 16 (c.lvlEntry n))) }
  | .g8 =>
    let ch := chanAt (n / 256)
    { t with
      g8 := t.g8.set ch (Ram.write (t.g8.get ch) (n % 256) (some (BitVec.ofNat 8 (c.g8Entry tol ch (n % 256))))) }
  | .g16 =>
    let ch := chanAt (n / 65536)
    { t with
      g16 :=
        t.g16.set ch (Ram.write (t.g16.get ch) (n % 65536) (some (BitVec.ofNat 16 (c.g16Entry tol ch (n % 65536))))) }

/-- A table whose filling was cut short: each entry is the old or the new one (R342; log 8). -/
def tornTable {α : Type} (d : Nat) (stored : Nat → Bool) (old new : Ram α) : Ram α :=
  Ram.build d fun i => if stored i then Ram.read new i else Ram.read old i

/-- The tables when a reset cuts the filling of a group short at its entry n: of the table that holds the entry, each entry
is the one of `old` or the new one, since the order within a table is not given (R200, R342; log 8). -/
def Luts.torn (t old : Luts) (c : CfgRegs) (tol draw : Nat) (g : Group) (n : Nat) : Luts :=
  match g with
  | .lvl => { t with lvl := tornTable 16 (Config.tornEntry draw 0) old.lvl (fillLvl c) }
  | .g8 =>
    let ch := chanAt (n / 256)
    { t with g8 := t.g8.set ch (tornTable 8 (Config.tornEntry draw (1 + ch.index)) (old.g8.get ch) (fillG8 c tol ch)) }
  | .g16 =>
    let ch := chanAt (n / 65536)
    { t with
      g16 := t.g16.set ch (tornTable 16 (Config.tornEntry draw (4 + ch.index)) (old.g16.get ch) (fillG16 c tol ch)) }

/-- The groups a LUT_BUILD selects, in the order of R200. -/
def selectedGroups (lvl g8 g16 : Bool) : List Group :=
  (if lvl then [.lvl] else []) ++ (if g8 then [.g8] else []) ++ (if g16 then [.g16] else [])

/-! ### The host port -/

/-- What a TABLE code selects (R45, R204). -/
inductive TableSel where
  | lvl
  | g8 (c : Chan)
  | g16 (c : Chan)
  | nothing
  deriving DecidableEq, Repr

/-- LUT_ADDR bits 18:16 (R45). -/
def tableSel (addr : Word) : TableSel :=
  match field addr 16 3 with
  | 0 => .lvl
  | 1 => .g8 .r
  | 2 => .g8 .g
  | 3 => .g8 .b
  | 4 => .g16 .r
  | 5 => .g16 .g
  | 6 => .g16 .b
  | _ => .nothing

/-- LUT_ADDR bits 15:0 (R45). -/
def tableIndex (addr : Word) : Nat := field addr 0 16

/-- LUT_ADDR after a port access: with AUTO_INC the index has advanced, modulo 65536 (R203, R204). -/
def nextAddr (addr : Word) : Word :=
  if flag addr 31 then (addr &&& 0xFFFF0000) ||| BitVec.ofNat 32 ((tableIndex addr + 1) % 65536) else addr

/-- What the port reads at the selected entry (R203): none for an unwritten entry. -/
def Luts.portEntry (t : Luts) (addr : Word) : Option Word :=
  let i := tableIndex addr
  match tableSel addr with
  | .lvl => (Ram.read t.lvl i).map (BitVec.zeroExtend 32)
  | .g16 c => (Ram.read (t.g16.get c) i).map (BitVec.zeroExtend 32)
  | .g8 c => if i < 256 then (Ram.read (t.g8.get c) i).map (BitVec.zeroExtend 32) else some 0
  | .nothing => some 0

/-- The tables after a port write of `v` (R204). -/
def Luts.portStore (t : Luts) (addr : Word) (v : Word) : Luts :=
  let i := tableIndex addr
  match tableSel addr with
  | .lvl => { t with lvl := Ram.write t.lvl i (some (v.extractLsb' 0 16)) }
  | .g16 c => { t with g16 := t.g16.set c (Ram.write (t.g16.get c) i (some (v.extractLsb' 0 16))) }
  | .g8 c =>
    if i < 256 then { t with g8 := t.g8.set c (Ram.write (t.g8.get c) i (some (v.extractLsb' 0 8))) } else t
  | .nothing => t

/-- LUT_VALID after a port write (R204). -/
def LutValid.portStore (b : LutValid) (addr : Word) : LutValid :=
  match tableSel addr with
  | .lvl => b.set .lvl true
  | .g16 _ => b.set .g16 true
  | .g8 _ => if tableIndex addr < 256 then b.set .g8 true else b
  | .nothing => b

end Sys2Proof.Machine
end

