-- ==== Sys2Proof/Machine/Pack.lean ====
section
/-! DEFINITION. The BGRA packer (43_pack). -/

namespace Sys2Proof.Machine

/-- `to8(v16) = v16[15:8]` (R220). -/
def to8 (v16 : Nat) : Nat := natBits v16 8 8

/-- `to16(v8) = v8 * 256` (R220). -/
def to16 (v8 : Nat) : Nat := v8 * 256

/-- `out` of a channel computed at 16 bits (R221). -/
def CfgRegs.out16 (c : CfgRegs) (v16 : Nat) : Nat := if c.bgra64 then v16 else to8 v16

/-- `out` of a channel computed at 8 bits (R221). -/
def CfgRegs.out8 (c : CfgRegs) (v8 : Nat) : Nat := if c.bgra64 then to16 v8 else v8

/-- Bits of a channel in the output depth (R125). -/
def CfgRegs.depth (c : CfgRegs) : Nat := if c.bgra64 then 16 else 8

/-- Three channel values in the output depth. -/
abbrev Rgb := PerChan Nat

/-- The packed pixel, alpha opaque (R222, R223). -/
def CfgRegs.pixelWord (c : CfgRegs) (v : Rgb) : Nat :=
  if c.bgra64 then v.b + v.g * 2 ^ 16 + v.r * 2 ^ 32 + 0xFFFF * 2 ^ 48
  else v.b + v.g * 2 ^ 8 + v.r * 2 ^ 16 + 0xFF * 2 ^ 24

/-- `WritePixel(x, y, b, g, r)` (R222). -/
def State.writePixel (s : State) (x y : Nat) (v : Rgb) : State :=
  s.putWord (s.cfg.dstAddr x y) s.cfg.bpp (s.cfg.pixelWord v)

/-- A channel of a packed pixel (R224). -/
def CfgRegs.channelOf (c : CfgRegs) (word : Nat) (k : Chan) : Nat :=
  match k with
  | .b => natBits word 0 c.depth
  | .g => natBits word c.depth c.depth
  | .r => natBits word (2 * c.depth) c.depth

/-- `ReadCh(x, y, k)` by the reader `salt` (R224). -/
def State.readCh (s : State) (salt x y : Nat) (k : Chan) : Nat :=
  s.cfg.channelOf (s.dstWord salt (s.cfg.dstAddr x y) s.cfg.bpp) k

end Sys2Proof.Machine
end

