-- ==== Sys2Proof/Machine/Unpack.lean ====
section
/-! DEFINITION. The pixel unpacker (41_unpack): which source bytes a sample depends on, and its raw code. The functions
take the bytes as a reader, so that the unpacker is a pure function of the snapshot and of source bytes. -/

namespace Sys2Proof.Machine

/-- `A(n, x, y, k)`: byte k of the container of sample (x, y) of a plane (R85). -/
def CfgRegs.sampleAddr (c : CfgRegs) (p : PlaneRegs) (x y k : Nat) : Nat :=
  c.srcOffset.toNat + p.offset.toNat + y * p.rowStride + x * p.pixelStride + k

/-- `rowaddr(y)` (R176). -/
def CfgRegs.rowAddr (c : CfgRegs) (p : PlaneRegs) (y : Nat) : Nat :=
  c.srcOffset.toNat + p.offset.toNat + y * p.rowStride

/-- The first byte of the MIPI group that holds sample (x, y) (R176). -/
def CfgRegs.groupAddr (c : CfgRegs) (p : PlaneRegs) (g : MipiGeom) (x y : Nat) : Nat :=
  c.rowAddr p y + x / g.samples * g.bytes

/-- `Dep(n, x, y)`: the source addresses a sample depends on (R171, R172, R176). That the engine reads them by rising
address is DESIGN CHOICE, unsafe (log 4): the spec gives no order. -/
def CfgRegs.dep (c : CfgRegs) (p : PlaneRegs) (k : Container) (x y : Nat) : List Nat :=
  match k with
  | .byte8 => [c.sampleAddr p x y 0]
  | .word16 _ => [c.sampleAddr p x y 0, c.sampleAddr p x y 1]
  | .mipi _ g => (List.range g.bytes).map (c.groupAddr p g x y + ·)

/-- Every byte the sample depends on is available (R88, R170). -/
def CfgRegs.decodable (c : CfgRegs) (p : PlaneRegs) (k : Container) (x y : Nat) : Bool :=
  (c.dep p k x y).all c.avail

/-- The two bytes of a WORD16 container as a number (R89, R172). -/
def wordOf (bigEndian : Bool) (c0 c1 : Byte) : Nat :=
  if bigEndian then 256 * c0.toNat + c1.toNat else c0.toNat + 256 * c1.toNat

/-- The b-bit sample of a 16-bit container (R172). -/
def sampleOf (msbAlign : Bool) (b w : Nat) : Nat :=
  if msbAlign then natBits w (16 - b) b else natBits w 0 b

/-- `Ebits` of `e` extra bytes from address `a`, little-endian (R177). -/
def extraLittle (rd : Nat → Byte) (a : Nat) : Nat → Nat
  | 0 => 0
  | e + 1 => (rd a).toNat + 256 * extraLittle rd (a + 1) e

/-- `Ebits` of `e` extra bytes from address `a`, big-endian (R178). -/
def extraBig (rd : Nat → Byte) (a : Nat) : Nat → Nat
  | 0 => 0
  | e + 1 => (rd a).toNat * 2 ^ (8 * e) + extraBig rd (a + 1) e

/-- `frag_j` of the group at `ga` (R177, R178). -/
def fragment (rd : Nat → Byte) (bigEndian : Bool) (g : MipiGeom) (ga j : Nat) : Nat :=
  if bigEndian then
    natBits (extraBig rd (ga + g.samples) g.extra) (8 * g.extra - g.frag * (j + 1)) g.frag
  else
    natBits (extraLittle rd (ga + g.samples) g.extra) (g.frag * j) g.frag

/-- The MIPI sample of lane j of the group at `ga` (R179). -/
def mipiSample (rd : Nat → Byte) (bigEndian : Bool) (g : MipiGeom) (ga j : Nat) : Nat :=
  (rd (ga + j)).toNat * 2 ^ g.frag + fragment rd bigEndian g ga j

/-- `Fetch(n, x, y)`: the raw code (R170, R171, R172, R179). -/
def CfgRegs.fetch (c : CfgRegs) (rd : Nat → Byte) (p : PlaneRegs) (k : Container) (x y : Nat) : Nat :=
  match k with
  | .byte8 => (rd (c.sampleAddr p x y 0)).toNat
  | .word16 b =>
    sampleOf p.msbAlign b (wordOf c.bigEndian (rd (c.sampleAddr p x y 0)) (rd (c.sampleAddr p x y 1)))
  | .mipi _ g => mipiSample rd c.bigEndian g (c.groupAddr p g x y) (x % g.samples)

/-- The value gathered for key `a`, the keys and the values read so far side by side: what a pixel's accesses, made one a
step, have given (R365). -/
def gathered {α β : Type} [BEq α] (keys : List α) (got : List β) (absent : β) (a : α) : β :=
  ((keys.zip got).lookup a).getD absent

/-- Source bytes a sample of the container depends on (R171, R172, R175). -/
def Container.bytes : Container → Nat
  | .byte8 => 1
  | .word16 _ => 2
  | .mipi _ g => g.bytes

/-- `LJ(raw, b) = raw * 2^(16-b)` (R173). -/
def leftJustify (raw b : Nat) : Nat := raw * 2 ^ (16 - b)

end Sys2Proof.Machine
end

