-- ==== Sys2Proof/Machine/Yuv.lean ====
section
/-! DEFINITION. The YUV-to-RGB conversion of one pixel (44_yuv_csc). -/

namespace Sys2Proof.Machine

/-- Three 16-bit components Y, U, V. -/
structure Yuv where
  y : Nat
  u : Nat
  v : Nat
  deriving DecidableEq, Repr

/-- `acc_r` of a row of the matrix (R235). -/
def cscAcc (row : CscRow) (yd ud vd : Int) : Int :=
  sext16 row.y * yd + sext16 row.u * ud + sext16 row.v * vd

/-- Round half up, saturate (R235): `clamp((acc + 2048) >> 12, 0, 65535)`. -/
def cscRound (acc : Int) : Nat := (min (max ((acc + 2048) / 4096) 0) 65535).toNat

/-- The CSC matrix: (R16, G16, B16) of (Y16, U16, V16) (R235). -/
def CfgRegs.cscConvert (c : CfgRegs) (p : Yuv) : Rgb :=
  let yd : Int := (p.y : Int) - field c.cscYoff 0 16
  let ud : Int := (p.u : Int) - field c.cscCoff 0 16
  let vd : Int := (p.v : Int) - field c.cscCoff 0 16
  ⟨cscRound (cscAcc c.csc.r yd ud vd), cscRound (cscAcc c.csc.g yd ud vd), cscRound (cscAcc c.csc.b yd ud vd)⟩

/-- A conversion result in the output depth (R236). -/
def CfgRegs.outRgb (c : CfgRegs) (v : Rgb) : Rgb := ⟨c.out16 v.r, c.out16 v.g, c.out16 v.b⟩

/-- The chroma sample position of pixel (x, y): `(x >> HSUB, y >> VSUB)` (R233). -/
def CfgRegs.chromaPos (c : CfgRegs) (x y : Nat) : Nat × Nat := (x / 2 ^ c.hsub, y / 2 ^ c.vsub)

/-- The containers of the three planes of a YUV_CONVERT, none where one is not BYTE8 or WORD16 with a legal depth
(R230). -/
def CfgRegs.yuvContainers (c : CfgRegs) : Option (Container × Container × Container) :=
  match c.p0.container, c.p1.container, c.p2.container with
  | some k0, some k1, some k2 => some (k0, k1, k2)
  | _, _, _ => none

/-- Every byte a pixel of the YUV pass depends on is available (R88, R234). -/
def CfgRegs.yuvDecodable (c : CfgRegs) (k : Container × Container × Container) (x y : Nat) : Bool :=
  let q := c.chromaPos x y
  c.decodable c.p0 k.1 x y && c.decodable c.p1 k.2.1 q.1 q.2 && c.decodable c.p2 k.2.2 q.1 q.2

/-- The three left-justified components of a pixel (R233, R234), with one reader of source bytes a plane. -/
def CfgRegs.yuvSample (c : CfgRegs) (rd : PlaneId → Nat → Byte) (k : Container × Container × Container) (x y : Nat) :
    Yuv :=
  let q := c.chromaPos x y
  { y := leftJustify (c.fetch (rd .p0) c.p0 k.1 x y) k.1.depth
    u := leftJustify (c.fetch (rd .p1) c.p1 k.2.1 q.1 q.2) k.2.1.depth
    v := leftJustify (c.fetch (rd .p2) c.p2 k.2.2 q.1 q.2) k.2.2.depth }

/-- The number of an engine reader: which plane it reads for which pixel (log 10). -/
def readerSalt (n : PlaneId) (x y : Nat) : Nat := 1 + n.index + 4 * (x + 65536 * y)

/-- The source bytes a pixel depends on, plane by plane (R234). That the engine reads the planes in the order P0, P1, P2 is
DESIGN CHOICE, unsafe (log 4): R234 gives no order. -/
def CfgRegs.yuvDeps (c : CfgRegs) (k : Container × Container × Container) (x y : Nat) : List (PlaneId × Nat) :=
  let q := c.chromaPos x y
  ((c.dep c.p0 k.1 x y).map fun a => (.p0, a)) ++ ((c.dep c.p1 k.2.1 q.1 q.2).map fun a => (.p1, a)) ++
    (c.dep c.p2 k.2.2 q.1 q.2).map fun a => (.p2, a)

/-- Once the source bytes of the pixel are all read, the pixel they convert to (R234 to R236). -/
def CfgRegs.yuvFetched (c : CfgRegs) (k : Container × Container × Container) (x y : Nat) (got : List Byte) : YuvPhase :=
  let keys := c.yuvDeps k x y
  if got.length < keys.length then .fetch got
  else .write (c.outRgb (c.cscConvert (c.yuvSample (fun n a => gathered keys got 0 (n, a)) k x y)))

end Sys2Proof.Machine
end

