-- ==== Sys2Proof/Machine/Bayer.lean ====
section
/-! DEFINITION. One pixel of the raw pass: table application, statistics, and what each of the engine's accesses for it gives
(42_lut section 4, 45_bayer_decode section 3). -/

namespace Sys2Proof.Machine

/-- `LUT(G16c)[index]` (R201): none where the entry is unwritten. `wide` stands for the result where the left-justified
index does not fit 16 bits, on which the spec is silent (log 17). -/
def Luts.gain16 (t : Luts) (ch : Chan) (index : Nat) (wide : Half) : Option Half :=
  if index < 65536 then Ram.read (t.g16.get ch) index else some wide

/-- `LUT(G16c)[ LJ(LUT(LVL)[raw], b) ]` (R201): none where an entry it reads is unwritten. -/
def Luts.apply16 (t : Luts) (ch : Chan) (b raw : Nat) (wide : Half) : Option Half :=
  (Ram.read t.lvl raw).bind fun l => t.gain16 ch (leftJustify l.toNat b) wide

/-- The value of a pixel computed at 8 bits (R259). -/
def CfgRegs.value8 (c : CfgRegs) (v8 : Byte) : RawValue := ⟨c.out8 v8.toNat, v8.toNat * 256⟩

/-- The value of a pixel computed at 16 bits (R259). -/
def CfgRegs.value16 (c : CfgRegs) (v16 : Half) : RawValue := ⟨c.out16 v16.toNat, v16.toNat⟩

/-- `value(x, y)` from the raw code (R201, R259): none where a table entry it reads is unwritten. -/
def Luts.rawValue (t : Luts) (c : CfgRegs) (k : Container) (ch : Chan) (raw : Nat) (wide : Half) : Option RawValue :=
  match k with
  | .byte8 => (Ram.read (t.g8.get ch) raw).map c.value8
  | .word16 b => (t.apply16 ch b raw wide).map c.value16
  | .mipi b _ => (t.apply16 ch b raw wide).map c.value16

/-- One accumulator with a value of weight `w` added (R260). -/
def ChanStat.add (a : ChanStat) (w v : Nat) : ChanStat :=
  ⟨a.sum + BitVec.ofNat 64 (w * v), a.cnt + BitVec.ofNat 64 w⟩

/-- `accumulate(x, y, k, s16)` (R260). -/
def Stats.accumulate (t : Stats) (centre : Bool) (k : Chan) (s16 : Nat) : Stats :=
  ⟨t.unweighted.set k ((t.unweighted.get k).add 1 s16),
    t.centre.set k ((t.centre.get k).add (if centre then 2 else 1) s16)⟩

/-- The channels of a raw pixel: the own channel, the other two 0 (R263). -/
def ownOnly (k : Chan) (v : Nat) : Rgb := (⟨0, 0, 0⟩ : Rgb).set k v

/-! ### The pixel, one access or one update a step -/

/-- The free result of an index that is too wide, for the running command and the pixel (log 17). -/
def State.wideAt (s : State) (x y : Nat) : Half := Config.wideIndex s.key (x + 65536 * y)

/-- Once the source bytes of the sample are all read, their raw code (R170). -/
def CfgRegs.rawFetched (c : CfgRegs) (k : Container) (x y : Nat) (got : List Byte) : RawPhase :=
  let addrs := c.dep c.p0 k x y
  if got.length < addrs.length then .fetch got else .look (c.fetch (gathered addrs got 0) c.p0 k x y)

/-- The first table read: of G8c, which gives the value, or of LVL, which gives the index of the second (R201). -/
def Luts.look (t : Luts) (c : CfgRegs) (k : Container) (ch : Chan) (raw : Nat) : Option RawPhase :=
  match k with
  | .byte8 => (Ram.read (t.g8.get ch) raw).map fun v8 => .count (c.value8 v8)
  | .word16 b => (Ram.read t.lvl raw).map fun l => .gain (leftJustify l.toNat b)
  | .mipi b _ => (Ram.read t.lvl raw).map fun l => .gain (leftJustify l.toNat b)

end Sys2Proof.Machine
end

