-- ==== Sys2Proof/Machine/Checks.lean ====
section
/-! DEFINITION. Validation (60_exceptions section 1): each check as a Boolean that is true where the check fails, and the
checks of each command in the global order (R301 to R303). -/

namespace Sys2Proof.Machine

/-- CFG_DIM (R301). -/
def CfgRegs.badDim (c : CfgRegs) : Bool := c.width == 0 || c.height == 0

/-- CFG_DST (R301), with the stride added on both sides so that no difference falls below 0 where H = 0. -/
def CfgRegs.badDst (c : CfgRegs) (dstBytes : Nat) : Bool :=
  decide (dstBytes + c.dstStride.toNat < c.dstBase.toNat + c.height * c.dstStride.toNat + c.width * c.bpp)

/-- CFG_SRC (R301). -/
def CfgRegs.badSrc (c : CfgRegs) (srcBytes : Nat) : Bool := decide (srcBytes < c.srcSize.toNat)

/-- UNSUPPORTED for a plane of BAYER_DECODE (R301). -/
def PlaneRegs.reservedLayout (p : PlaneRegs) : Bool := p.layout == 3

/-- UNSUPPORTED for a plane of YUV_CONVERT (R301). -/
def PlaneRegs.notYuvLayout (p : PlaneRegs) : Bool := p.layout == 2 || p.layout == 3

/-- CFG_BITS for a plane (R301, R122). -/
def PlaneRegs.badBits (p : PlaneRegs) : Bool := p.container == none

/-- CFG_BITS for LUT_BUILD with LVL selected (R199, R301). -/
def CfgRegs.badLvlBits (c : CfgRegs) : Bool := !decide (9 ≤ c.p0.bits ∧ c.p0.bits ≤ 16)

/-- CFG_STRIDE for a plane of container bytes `cb` and width `w` (R301). -/
def PlaneRegs.shortStride (p : PlaneRegs) (cb w : Nat) : Bool :=
  decide (p.pixelStride < cb) || decide (p.rowStride < p.pixelStride * w)

/-- CFG_STRIDE for a plane of width `w` (R301). -/
def PlaneRegs.badStride (p : PlaneRegs) (w : Nat) : Bool :=
  if p.layout = 0 then p.shortStride 1 w
  else if p.layout = 1 then p.shortStride 2 w
  else if p.layout = 2 then
    match mipiGeom p.bits with
    | some g => decide (p.rowStride < g.bytes * ceilDiv w g.samples)
    | none => false
  else false

/-- CFG_STRIDE for the destination (R301). -/
def CfgRegs.badDstStride (c : CfgRegs) : Bool := decide (c.dstStride.toNat < c.width * c.bpp)

/-- CFG_LEVEL at depth b (R301). -/
def CfgRegs.badLevel (c : CfgRegs) (b : Nat) : Bool :=
  c.lvlEn && !decide (c.black < c.white ∧ c.white ≤ 2 ^ b - 1)

/-- CFG_GAIN (R301). -/
def CfgRegs.badGain (c : CfgRegs) : Bool := c.gainCode .r == 0 || c.gainCode .g == 0 || c.gainCode .b == 0

/-- CFG_PATTERN (R301). -/
def CfgRegs.badPattern (c : CfgRegs) : Bool :=
  decide (10 ≤ c.patternId) ||
    (List.range c.tileSize).any fun r => (List.range c.tileSize).any fun k => c.label r k == none

/-- CFG_LUT (R301). -/
def CfgRegs.badLut (c : CfgRegs) (v : LutValid) : Bool := c.needed.any fun g => !v.get g

/-- The first check that fails, in the order given (R302). -/
def firstFailing : List (ErrCode × Bool) → Option ErrCode
  | [] => none
  | (code, fails) :: rest => if fails then some code else firstFailing rest

/-- The checks of LUT_BUILD (R199, R303). -/
def lutBuildChecks (lvl g8 g16 : Bool) (s : State) : List (ErrCode × Bool) :=
  [(.cfgBits, lvl && s.cfg.badLvlBits),
    (.cfgLevel, (lvl && s.cfg.badLevel s.cfg.p0.bits) || (g8 && s.cfg.badLevel 8)),
    (.cfgGain, (g8 || g16) && s.cfg.badGain)]

/-- The checks of BAYER_DECODE (R254, R303). -/
def bayerChecks (build : Bool) (s : State) : List (ErrCode × Bool) :=
  [(.cfgDim, s.cfg.badDim),
    (.cfgDst, s.cfg.badDst s.params.dstBytes),
    (.cfgSrc, s.cfg.badSrc s.params.srcBytes),
    (.unsupported, s.cfg.p0.reservedLayout),
    (.cfgBits, s.cfg.p0.badBits),
    (.cfgStride, s.cfg.p0.badStride (s.cfg.planeWidth .p0) || s.cfg.badDstStride),
    (.cfgLevel, build && s.cfg.badLevel s.cfg.p0.bits),
    (.cfgGain, build && s.cfg.badGain),
    (.cfgPattern, s.cfg.badPattern),
    (.cfgLut, !build && s.cfg.badLut s.lutValid)]

/-- The checks of DEMOSAIC (R280, R303). -/
def demosaicChecks (s : State) : List (ErrCode × Bool) :=
  [(.cfgDim, s.cfg.badDim),
    (.cfgDst, s.cfg.badDst s.params.dstBytes),
    (.cfgStride, s.cfg.badDstStride),
    (.cfgPattern, s.cfg.badPattern)]

/-- The checks of YUV_CONVERT (R230, R303). -/
def yuvChecks (s : State) : List (ErrCode × Bool) :=
  [(.cfgDim, s.cfg.badDim),
    (.cfgDst, s.cfg.badDst s.params.dstBytes),
    (.cfgSrc, s.cfg.badSrc s.params.srcBytes),
    (.unsupported, s.cfg.p0.notYuvLayout || s.cfg.p1.notYuvLayout || s.cfg.p2.notYuvLayout),
    (.cfgBits, s.cfg.p0.badBits || s.cfg.p1.badBits || s.cfg.p2.badBits),
    (.cfgStride,
      s.cfg.p0.badStride (s.cfg.planeWidth .p0) || s.cfg.p1.badStride (s.cfg.planeWidth .p1) ||
        s.cfg.p2.badStride (s.cfg.planeWidth .p2) || s.cfg.badDstStride)]

end Sys2Proof.Machine
end

