-- ==== Sys2Proof/Machine/Demosaic.lean ====
section
/-! DEFINITION. The averaging rule and the channel reads it makes (46_demosaic). -/

namespace Sys2Proof.Machine

/-- The neighbourhood of radius r: N3 for r = 1, N5 for r = 2, out-of-frame pixels omitted (R281, R289). -/
def neighbours (w h r x y : Nat) : List (Nat × Nat) :=
  ((List.range (2 * r + 1)).flatMap fun dy => (List.range (2 * r + 1)).map fun dx => (x + dx, y + dy)).filterMap
    fun q =>
      if r ≤ q.1 ∧ r ≤ q.2 ∧ q.1 - r < w ∧ q.2 - r < h ∧ (q.1 - r, q.2 - r) ≠ (x, y) then some (q.1 - r, q.2 - r)
      else none

/-- `F`: the pixels of a set whose label names channel k (R282). -/
def CfgRegs.sameChannel (c : CfgRegs) (k : Chan) (ps : List (Nat × Nat)) : List (Nat × Nat) :=
  ps.filter fun p => c.color p.1 p.2 == some k

/-- `mean(S, k)`, reading channels by `rd` (R282). -/
def CfgRegs.mean (c : CfgRegs) (rd : Nat → Nat → Chan → Nat) (ps : List (Nat × Nat)) (k : Chan) : Option Nat :=
  let f := c.sameChannel k ps
  if f = [] then none else some ((f.map fun p => rd p.1 p.2 k).sum / f.length)

/-- A missing channel of pixel (x, y): the 3x3 mean; for a 4x4 pattern the 5x5 mean where that finds nothing; 0 where
nothing is found (R283, R284). -/
def CfgRegs.missing (c : CfgRegs) (rd : Nat → Nat → Chan → Nat) (x y : Nat) (k : Chan) : Nat :=
  match c.mean rd (neighbours c.width c.height 1 x y) k with
  | some m => m
  | none =>
    if c.tileSize = 4 then (c.mean rd (neighbours c.width c.height 2 x y) k).getD 0 else 0

/-- A channel of the demosaiced pixel: the own one as it stands, a missing one by the averaging rule (R285). -/
def CfgRegs.demosaicChan (c : CfgRegs) (rd : Nat → Nat → Chan → Nat) (own : Chan) (x y : Nat) (k : Chan) : Nat :=
  if k = own then rd x y own else c.missing rd x y k

/-- The channels the demosaic pass writes at (x, y) (R285). -/
def CfgRegs.demosaicPixel (c : CfgRegs) (rd : Nat → Nat → Chan → Nat) (own : Chan) (x y : Nat) : Rgb :=
  ⟨c.demosaicChan rd own x y .r, c.demosaicChan rd own x y .g, c.demosaicChan rd own x y .b⟩

/-- The pixels a missing channel is averaged over: those of the 3x3 neighbourhood, or, where there are none and the
pattern is 4x4, of the 5x5 one (R283, R284). -/
def CfgRegs.averaged (c : CfgRegs) (x y : Nat) (k : Chan) : List (Nat × Nat) :=
  let near := c.sameChannel k (neighbours c.width c.height 1 x y)
  if near = [] ∧ c.tileSize = 4 then c.sameChannel k (neighbours c.width c.height 2 x y) else near

/-- The channel reads of a pixel: its own channel, then those each missing channel is averaged over (R285). The order of
the reads after the first is DESIGN CHOICE, unsafe (log 4): R285 and R99 give none; the model takes the missing channels in
the order R, G, B, and the neighbours of each row by row. -/
def CfgRegs.demosaicReads (c : CfgRegs) (own : Chan) (x y : Nat) : List (Nat × Nat × Chan) :=
  (x, y, own) :: (Chan.all.filter (· ≠ own)).flatMap fun k => (c.averaged x y k).map fun p => (p.1, p.2, k)

/-- Once the channels are all read, the pixel they make (R285). -/
def CfgRegs.demosaicFetched (c : CfgRegs) (own : Chan) (x y : Nat) (got : List Nat) : WorkPhase :=
  let keys := c.demosaicReads own x y
  if got.length < keys.length then .read got
  else .write (c.demosaicPixel (fun px py k => gathered keys got 0 (px, py, k)) own x y)

end Sys2Proof.Machine
end

