-- ==== Sys2Proof/Machine/Engine.lean ====
section
/-! DEFINITION. The engine: what one engine step of the running command does (`engineStep`), pass by pass, and running it
(`runEngine`), with a bound on the steps a command still takes (`work`, R148). A step is one memory access, one table access
or one bookkeeping update of a pass rule (R365; log 4). -/

namespace Sys2Proof.Machine

/-! ### Passes -/

/-- PASS shows the pass (R146). -/
def showPass (p : PassPlan) (s : State) : State :=
  match p with
  | .lut _ => { s with pass := .lut, pos := .starting p }
  | .raw => { s with pass := .raw, pos := .starting p }
  | .demosaic => { s with pass := .demosaic, pos := .starting p }
  | .yuv => { s with pass := .yuv, pos := .starting p }

/-- `PROGRESS <- 0`, and the pass begins (R146). -/
def startPass (p : PassPlan) (s : State) : State :=
  match p with
  | .lut groups => { s with progress := 0, pos := .lutOpen groups }
  | .raw => { s with progress := 0, pos := .rawClear }
  | .demosaic => { s with progress := 0, pos := .demosaic [] (List.range s.cfg.height) false }
  | .yuv => { s with progress := 0, pos := .yuvRow 0 }

/-- The next pass, or the normal end of the command (R97, R146). -/
def stepBetween (s : State) : State :=
  match s.todo with
  | [] => finish .done s
  | p :: rest => showPass p { s with todo := rest }

/-- `PROGRESS <- PROGRESS + 1`. -/
def State.count (s : State) : State := { s with progress := s.progress + 1 }

/-! ### The LUT pass (R200) -/

/-- The cancel point before a table group. -/
def stepLutOpen (groups : List Group) (s : State) : State :=
  match groups with
  | [] => { s with pos := .between }
  | g :: rest => if s.cancelPending then finish .cancelled s else { s with pos := .lutClear g rest }

/-- `LUT_VALID[grp] <- 0`. -/
def stepLutClear (g : Group) (rest : List Group) (s : State) : State :=
  { s with lutValid := s.lutValid.set g false, pos := .lutFill g rest 0 }

/-- One entry of the group stored. -/
def stepLutFill (g : Group) (rest : List Group) (n : Nat) (s : State) : State :=
  { s with
    luts := s.luts.storeEntry s.cfg s.params.gainTol g n
    pos := if n + 1 < g.entries then .lutFill g rest (n + 1) else .lutMark g rest }

/-- `LUT_VALID[grp] <- 1`. -/
def stepLutMark (g : Group) (rest : List Group) (s : State) : State :=
  { s with lutValid := s.lutValid.set g true, pos := .lutCount rest }

/-! ### Row passes (R238, R258) -/

/-- A cancel point before a row, then the row, or the end of the pass after the last row. -/
def stepRowStart (y : Nat) (row : Pos) (s : State) : State :=
  if s.cfg.height ≤ y then { s with pos := .between }
  else if s.cancelPending then finish .cancelled s
  else { s with pos := row }

/-- The end of a row: counted; a truncated row then ends the pass. -/
def stepRowEnd (rowTrunc : Bool) (nextRow : Pos) (s : State) : State :=
  { s.count with pos := if rowTrunc then .truncated else nextRow }

/-- The engine's accesses for the snapshot lie inside the two spaces (R84). -/
def State.inSpaces (s : State) : Bool :=
  !s.cfg.badDst s.params.dstBytes && !s.cfg.badSrc s.params.srcBytes

/-- The next byte of a source read, address by address: the state in which it has been read for pixel (x, y) by the reader
of plane n, and its value. -/
def State.fetchByte (s : State) (n : PlaneId) (x y a : Nat) : State × Byte :=
  (s.noteSrc a x y, s.srcByte (readerSalt n x y) a)

/-- The next source byte of a raw pixel, or, before the first, the pixel skipped where a byte it depends on is not
available (R88, R258). -/
def rawFetch (y x : Nat) (rowTrunc : Bool) (got : List Byte) (k : Container) (s : State) : Result :=
  if got = [] ∧ s.cfg.decodable s.cfg.p0 k x y = false then .next { s with pos := .rawPix y (x + 1) true (.fetch []) }
  else
    match (s.cfg.dep s.cfg.p0 k x y)[got.length]? with
    | some a =>
      let r := s.fetchByte .p0 x y a
      .next { r.1 with pos := .rawPix y x rowTrunc (s.cfg.rawFetched k x y (got ++ [r.2])) }
    | none => .fault .unvalidated

/-- One step of a raw pixel (R258, R259): a byte read, a table entry read, the value accumulated, or the pixel written. -/
def rawStep (y x : Nat) (rowTrunc : Bool) (phase : RawPhase) (k : Container) (ch : Chan) (s : State) : Result :=
  match phase with
  | .fetch got => rawFetch y x rowTrunc got k s
  | .look raw =>
    match s.luts.look s.cfg k ch raw with
    | some p => .next { s with pos := .rawPix y x rowTrunc p }
    | none => .fault .uninitLut
  | .gain index =>
    match s.luts.gain16 ch index (s.wideAt x y) with
    | some v => .next { s with pos := .rawPix y x rowTrunc (.count (s.cfg.value16 v)) }
    | none => .fault .uninitLut
  | .count v =>
    .next { s with
      stats := s.stats.accumulate (s.cfg.inCentre x y) ch v.s16
      pos := .rawPix y x rowTrunc (.write v.out) }
  | .write out => .next { s.writePixel x y (ownOnly ch out) with pos := .rawPix y (x + 1) rowTrunc (.fetch []) }

/-- A step of the raw pass within row y (R258). -/
def stepRawPix (y x : Nat) (rowTrunc : Bool) (phase : RawPhase) (s : State) : Result :=
  if s.cfg.width ≤ x then .next (stepRowEnd rowTrunc (.rawRow (y + 1)) s)
  else if s.inSpaces then
    match s.cfg.p0.container, s.cfg.color x y with
    | some k, some ch => rawStep y x rowTrunc phase k ch s
    | _, _ => .fault .unvalidated
  else .fault .unvalidated

/-- One step of a pixel of the YUV pass (R234 to R236, R238): a byte read, or the converted pixel written; or, before the
first byte, the pixel skipped. -/
def yuvStep (y x : Nat) (rowTrunc : Bool) (phase : YuvPhase) (k : Container × Container × Container) (s : State) : Result :=
  match phase with
  | .fetch got =>
    if got = [] ∧ s.cfg.yuvDecodable k x y = false then .next { s with pos := .yuvPix y (x + 1) true (.fetch []) }
    else
      match (s.cfg.yuvDeps k x y)[got.length]? with
      | some (n, a) =>
        let r := s.fetchByte n x y a
        .next { r.1 with pos := .yuvPix y x rowTrunc (s.cfg.yuvFetched k x y (got ++ [r.2])) }
      | none => .fault .unvalidated
  | .write v => .next { s.writePixel x y v with pos := .yuvPix y (x + 1) rowTrunc (.fetch []) }

/-- A step of the YUV pass within row y (R238). -/
def stepYuvPix (y x : Nat) (rowTrunc : Bool) (phase : YuvPhase) (s : State) : Result :=
  if s.cfg.width ≤ x then .next (stepRowEnd rowTrunc (.yuvRow (y + 1)) s)
  else if s.inSpaces then
    match s.cfg.yuvContainers with
    | some k => yuvStep y x rowTrunc phase k s
    | none => .fault .unvalidated
  else .fault .unvalidated

/-! ### The demosaic pass -/

/-- The rows that may start now: those waiting, if a worker is free (R286). -/
def startable (workers : Nat) (active : List Worker) (waiting : List Nat) : List Nat :=
  if active.length < max workers 1 then waiting else []

/-- What the schedule picks among the workers at work and the rows that may start (R286, I10; log 11): the next entry of
`sched`, counted round; the first worker, or the first row, when `sched` is used up. -/
def schedulePick (sched : List Nat) (choices : Nat) : Nat := sched.headD 0 % choices

/-- The next channel read of a worker's pixel (R285). -/
def workerRead (w : Worker) (got : List Nat) (own : Chan) (s : State) : Option (State × WorkPhase) :=
  ((s.cfg.demosaicReads own w.x w.y)[got.length]?).map fun r =>
    (s.noteDst (s.cfg.dstAddr r.1 r.2.1),
      s.cfg.demosaicFetched own w.x w.y (got ++ [s.readCh (readerSalt .p0 w.x w.y) r.1 r.2.1 r.2.2]))

/-- A worker moves (R285, R286, R288): at its cancel point it stops or enters its pixel; in its pixel it reads a channel,
or writes the pixel and goes on to the next; or it counts its finished row. `i` is its place among the workers. -/
def stepWorker (i : Nat) (w : Worker) (active : List Worker) (waiting : List Nat) (stopped : Bool) (s : State) : Result :=
  let move (p : Worker) (t : State) : State := { t with pos := .demosaic (active.set i p) waiting stopped }
  match w.phase with
  | .gate =>
    if s.cancelPending then .next { s with pos := .demosaic (active.eraseIdx i) [] true }
    else .next (move ⟨w.y, w.x, .read []⟩ s)
  | .read got =>
    match s.cfg.color w.x w.y with
    | some own =>
      if s.cfg.badDst s.params.dstBytes then .fault .unvalidated
      else
        match workerRead w got own s with
        | some (t, p) => .next (move ⟨w.y, w.x, p⟩ t)
        | none => .fault .unvalidated
    | none => .fault .unvalidated
  | .write v =>
    if s.cfg.badDst s.params.dstBytes then .fault .unvalidated
    else .next (move (if w.x + 1 < s.cfg.width then ⟨w.y, w.x + 1, .gate⟩ else ⟨w.y, w.x, .count⟩) (s.writePixel w.x w.y v))
  | .count => .next { s.count with pos := .demosaic (active.eraseIdx i) waiting stopped }

/-- A step of the demosaic pass (R285 to R288): a worker moves or a row starts, as the schedule picks; when no row is left
the pass ends, CANCELLED where a worker saw the cancel. -/
def stepDemosaic (active : List Worker) (waiting : List Nat) (stopped : Bool) (s : State) : Result :=
  match active, waiting with
  | [], [] => .next (if stopped then finish .cancelled s else { s with pos := .between })
  | _, _ =>
    let rows := startable s.params.workers active waiting
    let pick := schedulePick s.sched (active.length + rows.length)
    let s' := { s with sched := s.sched.tail }
    match active[pick]? with
    | some w => stepWorker pick w active waiting stopped s'
    | none =>
      match rows[pick - active.length]? with
      | some y =>
        .next { s' with pos := .demosaic (active ++ [⟨y, 0, .gate⟩]) (waiting.eraseIdx (pick - active.length)) stopped }
      | none => .fault .unvalidated

/-! ### The engine -/

/-- What one engine step of the running command does (R365; log 4). -/
def engineMove (s : State) : Result :=
  match s.pos with
  | .idle => .fault .unvalidated
  | .checked (some code) => .next (finish (.error code) s)
  | .checked none => .next { s with pos := .between }
  | .between => .next (stepBetween s)
  | .starting p => .next (startPass p s)
  | .lutOpen groups => .next (stepLutOpen groups s)
  | .lutClear g rest => .next (stepLutClear g rest s)
  | .lutFill g rest n => .next (stepLutFill g rest n s)
  | .lutMark g rest => .next (stepLutMark g rest s)
  | .lutCount rest => .next { s.count with pos := .lutOpen rest }
  | .rawClear => .next { s with stats := Stats.zero, pos := .rawRow 0 }
  | .rawRow y => .next (stepRowStart y (.rawPix y 0 false (.fetch [])) s)
  | .rawPix y x rowTrunc phase => stepRawPix y x rowTrunc phase s
  | .demosaic active waiting stopped => stepDemosaic active waiting stopped s
  | .yuvRow y => .next (stepRowStart y (.yuvPix y 0 false (.fetch [])) s)
  | .yuvPix y x rowTrunc phase => stepYuvPix y x rowTrunc phase s
  | .truncated => .next { s with trunc := true, pos := .between }

/-- An engine step of a command that goes on is counted (log 10). -/
def State.ticked (t : State) (n : Nat) : State := { t with ticks := if t.busy then n + 1 else 0 }

/-- What follows an answer: goes on from a next state, and stops where the answer does. -/
def andThen (r : Result) (f : State → Result) : Result :=
  match r with
  | .next t => f t
  | .fault e => .fault e
  | .refused e => .refused e

/-- One engine step of the running command, counted. -/
def engineStep (s : State) : Result := andThen (engineMove s) fun t => .next (t.ticked s.ticks)

/-- At most `fuel` engine steps, none once the command has ended. -/
def runEngine : Nat → State → Result
  | 0, s => .next s
  | fuel + 1, s =>
    if s.busy then
      match engineStep s with
      | .next t => runEngine fuel t
      | .fault e => .fault e
      | .refused e => .refused e
    else .next s

/-! ### How long a command can still run (R148) -/

/-- Steps of one pixel of a row pass at most: its source bytes, two table reads, the statistics and the write. -/
def pixelWork (bytes : Nat) : Nat := bytes + 4

/-- Source bytes of a raw pixel. -/
def CfgRegs.rawBytes (c : CfgRegs) : Nat := (c.p0.container.map Container.bytes).getD 0

/-- Source bytes of a pixel of the YUV pass. -/
def CfgRegs.yuvBytes (c : CfgRegs) : Nat :=
  (c.yuvContainers.map fun k => k.1.bytes + k.2.1.bytes + k.2.2.bytes).getD 0

/-- Steps of a raw pixel from a phase on, of a sample of `bytes` bytes. -/
def RawPhase.work (bytes : Nat) : RawPhase → Nat
  | .fetch got => (bytes - got.length) + 4
  | .look _ => 4
  | .gain _ => 3
  | .count _ => 2
  | .write _ => 1

/-- Steps of a YUV pixel from a phase on, of samples of `bytes` bytes together. -/
def YuvPhase.work (bytes : Nat) : YuvPhase → Nat
  | .fetch got => (bytes - got.length) + 4
  | .write _ => 1

/-- Steps of a row pass of at most `px` steps a pixel, from the cancel point of row y on. -/
def rowsWork (c : CfgRegs) (px y : Nat) : Nat := (c.height - y) * (c.width * px + 3) + 1

/-- Steps of a row pass from a pixel with `left` steps to go on. -/
def rowWork (c : CfgRegs) (px y x left : Nat) : Nat :=
  (if x < c.width then (c.width - (x + 1)) * px + left else 0) + 2 + rowsWork c px (y + 1)

/-- Channel reads of a demosaic pixel at most. -/
def readBound : Nat := 76

/-- Steps of a worker's pixel from a phase on. -/
def WorkPhase.work : WorkPhase → Nat
  | .gate => readBound + 3
  | .read got => (readBound - got.length) + 2
  | .write _ => 2
  | .count => 1

/-- Steps of a worker for the rest of its row. -/
def Worker.work (c : CfgRegs) (w : Worker) : Nat := (c.width - (w.x + 1)) * (readBound + 3) + w.phase.work

/-- Steps of a row of the demosaic pass, its start included. -/
def demosaicRowWork (c : CfgRegs) : Nat := (c.width + 1) * (readBound + 3) + 1

/-- Steps of a demosaic pass. -/
def demosaicWork (c : CfgRegs) (active : List Worker) (waiting : List Nat) : Nat :=
  (active.map (Worker.work c)).sum + waiting.length * demosaicRowWork c + 1

/-- Steps of a LUT pass over the groups. -/
def lutWork (groups : List Group) : Nat := (groups.map fun g => g.entries + 5).sum + 1

/-- Steps of a pass once PROGRESS is cleared for it. -/
def PassPlan.body (c : CfgRegs) : PassPlan → Nat
  | .lut groups => lutWork groups
  | .raw => rowsWork c (pixelWork c.rawBytes) 0 + 1
  | .demosaic => demosaicWork c [] (List.range c.height)
  | .yuv => rowsWork c (pixelWork c.yuvBytes) 0

/-- Steps of a pass still to start, its start included. -/
def PassPlan.work (c : CfgRegs) (p : PassPlan) : Nat := p.body c + 2

/-- Steps from a position to the end of its pass. -/
def Pos.work (c : CfgRegs) : Pos → Nat
  | .idle => 0
  | .checked _ => 1
  | .between => 0
  | .starting p => p.body c + 1
  | .lutOpen groups => lutWork groups
  | .lutClear g rest => g.entries + 4 + lutWork rest
  | .lutFill g rest n => (g.entries - n) + 3 + lutWork rest
  | .lutMark _ rest => 2 + lutWork rest
  | .lutCount rest => 1 + lutWork rest
  | .rawClear => rowsWork c (pixelWork c.rawBytes) 0 + 1
  | .rawRow y => rowsWork c (pixelWork c.rawBytes) y
  | .rawPix y x _ phase => rowWork c (pixelWork c.rawBytes) y x (phase.work c.rawBytes)
  | .demosaic active waiting _ => demosaicWork c active waiting
  | .yuvRow y => rowsWork c (pixelWork c.yuvBytes) y
  | .yuvPix y x _ phase => rowWork c (pixelWork c.yuvBytes) y x (phase.work c.yuvBytes)
  | .truncated => 1

/-- A bound on the engine steps the running command still takes (R148). -/
def State.work (s : State) : Nat := s.pos.work s.cfg + (s.todo.map (PassPlan.work s.cfg)).sum + 1

/-! ### Letting the engine run until the host's next access -/

/-- Engine steps before the host's next access lands (R365, I12; log 3): the count it carries; as many as the command
takes where the host only waits, or does nothing more. -/
def State.budget (s : State) : Nat :=
  match s.host with
  | [] => s.work
  | ⟨_, .wait⟩ :: _ => s.work
  | e :: _ => e.after

/-- The engine runs until the host's next access lands. -/
def settle (s : State) : Result := runEngine s.budget s

end Sys2Proof.Machine
end

