-- ==== Sys2Proof/Machine/Commands.lean ====
section
/-! DEFINITION. The meaning of each command (40_harness, 42_lut R199, 44_yuv_csc R230, 45_bayer_decode R254, 46_demosaic
R280): what writing its word to CMD does. A command is accepted, validated, and its engine runs until the host's next
access lands or the command has ended; while another command runs the write is ignored and sets OVERRUN. -/

namespace Sys2Proof.Machine

/-- An accepted command before its first engine step: the verdict to report, the passes to run, and the record of what it
sets out from (log 10, log 12). -/
def State.launched (a : State) (verdict : Option ErrCode) (plan : List PassPlan) : State :=
  { a with
    pos := .checked verdict
    todo := plan
    launch := some ⟨a.draws, .checked verdict, plan, a.stats, a.luts, a.lutValid, a.sched, a.dst⟩ }

/-- Issuing a command that validates and runs passes (R140 to R144, R146): `verdict` is the outcome of its validation,
`plan` its passes, both of the accepted state. The engine reports the verdict with its first step (log 12). -/
def issue (w : Word) (verdict : State → Option ErrCode) (plan : State → List PassPlan) (s : State) : Result :=
  if s.busy then settle s.setOverrun
  else settle ((accept w s).launched (verdict (accept w s)) (plan (accept w s)))

/-- The passes of LUT_BUILD: none where no group is selected (R199). -/
def lutBuildPlan (lvl g8 g16 : Bool) : List PassPlan :=
  if selectedGroups lvl g8 g16 = [] then [] else [.lut (selectedGroups lvl g8 g16)]

/-- The passes of BAYER_DECODE (R254). -/
def bayerPlan (build : Bool) (c : CfgRegs) : List PassPlan :=
  (if build then [.lut c.needed] else []) ++ [.raw] ++ (if c.demosaicEn then [.demosaic] else [])

/-- NOP (R154). -/
def execNop (s : State) : Result :=
  if s.busy then settle s.setOverrun else .next (finish .done (accept (encode .nop) s))

/-- LUT_BUILD (R199). -/
def execLutBuild (lvl g8 g16 : Bool) (s : State) : Result :=
  issue (encode (.lutBuild lvl g8 g16)) (fun a => firstFailing (lutBuildChecks lvl g8 g16 a))
    (fun _ => lutBuildPlan lvl g8 g16) s

/-- BAYER_DECODE (R254). -/
def execBayerDecode (build : Bool) (s : State) : Result :=
  issue (encode (.bayerDecode build)) (fun a => firstFailing (bayerChecks build a)) (fun a => bayerPlan build a.cfg) s

/-- DEMOSAIC (R280). -/
def execDemosaic (s : State) : Result :=
  issue (encode .demosaic) (fun a => firstFailing (demosaicChecks a)) (fun _ => [.demosaic]) s

/-- YUV_CONVERT (R230). -/
def execYuvConvert (s : State) : Result :=
  issue (encode .yuvConvert) (fun a => firstFailing (yuvChecks a)) (fun _ => [.yuv]) s

end Sys2Proof.Machine
end

