-- ==== Sys2Proof/Machine/Dispatch.lean ====
section
/-! DEFINITION. One arm per command (R143). -/

namespace Sys2Proof.Machine

def exec (i : Instr) (s : State) : Host.Outcome State Fault Refusal :=
  match i with
  | .nop => Sys2Proof.Machine.execNop s
  | .lutBuild lvl g8 g16 => Sys2Proof.Machine.execLutBuild lvl g8 g16 s
  | .bayerDecode build => Sys2Proof.Machine.execBayerDecode build s
  | .demosaic => Sys2Proof.Machine.execDemosaic s
  | .yuvConvert => Sys2Proof.Machine.execYuvConvert s

end Sys2Proof.Machine
end

