-- ==== Sys2Proof/Machine/Race.lean ====
section
/-! DEFINITION. What another agent does while a command runs: a cancel request (40_harness section 4), and a write of a byte
the command uses (R102, R352, R353). The command's reads of such a byte are unspecified, those made before the write too: so
the command is run again, as far as it had come, with these reads free (log 10). -/

namespace Sys2Proof.Machine

/-- A cancel request: it waits for the next cancel point of a running command, and is lost on an idle block (R150, R152).
When the first one came is kept for `replay`. -/
def requestCancel (s : State) : State :=
  if s.busy then { s with cancelPending := true, cancelAt := s.cancelAt.or (some s.ticks) } else s

/-- The running command back where it set out from, everything that is not the engine's as it stands. -/
def relaunch (l : Launch) (s : State) : State :=
  { s with
    trunc := false
    pass := .idle
    progress := 0
    cancelPending := false
    pos := l.pos
    todo := l.todo
    stats := l.stats
    luts := l.luts
    lutValid := l.lutValid
    sched := l.sched
    dst := l.dst
    overwritten := []
    srcRead := []
    dstRead := []
    ticks := 0
    cancelAt := none }

/-- The running command run again for the engine steps it had taken, its cancel request coming when it came: the same run
with the reads of foreign bytes unspecified from its first step on (R102; log 10). -/
def replay (s : State) : Result :=
  match s.launch with
  | none => .next s
  | some l =>
    match s.cancelAt with
    | none => runEngine s.ticks (relaunch l s)
    | some k => andThen (runEngine k (relaunch l s)) fun t => runEngine (s.ticks - k) (requestCancel t)

/-- Another agent stores a destination byte while a command runs. It is also a source byte where the platform maps it into
both spaces (R83). -/
def foreignDstWrite (d : Nat) (v : Byte) (s : State) : Result :=
  let srcs := (sourcesOf s.params d).filter s.usesSrc
  let t : State :=
    { s with
      dst := Memory.write s.dst d v
      launch := s.launch.map fun l => { l with dst := Memory.write l.dst d v }
      srcForeign := srcs ++ s.srcForeign
      dstForeign := if s.usesDst d then d :: s.dstForeign else s.dstForeign }
  if s.usesDst d ∨ srcs ≠ [] then replay t else .next t

/-- Another agent stores a source byte while a command runs. -/
def foreignSrcWrite (a : Nat) (v : Byte) (s : State) : Result :=
  if s.usesSrc a then replay { s with src := Memory.write s.src a v, srcForeign := a :: s.srcForeign }
  else .next { s with src := Memory.write s.src a v }

end Sys2Proof.Machine
end

