-- ==== Sys2Proof/Machine/Resets.lean ====
section
/-! DEFINITION. The two resets (70_reset_and_hazards section 1), with what a reset does to a running command: the writes
in flight are torn (R342, I9; log 8), and the bytes raced for are settled as at any end of a command (log 10). -/

namespace Sys2Proof.Machine

/-- The bytes of a pixel write: address and value (R222). -/
def CfgRegs.pixelBytes (c : CfgRegs) (x y : Nat) (v : Rgb) : List Host.Cell :=
  (List.range c.bpp).map fun k => (c.dstAddr x y + k, byteOf (c.pixelWord v) k)

/-- The pixel write a raw pixel stands before. -/
def rawWriting (c : CfgRegs) (y x : Nat) (phase : RawPhase) : List Host.Cell :=
  match phase, c.color x y with
  | .write out, some ch => if x < c.width then c.pixelBytes x y (ownOnly ch out) else []
  | _, _ => []

/-- The pixel write a YUV pixel stands before. -/
def yuvWriting (c : CfgRegs) (y x : Nat) (phase : YuvPhase) : List Host.Cell :=
  match phase with
  | .write v => if x < c.width then c.pixelBytes x y v else []
  | .fetch _ => []

/-- The pixel write a demosaic worker stands before. -/
def Worker.writing (c : CfgRegs) (w : Worker) : List Host.Cell :=
  match w.phase with
  | .write v => c.pixelBytes w.x w.y v
  | .gate => []
  | .read _ => []
  | .count => []

/-- The pixel writes that may be in flight between two engine steps: those the next steps of the engine and of every demosaic
worker make (R342). -/
def State.inFlight (s : State) : List Host.Cell :=
  match s.pos with
  | .rawPix y x _ phase => rawWriting s.cfg y x phase
  | .demosaic active _ _ => active.flatMap (Worker.writing s.cfg)
  | .yuvPix y x _ phase => yuvWriting s.cfg y x phase
  | _ => []

/-- The destination space with the writes in flight torn: each byte is the old or the new one (R342). -/
def State.tornDst (s : State) : Memory :=
  s.inFlight.foldl (fun m c => if Config.tornByte s.draws c.1 then Memory.write m c.1 c.2 else m) s.dst

/-- The tables with the entry write in flight torn (R342). -/
def State.tornLuts (s : State) : Luts :=
  match s.pos with
  | .lutFill g _ n => s.luts.torn ((s.launch.map Launch.luts).getD s.luts) s.cfg s.params.gainTol s.draws g n
  | _ => s.luts

/-- The running command abandoned between two of its engine steps (R342). The writes in flight are torn (log 8). That R102
holds for an abandoned command too, so that a byte another agent wrote during it and it had used is unspecified after the
reset, is the model's choice: R102 speaks of the command's end, R340 and R343 of SRC and DST unchanged by the reset
(log 10). -/
def abandon (s : State) : State :=
  if s.busy then
    { s with
      src := s.settledSrc
      dst := { s with dst := s.tornDst, overwritten := s.inFlight ++ s.overwritten }.settledDst
      luts := s.tornLuts
      draws := s.draws + 1 }
  else s

/-- Soft reset (R341). -/
def softReset (s : State) : State := (abandon s).resetRegisters

/-- Hardware reset (R340). -/
def hardReset (s : State) : State := { (abandon s).resetRegisters with luts := Luts.unwritten }

end Sys2Proof.Machine
end

