-- ==== Sys2Proof/Machine/HostPort.lean ====
section
/-! DEFINITION. What each access of the outside world does: register reads and writes (10_state), the table port
(42_lut section 5), cancel and resets (40_harness section 4, 70_reset_and_hazards), the host's use of the memories
(20_memory section 4). An access is followed by the engine steps that fall before the next one (log 3). -/

namespace Sys2Proof.Machine

/-- A word returned to the host. -/
def State.answer (s : State) (v : Word) : State := { s with reads := v :: s.reads }

/-- A free value drawn. -/
def State.draw (s : State) : State := { s with draws := s.draws + 1 }

/-- What follows an access: the engine runs until the next one lands. -/
def thenSettle (r : Result) : Result := andThen r settle

/-! ### The table port -/

/-- A host read of LUT_DATA (R203, R205). -/
def lutPortRead (s : State) : Result :=
  if s.busy then .next (s.setOverrun.answer 0)
  else
    match s.luts.portEntry s.lutAddr with
    | some v => .next ({ s with lutAddr := nextAddr s.lutAddr }.answer v)
    | none => .fault .uninitLut

/-- A host write of LUT_DATA (R204, R205). -/
def lutPortWrite (v : Word) (s : State) : State :=
  if s.busy then s.setOverrun
  else
    { s with
      luts := s.luts.portStore s.lutAddr v
      lutValid := s.lutValid.portStore s.lutAddr
      lutAddr := nextAddr s.lutAddr }

/-! ### Registers -/

/-- A host read of a STATS register: exact while idle, a free value while a command runs (R44). -/
def readStat (centre : Bool) (c : Chan) (w : StatWord) (s : State) : State :=
  if s.busy then s.draw.answer (Config.statsWhileBusy s.draws) else s.answer (s.stats.word centre c w)

/-- A host read of a register (R21 to R30, R43 to R47). -/
def readReg (r : Reg) (s : State) : Result :=
  match r with
  | .id => .next (s.answer 0x50564445)
  | .version => .next (s.answer 0x00010000)
  | .ctrl => .next (s.answer 0)
  | .cmd => .next (s.answer s.cmd)
  | .status => .next (s.answer s.status)
  | .irqEn => .next (s.answer s.irqEn)
  | .progress => .next (s.answer s.progress)
  | .cfg c => .next (s.answer (s.regs.get c))
  | .stat centre c w => .next (readStat centre c w s)
  | .lutAddr => .next (s.answer s.lutAddr)
  | .lutData => lutPortRead s
  | .lutValid => .next (s.answer s.lutValid.word)

/-- A host write of CTRL: a soft reset, else a cancel request, which an idle block loses (R25, R150). -/
def writeCtrl (v : Word) (s : State) : State :=
  if flag v 1 then softReset s
  else if flag v 0 then requestCancel s
  else s

/-- A word written to CMD: a command, or an illegal word (R26, R140, R141, R143). -/
def issueWord (w : Word) (s : State) : Result :=
  match decode w with
  | .command i => exec i s
  | .illegal _ => settle (illegalCommand w s)

/-- A host write of a register (R21 to R29, R45 to R48), with the engine steps after it. -/
def writeReg (r : Reg) (v : Word) (s : State) : Result :=
  match r with
  | .id => settle s
  | .version => settle s
  | .ctrl => settle (writeCtrl v s)
  | .cmd => issueWord v s
  | .status => settle (s.clearStatus v)
  | .irqEn => settle { s with irqEn := v &&& irqEnMask }
  | .progress => settle s
  | .cfg c => settle { s with regs := s.regs.write c v }
  | .stat _ _ _ => settle s
  | .lutAddr => settle { s with lutAddr := v &&& lutAddrMask }
  | .lutData => settle (lutPortWrite v s)
  | .lutValid => settle s

/-- Why a register access has no meaning, if it has none (R20, R23, I2, I3). -/
def accessRefusal (off width : Nat) : Option Refusal :=
  if width ≠ regWidth then some .accessWidth
  else if off % 4 ≠ 0 then some .misaligned
  else if regWindow ≤ off then some .outsideWindow
  else none

/-- A host register write at an offset; an unmapped offset ignores it (R21). -/
def hostWrite (off : Nat) (v : Word) (width : Nat) (s : State) : Result :=
  match accessRefusal off width with
  | some r => .refused r
  | none =>
    match Reg.ofOffset off with
    | some r => writeReg r v s
    | none => settle s

/-- A host register read at an offset; an unmapped offset reads 0 (R21). -/
def hostRead (off width : Nat) (s : State) : Result :=
  match accessRefusal off width with
  | some r => .refused r
  | none =>
    match Reg.ofOffset off with
    | some r => thenSettle (readReg r s)
    | none => settle (s.answer 0)

/-! ### The host's use of the memories -/

/-- The host stores a destination byte; while a command runs it may be one the command uses (R102, R353). -/
def hostDstWrite (d : Nat) (v : Byte) (s : State) : Result :=
  if s.busy then foreignDstWrite d v s else .next { s with dst := Memory.write s.dst d v }

/-- The host stores a source byte; while a command runs it may be one the command reads (R102, R352). A byte the platform
maps into both spaces is stored as the destination byte it is (R83). -/
def hostSrcWrite (a : Nat) (v : Byte) (s : State) : Result :=
  match aliasOf s.params a with
  | some d => hostDstWrite d v s
  | none => if s.busy then foreignSrcWrite a v s else .next { s with src := Memory.write s.src a v }

/-- The values a destination byte has held since the running command was accepted, newest first (R100). -/
def State.dstValues (s : State) (a : Nat) : List Byte :=
  Memory.read s.dst a :: (s.overwritten.filter fun c => c.1 == a).map Prod.snd

/-- The host reads a destination byte: exact while no command runs (R101); while one runs, a byte it has written gives
any of the values the byte has held (R100, I6, I7; log 9), and a byte raced for any value at all (R102). -/
def hostDstRead (a : Nat) (s : State) : State :=
  if s.busy then
    if s.racedBytes.contains a then s.draw.answer (BitVec.zeroExtend 32 (Config.racedDst s.draws 0 a))
    else
      s.draw.answer (BitVec.zeroExtend 32
        ((s.dstValues a).getD (Config.dstReadChoice s.draws % (s.dstValues a).length) (Memory.read s.dst a)))
  else s.answer (BitVec.zeroExtend 32 (Memory.read s.dst a))

/-- The host reads a source byte: exact, but for a byte raced for (R93, R102; log 10). A byte the platform maps into both
spaces is read as the destination byte it is (R83). -/
def hostSrcRead (a : Nat) (s : State) : State :=
  match aliasOf s.params a with
  | some d => hostDstRead d s
  | none =>
    if s.busy && s.racedSources.contains a then s.draw.answer (BitVec.zeroExtend 32 (Config.racedSrc s.draws 0 a))
    else s.answer (BitVec.zeroExtend 32 (Memory.read s.src a))

/-! ### Every access -/

/-- One access of the outside world, and the engine steps that fall before the next one. -/
def hostAccess (op : HostOp) (s : State) : Result :=
  match op with
  | .write off v width => hostWrite off v width s
  | .read off width => hostRead off width s
  | .wait => thenSettle (runEngine s.work s)
  | .srcWrite a v => if a < s.params.srcBytes then thenSettle (hostSrcWrite a v s) else .refused .outsideMemory
  | .srcRead a =>
    if a < s.params.srcBytes then settle (hostSrcRead a s) else .refused .outsideMemory
  | .dstWrite a v => if a < s.params.dstBytes then thenSettle (hostDstWrite a v s) else .refused .outsideMemory
  | .dstRead a => if a < s.params.dstBytes then settle (hostDstRead a s) else .refused .outsideMemory
  | .hardReset => settle (hardReset s)

/-- The host access that writes a command word: the form a command word is fetched in (R106, R110). -/
def commandWrite (w : Word) : HostOp := .write 0x00C w 32

end Sys2Proof.Machine
end

