-- ==== Sys2Proof/Machine/Step.lean ====
section
/-! DEFINITION. One step of the machine: the host's oldest access, with the engine steps that fall before the next one;
or, where the host does nothing more, the rest of the running command (R8, R365; log 3). A command word is fetched from
the write to CMD that carries it (R106). -/

namespace Sys2Proof.Machine

/-- One step. -/
def step (s : State) : Host.Outcome State Fault Refusal :=
  match s.host with
  | [] => settle s
  | e :: rest => hostAccess e.op { s with host := rest }

/-- The state whose next step writes the given word to CMD with the engine idle, so that it is fetched and run (R106;
log 13). -/
def State.withFetchWord (s : State) (nbits w : Nat) : State :=
  { s with
    busy := false
    pos := .idle
    todo := []
    host := ⟨0, commandWrite (BitVec.ofNat 32 (w % 2 ^ nbits))⟩ :: s.host }

end Sys2Proof.Machine
end

