-- ==== Sys2Proof/Safety.lean ====
section
/-! DEFINITION. The terms claims are stated in: when a command runs undisturbed, what a command leaves alone, how it has
ended, what is well formed in a state, and what a safe answer is. -/

namespace Sys2Proof.Machine

/-! ### A command that runs undisturbed -/

/-- No access of the host lands before the running command has ended: the host does nothing more, or waits (R126). -/
abbrev State.Undisturbed (s : State) : Prop := (s.host.head?.all fun e => decide (e.op = .wait)) = true

/-- The outcome of a command's validation, on the accepted state (R144, R303); NOP validates nothing. -/
def verdictOf : Instr → State → Option ErrCode
  | .nop, _ => none
  | .lutBuild lvl g8 g16, a => firstFailing (lutBuildChecks lvl g8 g16 a)
  | .bayerDecode build, a => firstFailing (bayerChecks build a)
  | .demosaic, a => firstFailing (demosaicChecks a)
  | .yuvConvert, a => firstFailing (yuvChecks a)

/-- The checks a command applies, on the accepted state (R303). -/
def checksOf : Instr → State → List (ErrCode × Bool)
  | .nop, _ => []
  | .lutBuild lvl g8 g16, a => lutBuildChecks lvl g8 g16 a
  | .bayerDecode build, a => bayerChecks build a
  | .demosaic, a => demosaicChecks a
  | .yuvConvert, a => yuvChecks a

/-- The passes of a command, on the accepted state (R199, R230, R254, R280). -/
def planOf : Instr → State → List PassPlan
  | .nop, _ => []
  | .lutBuild lvl g8 g16, _ => lutBuildPlan lvl g8 g16
  | .bayerDecode build, a => bayerPlan build a.cfg
  | .demosaic, _ => [.demosaic]
  | .yuvConvert, _ => [.yuv]

/-- The snapshot a command works with passes its validation (R144). -/
abbrev Valid (i : Instr) (s : State) : Prop := verdictOf i (accept (encode i) s) = none

/-- The platform keeps the bytes a command of this snapshot reads from SRC apart from those it writes in DST, as R83
requires. -/
def CfgRegs.apart (c : CfgRegs) (p : Params) (i : Instr) : Prop :=
  ∀ a d, aliasOf p a = some d → c.mayRead i a = true → c.mayWrite i d = false

/-- R83's requirement for the command to be issued. -/
abbrev Apart (i : Instr) (s : State) : Prop := s.regs.apart s.params i

/-! ### What a command leaves alone, and how it ends -/

/-- What no command changes: the parameters, the configuration registers, IRQ_EN, OVERRUN, LUT_ADDR, the source space,
what the host will do and what it has read. -/
structure HostSideKept (s t : State) : Prop where
  params : t.params = s.params
  regs : t.regs = s.regs
  irqEn : t.irqEn = s.irqEn
  overrun : t.overrun = s.overrun
  lutAddr : t.lutAddr = s.lutAddr
  src : t.src = s.src
  host : t.host = s.host
  reads : t.reads = s.reads

/-- What the end of the command word `w` leaves, whatever the outcome (R140, R147). -/
structure CommandOver (w : Word) (s t : State) : Prop where
  busy : t.busy = false
  pass : t.pass = .idle
  cancelPending : t.cancelPending = false
  pos : t.pos = .idle
  todo : t.todo = []
  cmd : t.cmd = w
  op : t.op = w
  cfg : t.cfg = s.regs

/-- The outcome bits of a command that ended DONE, with TRUNC (R147). -/
structure EndedDone (trunc : Bool) (t : State) : Prop where
  done : t.done = true
  error : t.error = false
  cancelled : t.cancelled = false
  errCode : t.errCode = .none
  trunc : t.trunc = trunc

/-- The outcome bits of a command that ended ERROR (R147, R305). -/
structure EndedError (code : ErrCode) (t : State) : Prop where
  done : t.done = false
  error : t.error = true
  cancelled : t.cancelled = false
  errCode : t.errCode = code
  trunc : t.trunc = false
  progress : t.progress = 0

/-- Tables, LUT_VALID and STATS unchanged. -/
structure TablesAndStatsKept (s t : State) : Prop where
  luts : t.luts = s.luts
  lutValid : t.lutValid = s.lutValid
  stats : t.stats = s.stats

/-- The pixel (x, y) lies in the frame of the snapshot. -/
abbrev CfgRegs.hasPixel (c : CfgRegs) (x y : Nat) : Prop := x < c.width ∧ y < c.height

/-- The address is byte `a - D(x, y)` of pixel (x, y) (R87, R90). -/
abbrev CfgRegs.pixelHas (c : CfgRegs) (x y a : Nat) : Prop := c.dstAddr x y ≤ a ∧ a < c.dstAddr x y + c.bpp

/-- The bytes of pixel (x, y) in a destination space are the packed pixel `v` (R222). -/
abbrev CfgRegs.pixelIs (c : CfgRegs) (m : Memory) (x y : Nat) (v : Rgb) : Prop :=
  ∀ k < c.bpp, Memory.read m (c.dstAddr x y + k) = byteOf (c.pixelWord v) k

/-- The channel values of a pixel in a destination space (R224). -/
def CfgRegs.chanIn (c : CfgRegs) (m : Memory) (x y : Nat) (k : Chan) : Nat :=
  c.channelOf (Memory.readN m (c.dstAddr x y) c.bpp) k

/-- LUT_ADDR after a port access: with AUTO_INC the index has stepped modulo 65536 and the other bits are as before;
without it nothing has moved (R203, R204). -/
structure IndexStepped (before after : Word) : Prop where
  still : before.getLsbD 31 = false → after = before
  index : before.getLsbD 31 = true →
    (after.extractLsb' 0 16).toNat = ((before.extractLsb' 0 16).toNat + 1) % 65536
  rest : after.extractLsb' 16 16 = before.extractLsb' 16 16

/-- An answer with its next state mapped. -/
def mapNext (f : State → State) : Result → Result
  | .next t => .next (f t)
  | .fault r => .fault r
  | .refused r => .refused r

/-! ### What a LUT pass leaves in the tables -/

/-- The tables have the sizes of R53. -/
abbrev Luts.sized (t : Luts) : Prop :=
  t.lvl.hasDepth 16 = true ∧ (∀ c : Chan, (t.g8.get c).hasDepth 8 = true) ∧ ∀ c : Chan, (t.g16.get c).hasDepth 16 = true

/-- The tables and LUT_VALID of `t` are those of `s` with the groups `gs` filled from the snapshot c: every entry of every
table of a group built as R196 to R198 say and its bit 1, every other table and bit as before (R200). -/
structure TablesBuilt (c : CfgRegs) (tol : Nat) (gs : List Group) (s t : State) : Prop where
  lvl : .lvl ∈ gs → ∀ i < 65536, Ram.read t.luts.lvl i = some (BitVec.ofNat 16 (c.lvlEntry i))
  g8 : .g8 ∈ gs → ∀ ch, ∀ i < 256, Ram.read (t.luts.g8.get ch) i = some (BitVec.ofNat 8 (c.g8Entry tol ch i))
  g16 : .g16 ∈ gs → ∀ ch, ∀ i < 65536, Ram.read (t.luts.g16.get ch) i = some (BitVec.ofNat 16 (c.g16Entry tol ch i))
  lvlKept : .lvl ∉ gs → t.luts.lvl = s.luts.lvl
  g8Kept : .g8 ∉ gs → t.luts.g8 = s.luts.g8
  g16Kept : .g16 ∉ gs → t.luts.g16 = s.luts.g16
  valid : ∀ g, t.lutValid.get g = (decide (g ∈ gs) || s.lutValid.get g)

/-! ### Packing a MIPI group: the inverse of the layout of R175, R177, R178 -/

/-- The fragment bits of the samples of a group as one number: lane 0 lowest in little-endian order, highest in
big-endian order. -/
def packedFragments (bigEndian : Bool) (g : MipiGeom) (v : Nat → Nat) : Nat :=
  ((List.range g.samples).map fun j =>
    v j % 2 ^ g.frag * 2 ^ (if bigEndian then 8 * g.extra - g.frag * (j + 1) else g.frag * j)).sum

/-- Byte i of the group that holds the samples v: the high bytes, then the extra bytes in the byte order. -/
def packedByte (bigEndian : Bool) (g : MipiGeom) (v : Nat → Nat) (i : Nat) : Byte :=
  if i < g.samples then BitVec.ofNat 8 (v i / 2 ^ g.frag)
  else byteOf (packedFragments bigEndian g v) (if bigEndian then g.bytes - 1 - i else i - g.samples)

/-! ### What the passes leave in the destination space -/

/-- Every pixel of the rows before row y is decodable, so that a row pass reaches row y (R88, R238, R258). -/
abbrev CfgRegs.reaches (c : CfgRegs) (dec : Nat → Nat → Bool) (y : Nat) : Prop :=
  ∀ y' < y, ∀ x' < c.width, dec x' y' = true

/-- The pixel (x, y) is one the row pass decodes and writes. -/
abbrev CfgRegs.writes (c : CfgRegs) (dec : Nat → Nat → Bool) (x y : Nat) : Prop :=
  c.hasPixel x y ∧ dec x y = true ∧ c.reaches dec y

/-- What a row pass (raw or YUV) leaves, `dec` saying which pixels are decodable and `val` what is written at each
(R238, R258, R261): the pixels decoded, every other byte, TRUNC, and the rows counted. -/
structure RowPassResult (c : CfgRegs) (dec : Nat → Nat → Bool) (val : Nat → Nat → Option Rgb) (before after : Memory)
    (trunc : Bool) (rows : Nat) : Prop where
  written : ∀ x y, c.writes dec x y → ∃ v, val x y = some v ∧ c.pixelIs after x y v
  untouched : ∀ a, (∀ x y, c.writes dec x y → ¬c.pixelHas x y a) → Memory.read after a = Memory.read before a
  truncated : trunc = true ↔ ∃ x y, c.hasPixel x y ∧ dec x y = false
  whole : (∀ x y, c.hasPixel x y → dec x y = true) → rows = c.height
  cut : ∀ x y, c.hasPixel x y → dec x y = false → c.reaches dec y → rows = y + 1

/-- What a finished demosaic pass leaves (R285, R287): each pixel demosaiced from the contents before the pass, every
byte outside the frame as before. -/
structure DemosaicResult (c : CfgRegs) (before after : Memory) : Prop where
  written : ∀ x y, c.hasPixel x y → ∃ own, c.color x y = some own ∧
    c.pixelIs after x y (c.demosaicPixel (c.chanIn before) own x y)
  untouched : ∀ a, (∀ x y, c.hasPixel x y → ¬c.pixelHas x y a) → Memory.read after a = Memory.read before a

/-- What a raw pixel gives with the tables of this snapshot (R196 to R198, R201, R259). -/
def CfgRegs.builtValue (c : CfgRegs) (tol : Nat) (k : Container) (ch : Chan) (raw : Nat) : RawValue :=
  match k with
  | .byte8 => ⟨c.out8 (c.g8Entry tol ch raw), c.g8Entry tol ch raw * 256⟩
  | .word16 b =>
    ⟨c.out16 (c.g16Entry tol ch (leftJustify (c.level_b b raw) b)), c.g16Entry tol ch (leftJustify (c.level_b b raw) b)⟩
  | .mipi b _ =>
    ⟨c.out16 (c.g16Entry tol ch (leftJustify (c.level_b b raw) b)), c.g16Entry tol ch (leftJustify (c.level_b b raw) b)⟩

/-- What BAYER_DECODE build gives at pixel (x, y). -/
def State.builtAt (s : State) (k : Container) (x y : Nat) : Option RawValue :=
  (s.regs.color x y).map fun ch => s.regs.builtValue s.params.gainTol k ch (s.regs.fetch s.srcAt s.regs.p0 k x y)

/-- What BAYER_DECODE gives at pixel (x, y) with the tables as they stand; the command's free values are those of the
next draw (log 7, log 17). -/
def State.storedAt (s : State) (k : Container) (x y : Nat) : Option RawValue :=
  (s.regs.color x y).bind fun ch =>
    s.luts.rawValue s.regs k ch (s.regs.fetch s.srcAt s.regs.p0 k x y) (Config.wideIndex (s.draws + 1) (x + 65536 * y))

/-- The pixel a raw value is written as (R263). -/
def CfgRegs.rawRgb (c : CfgRegs) (v : Nat → Nat → Option RawValue) (x y : Nat) : Option Rgb :=
  (c.color x y).bind fun ch => (v x y).map fun r => ownOnly ch r.out

/-- The pixels of the frame in scan order (R98). -/
def CfgRegs.pixels (c : CfgRegs) : List (Nat × Nat) :=
  (List.range c.height).flatMap fun y => (List.range c.width).map fun x => (x, y)

/-- The sum, over the decodable pixels of own channel ch, of `wgt * f` (R260). -/
def CfgRegs.total (c : CfgRegs) (dec : Nat → Nat → Bool) (ch : Chan) (wgt f : Nat → Nat → Nat) : Nat :=
  ((c.pixels.filter fun p => dec p.1 p.2 && c.color p.1 p.2 == some ch).map fun p => wgt p.1 p.2 * f p.1 p.2).sum

/-- The weight of a pixel in the centre-weighted statistic (R260). -/
def CfgRegs.weight (c : CfgRegs) (x y : Nat) : Nat := if c.inCentre x y then 2 else 1

/-- The statistics over the decodable pixels, s16 by pixel (R260). -/
structure StatsResult (c : CfgRegs) (dec : Nat → Nat → Bool) (s16 : Nat → Nat → Nat) (t : Stats) : Prop where
  sumU : ∀ ch, (t.unweighted.get ch).sum = BitVec.ofNat 64 (c.total dec ch (fun _ _ => 1) s16)
  cntU : ∀ ch, (t.unweighted.get ch).cnt = BitVec.ofNat 64 (c.total dec ch (fun _ _ => 1) fun _ _ => 1)
  sumC : ∀ ch, (t.centre.get ch).sum = BitVec.ofNat 64 (c.total dec ch c.weight s16)
  cntC : ∀ ch, (t.centre.get ch).cnt = BitVec.ofNat 64 (c.total dec ch c.weight fun _ _ => 1)

/-- What a raw pixel gives to the running command (R259), as its source, tables and free values stand. -/
def State.liveAt (s : State) (k : Container) (x y : Nat) : Option RawValue :=
  (s.cfg.color x y).bind fun ch => s.luts.rawValue s.cfg k ch (s.cfg.fetch s.srcAt s.cfg.p0 k x y) (s.wideAt x y)

/-- The pixel (x, y) as a YUV_CONVERT of the snapshot writes it (R234 to R236). -/
def CfgRegs.yuvPixel (c : CfgRegs) (rd : Nat → Byte) (k : Container × Container × Container) (x y : Nat) : Rgb :=
  c.outRgb (c.cscConvert (c.yuvSample (fun _ => rd) k x y))

/-- The 16-bit value of a raw value for the statistics, 0 where there is none. -/
def s16Of (v : Nat → Nat → Option RawValue) (x y : Nat) : Nat := ((v x y).map RawValue.s16).getD 0

/-- No other agent has written a byte of the running command (R102). -/
structure State.Unraced (s : State) : Prop where
  src : s.srcForeign = []
  dst : s.dstForeign = []

/-- The running command has used no byte of either space yet. -/
structure State.Untouched (s : State) : Prop where
  overwritten : s.overwritten = []
  srcRead : s.srcRead = []
  dstRead : s.dstRead = []

/-- A running command at the start of its raw pass, its only one and its first over the frame, on a validated snapshot. -/
structure RawPassStart (k : Container) (s : State) : Prop where
  busy : s.busy = true
  cancelled : s.cancelled = false
  pos : s.pos = .rawClear
  todo : .raw ∉ s.todo
  progress : s.progress = 0
  trunc : s.trunc = false
  unraced : s.Unraced
  untouched : s.Untouched
  dstWf : Memory.wf s.dst = true
  container : s.cfg.p0.container = some k
  colors : ∀ x y, s.cfg.color x y ≠ none
  spaces : s.inSpaces = true
  dim : s.cfg.badDim = false
  stride : s.cfg.p0.badStride s.cfg.width = false
  dstStride : s.cfg.badDstStride = false
  apart : s.cfg.apart s.params (.bayerDecode false)

/-- A running YUV_CONVERT at the start of its pass, on a validated snapshot. -/
structure YuvPassStart (k : Container × Container × Container) (s : State) : Prop where
  busy : s.busy = true
  done : s.done = false
  cancelled : s.cancelled = false
  pos : s.pos = .yuvRow 0
  todo : s.todo = []
  progress : s.progress = 0
  trunc : s.trunc = false
  unraced : s.Unraced
  untouched : s.Untouched
  dstWf : Memory.wf s.dst = true
  containers : s.cfg.yuvContainers = some k
  spaces : s.inSpaces = true
  dim : s.cfg.badDim = false
  strides : ∀ n, (s.cfg.plane n).badStride (s.cfg.planeWidth n) = false
  dstStride : s.cfg.badDstStride = false
  apart : s.cfg.apart s.params .yuvConvert

/-- A running command at the start of its demosaic pass, its last, on a validated snapshot. -/
structure DemosaicPassStart (s : State) : Prop where
  busy : s.busy = true
  done : s.done = false
  cancelled : s.cancelled = false
  pos : s.pos = .demosaic [] (List.range s.cfg.height) false
  todo : s.todo = []
  progress : s.progress = 0
  unraced : s.Unraced
  apart : ∀ r ∈ s.srcRead, ∀ d, aliasOf s.params r.addr = some d → s.hasWritten d = false ∧ s.cfg.inFrame d = false
  dstWf : Memory.wf s.dst = true
  colors : ∀ x y, s.cfg.color x y ≠ none
  dst : s.cfg.badDst s.params.dstBytes = false
  dim : s.cfg.badDim = false
  dstStride : s.cfg.badDstStride = false

/-- A running command at the start of its LUT pass over the groups `gs`: a LUT_BUILD, with no pass to come, or a
BAYER_DECODE build, with passes over the frame to come (R199, R256). -/
structure LutPassStart (gs : List Group) (s : State) : Prop where
  busy : s.busy = true
  done : s.done = false
  cancelled : s.cancelled = false
  pos : s.pos = .lutOpen gs
  todo : ∀ gs', .lut gs' ∉ s.todo
  progress : s.progress = 0
  unraced : s.Unraced
  untouched : s.Untouched
  sized : s.luts.sized

/-! ### What is well formed in a state -/

/-- The two memories are in canonical form. -/
abbrev State.MemoriesCanonical (s : State) : Prop := Memory.wf s.src = true ∧ Memory.wf s.dst = true

/-- PASS reads 0 whenever BUSY reads 0, and no cancel request outlives its command (R27, R147, R152). -/
abbrev State.IdleIsClean (s : State) : Prop :=
  s.busy = false → s.pass = .idle ∧ s.cancelPending = false ∧ s.pos = .idle ∧ s.todo = []

/-- At most one of DONE, ERROR, CANCELLED is 1, and none while a command runs (R27, R140, R147). -/
abbrev State.OneOutcome (s : State) : Prop :=
  (s.busy = true → s.done = false ∧ s.error = false ∧ s.cancelled = false) ∧
    ¬(s.done = true ∧ s.error = true) ∧ ¬(s.done = true ∧ s.cancelled = true) ∧
    ¬(s.error = true ∧ s.cancelled = true)

/-- Every reserved bit of every register reads 0 (R22). -/
abbrev State.ReservedZero (s : State) : Prop :=
  s.regs.reservedZero = true ∧ s.irqEn &&& irqEnMask = s.irqEn ∧ s.lutAddr &&& lutAddrMask = s.lutAddr

/-- The storage of the block is well formed: the memories in canonical form, the tables of their sizes; and what the
running command set out from likewise (log 10). -/
abbrev State.StorageOk (s : State) : Prop :=
  s.MemoriesCanonical ∧ s.luts.sized ∧ ∀ l, s.launch = some l → Memory.wf l.dst = true ∧ l.luts.sized

/-- What a pass needs of the snapshot and the parameters; validation grants it (R301). -/
def State.passReady (s : State) : PassPlan → Prop
  | .lut _ => True
  | .raw => s.cfg.p0.container ≠ none ∧ (∀ x y, s.cfg.color x y ≠ none) ∧ s.inSpaces = true
  | .demosaic => (∀ x y, s.cfg.color x y ≠ none) ∧ s.cfg.badDst s.params.dstBytes = false
  | .yuv => s.cfg.yuvContainers ≠ none ∧ s.inSpaces = true

/-- A raw pixel that is still being fetched has a byte to fetch. -/
def RawPhase.ready (c : CfgRegs) : RawPhase → Prop
  | .fetch got => got.length < c.rawBytes
  | .look _ => True
  | .gain _ => True
  | .count _ => True
  | .write _ => True

/-- A YUV pixel that is still being fetched has a byte to fetch. -/
def YuvPhase.ready (c : CfgRegs) : YuvPhase → Prop
  | .fetch got => got.length < c.yuvBytes
  | .write _ => True

/-- A worker that is still reading has a channel to read. -/
def Worker.ready (c : CfgRegs) (w : Worker) : Prop :=
  ∀ got, w.phase = .read got → ∀ own, c.color w.x w.y = some own → got.length < (c.demosaicReads own w.x w.y).length

/-- The position is one of a pass the snapshot allows. -/
def State.posReady (s : State) : Pos → Prop
  | .idle => False
  | .checked _ => True
  | .between => True
  | .starting p => s.passReady p
  | .lutOpen _ => True
  | .lutClear _ _ => True
  | .lutFill _ _ _ => True
  | .lutMark _ _ => True
  | .lutCount _ => True
  | .rawClear => s.passReady .raw
  | .rawRow _ => s.passReady .raw
  | .rawPix _ _ _ phase => s.passReady .raw ∧ phase.ready s.cfg
  | .demosaic active _ _ => s.passReady .demosaic ∧ ∀ w ∈ active, w.ready s.cfg
  | .yuvRow _ => s.passReady .yuv
  | .yuvPix _ _ _ phase => s.passReady .yuv ∧ phase.ready s.cfg
  | .truncated => True

/-- Whatever the engine runs from this position, the snapshot allows: the pass it is in and those to come, unless its
verdict is an error still to be reported. -/
def State.planReady (s : State) (pos : Pos) (todo : List PassPlan) : Prop :=
  s.posReady pos ∧ ((∃ code, pos = .checked (some code)) ∨ ∀ p ∈ todo, s.passReady p)

/-- The engine of a running command works on a snapshot its validation accepted (R144, R145), as it stands and from where
it set out (log 10). -/
def State.EngineReady (s : State) : Prop :=
  s.busy = true → s.planReady s.pos s.todo ∧ ∀ l, s.launch = some l → s.planReady l.pos l.todo

/-- The first pass of the running command. -/
def State.firstPass (s : State) : Option PassPlan := s.launch.bind fun l => l.todo.head?

/-- A LUT pass in a plan is the first pass of its command and has at most three groups (R200, R256). -/
def lutPassFirst (first : Option PassPlan) (todo : List PassPlan) : Prop :=
  ∀ gs, .lut gs ∈ todo → first = some (.lut gs) ∧ gs.length ≤ 3

/-- The groups still to be finished are the last of the LUT pass, and PROGRESS counts those finished. -/
def State.lutCounted (s : State) (left : List Group) : Prop :=
  ∃ finished, s.firstPass = some (.lut (finished ++ left)) ∧ s.progress.toNat = finished.length ∧
    (finished ++ left).length ≤ 3

/-- PROGRESS is the count of finished units of the pass in progress (R30): table groups in a LUT pass, rows in the
others. Once a worker has seen a cancel the rows not started are forgotten, and the count of the rows is a bound. -/
def State.counted (s : State) : Pos → Prop
  | .idle => True
  | .checked _ => True
  | .between => True
  | .starting (.lut groups) => s.firstPass = some (.lut groups) ∧ groups.length ≤ 3
  | .starting .raw => True
  | .starting .demosaic => True
  | .starting .yuv => True
  | .lutOpen groups => s.lutCounted groups
  | .lutClear g rest => s.lutCounted (g :: rest)
  | .lutFill g rest _ => s.lutCounted (g :: rest)
  | .lutMark g rest => s.lutCounted (g :: rest)
  | .lutCount rest => ∃ g, s.lutCounted (g :: rest)
  | .rawClear => s.progress = 0
  | .rawRow y => s.progress.toNat = y ∧ y ≤ s.cfg.height
  | .rawPix y _ _ _ => s.progress.toNat = y ∧ y < s.cfg.height
  | .demosaic active waiting false => s.progress.toNat + active.length + waiting.length = s.cfg.height
  | .demosaic active waiting true => waiting = [] ∧ s.progress.toNat + active.length ≤ s.cfg.height
  | .yuvRow y => s.progress.toNat = y ∧ y ≤ s.cfg.height
  | .yuvPix y _ _ _ => s.progress.toNat = y ∧ y < s.cfg.height
  | .truncated => 1 ≤ s.progress.toNat ∧ s.progress.toNat ≤ s.cfg.height

/-- PROGRESS counts, never above 65535, and the running command can be run again from where it set out (log 10). -/
def State.ProgressTracked (s : State) : Prop :=
  s.progress.toNat ≤ 65535 ∧ s.counted s.pos ∧ lutPassFirst s.firstPass s.todo ∧
    ∀ l, s.launch = some l → (∃ verdict, l.pos = .checked verdict) ∧ lutPassFirst l.todo.head? l.todo

/-! ### Safe answers -/

/-- The answer is no use of a snapshot that validation rejects. -/
abbrev Validated (r : Result) : Prop := r ≠ .fault .unvalidated

end Sys2Proof.Machine
end

