-- ==== Sys2Proof/Certificates/Slice0/Obligations.lean ====
section
/-! DEFINITION. What is claimed of the model, family by family: encoding, life cycle of a command, validation, the five
commands, the data path, the host's registers and memories, resets, and the invariants of a step. A claim about a command
"undisturbed" is about one that ends before the host's next access lands (`State.Undisturbed`). -/

section Claims

open Sys2Proof Sys2Proof.Machine

/-! ### Encoding -/

/-- R116: decoding is total, each command's words are exactly its encodings, and the legal words are the thirteen. -/
def Obligations.DecodeAndEncodeAgree : Prop :=
  (∀ i : Instr, i.wf = true → decode (encode i) = .command i) ∧
    (∀ (w : Word) (i : Instr), decode w = .command i → w = encode i) ∧
    ∀ w : Word, (∃ i, decode w = .command i) ↔
      w ∈ [0x00, 0x01, 0x11, 0x21, 0x31, 0x41, 0x51, 0x61, 0x71, 0x02, 0x12, 0x03, 0x04]

/-- R115: a word is illegal iff its OP is reserved, an RSV bit is 1, or a flag its opcode marks 0 is 1; an illegal word
that is accepted ends at once with ERROR and ILLEGAL_CMD and changes nothing else. -/
def Obligations.IllegalWordsAreExactlyTheReservedOnes : Prop :=
  (∀ w : Word, (∃ why, decode w = .illegal why) ↔
      (5 ≤ (w.extractLsb' 0 4).toNat ∨ w.extractLsb' 7 25 ≠ 0 ∨
        (w.extractLsb' 0 4 ∈ [(0 : BitVec 4), 3, 4] ∧ w.extractLsb' 4 3 ≠ 0) ∨
        (w.extractLsb' 0 4 = (2 : BitVec 4) ∧ w.extractLsb' 5 2 ≠ 0))) ∧
    ∀ (w : Word) (why : IllegalReason) (s : State), decode w = .illegal why → s.busy = false →
      ∃ t, issueWord w s = .next t ∧ CommandOver w s t ∧ EndedError .illegalCmd t ∧ HostSideKept s t ∧
        TablesAndStatsKept s t ∧ t.dst = s.dst

/-- R112, R126: words written out from the opcode map decode to the command they stand for. -/
def Obligations.WrittenOutWordsDecode : Prop :=
  decode 0b00000000000000000000000000000000#32 = .command .nop ∧
    decode 0b00000000000000000000000000000001#32 = .command (.lutBuild false false false) ∧
    decode 0b00000000000000000000000000010001#32 = .command (.lutBuild true false false) ∧
    decode 0b00000000000000000000000000100001#32 = .command (.lutBuild false true false) ∧
    decode 0b00000000000000000000000001000001#32 = .command (.lutBuild false false true) ∧
    decode 0b00000000000000000000000000000010#32 = .command (.bayerDecode false) ∧
    decode 0b00000000000000000000000000010010#32 = .command (.bayerDecode true) ∧
    decode 0b00000000000000000000000000000011#32 = .command .demosaic ∧
    decode 0b00000000000000000000000000000100#32 = .command .yuvConvert ∧
    decode 0b00000000000000000000000010000001#32 = .illegal .reservedBit ∧
    decode 0b00000000000000000000000000000101#32 = .illegal .reservedOpcode ∧
    decode 0b00000000000000000000000000100010#32 = .illegal .flagMustBeZero

/-- A step whose host access writes a word to CMD runs the command the word decodes to; an illegal word is ended at once
(R106, R143; the host queue is the model's, log 3, and so is `withFetchWord`, log 13). -/
def Obligations.StepRunsTheDecodedCommand : Prop :=
  (∀ (s : State) (n : Nat) (w : Word) (rest : List HostEvent) (i : Instr),
      s.host = ⟨n, .write 0x00C w 32⟩ :: rest → decode w = .command i → step s = exec i { s with host := rest }) ∧
    (∀ (s : State) (n : Nat) (w : Word) (rest : List HostEvent) (why : IllegalReason),
      s.host = ⟨n, .write 0x00C w 32⟩ :: rest → decode w = .illegal why →
        step s = settle (illegalCommand w { s with host := rest })) ∧
    (∀ (s : State) (i : Instr),
      step (s.withFetchWord 32 (encode i).toNat) = exec i { s with busy := false, pos := .idle, todo := [] }) ∧
    ∀ i : Instr, decodeTableWord 32 (encode i).toNat = some i

/-! ### The life cycle of a command -/

/-- R154: NOP on an idle block ends DONE and changes no memory, table, STATS or OVERRUN; every other word with OP = 0 is
illegal. -/
def Obligations.NopOnlyReportsDone : Prop :=
  (∀ s : State, s.busy = false →
      ∃ t, exec .nop s = .next t ∧ CommandOver 0 s t ∧ EndedDone false t ∧ HostSideKept s t ∧ TablesAndStatsKept s t ∧
        t.dst = s.dst ∧ t.progress = 0 ∧ t.status = if s.overrun then 0x12 else 0x02) ∧
    ∀ w : Word, w.extractLsb' 0 4 = 0 → w ≠ 0 → ∃ why, decode w = .illegal why

/-- R141: a word written to CMD while a command runs is ignored but for OVERRUN: what the engine does until the next
access lands is what it does without the write. -/
def Obligations.CommandWhileBusyOnlySetsOverrun : Prop :=
  ∀ s : State, s.busy = true →
    (∀ i : Instr, exec i s = mapNext State.setOverrun (settle s)) ∧
      ∀ w : Word, issueWord w s = mapNext State.setOverrun (settle s)

/-- R305, R153: a command whose validation fails ends with the failing check's code and changes no memory, table,
LUT_VALID or STATS, a pending cancel notwithstanding. -/
def Obligations.FailedValidationChangesNothing : Prop :=
  (∀ (i : Instr) (s : State) (code : ErrCode), s.busy = false → s.Undisturbed →
      verdictOf i (accept (encode i) s) = some code →
      ∃ t, exec i s = .next t ∧ CommandOver (encode i) s t ∧ EndedError code t ∧ HostSideKept s t ∧
        TablesAndStatsKept s t ∧ t.dst = s.dst) ∧
    ∀ (s : State) (code : ErrCode) (n : Nat), s.busy = true → s.pos = .checked (some code) →
      runEngine (n + 1) s = .next (finish (.error code) s) ∧ (finish (.error code) s).error = true ∧
        (finish (.error code) s).cancelled = s.cancelled ∧ (finish (.error code) s).cancelPending = false

/-- R148, R147: on an idle block every command ends, undisturbed, with exactly one of DONE and ERROR, or stops at an
unwritten table entry; from any state of a running command the engine ends it in finitely many steps; and a WAIT goes on
only with the engine idle. -/
def Obligations.EveryCommandEnds : Prop :=
  (∀ (i : Instr) (s : State), s.busy = false → s.Undisturbed →
      (∃ t, exec i s = .next t ∧ CommandOver (encode i) s t ∧ t.done = !t.error ∧ t.cancelled = false) ∨
        (i = .bayerDecode false ∧ exec i s = .fault .uninitLut)) ∧
    (∀ s : State, s.EngineReady → s.busy = true →
      ∃ n, (∃ t, runEngine n s = .next t ∧ t.busy = false) ∨ runEngine n s = .fault .uninitLut) ∧
    ∀ s t : State, hostAccess .wait s = .next t → t.busy = false ∧ t.status.getLsbD 0 = false

/-- R81 and the frame of every command, busy or idle: no command writes the source space, a configuration register,
IRQ_EN, LUT_ADDR, or what the host will do or has read; OVERRUN is set by a command write while busy only; and a command
changes no destination byte outside the frame of its snapshot. The source bytes set apart are those another agent wrote
during the running command, which R102 leaves unspecified. -/
def Obligations.CommandsLeaveTheHostSideAlone : Prop :=
  ∀ (i : Instr) (s t : State), exec i s = .next t →
    (s.busy = false ∨ s.srcForeign = [] → t.src = s.src) ∧
      (∀ a, a ∉ s.srcForeign → Memory.read t.src a = Memory.read s.src a) ∧
      (s.busy = false → ∀ a, s.regs.mayWrite i a = false → Memory.read t.dst a = Memory.read s.dst a) ∧
      t.regs = s.regs ∧ t.irqEn = s.irqEn ∧ t.lutAddr = s.lutAddr ∧ t.params = s.params ∧ t.host = s.host ∧
      t.reads = s.reads ∧ t.overrun = (s.overrun || s.busy)

/-- R206, R52: of the engine's steps only the storing of a table entry in a LUT pass changes a table, and only the clearing
at the start of a raw pass and the accumulation of a pixel change STATS (and, where the platform breaks R83's requirement,
the end of the command: log 14); so NOP, DEMOSAIC, YUV_CONVERT and BAYER_DECODE without build keep tables and LUT_VALID,
and every command but BAYER_DECODE keeps STATS. A cancel request keeps all three. A soft reset keeps the tables unless an
entry is being stored: then that table is torn (R342, log 8). Port writes (R204) and a hardware reset (R340), which change
tables too, and the clearing of STATS by either reset (R340, R341) are stated elsewhere. -/
def Obligations.TablesAndStatsChangeOnlyWhereStated : Prop :=
  (∀ s t : State, engineStep s = .next t →
      (t.luts ≠ s.luts → ∃ g rest n, s.pos = .lutFill g rest n) ∧
        (t.stats ≠ s.stats → s.pos = .rawClear ∨ (∃ y x b v, s.pos = .rawPix y x b (.count v)) ∨
          s.overlaps = true ∧ t.busy = false)) ∧
    (∀ (i : Instr) (s t : State), s.busy = false → exec i s = .next t →
      ((∀ l a b, i ≠ .lutBuild l a b) → i ≠ .bayerDecode true → t.luts = s.luts ∧ t.lutValid = s.lutValid) ∧
        ((∀ b, i ≠ .bayerDecode b) → t.stats = s.stats)) ∧
    (∀ s : State, (writeCtrl 1 s).luts = s.luts ∧ (writeCtrl 1 s).lutValid = s.lutValid ∧
      (writeCtrl 1 s).stats = s.stats) ∧
    ∀ s : State, (∀ g rest n, s.pos ≠ .lutFill g rest n) → (softReset s).luts = s.luts

/-- R48, R355: a configuration register written at any time holds the value at once, and what the engine does from then
on to everything else is what it does without the write. -/
def Obligations.RunningCommandIgnoresRegisterWrites : Prop :=
  (∀ (n : Nat) (s : State) (r : CfgRegs),
      runEngine n { s with regs := r } = mapNext (fun t => { t with regs := r }) (runEngine n s)) ∧
    ∀ (s : State) (r : CfgReg) (v : Word),
      hostAccess (.write r.offset v 32) s = settle { s with regs := s.regs.write r v } ∧
        settle { s with regs := s.regs.write r v } =
          mapNext (fun t => { t with regs := s.regs.write r v }) (settle s) ∧
        hostAccess (.read r.offset 32) { s with regs := s.regs.write r v } =
          settle ({ s with regs := s.regs.write r v }.answer ((s.regs.write r v).get r))

/-! ### Validation -/

/-- R302, R303: each command applies these checks in the order of their codes, and the verdict is the first that fails. -/
def Obligations.FirstFailingCheckIsReported : Prop :=
  (∀ (i : Instr) (a : State) (code : ErrCode), verdictOf i a = some code ↔
      ∃ before after, checksOf i a = before ++ (code, true) :: after ∧ ∀ c ∈ before, c.2 = false) ∧
    (∀ (i : Instr) (a : State), (checksOf i a).Pairwise fun p q => p.1.code.toNat < q.1.code.toNat) ∧
    (∀ a : State, checksOf .nop a = []) ∧
    (∀ (l g8 g16 : Bool) (a : State), checksOf (.lutBuild l g8 g16) a =
      [(.cfgBits, l && a.cfg.badLvlBits), (.cfgLevel, l && a.cfg.badLevel a.cfg.p0.bits || g8 && a.cfg.badLevel 8),
        (.cfgGain, (g8 || g16) && a.cfg.badGain)]) ∧
    (∀ (b : Bool) (a : State), (checksOf (.bayerDecode b) a).map Prod.fst =
      [.cfgDim, .cfgDst, .cfgSrc, .unsupported, .cfgBits, .cfgStride, .cfgLevel, .cfgGain, .cfgPattern, .cfgLut]) ∧
    (∀ a : State, (.cfgLevel, false) ∈ checksOf (.bayerDecode false) a ∧
      (.cfgGain, false) ∈ checksOf (.bayerDecode false) a ∧ (.cfgLut, false) ∈ checksOf (.bayerDecode true) a) ∧
    (∀ a : State, (checksOf .demosaic a).map Prod.fst = [.cfgDim, .cfgDst, .cfgStride, .cfgPattern]) ∧
    ∀ a : State, (checksOf .yuvConvert a).map Prod.fst =
      [.cfgDim, .cfgDst, .cfgSrc, .unsupported, .cfgBits, .cfgStride]

/-- R301, R303: when each check fails, on the fields of the snapshot, and which checks of which planes each command that
reads or writes pixels applies. -/
def Obligations.ChecksFailExactlyWhenStated : Prop :=
  ∀ c : CfgRegs,
    (c.badDim = true ↔ c.width = 0 ∨ c.height = 0) ∧
    (∀ n : Nat, c.badDst n = true ↔
      (n : Int) < c.dstBase.toNat + ((c.height : Int) - 1) * c.dstStride.toNat + c.width * (if c.bgra64 then 8 else 4)) ∧
    (∀ n : Nat, c.badSrc n = true ↔ n < c.srcSize.toNat) ∧
    (∀ p : PlaneRegs, p.reservedLayout = true ↔ p.layout = 3) ∧
    (∀ p : PlaneRegs, p.notYuvLayout = true ↔ p.layout = 2 ∨ p.layout = 3) ∧
    (∀ p : PlaneRegs, p.badBits = true ↔
      ¬(p.layout = 0 ∧ p.bits = 8 ∨ p.layout = 1 ∧ 9 ≤ p.bits ∧ p.bits ≤ 16 ∨
        p.layout = 2 ∧ (p.bits = 10 ∨ p.bits = 12 ∨ p.bits = 14))) ∧
    (c.badLvlBits = true ↔ c.p0.bits < 9 ∨ 16 < c.p0.bits) ∧
    (∀ (p : PlaneRegs) (w : Nat), p.badStride w = true ↔
      p.layout = 0 ∧ (p.pixelStride < 1 ∨ p.rowStride < p.pixelStride * w) ∨
      p.layout = 1 ∧ (p.pixelStride < 2 ∨ p.rowStride < p.pixelStride * w) ∨
      p.layout = 2 ∧ p.bits = 10 ∧ p.rowStride < 5 * ((w + 3) / 4) ∨
      p.layout = 2 ∧ p.bits = 12 ∧ p.rowStride < 3 * ((w + 1) / 2) ∨
      p.layout = 2 ∧ p.bits = 14 ∧ p.rowStride < 7 * ((w + 3) / 4)) ∧
    (c.badDstStride = true ↔ c.dstStride.toNat < c.width * (if c.bgra64 then 8 else 4)) ∧
    (∀ b : Nat, c.badLevel b = true ↔ c.lvlEn = true ∧ ¬(c.black < c.white ∧ c.white ≤ 2 ^ b - 1)) ∧
    (c.badGain = true ↔ ∃ k, c.gain.get k = 0) ∧
    (c.badPattern = true ↔
      10 ≤ c.patternId ∨ (c.patternId = 8 ∧ ∃ r < 2, ∃ k < 2, field c.patternTile (8 * r + 2 * k) 2 = 3) ∨
        (c.patternId = 9 ∧ ∃ r < 4, ∃ k < 4, field c.patternTile (8 * r + 2 * k) 2 = 3)) ∧
    (∀ v : LutValid, c.badLut v = true ↔
      c.p0.layout = 0 ∧ v.g8 = false ∨ c.p0.layout ≠ 0 ∧ (v.lvl = false ∨ v.g16 = false)) ∧
    c.planeWidth .p0 = c.width ∧ (∀ n, n ≠ .p0 → c.planeWidth n = (c.width + 2 ^ c.hsub - 1) / 2 ^ c.hsub) ∧
    ∀ (b : Bool) (s : State), s.cfg = c →
      bayerChecks b s =
        [(.cfgDim, c.badDim), (.cfgDst, c.badDst s.params.dstBytes), (.cfgSrc, c.badSrc s.params.srcBytes),
          (.unsupported, c.p0.reservedLayout), (.cfgBits, c.p0.badBits),
          (.cfgStride, c.p0.badStride c.width || c.badDstStride), (.cfgLevel, b && c.badLevel c.p0.bits),
          (.cfgGain, b && c.badGain), (.cfgPattern, c.badPattern), (.cfgLut, !b && c.badLut s.lutValid)] ∧
      demosaicChecks s =
        [(.cfgDim, c.badDim), (.cfgDst, c.badDst s.params.dstBytes), (.cfgStride, c.badDstStride),
          (.cfgPattern, c.badPattern)] ∧
      yuvChecks s =
        [(.cfgDim, c.badDim), (.cfgDst, c.badDst s.params.dstBytes), (.cfgSrc, c.badSrc s.params.srcBytes),
          (.unsupported, c.p0.notYuvLayout || c.p1.notYuvLayout || c.p2.notYuvLayout),
          (.cfgBits, c.p0.badBits || c.p1.badBits || c.p2.badBits),
          (.cfgStride, c.p0.badStride c.width || c.p1.badStride (c.planeWidth .p1) ||
            c.p2.badStride (c.planeWidth .p2) || c.badDstStride)]

/-- R145: the outcome of validation depends on the snapshot and on LUT_VALID alone (and on the block's fixed
parameters). -/
def Obligations.ValidationSeesSnapshotAndLutValidOnly : Prop :=
  ∀ (i : Instr) (a b : State), a.params = b.params → a.cfg = b.cfg → a.lutValid = b.lutValid →
    verdictOf i a = verdictOf i b

/-! ### LUT_BUILD and the tables -/

/-- R199, R200: LUT_BUILD on a valid configuration, the tables of their sizes (R53; `StepKeepsStorageWellFormed`), fills
exactly the selected groups, marks them valid, counts them and ends DONE; memories and STATS stay. -/
def Obligations.LutBuildFillsTheSelectedTables : Prop :=
  ∀ (lvl g8 g16 : Bool) (s : State), s.busy = false → s.Undisturbed → s.luts.sized →
    Valid (.lutBuild lvl g8 g16) s →
    ∃ t, exec (.lutBuild lvl g8 g16) s = .next t ∧ CommandOver (encode (.lutBuild lvl g8 g16)) s t ∧
      EndedDone false t ∧ HostSideKept s t ∧
      TablesBuilt s.regs s.params.gainTol (selectedGroups lvl g8 g16) s t ∧
      t.progress.toNat = lvl.toNat + g8.toNat + g16.toNat ∧ t.stats = s.stats ∧ t.dst = s.dst

/-- R200, R256: the groups of a LUT pass come in the order LVL, G8, G16, and the bit of a group is 0 while it is filled;
after a cancel the groups before some point are rebuilt and valid, the others untouched. Where groups are left the command
is CANCELLED, the passes to come do not run, and STATS and the destination stay; a LUT_BUILD with none left is DONE. -/
def Obligations.CancelledLutPassLeavesWholeGroups : Prop :=
  (∀ lvl g8 g16 : Bool, (selectedGroups lvl g8 g16).Sublist [.lvl, .g8, .g16] ∧
      (.lvl ∈ selectedGroups lvl g8 g16 ↔ lvl = true) ∧ (.g8 ∈ selectedGroups lvl g8 g16 ↔ g8 = true) ∧
      (.g16 ∈ selectedGroups lvl g8 g16 ↔ g16 = true)) ∧
    (∀ (s t : State) (g : Group) (rest : List Group), s.busy = true → engineStep s = .next t →
      (s.pos = .lutOpen (g :: rest) → s.cancelPending = false → t.pos = .lutClear g rest ∧ t.lutValid = s.lutValid) ∧
      (s.pos = .lutClear g rest → t.pos = .lutFill g rest 0 ∧ t.lutValid = s.lutValid.set g false) ∧
      (∀ n, s.pos = .lutFill g rest n → t.lutValid = s.lutValid ∧
        t.pos = if n + 1 < g.entries then .lutFill g rest (n + 1) else .lutMark g rest) ∧
      (s.pos = .lutMark g rest → t.pos = .lutCount rest ∧ t.lutValid = s.lutValid.set g true)) ∧
    ∀ (n m : Nat) (gs : List Group) (s s₁ t : State), gs.Nodup → LutPassStart gs s → runEngine n s = .next s₁ →
      runEngine m (writeCtrl 1 s₁) = .next t → t.busy = false →
      ∃ built rest, gs = built ++ rest ∧ TablesBuilt s.cfg s.params.gainTol built s t ∧
        (rest ≠ [] → t.cancelled = true ∧ t.progress.toNat = built.length ∧ t.stats = s.stats ∧ t.dst = s.dst) ∧
        (rest = [] → s.todo = [] →
          t.done = true ∧ t.progress.toNat = built.length ∧ t.stats = s.stats ∧ t.dst = s.dst)

/-- R191: the level function of a validated snapshot. -/
def Obligations.LevelFunctionProperties : Prop :=
  (∀ (c : CfgRegs) (b : Nat), c.badLevel b = false →
      (c.lvlEn = false → ∀ i ≤ 2 ^ b - 1, c.level_b b i = i) ∧
      (∀ i j, i ≤ j → c.level_b b i ≤ c.level_b b j) ∧
      c.level_b b (if c.lvlEn then c.black else 0) = 0 ∧
      c.level_b b (if c.lvlEn then c.white else 2 ^ b - 1) = 2 ^ b - 1 ∧
      (∀ i, 2 ^ b - 1 ≤ i → c.level_b b i = 2 ^ b - 1) ∧
      (∀ i, c.level_b b i ≤ 2 ^ b - 1) ∧
      (c.lvlEn = true → ∀ i, c.black < i → i < c.white →
        c.level_b b i = (i - c.black) * (2 ^ b - 1) / (c.white - c.black))) ∧
    levelFn 10 64 1023 64 = 0 ∧ levelFn 10 64 1023 500 = 465 ∧ levelFn 10 64 1023 1022 = 1021 ∧
    levelFn 10 64 1023 1023 = 1023

/-- R192, the gain function, and its properties. R193's saturation clause is stated for gain codes outside the unity band or a
band of 0: inside a wider band R192 makes the gain the identity, which the clause overlooks. -/
def Obligations.GainFunctionProperties : Prop :=
  ∀ (tol n : Nat), n = 8 ∨ n = 16 →
    (∀ i g : Nat, gainFn tol n i g = if |(g : Int) - 65536| ≤ tol then i else min (i * g / 65536) (2 ^ n - 1)) ∧
    (∀ i, gainFn tol n i 65536 = i) ∧
    (∀ g i j, i ≤ j → j ≤ 2 ^ n - 1 → gainFn tol n i g ≤ gainFn tol n j g) ∧
    (∀ g h i, g ≤ h → i ≤ 2 ^ n - 1 → gainFn tol n i g ≤ gainFn tol n i h) ∧
    (∀ g, gainFn tol n 0 g = 0) ∧
    (∀ g i, i ≤ 2 ^ n - 1 → gainFn tol n i g ≤ 2 ^ n - 1) ∧
    (∀ g i, 65536 ≤ g → tol = 0 ∨ tol < g - 65536 → ((2 ^ n - 1) * 65536 + g - 1) / g ≤ i → i ≤ 2 ^ n - 1 →
      gainFn tol n i g = 2 ^ n - 1) ∧
    gainFn 0 8 100 0x00020000 = 200 ∧ gainFn 0 8 200 0x00020000 = 255 ∧ gainFn 0 16 1000 0x00008000 = 500 ∧
    gainFn 0 16 0xFFC0 0x00018000 = 0xFFFF

/-- R202: with no level correction and unity gains, whatever tables a LUT pass has built from the snapshot (`TablesBuilt`,
which `LutBuildFillsTheSelectedTables` and `BayerDecodeBuildDecodesTheFrame` say of the machine's) are identities on the
indexes a decode uses. -/
def Obligations.DefaultTablesAreIdentities : Prop :=
  ∀ (c : CfgRegs) (tol : Nat) (gs : List Group) (s t : State) (ch : Chan), c.lvlEn = false →
    (∀ k, c.gain.get k = 0x00010000) → TablesBuilt c tol gs s t →
    (.g8 ∈ gs → ∀ raw < 256, Ram.read (t.luts.g8.get ch) raw = some (BitVec.ofNat 8 raw)) ∧
      (.lvl ∈ gs → .g16 ∈ gs → ∀ (raw : Nat) (wide : Half), 9 ≤ c.p0.bits → c.p0.bits ≤ 16 → raw < 2 ^ c.p0.bits →
        t.luts.apply16 ch c.p0.bits raw wide = some (BitVec.ofNat 16 (leftJustify raw c.p0.bits)))

/-! ### The unpacker and the packer -/

/-- R171, R172, R174: the fetch from a byte and from a 16-bit container, at the addresses of R85, and the round trip of a
value packed in either byte order. -/
def Obligations.ContainersAreFetchedAndRoundTrip : Prop :=
  ∀ (c : CfgRegs) (rd : Nat → Byte) (p : PlaneRegs) (x y : Nat),
    let A (k : Nat) := c.srcOffset.toNat + p.offset.toNat + y * p.rowStride + x * p.pixelStride + k
    c.fetch rd p .byte8 x y = (rd (A 0)).toNat ∧ c.dep p .byte8 x y = [A 0] ∧
    ∀ b, 9 ≤ b → b ≤ 16 →
      let w := if c.bigEndian then 256 * (rd (A 0)).toNat + (rd (A 1)).toNat else (rd (A 0)).toNat + 256 * (rd (A 1)).toNat
      c.dep p (.word16 b) x y = [A 0, A 1] ∧
      c.fetch rd p (.word16 b) x y = (if p.msbAlign then w / 2 ^ (16 - b) else w % 2 ^ b) ∧
      c.fetch rd p (.word16 b) x y < 2 ^ b ∧ (b = 16 → c.fetch rd p (.word16 b) x y = w) ∧
      ∀ v < 2 ^ b, p.msbAlign = false → rd (A 0) = byteOf v (if c.bigEndian then 1 else 0) →
        rd (A 1) = byteOf v (if c.bigEndian then 0 else 1) →
        c.fetch rd p (.word16 b) x y = v ∧ leftJustify v b / 2 ^ (16 - b) = v

/-- R176, R181: the bytes a MIPI sample depends on are the G bytes of its group, at the address of R176; and a group packed
by the inverse of R177 to R179 is fetched back lane by lane, at every depth and in both byte orders. -/
def Obligations.MipiGroupRoundTrip : Prop :=
  ∀ (c : CfgRegs) (rd : Nat → Byte) (p : PlaneRegs) (b : Nat) (g : MipiGeom) (v : Nat → Nat) (x y : Nat),
    mipiGeom b = some g →
    let start := c.srcOffset.toNat + p.offset.toNat + y * p.rowStride + x / g.samples * g.bytes
    c.groupAddr p g x y = start ∧ c.dep p (.mipi b g) x y = (List.range g.bytes).map (start + ·) ∧
    ((b = 10 ∧ g = ⟨4, 5, 2⟩) ∨ (b = 12 ∧ g = ⟨2, 3, 4⟩) ∨ (b = 14 ∧ g = ⟨4, 7, 6⟩)) ∧
    ((∀ j < g.samples, v j < 2 ^ b) → (∀ i < g.bytes, rd (start + i) = packedByte c.bigEndian g v i) →
      c.fetch rd p (.mipi b g) x y = v (x % g.samples))

/-- R220 to R225, R90: a pixel written is read back channel by channel, its bytes are B, G, R, A from the lowest address
up with alpha opaque, no other byte changes, and the conversions to the output depth. -/
def Obligations.PixelWriteStoresBgraAndReadsBack : Prop :=
  ∀ (s : State) (x y : Nat) (v : Rgb), Memory.wf s.dst = true → (∀ k, v.get k < 2 ^ s.cfg.depth) →
    (∀ k, s.cfg.chanIn (s.writePixel x y v).dst x y k = v.get k) ∧
    (∀ (salt : Nat) (k : Chan), s.dstForeign = [] → (s.writePixel x y v).readCh salt x y k = v.get k) ∧
    (s.cfg.bgra64 = false →
      let D := s.cfg.dstBase.toNat + y * s.cfg.dstStride.toNat + x * 4
      Memory.read (s.writePixel x y v).dst D = BitVec.ofNat 8 v.b ∧
        Memory.read (s.writePixel x y v).dst (D + 1) = BitVec.ofNat 8 v.g ∧
        Memory.read (s.writePixel x y v).dst (D + 2) = BitVec.ofNat 8 v.r ∧
        Memory.read (s.writePixel x y v).dst (D + 3) = 0xFF) ∧
    (s.cfg.bgra64 = true →
      let D := s.cfg.dstBase.toNat + y * s.cfg.dstStride.toNat + x * 8
      Memory.readN (s.writePixel x y v).dst D 2 = v.b ∧ Memory.readN (s.writePixel x y v).dst (D + 2) 2 = v.g ∧
        Memory.readN (s.writePixel x y v).dst (D + 4) 2 = v.r ∧
        Memory.readN (s.writePixel x y v).dst (D + 6) 2 = 0xFFFF) ∧
    (∀ a, ¬s.cfg.pixelHas x y a → Memory.read (s.writePixel x y v).dst a = Memory.read s.dst a) ∧
    (∀ o < 256, to8 (to16 o) = o ∧ s.cfg.out8 o = if s.cfg.bgra64 then o * 256 else o) ∧
    ∀ o < 65536, s.cfg.out16 o = if s.cfg.bgra64 then o else o / 256

/-! ### YUV_CONVERT -/

/-- R235, R239: the matrix, exact, rounded half up and saturated; the accumulators stay below 2^33; and grey input gives
grey with the reset matrix. -/
def Obligations.MatrixRoundsHalfUpAndSaturates : Prop :=
  ∀ (c : CfgRegs) (p : Yuv) (k : Chan), p.y < 65536 → p.u < 65536 → p.v < 65536 →
    let row := c.csc.get k
    let acc : Int :=
      (row.y.extractLsb' 0 16).toInt * (p.y - (c.cscYoff.extractLsb' 0 16).toNat) +
        (row.u.extractLsb' 0 16).toInt * (p.u - (c.cscCoff.extractLsb' 0 16).toNat) +
        (row.v.extractLsb' 0 16).toInt * (p.v - (c.cscCoff.extractLsb' 0 16).toNat)
    acc < 2 ^ 33 ∧ -(2 ^ 33) < acc ∧
      ((c.cscConvert p).get k : Int) = max (0 : Int) (min 65535 ((acc + 2048) >>> (12 : Nat))) ∧
      (c.csc = CfgRegs.reset.csc → p.u = field c.cscCoff 0 16 → p.v = field c.cscCoff 0 16 →
        (c.cscConvert p).r = (c.cscConvert p).g ∧ (c.cscConvert p).g = (c.cscConvert p).b)

/-- R230 to R234, R236, R238: the components of a pixel are the samples of P0 at (x, y) and of P1 and P2 at
(x >> HSUB, y >> VSUB), left-justified to 16 bits, and it is decodable iff every byte they depend on is available;
YUV_CONVERT on a valid configuration, the spaces kept apart (R83), writes each decodable pixel up to the end of the first
row with an undecodable one, converted from the source, leaves every other byte, and ends DONE. -/
def Obligations.YuvConvertWritesTheDecodablePixels : Prop :=
  (∀ (c : CfgRegs) (rd : PlaneId → Nat → Byte) (k : Container × Container × Container) (x y : Nat),
      c.yuvContainers = some k →
      let cx := if c.yuvCfg.getLsbD 0 then x / 2 else x
      let cy := if c.yuvCfg.getLsbD 1 then y / 2 else y
      c.p0.container = some k.1 ∧ c.p1.container = some k.2.1 ∧ c.p2.container = some k.2.2 ∧
      (c.yuvSample rd k x y).y = c.fetch (rd .p0) c.p0 k.1 x y * 2 ^ (16 - c.p0.bits) ∧
      (c.yuvSample rd k x y).u = c.fetch (rd .p1) c.p1 k.2.1 cx cy * 2 ^ (16 - c.p1.bits) ∧
      (c.yuvSample rd k x y).v = c.fetch (rd .p2) c.p2 k.2.2 cx cy * 2 ^ (16 - c.p2.bits) ∧
      (c.yuvDecodable k x y = true ↔
        (∀ a ∈ c.dep c.p0 k.1 x y, a < c.srcSize.toNat) ∧ (∀ a ∈ c.dep c.p1 k.2.1 cx cy, a < c.srcSize.toNat) ∧
          ∀ a ∈ c.dep c.p2 k.2.2 cx cy, a < c.srcSize.toNat)) ∧
    ∀ s : State, s.busy = false → s.Undisturbed → Memory.wf s.dst = true → Valid .yuvConvert s → Apart .yuvConvert s →
      ∃ k t, s.regs.yuvContainers = some k ∧ exec .yuvConvert s = .next t ∧ CommandOver (encode .yuvConvert) s t ∧
        EndedDone t.trunc t ∧ HostSideKept s t ∧ TablesAndStatsKept s t ∧
        RowPassResult s.regs (s.regs.yuvDecodable k) (fun x y => some (s.regs.yuvPixel s.srcAt k x y)) s.dst t.dst
          t.trunc t.progress.toNat

/-! ### BAYER_DECODE -/

/-- R254, R256 to R263, R266: BAYER_DECODE build on a valid configuration, the spaces kept apart (R83) and the tables of
their sizes (R53; `StepKeepsStorageWellFormed`), builds the tables it needs, decodes the pixels up to the end of the first
truncated row through them into their own channels, counts the statistics, then demosaics if asked, and ends DONE. -/
def Obligations.BayerDecodeBuildDecodesTheFrame : Prop :=
  ∀ s : State, s.busy = false → s.Undisturbed → Memory.wf s.dst = true → s.luts.sized → Valid (.bayerDecode true) s →
    Apart (.bayerDecode true) s →
    ∃ k t, s.regs.p0.container = some k ∧ exec (.bayerDecode true) s = .next t ∧
      CommandOver (encode (.bayerDecode true)) s t ∧ EndedDone t.trunc t ∧ HostSideKept s t ∧
      TablesBuilt s.regs s.params.gainTol s.regs.needed s t ∧
      StatsResult s.regs (s.regs.decodable s.regs.p0 k) (s16Of (s.builtAt k)) t.stats ∧
      ∃ (m : Memory) (rows : Nat),
        RowPassResult s.regs (s.regs.decodable s.regs.p0 k) (s.regs.rawRgb (s.builtAt k)) s.dst m t.trunc rows ∧
        (s.regs.demosaicEn = false → t.dst = m ∧ t.progress.toNat = rows) ∧
        (s.regs.demosaicEn = true → DemosaicResult s.regs m t.dst ∧ t.progress.toNat = s.regs.height)

/-- R254, R255, R258 to R263, R351: BAYER_DECODE without build does the same with the tables as they stand, where every
entry it reads is written, and leaves the tables. -/
def Obligations.BayerDecodeUsesTheTablesAsTheyStand : Prop :=
  ∀ (s : State) (k : Container), s.busy = false → s.Undisturbed → Memory.wf s.dst = true →
    Valid (.bayerDecode false) s → Apart (.bayerDecode false) s → s.regs.p0.container = some k →
    (∀ x y, s.regs.writes (s.regs.decodable s.regs.p0 k) x y → s.storedAt k x y ≠ none) →
    ∃ t, exec (.bayerDecode false) s = .next t ∧
      CommandOver (encode (.bayerDecode false)) s t ∧ EndedDone t.trunc t ∧ HostSideKept s t ∧
      t.luts = s.luts ∧ t.lutValid = s.lutValid ∧
      StatsResult s.regs (s.regs.decodable s.regs.p0 k) (s16Of (s.storedAt k)) t.stats ∧
      ∃ (m : Memory) (rows : Nat),
        RowPassResult s.regs (s.regs.decodable s.regs.p0 k) (s.regs.rawRgb (s.storedAt k)) s.dst m t.trunc rows ∧
        (s.regs.demosaicEn = false → t.dst = m ∧ t.progress.toNat = rows) ∧
        (s.regs.demosaicEn = true → DemosaicResult s.regs m t.dst ∧ t.progress.toNat = s.regs.height)

/-- R60, R306: a decode that comes to an unwritten table entry, the spaces kept apart (R83), stops with UNINIT_LUT, and so
does a read of one through the port. -/
def Obligations.UnwrittenEntryStopsTheModel : Prop :=
  (∀ (s : State) (k : Container) (x y : Nat), s.busy = false → s.Undisturbed → Valid (.bayerDecode false) s →
      Apart (.bayerDecode false) s → Memory.wf s.dst = true → s.regs.p0.container = some k →
      s.regs.writes (s.regs.decodable s.regs.p0 k) x y → s.storedAt k x y = none →
      exec (.bayerDecode false) s = .fault .uninitLut) ∧
    ∀ s : State, s.busy = false → s.luts.portEntry s.lutAddr = none →
      hostAccess (.read 0x184 32) s = .fault .uninitLut

/-- R261: under a validated stride, no pixel after the first undecodable one in scan order is decodable. -/
def Obligations.DecodedPixelsAreAPrefixOfTheScan : Prop :=
  ∀ (c : CfgRegs) (k : Container) (x y x' y' : Nat), c.p0.container = some k → c.p0.badStride c.width = false →
    c.hasPixel x y → c.hasPixel x' y' → y < y' ∨ y = y' ∧ x ≤ x' →
    c.decodable c.p0 k x y = false → c.decodable c.p0 k x' y' = false

/-- R265, R238: a cancel seen in the raw pass leaves the rows before some row written and counted in STATS and PROGRESS, and
nothing of that row or later ones, and the passes still to come do not run; a cancel seen in the YUV pass leaves the rows
before some row written and counted in PROGRESS, and nothing of later ones. -/
def Obligations.CancelledRowPassesLeaveWholeRows : Prop :=
  (∀ (n m : Nat) (k : Container) (s s₁ u : State) (y : Nat), RawPassStart k s → runEngine n s = .next s₁ →
      runEngine m (writeCtrl 1 s₁) = .next u → u.busy = true → u.pos = .rawRow y → y < s.cfg.height →
      ∃ t, engineStep u = .next t ∧ t.busy = false ∧ t.cancelled = true ∧ t.trunc = false ∧ t.todo = [] ∧
        t.progress.toNat = y ∧ StatsResult s.cfg (fun _ y' => decide (y' < y)) (s16Of (s.liveAt k)) t.stats ∧
        (∀ x y', x < s.cfg.width → y' < y → s.cfg.decodable s.cfg.p0 k x y' = true ∧
          ∃ v, s.cfg.rawRgb (s.liveAt k) x y' = some v ∧ s.cfg.pixelIs t.dst x y' v) ∧
        ∀ a, (∀ x y', x < s.cfg.width → y' < y → ¬s.cfg.pixelHas x y' a) →
          Memory.read t.dst a = Memory.read s.dst a) ∧
    (∀ (n m : Nat) (k : Container) (s s₁ t : State), RawPassStart k s → s.todo = [] → runEngine n s = .next s₁ →
      runEngine m (writeCtrl 1 s₁) = .next t → t.busy = false → t.cancelled = true →
      ∃ rows < s.cfg.height, t.progress.toNat = rows ∧ t.trunc = false ∧
        StatsResult s.cfg (fun _ y => decide (y < rows)) (s16Of (s.liveAt k)) t.stats ∧
        (∀ x y, x < s.cfg.width → y < rows → s.cfg.decodable s.cfg.p0 k x y = true ∧
          ∃ v, s.cfg.rawRgb (s.liveAt k) x y = some v ∧ s.cfg.pixelIs t.dst x y v) ∧
        ∀ a, (∀ x y, x < s.cfg.width → y < rows → ¬s.cfg.pixelHas x y a) → Memory.read t.dst a = Memory.read s.dst a) ∧
    ∀ (n m : Nat) (k : Container × Container × Container) (s s₁ t : State), YuvPassStart k s →
      runEngine n s = .next s₁ → runEngine m (writeCtrl 1 s₁) = .next t → t.busy = false →
      t.cancelled = !t.done ∧ (t.cancelled = true →
        ∃ rows < s.cfg.height, t.progress.toNat = rows ∧ t.trunc = false ∧
          (∀ x y, x < s.cfg.width → y < rows → s.cfg.yuvDecodable k x y = true ∧
            s.cfg.pixelIs t.dst x y (s.cfg.yuvPixel s.srcAt k x y)) ∧
          ∀ a, (∀ x y, x < s.cfg.width → y < rows → ¬s.cfg.pixelHas x y a) →
            Memory.read t.dst a = Memory.read s.dst a)

/-- R121, R35, R251: the labels of the active tile, and the colour of a pixel. -/
def Obligations.PatternTilesAreTheTable : Prop :=
  let tile (c : CfgRegs) (n : Nat) := (List.range n).map fun r => (List.range n).map fun k => c.label r k
  let R := some Chan.r
  let G := some Chan.g
  let B := some Chan.b
  ∀ c : CfgRegs,
    (c.patternId = 0 → c.tileSize = 2 ∧ tile c 2 = [[R, G], [G, B]]) ∧
    (c.patternId = 1 → c.tileSize = 2 ∧ tile c 2 = [[B, G], [G, R]]) ∧
    (c.patternId = 2 → c.tileSize = 2 ∧ tile c 2 = [[G, R], [B, G]]) ∧
    (c.patternId = 3 → c.tileSize = 2 ∧ tile c 2 = [[G, B], [R, G]]) ∧
    (c.patternId = 4 → c.tileSize = 4 ∧ tile c 4 = [[R, R, G, G], [R, R, G, G], [G, G, B, B], [G, G, B, B]]) ∧
    (c.patternId = 5 → c.tileSize = 4 ∧ tile c 4 = [[B, B, G, G], [B, B, G, G], [G, G, R, R], [G, G, R, R]]) ∧
    (c.patternId = 6 → c.tileSize = 4 ∧ tile c 4 = [[G, G, R, R], [G, G, R, R], [B, B, G, G], [B, B, G, G]]) ∧
    (c.patternId = 7 → c.tileSize = 4 ∧ tile c 4 = [[G, G, B, B], [G, G, B, B], [R, R, G, G], [R, R, G, G]]) ∧
    (c.patternId = 8 → c.tileSize = 2) ∧ (c.patternId = 9 → c.tileSize = 4) ∧
    (c.patternId = 8 ∨ c.patternId = 9 → ∀ r k,
      c.label r k = [R, G, B, none].getD (field c.patternTile (8 * r + 2 * k) 2) none) ∧
    (10 ≤ c.patternId → ∀ r k, c.label r k = none) ∧
    (c.tileSize = 2 ∨ c.tileSize = 4) ∧
    ∀ x y, c.color x y = if c.tileSize = 2 then c.label (y % 2) (x % 2) else c.label (y % 4) (x % 4)

/-- R253: the centre region; it is symmetric, all columns of a frame at most two wide, and the middle third of a width
that is a multiple of 3. -/
def Obligations.CentreRegionIsSymmetric : Prop :=
  ∀ c : CfgRegs,
    (∀ x y, c.inCentre x y = true ↔ c.width / 3 ≤ x ∧ x < c.width - c.width / 3 ∧ c.height / 3 ≤ y ∧
      y < c.height - c.height / 3) ∧
    (∀ x y, c.hasPixel x y → c.inCentre x y = c.inCentre (c.width - 1 - x) (c.height - 1 - y)) ∧
    (c.width ≤ 2 → ∀ x y, c.hasPixel x y → (c.inCentre x y = true ↔ c.height / 3 ≤ y ∧ y < c.height - c.height / 3)) ∧
    ∀ n, c.width = 3 * n → ∀ x y, c.inCentre x y = true ↔
      n ≤ x ∧ x < 2 * n ∧ c.height / 3 ≤ y ∧ y < c.height - c.height / 3

/-! ### DEMOSAIC -/

/-- R280 to R285, R287, R293: DEMOSAIC on a valid configuration, whatever the schedule and the number of workers, writes
every pixel demosaiced from the contents before the command, keeps own channels, makes alpha opaque, leaves every other
byte, table and STATS, and ends DONE. -/
def Obligations.DemosaicWritesTheFrame : Prop :=
  ∀ s : State, s.busy = false → s.Undisturbed → Memory.wf s.dst = true → Valid .demosaic s →
    ∃ t, exec .demosaic s = .next t ∧ CommandOver (encode .demosaic) s t ∧ EndedDone false t ∧ HostSideKept s t ∧
      TablesAndStatsKept s t ∧ DemosaicResult s.regs s.dst t.dst ∧ t.progress.toNat = s.regs.height ∧
      ∀ x y, s.regs.hasPixel x y →
        (∃ own, s.regs.color x y = some own ∧ s.regs.chanIn t.dst x y own = s.regs.chanIn s.dst x y own) ∧
        ∀ i, 3 * (s.regs.bpp / 4) ≤ i → i < s.regs.bpp → Memory.read t.dst (s.regs.dstAddr x y + i) = 0xFF

/-- R287: the finished pass leaves the same destination for every schedule and every DEMOSAIC_WORKERS. -/
def Obligations.DemosaicResultIsScheduleFree : Prop :=
  ∀ (s : State) (picks : List Nat) (workers : Nat), s.busy = false → s.Undisturbed → Memory.wf s.dst = true →
    Valid .demosaic s →
    ∃ t t', exec .demosaic s = .next t ∧
      exec .demosaic { s with sched := picks, params := { s.params with workers := workers } } = .next t' ∧
      t'.dst = t.dst ∧ t'.progress = t.progress

/-- R280: a decode with DEMOSAIC_EN = 0 followed by DEMOSAIC leaves the destination of the one decode with
DEMOSAIC_EN = 1. -/
def Obligations.DemosaicAfterDecodeEqualsOneCommand : Prop :=
  ∀ (b : Bool) (s t : State), s.busy = false → s.Undisturbed → Memory.wf s.dst = true → Valid (.bayerDecode b) s →
    Apart (.bayerDecode b) s → s.regs.demosaicEn = true → exec (.bayerDecode b) s = .next t →
    ∃ t₀ t₁,
      exec (.bayerDecode b) { s with regs := { s.regs with renderCfg := s.regs.renderCfg &&& 0xFFFFFFFB } } =
        .next t₀ ∧
      exec .demosaic t₀ = .next t₁ ∧ t₁.dst = t.dst

/-- R281, R289: the members of a neighbourhood, each once, at most eight of N3 and twenty-four of N5. -/
def Obligations.NeighbourhoodsAreClippedSquares : Prop :=
  ∀ (w h r x y : Nat),
    (∀ p : Nat × Nat, p ∈ neighbours w h r x y ↔
      p ≠ (x, y) ∧ p.1 < w ∧ p.2 < h ∧ x ≤ p.1 + r ∧ p.1 ≤ x + r ∧ y ≤ p.2 + r ∧ p.2 ≤ y + r) ∧
    (neighbours w h r x y).Nodup ∧ (neighbours w h 1 x y).length ≤ 8 ∧ (neighbours w h 2 x y).length ≤ 24

/-- R292: the same-channel neighbours of the RGGB pattern. -/
def Obligations.RggbNeighbourCounts : Prop :=
  ∀ (c : CfgRegs) (x y : Nat), c.patternId = 0 →
    let found (k : Chan) (p : Nat × Nat) := p ∈ c.sameChannel k (neighbours c.width c.height 1 x y)
    let count (k : Chan) := (c.sameChannel k (neighbours c.width c.height 1 x y)).length
    let cross (p : Nat × Nat) := p ∈ [(x - 1, y), (x + 1, y), (x, y - 1), (x, y + 1)]
    let diagonal (p : Nat × Nat) := p ∈ [(x - 1, y - 1), (x + 1, y - 1), (x - 1, y + 1), (x + 1, y + 1)]
    let beside (p : Nat × Nat) := p ∈ [(x - 1, y), (x + 1, y)]
    let above (p : Nat × Nat) := p ∈ [(x, y - 1), (x, y + 1)]
    (1 ≤ x → x + 2 ≤ c.width → 1 ≤ y → y + 2 ≤ c.height →
      (x % 2 = 0 → y % 2 = 0 → count .g = 4 ∧ count .b = 4 ∧ (∀ p, found .g p ↔ cross p) ∧ ∀ p, found .b p ↔ diagonal p) ∧
      (x % 2 = 1 → y % 2 = 1 → count .g = 4 ∧ count .r = 4 ∧ (∀ p, found .g p ↔ cross p) ∧ ∀ p, found .r p ↔ diagonal p) ∧
      (x % 2 = 1 → y % 2 = 0 → count .r = 2 ∧ count .b = 2 ∧ (∀ p, found .r p ↔ beside p) ∧ ∀ p, found .b p ↔ above p) ∧
      (x % 2 = 0 → y % 2 = 1 → count .b = 2 ∧ count .r = 2 ∧ (∀ p, found .b p ↔ beside p) ∧ ∀ p, found .r p ↔ above p)) ∧
    (x = 0 → y = 0 → 2 ≤ c.width → 2 ≤ c.height → count .g = 2 ∧ count .b = 1)

/-- R282 to R284, R290: a missing channel is the floor of the mean of the same-channel pixels of the 3x3 neighbourhood;
where there are none, of the 5x5 one for a 4x4 pattern; else 0; and every channel the pass writes lies in the range of
the output depth. -/
def Obligations.AveragingRule : Prop :=
  (∀ (c : CfgRegs) (rd : Nat → Nat → Chan → Nat) (x y : Nat) (k : Chan),
      let near (r : Nat) := (neighbours c.width c.height r x y).filter fun p => c.color p.1 p.2 == some k
      let average (r : Nat) := ((near r).map fun p => rd p.1 p.2 k).sum / (near r).length
      (near 1 ≠ [] → c.missing rd x y k = average 1) ∧
      (near 1 = [] → c.tileSize = 2 → c.missing rd x y k = 0) ∧
      (near 1 = [] → c.tileSize = 4 → near 2 ≠ [] → c.missing rd x y k = average 2) ∧
      (near 1 = [] → c.tileSize = 4 → near 2 = [] → c.missing rd x y k = 0) ∧
      ∀ own, (c.demosaicPixel rd own x y).get k = if k = own then rd x y own else c.missing rd x y k) ∧
    ∀ (c : CfgRegs) (m : Memory) (own : Chan) (x y : Nat) (k : Chan),
      (c.demosaicPixel (c.chanIn m) own x y).get k < 2 ^ (if c.bgra64 then 16 else 8)

/-- R291: a uniform frame keeps its constants where the rule resolves a channel, which is everywhere for the built-in
patterns in frames at least two, or three, pixels wide and high. -/
def Obligations.UniformFrameStaysUniform : Prop :=
  ∀ (c : CfgRegs) (rd : Nat → Nat → Chan → Nat) (const : Chan → Nat),
    (∀ x y own, c.hasPixel x y → c.color x y = some own → rd x y own = const own) →
    (∀ r x y k m, c.mean rd (neighbours c.width c.height r x y) k = some m → m = const k) ∧
    (∀ x y k own, c.hasPixel x y → c.color x y = some own →
      (c.patternId ≤ 3 ∧ 2 ≤ c.width ∧ 2 ≤ c.height ∨
        4 ≤ c.patternId ∧ c.patternId ≤ 7 ∧ 3 ≤ c.width ∧ 3 ≤ c.height) →
      (c.demosaicPixel rd own x y).get k = const k) ∧
    ∀ x y k own, c.color x y = some own → k ≠ own → c.mean rd (neighbours c.width c.height 1 x y) k = none →
      (c.tileSize = 4 → c.mean rd (neighbours c.width c.height 2 x y) k = none) →
      (c.demosaicPixel rd own x y).get k = 0

/-- R288, R286: what a demosaic pass has written when it ends after a cancel request is a prefix of each row, each pixel
whole; PROGRESS counts the whole rows, and a pass that did not end CANCELLED wrote them all. -/
def Obligations.CancelledDemosaicWritesRowPrefixes : Prop :=
  ∀ (n m : Nat) (s s₁ t : State), DemosaicPassStart s → runEngine n s = .next s₁ →
    runEngine m (writeCtrl 1 s₁) = .next t → t.busy = false →
    ∃ upTo : Nat → Nat, (∀ y, upTo y ≤ s.cfg.width) ∧
      (∀ x y, s.cfg.hasPixel x y → x < upTo y → ∃ own, s.cfg.color x y = some own ∧
        s.cfg.pixelIs t.dst x y (s.cfg.demosaicPixel (s.cfg.chanIn s.dst) own x y)) ∧
      (∀ a, (∀ x y, s.cfg.hasPixel x y → x < upTo y → ¬s.cfg.pixelHas x y a) →
        Memory.read t.dst a = Memory.read s.dst a) ∧
      t.progress.toNat = ((List.range s.cfg.height).filter fun y => upTo y == s.cfg.width).length ∧
      (t.cancelled = true ∨ t.done = true ∧ ∀ y < s.cfg.height, upTo y = s.cfg.width)

/-! ### Registers -/

/-- R61, R24, R41, R42: what every register reads right after hardware reset, with the engine idle and IRQ low. -/
def Obligations.ResetColumnOfTheRegisterMap : Prop :=
  CfgReg.all.map State.reset.regs.get =
      [0, 0, 0, 0, 0, 0, 0, 0, 0, 0, 0, 0x00000008, 0, 0, 0, 0x00000008, 0, 0, 0, 0x00000008, 0, 0x00010000, 0x00010000,
        0x00010000, 0x000012A1, 0, 0x00001989, 0x000012A1, 0x0000F9BB, 0x0000F2FE, 0x000012A1, 0x00002047, 0, 0x00001000,
        0x00008000] ∧
    readReg .id State.reset = .next (State.reset.answer 0x50564445) ∧
    readReg .version State.reset = .next (State.reset.answer 0x00010000) ∧
    (∀ r ∈ [Reg.ctrl, .cmd, .status, .irqEn, .progress, .lutAddr, .lutValid],
      readReg r State.reset = .next (State.reset.answer 0)) ∧
    (∀ (centre : Bool) (c : Chan) (w : StatWord),
      readReg (.stat centre c w) State.reset = .next (State.reset.answer 0)) ∧
    State.reset.busy = false ∧ State.reset.pass = .idle ∧ State.reset.cancelPending = false ∧
    State.reset.trunc = false ∧ State.reset.pos = .idle ∧ State.reset.todo = [] ∧ State.reset.op = 0 ∧
    State.reset.irq = false

/-- R22, R26, R29, R30, R45, R47: a configuration register written holds its implemented bits and no other register changes;
IRQ_EN and LUT_ADDR hold theirs; a read-only register ignores writes; and a read of CMD, IRQ_EN, PROGRESS, LUT_ADDR or
LUT_VALID answers what it holds. -/
def Obligations.WritesKeepReservedBitsZero : Prop :=
  (∀ (s : State) (r : CfgReg) (v : Word),
      hostAccess (.write r.offset v 32) s = settle { s with regs := s.regs.write r v } ∧
      hostAccess (.read r.offset 32) s = settle (s.answer (s.regs.get r)) ∧
      (s.regs.write r v).get r = v &&& r.mask ∧ ∀ r', r' ≠ r → (s.regs.write r v).get r' = s.regs.get r') ∧
    CfgReg.all.map CfgReg.mask =
      [0xFFFFFFFF, 0xFFFFFFFF, 0xFFFFFFFF, 0xFFFFFFFF, 0xFFFFFFFF, 0x000000F7, 0xFFFFFFFF, 0x00000003,
        0xFFFFFFFF, 0x0000FFFF, 0xFFFFFFFF, 0x000001FF, 0xFFFFFFFF, 0x0000FFFF, 0xFFFFFFFF, 0x000000FF,
        0xFFFFFFFF, 0x0000FFFF, 0xFFFFFFFF, 0x000000FF, 0xFFFFFFFF, 0xFFFFFFFF, 0xFFFFFFFF, 0xFFFFFFFF,
        0x0000FFFF, 0x0000FFFF, 0x0000FFFF, 0x0000FFFF, 0x0000FFFF, 0x0000FFFF, 0x0000FFFF, 0x0000FFFF, 0x0000FFFF,
        0x0000FFFF, 0x0000FFFF] ∧
    ∀ (s : State) (v : Word),
      hostAccess (.write 0x014 v 32) s = settle { s with irqEn := v &&& 0x0000001E } ∧
      hostAccess (.write 0x180 v 32) s = settle { s with lutAddr := v &&& 0x8007FFFF } ∧
      (∀ off ∈ [0x000, 0x004, 0x018, 0x188], hostAccess (.write off v 32) s = settle s) ∧
      (∀ centre c w, hostAccess (.write (Reg.stat centre c w).offset v 32) s = settle s) ∧
      hostAccess (.read 0x00C 32) s = settle (s.answer s.cmd) ∧
      hostAccess (.read 0x014 32) s = settle (s.answer s.irqEn) ∧
      hostAccess (.read 0x018 32) s = settle (s.answer s.progress) ∧
      hostAccess (.read 0x180 32) s = settle (s.answer s.lutAddr) ∧
      ∃ w : Word, hostAccess (.read 0x188 32) s = settle (s.answer w) ∧ w.getLsbD 0 = s.lutValid.lvl ∧
        w.getLsbD 1 = s.lutValid.g8 ∧ w.getLsbD 2 = s.lutValid.g16 ∧ w.extractLsb' 3 29 = 0

/-- R21, R24 and the register summary: the offsets of the registers, no two of them one; every other offset reads 0 and
ignores writes; ID and VERSION ignore writes and read their constants. -/
def Obligations.RegisterMapAndUnmappedOffsets : Prop :=
  Reg.all.map Reg.offset =
      [0x000, 0x004, 0x008, 0x00C, 0x010, 0x014, 0x018, 0x020, 0x024, 0x028, 0x02C, 0x030, 0x034, 0x038, 0x03C, 0x040,
        0x044, 0x048, 0x04C, 0x050, 0x054, 0x058, 0x05C, 0x060, 0x064, 0x068, 0x06C, 0x070, 0x080, 0x084, 0x088, 0x090,
        0x094, 0x098, 0x09C, 0x0A0, 0x0A4, 0x0A8, 0x0AC, 0x0B0, 0x0B4, 0x0B8, 0x100, 0x104, 0x108, 0x10C, 0x110, 0x114,
        0x118, 0x11C, 0x120, 0x124, 0x128, 0x12C, 0x140, 0x144, 0x148, 0x14C, 0x150, 0x154, 0x158, 0x15C, 0x160, 0x164,
        0x168, 0x16C, 0x180, 0x184, 0x188] ∧
    (∀ r : Reg, r ∈ Reg.all ∧ Reg.ofOffset r.offset = some r) ∧
    (∀ (off : Nat) (r : Reg), Reg.ofOffset off = some r → r.offset = off) ∧
    ∀ (s : State) (v : Word),
      (∀ off : Nat, off < 0x200 → off % 4 = 0 → off ∉ Reg.all.map Reg.offset →
        hostAccess (.write off v 32) s = settle s ∧ hostAccess (.read off 32) s = settle (s.answer 0)) ∧
      hostAccess (.write 0x000 v 32) s = settle s ∧ hostAccess (.read 0x000 32) s = settle (s.answer 0x50564445) ∧
      hostAccess (.write 0x004 v 32) s = settle s ∧ hostAccess (.read 0x004 32) s = settle (s.answer 0x00010000)

/-- R23, R20: a register access is refused exactly where it is not an aligned 32-bit access below 0x200. -/
def Obligations.MalformedAccessesAreRefused : Prop :=
  ∀ (s : State) (off width : Nat) (v : Word),
    ((HostOp.write off v width).wf = false ↔ ∃ r, hostAccess (.write off v width) s = .refused r) ∧
      ((HostOp.read off width).wf = false ↔ ∃ r, hostAccess (.read off width) s = .refused r) ∧
      ((HostOp.read off width).wf = true ↔ width = 32 ∧ off % 4 = 0 ∧ off < 0x200)

/-- R27, R300: the fields of STATUS, the codes of errors and passes, and its reserved bits. -/
def Obligations.StatusFieldsStandWhereStated : Prop :=
  ∀ s : State,
    s.status.getLsbD 0 = s.busy ∧ s.status.getLsbD 1 = s.done ∧ s.status.getLsbD 2 = s.error ∧
    s.status.getLsbD 3 = s.cancelled ∧ s.status.getLsbD 4 = s.overrun ∧ s.status.getLsbD 5 = s.trunc ∧
    s.status.extractLsb' 6 2 = 0 ∧ s.status.extractLsb' 15 17 = 0 ∧
    (s.status.extractLsb' 8 4).toNat =
      (match s.errCode with
        | .none => 0 | .illegalCmd => 1 | .cfgDim => 2 | .cfgDst => 3 | .cfgSrc => 4 | .unsupported => 5 | .cfgBits => 6
        | .cfgStride => 7 | .cfgLevel => 8 | .cfgGain => 9 | .cfgPattern => 10 | .cfgLut => 11) ∧
    (s.status.extractLsb' 12 3).toNat =
      (match s.pass with | .idle => 0 | .lut => 1 | .raw => 2 | .demosaic => 3 | .yuv => 4) ∧
    hostAccess (.read 0x010 32) s = settle (s.answer s.status)

/-- R28: a write of STATUS clears the outcome and OVERRUN bits it names and nothing else. -/
def Obligations.StatusWriteClearsNamedBits : Prop :=
  ∀ (s : State) (v : Word),
    hostAccess (.write 0x010 v 32) s = settle (s.clearStatus v) ∧
    (s.clearStatus v).status = s.status &&& ~~~(v &&& 0x1E) ∧
    s.clearStatus v =
      { s with
        done := (s.clearStatus v).done, error := (s.clearStatus v).error, cancelled := (s.clearStatus v).cancelled,
        overrun := (s.clearStatus v).overrun }

/-- R312, R340: IRQ is 1 iff an enabled one of DONE, ERROR, CANCELLED, OVERRUN is 1, and low after either reset. -/
def Obligations.InterruptFollowsEnabledStatus : Prop :=
  (∀ s : State, s.irq = true ↔ s.status &&& s.irqEn &&& 0x1E ≠ 0) ∧
    (∀ s : State, s.irq = (s.done && s.irqEn.getLsbD 1 || s.error && s.irqEn.getLsbD 2 ||
      s.cancelled && s.irqEn.getLsbD 3 || s.overrun && s.irqEn.getLsbD 4)) ∧
    ∀ s : State, (hardReset s).irq = false ∧ (softReset s).irq = false

/-- R44, R43: while idle a STATS read is exact, and the two halves of a value are the value; while a command runs what a
read answers is left open (log 7). -/
def Obligations.StatsReadsWhileIdleAreExact : Prop :=
  ∀ (s : State) (centre : Bool) (c : Chan),
    (s.busy = false → ∀ w, hostAccess (.read (Reg.stat centre c w).offset 32) s =
      .next (s.answer (s.stats.word centre c w))) ∧
    (s.busy = true → ∀ w, ∃ v, hostAccess (.read (Reg.stat centre c w).offset 32) s = settle (s.draw.answer v)) ∧
    let t := (if centre then s.stats.centre else s.stats.unweighted).get c
    s.stats.word centre c .sumHi ++ s.stats.word centre c .sumLo = t.sum ∧
      s.stats.word centre c .cntHi ++ s.stats.word centre c .cntLo = t.cnt

/-- The first sentence of R150, R152, R25: a cancel request marks a running command and is lost on an idle block; with
SRST set too only the reset acts. When the request came is kept by the model (log 10). -/
def Obligations.CancelRequestsAndResetRequests : Prop :=
  ∀ (s : State) (v : Word),
    hostAccess (.write 0x008 v 32) s = settle (writeCtrl v s) ∧
    (v.getLsbD 1 = true → writeCtrl v s = softReset s) ∧
    (v.getLsbD 1 = false → v.getLsbD 0 = true → s.busy = true →
      ∃ k, writeCtrl v s = { s with cancelPending := true, cancelAt := k }) ∧
    (v.getLsbD 1 = false → s.busy = false ∨ v.getLsbD 0 = false → writeCtrl v s = s) ∧
    hostAccess (.read 0x008 32) s = settle (s.answer 0)

/-! ### The table port -/

/-- R204: a write of LUT_DATA on an idle block stores the selected entry, marks its group valid, leaves every other entry,
and steps the index. -/
def Obligations.PortWriteStoresTheEntry : Prop :=
  ∀ (s : State) (v : Word), s.busy = false → s.luts.sized →
    let T := (s.lutAddr.extractLsb' 16 3).toNat
    let i := (s.lutAddr.extractLsb' 0 16).toNat
    let t := lutPortWrite v s
    hostAccess (.write 0x184 v 32) s = .next t ∧
    (T = 0 → t.luts.portEntry s.lutAddr = some (v &&& 0xFFFF) ∧ t.lutValid = { s.lutValid with lvl := true }) ∧
    (1 ≤ T → T ≤ 3 → i < 256 →
      t.luts.portEntry s.lutAddr = some (v &&& 0xFF) ∧ t.lutValid = { s.lutValid with g8 := true }) ∧
    (1 ≤ T → T ≤ 3 → 256 ≤ i → t.luts = s.luts ∧ t.lutValid = s.lutValid) ∧
    (4 ≤ T → T ≤ 6 → t.luts.portEntry s.lutAddr = some (v &&& 0xFFFF) ∧ t.lutValid = { s.lutValid with g16 := true }) ∧
    (T = 7 → t.luts = s.luts ∧ t.lutValid = s.lutValid) ∧
    (∀ a : Word, a.extractLsb' 0 19 ≠ s.lutAddr.extractLsb' 0 19 → t.luts.portEntry a = s.luts.portEntry a) ∧
    IndexStepped s.lutAddr t.lutAddr

/-- R203: a read of LUT_DATA on an idle block answers the selected entry, 0 outside a table, and steps the index; an
unwritten entry stops the model. -/
def Obligations.PortReadAnswersTheEntry : Prop :=
  ∀ s : State, s.busy = false →
    let T := (s.lutAddr.extractLsb' 16 3).toNat
    let i := (s.lutAddr.extractLsb' 0 16).toNat
    let stops := hostAccess (.read 0x184 32) s = .fault .uninitLut
    (T = 0 → Ram.read s.luts.lvl i = none → stops) ∧
    (∀ c, T = 1 + c.index → i < 256 → Ram.read (s.luts.g8.get c) i = none → stops) ∧
    (∀ c, T = 4 + c.index → Ram.read (s.luts.g16.get c) i = none → stops) ∧
    ∃ a, IndexStepped s.lutAddr a ∧
      let reads (v : Word) := hostAccess (.read 0x184 32) s = .next ({ s with lutAddr := a }.answer v)
      (∀ e, T = 0 → Ram.read s.luts.lvl i = some e → reads (BitVec.zeroExtend 32 e)) ∧
      (∀ e c, T = 1 + c.index → i < 256 → Ram.read (s.luts.g8.get c) i = some e → reads (BitVec.zeroExtend 32 e)) ∧
      (∀ e c, T = 4 + c.index → Ram.read (s.luts.g16.get c) i = some e → reads (BitVec.zeroExtend 32 e)) ∧
      (1 ≤ T → T ≤ 3 → 256 ≤ i → reads 0) ∧ (T = 7 → reads 0)

/-- R205, R354: while a command runs the port reads 0, ignores writes, keeps LUT_ADDR and sets OVERRUN; LUT_ADDR itself
stays writable, its reserved bits 0. -/
def Obligations.PortWhileBusyOnlySetsOverrun : Prop :=
  ∀ (s : State) (v : Word), s.busy = true →
    hostAccess (.read 0x184 32) s = settle ({ s with overrun := true }.answer 0) ∧
    hostAccess (.write 0x184 v 32) s = settle { s with overrun := true } ∧
    hostAccess (.write 0x180 v 32) s = settle { s with lutAddr := v &&& 0x8007FFFF }

/-! ### The memories and the resets -/

/-- R100, R101, R93, R83: on an idle block the host reads a byte as it stands, and a byte it writes is the one byte that
changes; while a command runs, a read of a source byte not raced for is exact (R102), and a read of such a destination byte
answers a value the byte holds now or held at an earlier engine step of this command, in the model's record of them
(log 9). That an access outside a space is refused is the model's choice (log 18). -/
def Obligations.HostReadsOfMemoryAnswerAValueHeld : Prop :=
  (∀ (s : State) (a : Nat) (v : Byte), s.busy = false → s.MemoriesCanonical →
      (a < s.params.dstBytes →
        hostAccess (.dstRead a) s = .next (s.answer (BitVec.zeroExtend 32 (Memory.read s.dst a))) ∧
        ∃ m, hostAccess (.dstWrite a v) s = .next { s with dst := m } ∧ Memory.read m a = v ∧
          ∀ b, b ≠ a → Memory.read m b = Memory.read s.dst b) ∧
      (a < s.params.srcBytes →
        hostAccess (.srcRead a) s = .next (s.answer (BitVec.zeroExtend 32 (s.srcAt a))) ∧
        (aliasOf s.params a = none → s.srcAt a = Memory.read s.src a ∧
          ∃ m, hostAccess (.srcWrite a v) s = .next { s with src := m } ∧ Memory.read m a = v ∧
            ∀ b, b ≠ a → Memory.read m b = Memory.read s.src b) ∧
        ∀ d, aliasOf s.params a = some d → s.srcAt a = Memory.read s.dst d ∧
          ∃ m, hostAccess (.srcWrite a v) s = .next { s with dst := m } ∧ Memory.read m d = v ∧
            ∀ b, b ≠ d → Memory.read m b = Memory.read s.dst b)) ∧
    (∀ (s : State) (a : Nat) (v : Byte),
      (s.params.dstBytes ≤ a → hostAccess (.dstRead a) s = .refused .outsideMemory ∧
        hostAccess (.dstWrite a v) s = .refused .outsideMemory) ∧
      (s.params.srcBytes ≤ a → hostAccess (.srcRead a) s = .refused .outsideMemory ∧
        hostAccess (.srcWrite a v) s = .refused .outsideMemory)) ∧
    (∀ (s : State) (a : Nat), s.busy = true → a < s.params.dstBytes → a ∉ s.racedBytes →
      ∃ v ∈ s.dstValues a, hostAccess (.dstRead a) s = settle (s.draw.answer (BitVec.zeroExtend 32 v))) ∧
    (∀ (s : State) (a : Nat), s.busy = true → a < s.params.srcBytes → aliasOf s.params a = none → a ∉ s.racedSources →
      hostAccess (.srcRead a) s = settle (s.answer (BitVec.zeroExtend 32 (Memory.read s.src a)))) ∧
    ∀ (n : Nat) (s t : State) (a : Nat), s.overwritten = [] → runEngine n s = .next t →
      ∀ v ∈ t.dstValues a, ∃ (m : Nat) (u : State), m ≤ n ∧ runEngine m s = .next u ∧ Memory.read u.dst a = v

/-- R340, R341, R343: after either reset every register and the engine are as in the reset state; hardware reset makes
every table entry unwritten; of an idle block a reset leaves the memories, and a soft reset the table entries, as they
are. What the host does, has read and the free choices stay as the model's own (log 3, 7, 11). -/
def Obligations.ResetsGiveTheResetState : Prop :=
  ∀ s : State,
    hostAccess .hardReset s = .next (hardReset s) ∧
    hardReset s =
      { State.reset with
        params := s.params, src := (hardReset s).src, dst := (hardReset s).dst, host := s.host, reads := s.reads,
        sched := s.sched, draws := (hardReset s).draws } ∧
    (s.busy = false → (hardReset s).src = s.src ∧ (hardReset s).dst = s.dst) ∧
    (∀ v : Word, v.getLsbD 1 = true → hostAccess (.write 0x008 v 32) s = .next (softReset s)) ∧
    softReset s =
      { State.reset with
        params := s.params, src := (softReset s).src, dst := (softReset s).dst, host := s.host, reads := s.reads,
        sched := s.sched, draws := (softReset s).draws, luts := (softReset s).luts } ∧
    (s.busy = false → (softReset s).src = s.src ∧ (softReset s).dst = s.dst ∧ (softReset s).luts = s.luts)

/-- R342, R340: a reset of a running block, hard or soft, ends it at once with no outcome, and each destination byte holds
what it held, or what a write in flight would have stored; a soft reset leaves every table but the one an entry of which
was being stored, whose entries each hold the old or the new value (which entries is open, log 8). The premise on raced and
shared bytes leaves out what R102 and R83 make unspecified (log 10, log 14). -/
def Obligations.ResetsTearOnlyTheWritesInFlight : Prop :=
  (∀ s t : State, s.busy = true → s.Unraced → (∀ r ∈ s.srcRead, aliasOf s.params r.addr = none) → Memory.wf s.dst = true →
      t = softReset s ∨ t = hardReset s →
      t.busy = false ∧ t.status = 0 ∧ t.irq = false ∧ t.progress = 0 ∧ t.stats = Stats.zero ∧ t.regs = CfgRegs.reset ∧
      t.lutValid = LutValid.none ∧ t.src = s.src ∧
      ∀ a, Memory.read t.dst a = Memory.read s.dst a ∨ (a, Memory.read t.dst a) ∈ s.inFlight) ∧
    (∀ s : State, hostAccess .hardReset s = .next (hardReset s) ∧
      ∀ v : Word, v.getLsbD 1 = true → hostAccess (.write 0x008 v 32) s = .next (softReset s)) ∧
    ∀ s : State, s.busy = true →
      let t := softReset s
      ((∀ g rest n, s.pos ≠ .lutFill g rest n) → t.luts = s.luts) ∧
      ∀ (l : Launch) (g : Group) (rest : List Group) (n : Nat), s.launch = some l → s.pos = .lutFill g rest n →
        (g = .lvl → t.luts.g8 = s.luts.g8 ∧ t.luts.g16 = s.luts.g16 ∧
          ∀ i < 65536, Ram.read t.luts.lvl i = Ram.read l.luts.lvl i ∨
            Ram.read t.luts.lvl i = some (BitVec.ofNat 16 (s.cfg.lvlEntry i))) ∧
        (g = .g8 → t.luts.lvl = s.luts.lvl ∧ t.luts.g16 = s.luts.g16 ∧
          (∀ c, c ≠ chanAt (n / 256) → t.luts.g8.get c = s.luts.g8.get c) ∧
          ∀ i < 256, let c := chanAt (n / 256)
            Ram.read (t.luts.g8.get c) i = Ram.read (l.luts.g8.get c) i ∨
              Ram.read (t.luts.g8.get c) i = some (BitVec.ofNat 8 (s.cfg.g8Entry s.params.gainTol c i))) ∧
        (g = .g16 → t.luts.lvl = s.luts.lvl ∧ t.luts.g8 = s.luts.g8 ∧
          (∀ c, c ≠ chanAt (n / 65536) → t.luts.g16.get c = s.luts.g16.get c) ∧
          ∀ i < 65536, let c := chanAt (n / 65536)
            Ram.read (t.luts.g16.get c) i = Ram.read (l.luts.g16.get c) i ∨
              Ram.read (t.luts.g16.get c) i = some (BitVec.ofNat 16 (s.cfg.g16Entry s.params.gainTol c i)))

/-! ### Invariants of a step -/

/-- Every step keeps the memories in canonical form and the tables of their sizes (R53, R84). -/
def Obligations.StepKeepsStorageWellFormed : Prop :=
  ∀ s t : State, s.StorageOk → step s = .next t → t.StorageOk

/-- Every step keeps: at most one outcome bit, none while busy, and an idle engine shows PASS 0 and no pending cancel
(R27, R147, R152). -/
def Obligations.StepKeepsOutcomeBitsExclusive : Prop :=
  ∀ s t : State, s.IdleIsClean → s.OneOutcome → step s = .next t → t.IdleIsClean ∧ t.OneOutcome

/-- Every step keeps every reserved bit at 0 (R22). -/
def Obligations.StepKeepsReservedBitsZero : Prop :=
  ∀ s t : State, s.ReservedZero → step s = .next t → t.ReservedZero

/-- Every step keeps: a running command is in a pass its validated snapshot allows; so the fault that says otherwise is
never met (R144, R145; log 16). -/
def Obligations.StepKeepsTheEngineValidated : Prop :=
  ∀ s : State, s.EngineReady → Validated (step s) ∧ ∀ t, step s = .next t → t.EngineReady

/-- Every step keeps PROGRESS the count of the finished units of the pass in progress: the groups of a LUT pass, the rows of
the others, a bound on the rows once a demosaic worker has seen a cancel; never above 65535 (R30). -/
def Obligations.StepKeepsProgressTracked : Prop :=
  ∀ s t : State, s.ProgressTracked → step s = .next t → t.ProgressTracked

/-- The state right after reset meets every invariant. -/
def Obligations.ResetMeetsEveryInvariant : Prop :=
  State.reset.StorageOk ∧ State.reset.IdleIsClean ∧ State.reset.OneOutcome ∧ State.reset.ReservedZero ∧
    State.reset.EngineReady ∧ State.reset.ProgressTracked

end Claims
end

