-- ==== Sys2Proof/Laws/Memory.lean ====
section
/-! SUPPORT. The laws of the memories: reading after writing, and that writing keeps the canonical form and the bounds. -/

namespace Sys2Proof.Machine

theorem Memory.read_nil (a : Nat) : Memory.read [] a = Memory.blank := rfl

theorem Memory.wf_cons (a : Nat) (v : Byte) (m : Memory) :
    Memory.wf ((a, v) :: m) = true ↔ v ≠ Memory.blank ∧ (∀ c ∈ m, a < c.1) ∧ Memory.wf m = true := by
  simp [Memory.wf, and_assoc]

/-- An address below every listed one reads as blank. -/
theorem Memory.read_of_lt {m : Memory} {a : Nat} (h : ∀ c ∈ m, a < c.1) : Memory.read m a = Memory.blank := by
  induction m with
  | nil => rfl
  | cons c m ih =>
    have hc : a < c.1 := h c (by simp)
    have : a ≠ c.1 := by omega
    rw [show c = (c.1, c.2) from rfl, Memory.read, if_neg this]
    exact ih fun d hd => h d (by simp [hd])

/-- Reading another address than the one written (in any list). -/
theorem Memory.read_write_other (m : Memory) {a b : Nat} (v : Byte) (h : b ≠ a) :
    Memory.read (Memory.write m a v) b = Memory.read m b := by
  induction m with
  | nil => by_cases hv : v = Memory.blank <;> simp [Memory.write, Memory.read, hv, h]
  | cons c m ih =>
    obtain ⟨k, w⟩ := c
    unfold Memory.write
    split_ifs <;> simp_all [Memory.read]

/-- Reading the address written. -/
theorem Memory.read_write_same {m : Memory} (a : Nat) (v : Byte) (h : Memory.wf m = true) :
    Memory.read (Memory.write m a v) a = v := by
  induction m with
  | nil => by_cases hv : v = Memory.blank <;> simp [Memory.write, Memory.read, hv]
  | cons c m ih =>
    obtain ⟨k, w⟩ := c
    obtain ⟨-, hlt, hwf⟩ := (Memory.wf_cons k w m).1 h
    unfold Memory.write
    split_ifs with h1 h2 h3 h4
    · rw [Memory.read, if_neg (by omega), h2, Memory.read_of_lt]
      intro c hc
      have := hlt c hc
      omega
    · simp [Memory.read]
    · rw [h4, h3]
      exact Memory.read_of_lt hlt
    · simp [Memory.read]
    · rw [Memory.read, if_neg h3]
      exact ih hwf

theorem Memory.mem_write {m : Memory} {a : Nat} {v : Byte} {c : Host.Cell} (h : c ∈ Memory.write m a v) :
    c = (a, v) ∨ c ∈ m := by
  induction m with
  | nil => by_cases hv : v = Memory.blank <;> simp_all [Memory.write]
  | cons d m ih =>
    obtain ⟨k, w⟩ := d
    unfold Memory.write at h
    split_ifs at h <;> simp only [List.mem_cons] at h ⊢ <;> tauto

/-- Every memory write keeps the canonical form. -/
theorem Memory.write_wf {m : Memory} (a : Nat) (v : Byte) (h : Memory.wf m = true) :
    Memory.wf (Memory.write m a v) = true := by
  induction m with
  | nil => by_cases hv : v = Memory.blank <;> simp [Memory.write, Memory.wf, hv]
  | cons c m ih =>
    obtain ⟨k, w⟩ := c
    obtain ⟨hw, hlt, hwf⟩ := (Memory.wf_cons k w m).1 h
    unfold Memory.write
    split_ifs with h1 h2 h3 h4
    · exact h
    · rw [Memory.wf_cons]
      refine ⟨h2, ?_, h⟩
      intro c hc
      rcases List.mem_cons.1 hc with rfl | hc
      · exact h1
      · exact h1.trans (hlt c hc)
    · exact hwf
    · rw [Memory.wf_cons]
      exact ⟨h4, by rw [h3]; exact hlt, hwf⟩
    · rw [Memory.wf_cons]
      refine ⟨hw, ?_, ih hwf⟩
      intro c hc
      rcases Memory.mem_write hc with rfl | hc
      · show k < a
        omega
      · exact hlt c hc

/-- Every memory write inside a space keeps the listed bytes inside it. -/
theorem Memory.write_below {m : Memory} {size a : Nat} (v : Byte) (h : Memory.below m size = true) (ha : a < size) :
    Memory.below (Memory.write m a v) size = true := by
  simp only [Memory.below, List.all_eq_true, decide_eq_true_eq] at h ⊢
  intro c hc
  rcases Memory.mem_write hc with rfl | hc
  · exact ha
  · exact h c hc

/-- Folding writes keeps the canonical form. -/
theorem Memory.foldl_write_wf {α : Type} (l : List α) (addr : α → Nat) (val : α → Byte) {m : Memory}
    (h : Memory.wf m = true) : Memory.wf (l.foldl (fun m c => Memory.write m (addr c) (val c)) m) = true := by
  induction l generalizing m with
  | nil => exact h
  | cons c l ih => exact ih (Memory.write_wf _ _ h)

/-- A memory made of given bytes is in canonical form. -/
theorem Memory.ofCells_wf (size : Nat) (cells : List Host.Cell) : Memory.wf (Memory.ofCells size cells) = true :=
  Memory.foldl_write_wf _ Prod.fst Prod.snd rfl

/-- A memory made of given bytes lies in its space. -/
theorem Memory.ofCells_below (size : Nat) (cells : List Host.Cell) :
    Memory.below (Memory.ofCells size cells) size = true := by
  have step : ∀ (l : List Host.Cell) (m : Memory), (∀ c ∈ l, c.1 < size) → Memory.below m size = true →
      Memory.below (l.foldl (fun m c => Memory.write m c.1 c.2) m) size = true := by
    intro l
    induction l with
    | nil => exact fun _ _ h => h
    | cons c l ih =>
      intro m hl hm
      exact ih _ (fun d hd => hl d (List.mem_cons_of_mem _ hd)) (Memory.write_below _ hm (hl c List.mem_cons_self))
  exact step _ _ (fun c hc => by simpa using (List.mem_filter.1 hc).2) rfl

/-- A byte written beyond every listed one comes last. -/
theorem Memory.write_last {m : Memory} {a : Nat} {v : Byte} (h : ∀ c ∈ m, c.1 < a) (hv : v ≠ Memory.blank) :
    Memory.write m a v = m ++ [(a, v)] := by
  induction m with
  | nil => simp [Memory.write, hv]
  | cons c m ih =>
    have hc : c.1 < a := h c List.mem_cons_self
    rw [show c = (c.1, c.2) from rfl, Memory.write, if_neg (by omega), if_neg (by omega),
      ih fun d hd => h d (List.mem_cons_of_mem _ hd)]
    rfl

/-- Every memory of a space in canonical form is made of its own bytes: so any list of bytes stands for any contents. -/
theorem Memory.ofCells_of_wf {m : Memory} {size : Nat} (hwf : Memory.wf m = true) (hb : Memory.below m size = true) :
    Memory.ofCells size m = m := by
  have grow : ∀ (l m : Memory), Memory.wf l = true → (∀ c ∈ m, ∀ d ∈ l, c.1 < d.1) →
      l.foldl (fun m c => Memory.write m c.1 c.2) m = m ++ l := by
    intro l
    induction l with
    | nil => simp
    | cons c l ih =>
      intro m hl hm
      obtain ⟨hv, hlt, hl⟩ := (Memory.wf_cons c.1 c.2 l).1 hl
      rw [List.foldl_cons, Memory.write_last (fun d hd => hm d hd c List.mem_cons_self) hv, ih _ hl]
      · simp
      · intro d hd e he
        rcases List.mem_append.1 hd with hd | hd
        · exact hm d hd e (List.mem_cons_of_mem _ he)
        · rw [List.mem_singleton.1 hd]
          exact hlt e he
  rw [Memory.ofCells, List.filter_eq_self.2 (by simpa [Memory.below] using hb), grow m [] hwf (by simp), List.nil_append]

/-- Folding writes leaves every address not written. -/
theorem Memory.foldl_write_other (l : List Nat) (val : Nat → Byte) (m : Memory) {b : Nat} (h : b ∉ l) :
    Memory.read (l.foldl (fun m a => Memory.write m a (val a)) m) b = Memory.read m b := by
  induction l generalizing m with
  | nil => rfl
  | cons a l ih =>
    rw [List.mem_cons, not_or] at h
    rw [List.foldl_cons, ih _ h.2, Memory.read_write_other _ _ h.1]

/-- A memory read of n bytes gives a number of n bytes. -/
theorem Memory.readN_lt (m : Memory) (a n : Nat) : Memory.readN m a n < 256 ^ n := by
  induction n generalizing a with
  | zero => simp [Memory.readN]
  | succ n ih =>
    have h1 := ih (a + 1)
    have h2 : (Memory.read m a).toNat < 256 := (Memory.read m a).isLt
    rw [Memory.readN, pow_succ]
    omega

theorem byteOf_succ (v k : Nat) : byteOf v (k + 1) = byteOf (v / 256) k := by
  rw [byteOf, byteOf, pow_succ, mul_comm, Nat.div_div_eq_div_mul]

/-- Every multi-byte write keeps the canonical form. -/
theorem Memory.writeN_wf {m : Memory} (a n v : Nat) (h : Memory.wf m = true) :
    Memory.wf (Memory.writeN m a n v) = true := by
  induction n generalizing m a v with
  | zero => exact h
  | succ n ih => exact ih _ _ (Memory.write_wf _ _ h)

theorem Memory.writeN_below {m : Memory} {size a n : Nat} (v : Nat) (h : Memory.below m size = true)
    (ha : a + n ≤ size) : Memory.below (Memory.writeN m a n v) size = true := by
  induction n generalizing m a v with
  | zero => exact h
  | succ n ih => exact ih (v / 256) (Memory.write_below _ h (by omega)) (by omega)

/-- A multi-byte write leaves every byte outside it. -/
theorem Memory.read_writeN_outside (m : Memory) {a n b : Nat} (v : Nat) (h : b < a ∨ a + n ≤ b) :
    Memory.read (Memory.writeN m a n v) b = Memory.read m b := by
  induction n generalizing m a v with
  | zero => rfl
  | succ n ih => rw [Memory.writeN, ih _ _ (by omega), Memory.read_write_other _ _ (by omega)]

/-- Byte k of what was written is at address a + k. -/
theorem Memory.read_writeN_inside {m : Memory} {a n k : Nat} (v : Nat) (h : Memory.wf m = true) (hk : k < n) :
    Memory.read (Memory.writeN m a n v) (a + k) = byteOf v k := by
  induction n generalizing m a v k with
  | zero => omega
  | succ n ih =>
    rw [Memory.writeN]
    cases k with
    | zero =>
      rw [Memory.read_writeN_outside _ _ (by omega), Nat.add_zero, Memory.read_write_same _ _ h, byteOf]
      simp
    | succ k =>
      rw [show a + (k + 1) = a + 1 + k by omega, ih _ (Memory.write_wf _ _ h) (by omega), byteOf_succ]

/-- Reading back the n bytes written. -/
theorem Memory.readN_writeN {m : Memory} (a n v : Nat) (h : Memory.wf m = true) :
    Memory.readN (Memory.writeN m a n v) a n = v % 256 ^ n := by
  induction n generalizing m a v with
  | zero => simp [Memory.readN, Nat.mod_one]
  | succ n ih =>
    rw [Memory.writeN, Memory.readN, ih _ _ (Memory.write_wf _ _ h), Memory.read_writeN_outside _ _ (by omega),
      Memory.read_write_same _ _ h, pow_succ, mul_comm (256 ^ n), Nat.mod_mul]
    simp

end Sys2Proof.Machine
end

