-- ==== Sys2Proof/Laws/State.lean ====
section
/-! SUPPORT. Beside State: what each named operation does to each field, one lemma a field, so that no later proof unfolds
a record update. -/

namespace Sys2Proof.Machine

/-! ### accept -/

@[simp] theorem accept_params (w : Word) (s : State) : (accept w s).params = s.params := rfl
@[simp] theorem accept_regs (w : Word) (s : State) : (accept w s).regs = s.regs := rfl
@[simp] theorem accept_irqEn (w : Word) (s : State) : (accept w s).irqEn = s.irqEn := rfl
@[simp] theorem accept_cmd (w : Word) (s : State) : (accept w s).cmd = w := rfl
@[simp] theorem accept_busy (w : Word) (s : State) : (accept w s).busy = true := rfl
@[simp] theorem accept_done (w : Word) (s : State) : (accept w s).done = false := rfl
@[simp] theorem accept_error (w : Word) (s : State) : (accept w s).error = false := rfl
@[simp] theorem accept_cancelled (w : Word) (s : State) : (accept w s).cancelled = false := rfl
@[simp] theorem accept_overrun (w : Word) (s : State) : (accept w s).overrun = s.overrun := rfl
@[simp] theorem accept_trunc (w : Word) (s : State) : (accept w s).trunc = false := rfl
@[simp] theorem accept_errCode (w : Word) (s : State) : (accept w s).errCode = .none := rfl
@[simp] theorem accept_pass (w : Word) (s : State) : (accept w s).pass = s.pass := rfl
@[simp] theorem accept_progress (w : Word) (s : State) : (accept w s).progress = 0 := rfl
@[simp] theorem accept_op (w : Word) (s : State) : (accept w s).op = w := rfl
@[simp] theorem accept_cfg (w : Word) (s : State) : (accept w s).cfg = s.regs := rfl
@[simp] theorem accept_cancelPending (w : Word) (s : State) : (accept w s).cancelPending = false := rfl
@[simp] theorem accept_pos (w : Word) (s : State) : (accept w s).pos = s.pos := rfl
@[simp] theorem accept_todo (w : Word) (s : State) : (accept w s).todo = s.todo := rfl
@[simp] theorem accept_stats (w : Word) (s : State) : (accept w s).stats = s.stats := rfl
@[simp] theorem accept_luts (w : Word) (s : State) : (accept w s).luts = s.luts := rfl
@[simp] theorem accept_lutValid (w : Word) (s : State) : (accept w s).lutValid = s.lutValid := rfl
@[simp] theorem accept_lutAddr (w : Word) (s : State) : (accept w s).lutAddr = s.lutAddr := rfl
@[simp] theorem accept_src (w : Word) (s : State) : (accept w s).src = s.src := rfl
@[simp] theorem accept_dst (w : Word) (s : State) : (accept w s).dst = s.dst := rfl
@[simp] theorem accept_host (w : Word) (s : State) : (accept w s).host = s.host := rfl
@[simp] theorem accept_reads (w : Word) (s : State) : (accept w s).reads = s.reads := rfl
@[simp] theorem accept_sched (w : Word) (s : State) : (accept w s).sched = s.sched := rfl
@[simp] theorem accept_draws (w : Word) (s : State) : (accept w s).draws = s.draws + 1 := rfl
@[simp] theorem accept_overwritten (w : Word) (s : State) : (accept w s).overwritten = [] := rfl
@[simp] theorem accept_srcRead (w : Word) (s : State) : (accept w s).srcRead = [] := rfl
@[simp] theorem accept_dstRead (w : Word) (s : State) : (accept w s).dstRead = [] := rfl
@[simp] theorem accept_srcForeign (w : Word) (s : State) : (accept w s).srcForeign = [] := rfl
@[simp] theorem accept_dstForeign (w : Word) (s : State) : (accept w s).dstForeign = [] := rfl
@[simp] theorem accept_launch (w : Word) (s : State) : (accept w s).launch = none := rfl
@[simp] theorem accept_ticks (w : Word) (s : State) : (accept w s).ticks = 0 := rfl
@[simp] theorem accept_cancelAt (w : Word) (s : State) : (accept w s).cancelAt = none := rfl

/-! ### setOverrun -/

@[simp] theorem State.setOverrun_params (s : State) : (s.setOverrun).params = s.params := rfl
@[simp] theorem State.setOverrun_regs (s : State) : (s.setOverrun).regs = s.regs := rfl
@[simp] theorem State.setOverrun_irqEn (s : State) : (s.setOverrun).irqEn = s.irqEn := rfl
@[simp] theorem State.setOverrun_cmd (s : State) : (s.setOverrun).cmd = s.cmd := rfl
@[simp] theorem State.setOverrun_busy (s : State) : (s.setOverrun).busy = s.busy := rfl
@[simp] theorem State.setOverrun_done (s : State) : (s.setOverrun).done = s.done := rfl
@[simp] theorem State.setOverrun_error (s : State) : (s.setOverrun).error = s.error := rfl
@[simp] theorem State.setOverrun_cancelled (s : State) : (s.setOverrun).cancelled = s.cancelled := rfl
@[simp] theorem State.setOverrun_overrun (s : State) : (s.setOverrun).overrun = true := rfl
@[simp] theorem State.setOverrun_trunc (s : State) : (s.setOverrun).trunc = s.trunc := rfl
@[simp] theorem State.setOverrun_errCode (s : State) : (s.setOverrun).errCode = s.errCode := rfl
@[simp] theorem State.setOverrun_pass (s : State) : (s.setOverrun).pass = s.pass := rfl
@[simp] theorem State.setOverrun_progress (s : State) : (s.setOverrun).progress = s.progress := rfl
@[simp] theorem State.setOverrun_op (s : State) : (s.setOverrun).op = s.op := rfl
@[simp] theorem State.setOverrun_cfg (s : State) : (s.setOverrun).cfg = s.cfg := rfl
@[simp] theorem State.setOverrun_cancelPending (s : State) : (s.setOverrun).cancelPending = s.cancelPending := rfl
@[simp] theorem State.setOverrun_pos (s : State) : (s.setOverrun).pos = s.pos := rfl
@[simp] theorem State.setOverrun_todo (s : State) : (s.setOverrun).todo = s.todo := rfl
@[simp] theorem State.setOverrun_stats (s : State) : (s.setOverrun).stats = s.stats := rfl
@[simp] theorem State.setOverrun_luts (s : State) : (s.setOverrun).luts = s.luts := rfl
@[simp] theorem State.setOverrun_lutValid (s : State) : (s.setOverrun).lutValid = s.lutValid := rfl
@[simp] theorem State.setOverrun_lutAddr (s : State) : (s.setOverrun).lutAddr = s.lutAddr := rfl
@[simp] theorem State.setOverrun_src (s : State) : (s.setOverrun).src = s.src := rfl
@[simp] theorem State.setOverrun_dst (s : State) : (s.setOverrun).dst = s.dst := rfl
@[simp] theorem State.setOverrun_host (s : State) : (s.setOverrun).host = s.host := rfl
@[simp] theorem State.setOverrun_reads (s : State) : (s.setOverrun).reads = s.reads := rfl
@[simp] theorem State.setOverrun_sched (s : State) : (s.setOverrun).sched = s.sched := rfl
@[simp] theorem State.setOverrun_draws (s : State) : (s.setOverrun).draws = s.draws := rfl
@[simp] theorem State.setOverrun_overwritten (s : State) : (s.setOverrun).overwritten = s.overwritten := rfl
@[simp] theorem State.setOverrun_srcRead (s : State) : (s.setOverrun).srcRead = s.srcRead := rfl
@[simp] theorem State.setOverrun_dstRead (s : State) : (s.setOverrun).dstRead = s.dstRead := rfl
@[simp] theorem State.setOverrun_srcForeign (s : State) : (s.setOverrun).srcForeign = s.srcForeign := rfl
@[simp] theorem State.setOverrun_dstForeign (s : State) : (s.setOverrun).dstForeign = s.dstForeign := rfl
@[simp] theorem State.setOverrun_launch (s : State) : (s.setOverrun).launch = s.launch := rfl
@[simp] theorem State.setOverrun_ticks (s : State) : (s.setOverrun).ticks = s.ticks := rfl
@[simp] theorem State.setOverrun_cancelAt (s : State) : (s.setOverrun).cancelAt = s.cancelAt := rfl

/-! ### quiesce -/

@[simp] theorem State.quiesce_params (s : State) : (s.quiesce).params = s.params := rfl
@[simp] theorem State.quiesce_regs (s : State) : (s.quiesce).regs = s.regs := rfl
@[simp] theorem State.quiesce_irqEn (s : State) : (s.quiesce).irqEn = s.irqEn := rfl
@[simp] theorem State.quiesce_cmd (s : State) : (s.quiesce).cmd = s.cmd := rfl
@[simp] theorem State.quiesce_busy (s : State) : (s.quiesce).busy = false := rfl
@[simp] theorem State.quiesce_done (s : State) : (s.quiesce).done = s.done := rfl
@[simp] theorem State.quiesce_error (s : State) : (s.quiesce).error = s.error := rfl
@[simp] theorem State.quiesce_cancelled (s : State) : (s.quiesce).cancelled = s.cancelled := rfl
@[simp] theorem State.quiesce_overrun (s : State) : (s.quiesce).overrun = s.overrun := rfl
@[simp] theorem State.quiesce_trunc (s : State) : (s.quiesce).trunc = s.trunc := rfl
@[simp] theorem State.quiesce_errCode (s : State) : (s.quiesce).errCode = s.errCode := rfl
@[simp] theorem State.quiesce_pass (s : State) : (s.quiesce).pass = .idle := rfl
@[simp] theorem State.quiesce_progress (s : State) : (s.quiesce).progress = s.progress := rfl
@[simp] theorem State.quiesce_op (s : State) : (s.quiesce).op = s.op := rfl
@[simp] theorem State.quiesce_cfg (s : State) : (s.quiesce).cfg = s.cfg := rfl
@[simp] theorem State.quiesce_cancelPending (s : State) : (s.quiesce).cancelPending = false := rfl
@[simp] theorem State.quiesce_pos (s : State) : (s.quiesce).pos = .idle := rfl
@[simp] theorem State.quiesce_todo (s : State) : (s.quiesce).todo = [] := rfl
@[simp] theorem State.quiesce_stats (s : State) : (s.quiesce).stats = s.settledStats := rfl
@[simp] theorem State.quiesce_luts (s : State) : (s.quiesce).luts = s.luts := rfl
@[simp] theorem State.quiesce_lutValid (s : State) : (s.quiesce).lutValid = s.lutValid := rfl
@[simp] theorem State.quiesce_lutAddr (s : State) : (s.quiesce).lutAddr = s.lutAddr := rfl
@[simp] theorem State.quiesce_src (s : State) : (s.quiesce).src = s.settledSrc := rfl
@[simp] theorem State.quiesce_dst (s : State) : (s.quiesce).dst = s.settledDst := rfl
@[simp] theorem State.quiesce_host (s : State) : (s.quiesce).host = s.host := rfl
@[simp] theorem State.quiesce_reads (s : State) : (s.quiesce).reads = s.reads := rfl
@[simp] theorem State.quiesce_sched (s : State) : (s.quiesce).sched = s.sched := rfl
@[simp] theorem State.quiesce_draws (s : State) : (s.quiesce).draws = s.draws := rfl
@[simp] theorem State.quiesce_overwritten (s : State) : (s.quiesce).overwritten = [] := rfl
@[simp] theorem State.quiesce_srcRead (s : State) : (s.quiesce).srcRead = [] := rfl
@[simp] theorem State.quiesce_dstRead (s : State) : (s.quiesce).dstRead = [] := rfl
@[simp] theorem State.quiesce_srcForeign (s : State) : (s.quiesce).srcForeign = [] := rfl
@[simp] theorem State.quiesce_dstForeign (s : State) : (s.quiesce).dstForeign = [] := rfl
@[simp] theorem State.quiesce_launch (s : State) : (s.quiesce).launch = none := rfl
@[simp] theorem State.quiesce_ticks (s : State) : (s.quiesce).ticks = 0 := rfl
@[simp] theorem State.quiesce_cancelAt (s : State) : (s.quiesce).cancelAt = none := rfl

/-! ### finish -/

@[simp] theorem finish_params (e : Ending) (s : State) : (finish e s).params = s.params := by cases e <;> rfl
@[simp] theorem finish_regs (e : Ending) (s : State) : (finish e s).regs = s.regs := by cases e <;> rfl
@[simp] theorem finish_irqEn (e : Ending) (s : State) : (finish e s).irqEn = s.irqEn := by cases e <;> rfl
@[simp] theorem finish_cmd (e : Ending) (s : State) : (finish e s).cmd = s.cmd := by cases e <;> rfl
@[simp] theorem finish_busy (e : Ending) (s : State) : (finish e s).busy = false := by cases e <;> rfl
@[simp] theorem finish_overrun (e : Ending) (s : State) : (finish e s).overrun = s.overrun := by cases e <;> rfl
@[simp] theorem finish_trunc (e : Ending) (s : State) : (finish e s).trunc = s.trunc := by cases e <;> rfl
@[simp] theorem finish_pass (e : Ending) (s : State) : (finish e s).pass = .idle := by cases e <;> rfl
@[simp] theorem finish_progress (e : Ending) (s : State) : (finish e s).progress = s.progress := by cases e <;> rfl
@[simp] theorem finish_op (e : Ending) (s : State) : (finish e s).op = s.op := by cases e <;> rfl
@[simp] theorem finish_cfg (e : Ending) (s : State) : (finish e s).cfg = s.cfg := by cases e <;> rfl
@[simp] theorem finish_cancelPending (e : Ending) (s : State) : (finish e s).cancelPending = false := by cases e <;> rfl
@[simp] theorem finish_pos (e : Ending) (s : State) : (finish e s).pos = .idle := by cases e <;> rfl
@[simp] theorem finish_todo (e : Ending) (s : State) : (finish e s).todo = [] := by cases e <;> rfl
@[simp] theorem finish_stats (e : Ending) (s : State) : (finish e s).stats = s.settledStats := by cases e <;> rfl
@[simp] theorem finish_luts (e : Ending) (s : State) : (finish e s).luts = s.luts := by cases e <;> rfl
@[simp] theorem finish_lutValid (e : Ending) (s : State) : (finish e s).lutValid = s.lutValid := by cases e <;> rfl
@[simp] theorem finish_lutAddr (e : Ending) (s : State) : (finish e s).lutAddr = s.lutAddr := by cases e <;> rfl
@[simp] theorem finish_src (e : Ending) (s : State) : (finish e s).src = s.settledSrc := by cases e <;> rfl
@[simp] theorem finish_dst (e : Ending) (s : State) : (finish e s).dst = s.settledDst := by cases e <;> rfl
@[simp] theorem finish_host (e : Ending) (s : State) : (finish e s).host = s.host := by cases e <;> rfl
@[simp] theorem finish_reads (e : Ending) (s : State) : (finish e s).reads = s.reads := by cases e <;> rfl
@[simp] theorem finish_sched (e : Ending) (s : State) : (finish e s).sched = s.sched := by cases e <;> rfl
@[simp] theorem finish_draws (e : Ending) (s : State) : (finish e s).draws = s.draws := by cases e <;> rfl
@[simp] theorem finish_overwritten (e : Ending) (s : State) : (finish e s).overwritten = [] := by cases e <;> rfl
@[simp] theorem finish_srcRead (e : Ending) (s : State) : (finish e s).srcRead = [] := by cases e <;> rfl
@[simp] theorem finish_dstRead (e : Ending) (s : State) : (finish e s).dstRead = [] := by cases e <;> rfl
@[simp] theorem finish_srcForeign (e : Ending) (s : State) : (finish e s).srcForeign = [] := by cases e <;> rfl
@[simp] theorem finish_dstForeign (e : Ending) (s : State) : (finish e s).dstForeign = [] := by cases e <;> rfl
@[simp] theorem finish_launch (e : Ending) (s : State) : (finish e s).launch = none := by cases e <;> rfl
@[simp] theorem finish_ticks (e : Ending) (s : State) : (finish e s).ticks = 0 := by cases e <;> rfl
@[simp] theorem finish_cancelAt (e : Ending) (s : State) : (finish e s).cancelAt = none := by cases e <;> rfl
@[simp] theorem finish_done_done (s : State) : (finish .done s).done = true := rfl
@[simp] theorem finish_done_error (s : State) : (finish .done s).error = s.error := rfl
@[simp] theorem finish_done_cancelled (s : State) : (finish .done s).cancelled = s.cancelled := rfl
@[simp] theorem finish_done_errCode (s : State) : (finish .done s).errCode = s.errCode := rfl
@[simp] theorem finish_cancelled_done (s : State) : (finish .cancelled s).done = s.done := rfl
@[simp] theorem finish_cancelled_error (s : State) : (finish .cancelled s).error = s.error := rfl
@[simp] theorem finish_cancelled_cancelled (s : State) : (finish .cancelled s).cancelled = true := rfl
@[simp] theorem finish_cancelled_errCode (s : State) : (finish .cancelled s).errCode = s.errCode := rfl
@[simp] theorem finish_error_done (code : ErrCode) (s : State) : (finish (.error code) s).done = s.done := rfl
@[simp] theorem finish_error_error (code : ErrCode) (s : State) : (finish (.error code) s).error = true := rfl
@[simp] theorem finish_error_cancelled (code : ErrCode) (s : State) : (finish (.error code) s).cancelled = s.cancelled := rfl
@[simp] theorem finish_error_errCode (code : ErrCode) (s : State) : (finish (.error code) s).errCode = code := rfl

/-! ### clearStatus -/

@[simp] theorem State.clearStatus_params (s : State) (v : Word) : (s.clearStatus v).params = s.params := rfl
@[simp] theorem State.clearStatus_regs (s : State) (v : Word) : (s.clearStatus v).regs = s.regs := rfl
@[simp] theorem State.clearStatus_irqEn (s : State) (v : Word) : (s.clearStatus v).irqEn = s.irqEn := rfl
@[simp] theorem State.clearStatus_cmd (s : State) (v : Word) : (s.clearStatus v).cmd = s.cmd := rfl
@[simp] theorem State.clearStatus_busy (s : State) (v : Word) : (s.clearStatus v).busy = s.busy := rfl
@[simp] theorem State.clearStatus_done (s : State) (v : Word) : (s.clearStatus v).done = (s.done && !flag v 1) := rfl
@[simp] theorem State.clearStatus_error (s : State) (v : Word) : (s.clearStatus v).error = (s.error && !flag v 2) := rfl
@[simp] theorem State.clearStatus_cancelled (s : State) (v : Word) : (s.clearStatus v).cancelled = (s.cancelled && !flag v 3) := rfl
@[simp] theorem State.clearStatus_overrun (s : State) (v : Word) : (s.clearStatus v).overrun = (s.overrun && !flag v 4) := rfl
@[simp] theorem State.clearStatus_trunc (s : State) (v : Word) : (s.clearStatus v).trunc = s.trunc := rfl
@[simp] theorem State.clearStatus_errCode (s : State) (v : Word) : (s.clearStatus v).errCode = s.errCode := rfl
@[simp] theorem State.clearStatus_pass (s : State) (v : Word) : (s.clearStatus v).pass = s.pass := rfl
@[simp] theorem State.clearStatus_progress (s : State) (v : Word) : (s.clearStatus v).progress = s.progress := rfl
@[simp] theorem State.clearStatus_op (s : State) (v : Word) : (s.clearStatus v).op = s.op := rfl
@[simp] theorem State.clearStatus_cfg (s : State) (v : Word) : (s.clearStatus v).cfg = s.cfg := rfl
@[simp] theorem State.clearStatus_cancelPending (s : State) (v : Word) : (s.clearStatus v).cancelPending = s.cancelPending := rfl
@[simp] theorem State.clearStatus_pos (s : State) (v : Word) : (s.clearStatus v).pos = s.pos := rfl
@[simp] theorem State.clearStatus_todo (s : State) (v : Word) : (s.clearStatus v).todo = s.todo := rfl
@[simp] theorem State.clearStatus_stats (s : State) (v : Word) : (s.clearStatus v).stats = s.stats := rfl
@[simp] theorem State.clearStatus_luts (s : State) (v : Word) : (s.clearStatus v).luts = s.luts := rfl
@[simp] theorem State.clearStatus_lutValid (s : State) (v : Word) : (s.clearStatus v).lutValid = s.lutValid := rfl
@[simp] theorem State.clearStatus_lutAddr (s : State) (v : Word) : (s.clearStatus v).lutAddr = s.lutAddr := rfl
@[simp] theorem State.clearStatus_src (s : State) (v : Word) : (s.clearStatus v).src = s.src := rfl
@[simp] theorem State.clearStatus_dst (s : State) (v : Word) : (s.clearStatus v).dst = s.dst := rfl
@[simp] theorem State.clearStatus_host (s : State) (v : Word) : (s.clearStatus v).host = s.host := rfl
@[simp] theorem State.clearStatus_reads (s : State) (v : Word) : (s.clearStatus v).reads = s.reads := rfl
@[simp] theorem State.clearStatus_sched (s : State) (v : Word) : (s.clearStatus v).sched = s.sched := rfl
@[simp] theorem State.clearStatus_draws (s : State) (v : Word) : (s.clearStatus v).draws = s.draws := rfl
@[simp] theorem State.clearStatus_overwritten (s : State) (v : Word) : (s.clearStatus v).overwritten = s.overwritten := rfl
@[simp] theorem State.clearStatus_srcRead (s : State) (v : Word) : (s.clearStatus v).srcRead = s.srcRead := rfl
@[simp] theorem State.clearStatus_dstRead (s : State) (v : Word) : (s.clearStatus v).dstRead = s.dstRead := rfl
@[simp] theorem State.clearStatus_srcForeign (s : State) (v : Word) : (s.clearStatus v).srcForeign = s.srcForeign := rfl
@[simp] theorem State.clearStatus_dstForeign (s : State) (v : Word) : (s.clearStatus v).dstForeign = s.dstForeign := rfl
@[simp] theorem State.clearStatus_launch (s : State) (v : Word) : (s.clearStatus v).launch = s.launch := rfl
@[simp] theorem State.clearStatus_ticks (s : State) (v : Word) : (s.clearStatus v).ticks = s.ticks := rfl
@[simp] theorem State.clearStatus_cancelAt (s : State) (v : Word) : (s.clearStatus v).cancelAt = s.cancelAt := rfl

/-! ### resetRegisters -/

@[simp] theorem State.resetRegisters_params (s : State) : (s.resetRegisters).params = s.params := rfl
@[simp] theorem State.resetRegisters_regs (s : State) : (s.resetRegisters).regs = CfgRegs.reset := rfl
@[simp] theorem State.resetRegisters_irqEn (s : State) : (s.resetRegisters).irqEn = 0 := rfl
@[simp] theorem State.resetRegisters_cmd (s : State) : (s.resetRegisters).cmd = 0 := rfl
@[simp] theorem State.resetRegisters_busy (s : State) : (s.resetRegisters).busy = false := rfl
@[simp] theorem State.resetRegisters_done (s : State) : (s.resetRegisters).done = false := rfl
@[simp] theorem State.resetRegisters_error (s : State) : (s.resetRegisters).error = false := rfl
@[simp] theorem State.resetRegisters_cancelled (s : State) : (s.resetRegisters).cancelled = false := rfl
@[simp] theorem State.resetRegisters_overrun (s : State) : (s.resetRegisters).overrun = false := rfl
@[simp] theorem State.resetRegisters_trunc (s : State) : (s.resetRegisters).trunc = false := rfl
@[simp] theorem State.resetRegisters_errCode (s : State) : (s.resetRegisters).errCode = .none := rfl
@[simp] theorem State.resetRegisters_pass (s : State) : (s.resetRegisters).pass = .idle := rfl
@[simp] theorem State.resetRegisters_progress (s : State) : (s.resetRegisters).progress = 0 := rfl
@[simp] theorem State.resetRegisters_op (s : State) : (s.resetRegisters).op = 0 := rfl
@[simp] theorem State.resetRegisters_cfg (s : State) : (s.resetRegisters).cfg = CfgRegs.zero := rfl
@[simp] theorem State.resetRegisters_cancelPending (s : State) : (s.resetRegisters).cancelPending = false := rfl
@[simp] theorem State.resetRegisters_pos (s : State) : (s.resetRegisters).pos = .idle := rfl
@[simp] theorem State.resetRegisters_todo (s : State) : (s.resetRegisters).todo = [] := rfl
@[simp] theorem State.resetRegisters_stats (s : State) : (s.resetRegisters).stats = Stats.zero := rfl
@[simp] theorem State.resetRegisters_luts (s : State) : (s.resetRegisters).luts = s.luts := rfl
@[simp] theorem State.resetRegisters_lutValid (s : State) : (s.resetRegisters).lutValid = LutValid.none := rfl
@[simp] theorem State.resetRegisters_lutAddr (s : State) : (s.resetRegisters).lutAddr = 0 := rfl
@[simp] theorem State.resetRegisters_src (s : State) : (s.resetRegisters).src = s.src := rfl
@[simp] theorem State.resetRegisters_dst (s : State) : (s.resetRegisters).dst = s.dst := rfl
@[simp] theorem State.resetRegisters_host (s : State) : (s.resetRegisters).host = s.host := rfl
@[simp] theorem State.resetRegisters_reads (s : State) : (s.resetRegisters).reads = s.reads := rfl
@[simp] theorem State.resetRegisters_sched (s : State) : (s.resetRegisters).sched = s.sched := rfl
@[simp] theorem State.resetRegisters_draws (s : State) : (s.resetRegisters).draws = s.draws := rfl
@[simp] theorem State.resetRegisters_overwritten (s : State) : (s.resetRegisters).overwritten = [] := rfl
@[simp] theorem State.resetRegisters_srcRead (s : State) : (s.resetRegisters).srcRead = [] := rfl
@[simp] theorem State.resetRegisters_dstRead (s : State) : (s.resetRegisters).dstRead = [] := rfl
@[simp] theorem State.resetRegisters_srcForeign (s : State) : (s.resetRegisters).srcForeign = [] := rfl
@[simp] theorem State.resetRegisters_dstForeign (s : State) : (s.resetRegisters).dstForeign = [] := rfl
@[simp] theorem State.resetRegisters_launch (s : State) : (s.resetRegisters).launch = none := rfl
@[simp] theorem State.resetRegisters_ticks (s : State) : (s.resetRegisters).ticks = 0 := rfl
@[simp] theorem State.resetRegisters_cancelAt (s : State) : (s.resetRegisters).cancelAt = none := rfl

/-! ### count, answer, draw -/

@[simp] theorem State.count_params (s : State) : (s.count).params = s.params := rfl
@[simp] theorem State.count_regs (s : State) : (s.count).regs = s.regs := rfl
@[simp] theorem State.count_irqEn (s : State) : (s.count).irqEn = s.irqEn := rfl
@[simp] theorem State.count_cmd (s : State) : (s.count).cmd = s.cmd := rfl
@[simp] theorem State.count_busy (s : State) : (s.count).busy = s.busy := rfl
@[simp] theorem State.count_done (s : State) : (s.count).done = s.done := rfl
@[simp] theorem State.count_error (s : State) : (s.count).error = s.error := rfl
@[simp] theorem State.count_cancelled (s : State) : (s.count).cancelled = s.cancelled := rfl
@[simp] theorem State.count_overrun (s : State) : (s.count).overrun = s.overrun := rfl
@[simp] theorem State.count_trunc (s : State) : (s.count).trunc = s.trunc := rfl
@[simp] theorem State.count_errCode (s : State) : (s.count).errCode = s.errCode := rfl
@[simp] theorem State.count_pass (s : State) : (s.count).pass = s.pass := rfl
@[simp] theorem State.count_progress (s : State) : (s.count).progress = s.progress + 1 := rfl
@[simp] theorem State.count_op (s : State) : (s.count).op = s.op := rfl
@[simp] theorem State.count_cfg (s : State) : (s.count).cfg = s.cfg := rfl
@[simp] theorem State.count_cancelPending (s : State) : (s.count).cancelPending = s.cancelPending := rfl
@[simp] theorem State.count_pos (s : State) : (s.count).pos = s.pos := rfl
@[simp] theorem State.count_todo (s : State) : (s.count).todo = s.todo := rfl
@[simp] theorem State.count_stats (s : State) : (s.count).stats = s.stats := rfl
@[simp] theorem State.count_luts (s : State) : (s.count).luts = s.luts := rfl
@[simp] theorem State.count_lutValid (s : State) : (s.count).lutValid = s.lutValid := rfl
@[simp] theorem State.count_lutAddr (s : State) : (s.count).lutAddr = s.lutAddr := rfl
@[simp] theorem State.count_src (s : State) : (s.count).src = s.src := rfl
@[simp] theorem State.count_dst (s : State) : (s.count).dst = s.dst := rfl
@[simp] theorem State.count_host (s : State) : (s.count).host = s.host := rfl
@[simp] theorem State.count_reads (s : State) : (s.count).reads = s.reads := rfl
@[simp] theorem State.count_sched (s : State) : (s.count).sched = s.sched := rfl
@[simp] theorem State.count_draws (s : State) : (s.count).draws = s.draws := rfl
@[simp] theorem State.count_overwritten (s : State) : (s.count).overwritten = s.overwritten := rfl
@[simp] theorem State.count_srcRead (s : State) : (s.count).srcRead = s.srcRead := rfl
@[simp] theorem State.count_dstRead (s : State) : (s.count).dstRead = s.dstRead := rfl
@[simp] theorem State.count_srcForeign (s : State) : (s.count).srcForeign = s.srcForeign := rfl
@[simp] theorem State.count_dstForeign (s : State) : (s.count).dstForeign = s.dstForeign := rfl
@[simp] theorem State.count_launch (s : State) : (s.count).launch = s.launch := rfl
@[simp] theorem State.count_ticks (s : State) : (s.count).ticks = s.ticks := rfl
@[simp] theorem State.count_cancelAt (s : State) : (s.count).cancelAt = s.cancelAt := rfl
@[simp] theorem State.answer_params (s : State) (v : Word) : (s.answer v).params = s.params := rfl
@[simp] theorem State.answer_regs (s : State) (v : Word) : (s.answer v).regs = s.regs := rfl
@[simp] theorem State.answer_irqEn (s : State) (v : Word) : (s.answer v).irqEn = s.irqEn := rfl
@[simp] theorem State.answer_cmd (s : State) (v : Word) : (s.answer v).cmd = s.cmd := rfl
@[simp] theorem State.answer_busy (s : State) (v : Word) : (s.answer v).busy = s.busy := rfl
@[simp] theorem State.answer_done (s : State) (v : Word) : (s.answer v).done = s.done := rfl
@[simp] theorem State.answer_error (s : State) (v : Word) : (s.answer v).error = s.error := rfl
@[simp] theorem State.answer_cancelled (s : State) (v : Word) : (s.answer v).cancelled = s.cancelled := rfl
@[simp] theorem State.answer_overrun (s : State) (v : Word) : (s.answer v).overrun = s.overrun := rfl
@[simp] theorem State.answer_trunc (s : State) (v : Word) : (s.answer v).trunc = s.trunc := rfl
@[simp] theorem State.answer_errCode (s : State) (v : Word) : (s.answer v).errCode = s.errCode := rfl
@[simp] theorem State.answer_pass (s : State) (v : Word) : (s.answer v).pass = s.pass := rfl
@[simp] theorem State.answer_progress (s : State) (v : Word) : (s.answer v).progress = s.progress := rfl
@[simp] theorem State.answer_op (s : State) (v : Word) : (s.answer v).op = s.op := rfl
@[simp] theorem State.answer_cfg (s : State) (v : Word) : (s.answer v).cfg = s.cfg := rfl
@[simp] theorem State.answer_cancelPending (s : State) (v : Word) : (s.answer v).cancelPending = s.cancelPending := rfl
@[simp] theorem State.answer_pos (s : State) (v : Word) : (s.answer v).pos = s.pos := rfl
@[simp] theorem State.answer_todo (s : State) (v : Word) : (s.answer v).todo = s.todo := rfl
@[simp] theorem State.answer_stats (s : State) (v : Word) : (s.answer v).stats = s.stats := rfl
@[simp] theorem State.answer_luts (s : State) (v : Word) : (s.answer v).luts = s.luts := rfl
@[simp] theorem State.answer_lutValid (s : State) (v : Word) : (s.answer v).lutValid = s.lutValid := rfl
@[simp] theorem State.answer_lutAddr (s : State) (v : Word) : (s.answer v).lutAddr = s.lutAddr := rfl
@[simp] theorem State.answer_src (s : State) (v : Word) : (s.answer v).src = s.src := rfl
@[simp] theorem State.answer_dst (s : State) (v : Word) : (s.answer v).dst = s.dst := rfl
@[simp] theorem State.answer_host (s : State) (v : Word) : (s.answer v).host = s.host := rfl
@[simp] theorem State.answer_reads (s : State) (v : Word) : (s.answer v).reads = v :: s.reads := rfl
@[simp] theorem State.answer_sched (s : State) (v : Word) : (s.answer v).sched = s.sched := rfl
@[simp] theorem State.answer_draws (s : State) (v : Word) : (s.answer v).draws = s.draws := rfl
@[simp] theorem State.answer_overwritten (s : State) (v : Word) : (s.answer v).overwritten = s.overwritten := rfl
@[simp] theorem State.answer_srcRead (s : State) (v : Word) : (s.answer v).srcRead = s.srcRead := rfl
@[simp] theorem State.answer_dstRead (s : State) (v : Word) : (s.answer v).dstRead = s.dstRead := rfl
@[simp] theorem State.answer_srcForeign (s : State) (v : Word) : (s.answer v).srcForeign = s.srcForeign := rfl
@[simp] theorem State.answer_dstForeign (s : State) (v : Word) : (s.answer v).dstForeign = s.dstForeign := rfl
@[simp] theorem State.answer_launch (s : State) (v : Word) : (s.answer v).launch = s.launch := rfl
@[simp] theorem State.answer_ticks (s : State) (v : Word) : (s.answer v).ticks = s.ticks := rfl
@[simp] theorem State.answer_cancelAt (s : State) (v : Word) : (s.answer v).cancelAt = s.cancelAt := rfl
@[simp] theorem State.draw_params (s : State) : (s.draw).params = s.params := rfl
@[simp] theorem State.draw_regs (s : State) : (s.draw).regs = s.regs := rfl
@[simp] theorem State.draw_irqEn (s : State) : (s.draw).irqEn = s.irqEn := rfl
@[simp] theorem State.draw_cmd (s : State) : (s.draw).cmd = s.cmd := rfl
@[simp] theorem State.draw_busy (s : State) : (s.draw).busy = s.busy := rfl
@[simp] theorem State.draw_done (s : State) : (s.draw).done = s.done := rfl
@[simp] theorem State.draw_error (s : State) : (s.draw).error = s.error := rfl
@[simp] theorem State.draw_cancelled (s : State) : (s.draw).cancelled = s.cancelled := rfl
@[simp] theorem State.draw_overrun (s : State) : (s.draw).overrun = s.overrun := rfl
@[simp] theorem State.draw_trunc (s : State) : (s.draw).trunc = s.trunc := rfl
@[simp] theorem State.draw_errCode (s : State) : (s.draw).errCode = s.errCode := rfl
@[simp] theorem State.draw_pass (s : State) : (s.draw).pass = s.pass := rfl
@[simp] theorem State.draw_progress (s : State) : (s.draw).progress = s.progress := rfl
@[simp] theorem State.draw_op (s : State) : (s.draw).op = s.op := rfl
@[simp] theorem State.draw_cfg (s : State) : (s.draw).cfg = s.cfg := rfl
@[simp] theorem State.draw_cancelPending (s : State) : (s.draw).cancelPending = s.cancelPending := rfl
@[simp] theorem State.draw_pos (s : State) : (s.draw).pos = s.pos := rfl
@[simp] theorem State.draw_todo (s : State) : (s.draw).todo = s.todo := rfl
@[simp] theorem State.draw_stats (s : State) : (s.draw).stats = s.stats := rfl
@[simp] theorem State.draw_luts (s : State) : (s.draw).luts = s.luts := rfl
@[simp] theorem State.draw_lutValid (s : State) : (s.draw).lutValid = s.lutValid := rfl
@[simp] theorem State.draw_lutAddr (s : State) : (s.draw).lutAddr = s.lutAddr := rfl
@[simp] theorem State.draw_src (s : State) : (s.draw).src = s.src := rfl
@[simp] theorem State.draw_dst (s : State) : (s.draw).dst = s.dst := rfl
@[simp] theorem State.draw_host (s : State) : (s.draw).host = s.host := rfl
@[simp] theorem State.draw_reads (s : State) : (s.draw).reads = s.reads := rfl
@[simp] theorem State.draw_sched (s : State) : (s.draw).sched = s.sched := rfl
@[simp] theorem State.draw_draws (s : State) : (s.draw).draws = s.draws + 1 := rfl
@[simp] theorem State.draw_overwritten (s : State) : (s.draw).overwritten = s.overwritten := rfl
@[simp] theorem State.draw_srcRead (s : State) : (s.draw).srcRead = s.srcRead := rfl
@[simp] theorem State.draw_dstRead (s : State) : (s.draw).dstRead = s.dstRead := rfl
@[simp] theorem State.draw_srcForeign (s : State) : (s.draw).srcForeign = s.srcForeign := rfl
@[simp] theorem State.draw_dstForeign (s : State) : (s.draw).dstForeign = s.dstForeign := rfl
@[simp] theorem State.draw_launch (s : State) : (s.draw).launch = s.launch := rfl
@[simp] theorem State.draw_ticks (s : State) : (s.draw).ticks = s.ticks := rfl
@[simp] theorem State.draw_cancelAt (s : State) : (s.draw).cancelAt = s.cancelAt := rfl

/-! ### putByte -/

@[simp] theorem State.putByte_params (s : State) (a : Nat) (v : Byte) : (s.putByte a v).params = s.params := rfl
@[simp] theorem State.putByte_regs (s : State) (a : Nat) (v : Byte) : (s.putByte a v).regs = s.regs := rfl
@[simp] theorem State.putByte_irqEn (s : State) (a : Nat) (v : Byte) : (s.putByte a v).irqEn = s.irqEn := rfl
@[simp] theorem State.putByte_cmd (s : State) (a : Nat) (v : Byte) : (s.putByte a v).cmd = s.cmd := rfl
@[simp] theorem State.putByte_busy (s : State) (a : Nat) (v : Byte) : (s.putByte a v).busy = s.busy := rfl
@[simp] theorem State.putByte_done (s : State) (a : Nat) (v : Byte) : (s.putByte a v).done = s.done := rfl
@[simp] theorem State.putByte_error (s : State) (a : Nat) (v : Byte) : (s.putByte a v).error = s.error := rfl
@[simp] theorem State.putByte_cancelled (s : State) (a : Nat) (v : Byte) : (s.putByte a v).cancelled = s.cancelled := rfl
@[simp] theorem State.putByte_overrun (s : State) (a : Nat) (v : Byte) : (s.putByte a v).overrun = s.overrun := rfl
@[simp] theorem State.putByte_trunc (s : State) (a : Nat) (v : Byte) : (s.putByte a v).trunc = s.trunc := rfl
@[simp] theorem State.putByte_errCode (s : State) (a : Nat) (v : Byte) : (s.putByte a v).errCode = s.errCode := rfl
@[simp] theorem State.putByte_pass (s : State) (a : Nat) (v : Byte) : (s.putByte a v).pass = s.pass := rfl
@[simp] theorem State.putByte_progress (s : State) (a : Nat) (v : Byte) : (s.putByte a v).progress = s.progress := rfl
@[simp] theorem State.putByte_op (s : State) (a : Nat) (v : Byte) : (s.putByte a v).op = s.op := rfl
@[simp] theorem State.putByte_cfg (s : State) (a : Nat) (v : Byte) : (s.putByte a v).cfg = s.cfg := rfl
@[simp] theorem State.putByte_cancelPending (s : State) (a : Nat) (v : Byte) : (s.putByte a v).cancelPending = s.cancelPending := rfl
@[simp] theorem State.putByte_pos (s : State) (a : Nat) (v : Byte) : (s.putByte a v).pos = s.pos := rfl
@[simp] theorem State.putByte_todo (s : State) (a : Nat) (v : Byte) : (s.putByte a v).todo = s.todo := rfl
@[simp] theorem State.putByte_stats (s : State) (a : Nat) (v : Byte) : (s.putByte a v).stats = s.stats := rfl
@[simp] theorem State.putByte_luts (s : State) (a : Nat) (v : Byte) : (s.putByte a v).luts = s.luts := rfl
@[simp] theorem State.putByte_lutValid (s : State) (a : Nat) (v : Byte) : (s.putByte a v).lutValid = s.lutValid := rfl
@[simp] theorem State.putByte_lutAddr (s : State) (a : Nat) (v : Byte) : (s.putByte a v).lutAddr = s.lutAddr := rfl
@[simp] theorem State.putByte_src (s : State) (a : Nat) (v : Byte) : (s.putByte a v).src = s.src := rfl
@[simp] theorem State.putByte_dst (s : State) (a : Nat) (v : Byte) : (s.putByte a v).dst = Memory.write s.dst a v := rfl
@[simp] theorem State.putByte_host (s : State) (a : Nat) (v : Byte) : (s.putByte a v).host = s.host := rfl
@[simp] theorem State.putByte_reads (s : State) (a : Nat) (v : Byte) : (s.putByte a v).reads = s.reads := rfl
@[simp] theorem State.putByte_sched (s : State) (a : Nat) (v : Byte) : (s.putByte a v).sched = s.sched := rfl
@[simp] theorem State.putByte_draws (s : State) (a : Nat) (v : Byte) : (s.putByte a v).draws = s.draws := rfl
@[simp] theorem State.putByte_overwritten (s : State) (a : Nat) (v : Byte) : (s.putByte a v).overwritten = (a, Memory.read s.dst a) :: s.overwritten := rfl
@[simp] theorem State.putByte_srcRead (s : State) (a : Nat) (v : Byte) : (s.putByte a v).srcRead = s.srcRead := rfl
@[simp] theorem State.putByte_dstRead (s : State) (a : Nat) (v : Byte) : (s.putByte a v).dstRead = s.dstRead := rfl
@[simp] theorem State.putByte_srcForeign (s : State) (a : Nat) (v : Byte) : (s.putByte a v).srcForeign = s.srcForeign := rfl
@[simp] theorem State.putByte_dstForeign (s : State) (a : Nat) (v : Byte) : (s.putByte a v).dstForeign = s.dstForeign := rfl
@[simp] theorem State.putByte_launch (s : State) (a : Nat) (v : Byte) : (s.putByte a v).launch = s.launch := rfl
@[simp] theorem State.putByte_ticks (s : State) (a : Nat) (v : Byte) : (s.putByte a v).ticks = s.ticks := rfl
@[simp] theorem State.putByte_cancelAt (s : State) (a : Nat) (v : Byte) : (s.putByte a v).cancelAt = s.cancelAt := rfl

/-! ### putWord and the pixel writes: everything but the destination space and its record -/

theorem State.putWord_keeps {β : Type} (f : State → β) (hf : ∀ s a v, f (State.putByte s a v) = f s) (s : State)
    (a n v : Nat) : f (s.putWord a n v) = f s := by
  induction n generalizing s a v with
  | zero => rfl
  | succ n ih => rw [State.putWord, ih, hf]

@[simp] theorem State.putWord_params (s : State) (a n v : Nat) : (s.putWord a n v).params = s.params := State.putWord_keeps _ (fun _ _ _ => rfl) s a n v
@[simp] theorem State.putWord_regs (s : State) (a n v : Nat) : (s.putWord a n v).regs = s.regs := State.putWord_keeps _ (fun _ _ _ => rfl) s a n v
@[simp] theorem State.putWord_irqEn (s : State) (a n v : Nat) : (s.putWord a n v).irqEn = s.irqEn := State.putWord_keeps _ (fun _ _ _ => rfl) s a n v
@[simp] theorem State.putWord_cmd (s : State) (a n v : Nat) : (s.putWord a n v).cmd = s.cmd := State.putWord_keeps _ (fun _ _ _ => rfl) s a n v
@[simp] theorem State.putWord_busy (s : State) (a n v : Nat) : (s.putWord a n v).busy = s.busy := State.putWord_keeps _ (fun _ _ _ => rfl) s a n v
@[simp] theorem State.putWord_done (s : State) (a n v : Nat) : (s.putWord a n v).done = s.done := State.putWord_keeps _ (fun _ _ _ => rfl) s a n v
@[simp] theorem State.putWord_error (s : State) (a n v : Nat) : (s.putWord a n v).error = s.error := State.putWord_keeps _ (fun _ _ _ => rfl) s a n v
@[simp] theorem State.putWord_cancelled (s : State) (a n v : Nat) : (s.putWord a n v).cancelled = s.cancelled := State.putWord_keeps _ (fun _ _ _ => rfl) s a n v
@[simp] theorem State.putWord_overrun (s : State) (a n v : Nat) : (s.putWord a n v).overrun = s.overrun := State.putWord_keeps _ (fun _ _ _ => rfl) s a n v
@[simp] theorem State.putWord_trunc (s : State) (a n v : Nat) : (s.putWord a n v).trunc = s.trunc := State.putWord_keeps _ (fun _ _ _ => rfl) s a n v
@[simp] theorem State.putWord_errCode (s : State) (a n v : Nat) : (s.putWord a n v).errCode = s.errCode := State.putWord_keeps _ (fun _ _ _ => rfl) s a n v
@[simp] theorem State.putWord_pass (s : State) (a n v : Nat) : (s.putWord a n v).pass = s.pass := State.putWord_keeps _ (fun _ _ _ => rfl) s a n v
@[simp] theorem State.putWord_progress (s : State) (a n v : Nat) : (s.putWord a n v).progress = s.progress := State.putWord_keeps _ (fun _ _ _ => rfl) s a n v
@[simp] theorem State.putWord_op (s : State) (a n v : Nat) : (s.putWord a n v).op = s.op := State.putWord_keeps _ (fun _ _ _ => rfl) s a n v
@[simp] theorem State.putWord_cfg (s : State) (a n v : Nat) : (s.putWord a n v).cfg = s.cfg := State.putWord_keeps _ (fun _ _ _ => rfl) s a n v
@[simp] theorem State.putWord_cancelPending (s : State) (a n v : Nat) : (s.putWord a n v).cancelPending = s.cancelPending := State.putWord_keeps _ (fun _ _ _ => rfl) s a n v
@[simp] theorem State.putWord_pos (s : State) (a n v : Nat) : (s.putWord a n v).pos = s.pos := State.putWord_keeps _ (fun _ _ _ => rfl) s a n v
@[simp] theorem State.putWord_todo (s : State) (a n v : Nat) : (s.putWord a n v).todo = s.todo := State.putWord_keeps _ (fun _ _ _ => rfl) s a n v
@[simp] theorem State.putWord_stats (s : State) (a n v : Nat) : (s.putWord a n v).stats = s.stats := State.putWord_keeps _ (fun _ _ _ => rfl) s a n v
@[simp] theorem State.putWord_luts (s : State) (a n v : Nat) : (s.putWord a n v).luts = s.luts := State.putWord_keeps _ (fun _ _ _ => rfl) s a n v
@[simp] theorem State.putWord_lutValid (s : State) (a n v : Nat) : (s.putWord a n v).lutValid = s.lutValid := State.putWord_keeps _ (fun _ _ _ => rfl) s a n v
@[simp] theorem State.putWord_lutAddr (s : State) (a n v : Nat) : (s.putWord a n v).lutAddr = s.lutAddr := State.putWord_keeps _ (fun _ _ _ => rfl) s a n v
@[simp] theorem State.putWord_src (s : State) (a n v : Nat) : (s.putWord a n v).src = s.src := State.putWord_keeps _ (fun _ _ _ => rfl) s a n v
@[simp] theorem State.putWord_host (s : State) (a n v : Nat) : (s.putWord a n v).host = s.host := State.putWord_keeps _ (fun _ _ _ => rfl) s a n v
@[simp] theorem State.putWord_reads (s : State) (a n v : Nat) : (s.putWord a n v).reads = s.reads := State.putWord_keeps _ (fun _ _ _ => rfl) s a n v
@[simp] theorem State.putWord_sched (s : State) (a n v : Nat) : (s.putWord a n v).sched = s.sched := State.putWord_keeps _ (fun _ _ _ => rfl) s a n v
@[simp] theorem State.putWord_draws (s : State) (a n v : Nat) : (s.putWord a n v).draws = s.draws := State.putWord_keeps _ (fun _ _ _ => rfl) s a n v
@[simp] theorem State.putWord_srcRead (s : State) (a n v : Nat) : (s.putWord a n v).srcRead = s.srcRead := State.putWord_keeps _ (fun _ _ _ => rfl) s a n v
@[simp] theorem State.putWord_dstRead (s : State) (a n v : Nat) : (s.putWord a n v).dstRead = s.dstRead := State.putWord_keeps _ (fun _ _ _ => rfl) s a n v
@[simp] theorem State.putWord_srcForeign (s : State) (a n v : Nat) : (s.putWord a n v).srcForeign = s.srcForeign := State.putWord_keeps _ (fun _ _ _ => rfl) s a n v
@[simp] theorem State.putWord_dstForeign (s : State) (a n v : Nat) : (s.putWord a n v).dstForeign = s.dstForeign := State.putWord_keeps _ (fun _ _ _ => rfl) s a n v
@[simp] theorem State.putWord_launch (s : State) (a n v : Nat) : (s.putWord a n v).launch = s.launch := State.putWord_keeps _ (fun _ _ _ => rfl) s a n v
@[simp] theorem State.putWord_ticks (s : State) (a n v : Nat) : (s.putWord a n v).ticks = s.ticks := State.putWord_keeps _ (fun _ _ _ => rfl) s a n v
@[simp] theorem State.putWord_cancelAt (s : State) (a n v : Nat) : (s.putWord a n v).cancelAt = s.cancelAt := State.putWord_keeps _ (fun _ _ _ => rfl) s a n v
@[simp] theorem State.writePixel_params (s : State) (x y : Nat) (v : Rgb) : (s.writePixel x y v).params = s.params := by simp [State.writePixel]
@[simp] theorem State.writePixel_regs (s : State) (x y : Nat) (v : Rgb) : (s.writePixel x y v).regs = s.regs := by simp [State.writePixel]
@[simp] theorem State.writePixel_irqEn (s : State) (x y : Nat) (v : Rgb) : (s.writePixel x y v).irqEn = s.irqEn := by simp [State.writePixel]
@[simp] theorem State.writePixel_cmd (s : State) (x y : Nat) (v : Rgb) : (s.writePixel x y v).cmd = s.cmd := by simp [State.writePixel]
@[simp] theorem State.writePixel_busy (s : State) (x y : Nat) (v : Rgb) : (s.writePixel x y v).busy = s.busy := by simp [State.writePixel]
@[simp] theorem State.writePixel_done (s : State) (x y : Nat) (v : Rgb) : (s.writePixel x y v).done = s.done := by simp [State.writePixel]
@[simp] theorem State.writePixel_error (s : State) (x y : Nat) (v : Rgb) : (s.writePixel x y v).error = s.error := by simp [State.writePixel]
@[simp] theorem State.writePixel_cancelled (s : State) (x y : Nat) (v : Rgb) : (s.writePixel x y v).cancelled = s.cancelled := by simp [State.writePixel]
@[simp] theorem State.writePixel_overrun (s : State) (x y : Nat) (v : Rgb) : (s.writePixel x y v).overrun = s.overrun := by simp [State.writePixel]
@[simp] theorem State.writePixel_trunc (s : State) (x y : Nat) (v : Rgb) : (s.writePixel x y v).trunc = s.trunc := by simp [State.writePixel]
@[simp] theorem State.writePixel_errCode (s : State) (x y : Nat) (v : Rgb) : (s.writePixel x y v).errCode = s.errCode := by simp [State.writePixel]
@[simp] theorem State.writePixel_pass (s : State) (x y : Nat) (v : Rgb) : (s.writePixel x y v).pass = s.pass := by simp [State.writePixel]
@[simp] theorem State.writePixel_progress (s : State) (x y : Nat) (v : Rgb) : (s.writePixel x y v).progress = s.progress := by simp [State.writePixel]
@[simp] theorem State.writePixel_op (s : State) (x y : Nat) (v : Rgb) : (s.writePixel x y v).op = s.op := by simp [State.writePixel]
@[simp] theorem State.writePixel_cfg (s : State) (x y : Nat) (v : Rgb) : (s.writePixel x y v).cfg = s.cfg := by simp [State.writePixel]
@[simp] theorem State.writePixel_cancelPending (s : State) (x y : Nat) (v : Rgb) : (s.writePixel x y v).cancelPending = s.cancelPending := by simp [State.writePixel]
@[simp] theorem State.writePixel_pos (s : State) (x y : Nat) (v : Rgb) : (s.writePixel x y v).pos = s.pos := by simp [State.writePixel]
@[simp] theorem State.writePixel_todo (s : State) (x y : Nat) (v : Rgb) : (s.writePixel x y v).todo = s.todo := by simp [State.writePixel]
@[simp] theorem State.writePixel_stats (s : State) (x y : Nat) (v : Rgb) : (s.writePixel x y v).stats = s.stats := by simp [State.writePixel]
@[simp] theorem State.writePixel_luts (s : State) (x y : Nat) (v : Rgb) : (s.writePixel x y v).luts = s.luts := by simp [State.writePixel]
@[simp] theorem State.writePixel_lutValid (s : State) (x y : Nat) (v : Rgb) : (s.writePixel x y v).lutValid = s.lutValid := by simp [State.writePixel]
@[simp] theorem State.writePixel_lutAddr (s : State) (x y : Nat) (v : Rgb) : (s.writePixel x y v).lutAddr = s.lutAddr := by simp [State.writePixel]
@[simp] theorem State.writePixel_src (s : State) (x y : Nat) (v : Rgb) : (s.writePixel x y v).src = s.src := by simp [State.writePixel]
@[simp] theorem State.writePixel_host (s : State) (x y : Nat) (v : Rgb) : (s.writePixel x y v).host = s.host := by simp [State.writePixel]
@[simp] theorem State.writePixel_reads (s : State) (x y : Nat) (v : Rgb) : (s.writePixel x y v).reads = s.reads := by simp [State.writePixel]
@[simp] theorem State.writePixel_sched (s : State) (x y : Nat) (v : Rgb) : (s.writePixel x y v).sched = s.sched := by simp [State.writePixel]
@[simp] theorem State.writePixel_draws (s : State) (x y : Nat) (v : Rgb) : (s.writePixel x y v).draws = s.draws := by simp [State.writePixel]
@[simp] theorem State.writePixel_srcRead (s : State) (x y : Nat) (v : Rgb) : (s.writePixel x y v).srcRead = s.srcRead := by simp [State.writePixel]
@[simp] theorem State.writePixel_dstRead (s : State) (x y : Nat) (v : Rgb) : (s.writePixel x y v).dstRead = s.dstRead := by simp [State.writePixel]
@[simp] theorem State.writePixel_srcForeign (s : State) (x y : Nat) (v : Rgb) : (s.writePixel x y v).srcForeign = s.srcForeign := by simp [State.writePixel]
@[simp] theorem State.writePixel_dstForeign (s : State) (x y : Nat) (v : Rgb) : (s.writePixel x y v).dstForeign = s.dstForeign := by simp [State.writePixel]
@[simp] theorem State.writePixel_launch (s : State) (x y : Nat) (v : Rgb) : (s.writePixel x y v).launch = s.launch := by simp [State.writePixel]
@[simp] theorem State.writePixel_ticks (s : State) (x y : Nat) (v : Rgb) : (s.writePixel x y v).ticks = s.ticks := by simp [State.writePixel]
@[simp] theorem State.writePixel_cancelAt (s : State) (x y : Nat) (v : Rgb) : (s.writePixel x y v).cancelAt = s.cancelAt := by simp [State.writePixel]

/-! ### noteSrc, noteDst, ticked -/

@[simp] theorem State.noteSrc_params (s : State) (a x y : Nat) : (s.noteSrc a x y).params = s.params := rfl
@[simp] theorem State.noteSrc_regs (s : State) (a x y : Nat) : (s.noteSrc a x y).regs = s.regs := rfl
@[simp] theorem State.noteSrc_irqEn (s : State) (a x y : Nat) : (s.noteSrc a x y).irqEn = s.irqEn := rfl
@[simp] theorem State.noteSrc_cmd (s : State) (a x y : Nat) : (s.noteSrc a x y).cmd = s.cmd := rfl
@[simp] theorem State.noteSrc_busy (s : State) (a x y : Nat) : (s.noteSrc a x y).busy = s.busy := rfl
@[simp] theorem State.noteSrc_done (s : State) (a x y : Nat) : (s.noteSrc a x y).done = s.done := rfl
@[simp] theorem State.noteSrc_error (s : State) (a x y : Nat) : (s.noteSrc a x y).error = s.error := rfl
@[simp] theorem State.noteSrc_cancelled (s : State) (a x y : Nat) : (s.noteSrc a x y).cancelled = s.cancelled := rfl
@[simp] theorem State.noteSrc_overrun (s : State) (a x y : Nat) : (s.noteSrc a x y).overrun = s.overrun := rfl
@[simp] theorem State.noteSrc_trunc (s : State) (a x y : Nat) : (s.noteSrc a x y).trunc = s.trunc := rfl
@[simp] theorem State.noteSrc_errCode (s : State) (a x y : Nat) : (s.noteSrc a x y).errCode = s.errCode := rfl
@[simp] theorem State.noteSrc_pass (s : State) (a x y : Nat) : (s.noteSrc a x y).pass = s.pass := rfl
@[simp] theorem State.noteSrc_progress (s : State) (a x y : Nat) : (s.noteSrc a x y).progress = s.progress := rfl
@[simp] theorem State.noteSrc_op (s : State) (a x y : Nat) : (s.noteSrc a x y).op = s.op := rfl
@[simp] theorem State.noteSrc_cfg (s : State) (a x y : Nat) : (s.noteSrc a x y).cfg = s.cfg := rfl
@[simp] theorem State.noteSrc_cancelPending (s : State) (a x y : Nat) : (s.noteSrc a x y).cancelPending = s.cancelPending := rfl
@[simp] theorem State.noteSrc_pos (s : State) (a x y : Nat) : (s.noteSrc a x y).pos = s.pos := rfl
@[simp] theorem State.noteSrc_todo (s : State) (a x y : Nat) : (s.noteSrc a x y).todo = s.todo := rfl
@[simp] theorem State.noteSrc_stats (s : State) (a x y : Nat) : (s.noteSrc a x y).stats = s.stats := rfl
@[simp] theorem State.noteSrc_luts (s : State) (a x y : Nat) : (s.noteSrc a x y).luts = s.luts := rfl
@[simp] theorem State.noteSrc_lutValid (s : State) (a x y : Nat) : (s.noteSrc a x y).lutValid = s.lutValid := rfl
@[simp] theorem State.noteSrc_lutAddr (s : State) (a x y : Nat) : (s.noteSrc a x y).lutAddr = s.lutAddr := rfl
@[simp] theorem State.noteSrc_src (s : State) (a x y : Nat) : (s.noteSrc a x y).src = s.src := rfl
@[simp] theorem State.noteSrc_dst (s : State) (a x y : Nat) : (s.noteSrc a x y).dst = s.dst := rfl
@[simp] theorem State.noteSrc_host (s : State) (a x y : Nat) : (s.noteSrc a x y).host = s.host := rfl
@[simp] theorem State.noteSrc_reads (s : State) (a x y : Nat) : (s.noteSrc a x y).reads = s.reads := rfl
@[simp] theorem State.noteSrc_sched (s : State) (a x y : Nat) : (s.noteSrc a x y).sched = s.sched := rfl
@[simp] theorem State.noteSrc_draws (s : State) (a x y : Nat) : (s.noteSrc a x y).draws = s.draws := rfl
@[simp] theorem State.noteSrc_overwritten (s : State) (a x y : Nat) : (s.noteSrc a x y).overwritten = s.overwritten := rfl
@[simp] theorem State.noteSrc_srcRead (s : State) (a x y : Nat) : (s.noteSrc a x y).srcRead = ⟨a, x, y⟩ :: s.srcRead := rfl
@[simp] theorem State.noteSrc_dstRead (s : State) (a x y : Nat) : (s.noteSrc a x y).dstRead = s.dstRead := rfl
@[simp] theorem State.noteSrc_srcForeign (s : State) (a x y : Nat) : (s.noteSrc a x y).srcForeign = s.srcForeign := rfl
@[simp] theorem State.noteSrc_dstForeign (s : State) (a x y : Nat) : (s.noteSrc a x y).dstForeign = s.dstForeign := rfl
@[simp] theorem State.noteSrc_launch (s : State) (a x y : Nat) : (s.noteSrc a x y).launch = s.launch := rfl
@[simp] theorem State.noteSrc_ticks (s : State) (a x y : Nat) : (s.noteSrc a x y).ticks = s.ticks := rfl
@[simp] theorem State.noteSrc_cancelAt (s : State) (a x y : Nat) : (s.noteSrc a x y).cancelAt = s.cancelAt := rfl
@[simp] theorem State.noteDst_params (s : State) (a : Nat) : (s.noteDst a).params = s.params := rfl
@[simp] theorem State.noteDst_regs (s : State) (a : Nat) : (s.noteDst a).regs = s.regs := rfl
@[simp] theorem State.noteDst_irqEn (s : State) (a : Nat) : (s.noteDst a).irqEn = s.irqEn := rfl
@[simp] theorem State.noteDst_cmd (s : State) (a : Nat) : (s.noteDst a).cmd = s.cmd := rfl
@[simp] theorem State.noteDst_busy (s : State) (a : Nat) : (s.noteDst a).busy = s.busy := rfl
@[simp] theorem State.noteDst_done (s : State) (a : Nat) : (s.noteDst a).done = s.done := rfl
@[simp] theorem State.noteDst_error (s : State) (a : Nat) : (s.noteDst a).error = s.error := rfl
@[simp] theorem State.noteDst_cancelled (s : State) (a : Nat) : (s.noteDst a).cancelled = s.cancelled := rfl
@[simp] theorem State.noteDst_overrun (s : State) (a : Nat) : (s.noteDst a).overrun = s.overrun := rfl
@[simp] theorem State.noteDst_trunc (s : State) (a : Nat) : (s.noteDst a).trunc = s.trunc := rfl
@[simp] theorem State.noteDst_errCode (s : State) (a : Nat) : (s.noteDst a).errCode = s.errCode := rfl
@[simp] theorem State.noteDst_pass (s : State) (a : Nat) : (s.noteDst a).pass = s.pass := rfl
@[simp] theorem State.noteDst_progress (s : State) (a : Nat) : (s.noteDst a).progress = s.progress := rfl
@[simp] theorem State.noteDst_op (s : State) (a : Nat) : (s.noteDst a).op = s.op := rfl
@[simp] theorem State.noteDst_cfg (s : State) (a : Nat) : (s.noteDst a).cfg = s.cfg := rfl
@[simp] theorem State.noteDst_cancelPending (s : State) (a : Nat) : (s.noteDst a).cancelPending = s.cancelPending := rfl
@[simp] theorem State.noteDst_pos (s : State) (a : Nat) : (s.noteDst a).pos = s.pos := rfl
@[simp] theorem State.noteDst_todo (s : State) (a : Nat) : (s.noteDst a).todo = s.todo := rfl
@[simp] theorem State.noteDst_stats (s : State) (a : Nat) : (s.noteDst a).stats = s.stats := rfl
@[simp] theorem State.noteDst_luts (s : State) (a : Nat) : (s.noteDst a).luts = s.luts := rfl
@[simp] theorem State.noteDst_lutValid (s : State) (a : Nat) : (s.noteDst a).lutValid = s.lutValid := rfl
@[simp] theorem State.noteDst_lutAddr (s : State) (a : Nat) : (s.noteDst a).lutAddr = s.lutAddr := rfl
@[simp] theorem State.noteDst_src (s : State) (a : Nat) : (s.noteDst a).src = s.src := rfl
@[simp] theorem State.noteDst_dst (s : State) (a : Nat) : (s.noteDst a).dst = s.dst := rfl
@[simp] theorem State.noteDst_host (s : State) (a : Nat) : (s.noteDst a).host = s.host := rfl
@[simp] theorem State.noteDst_reads (s : State) (a : Nat) : (s.noteDst a).reads = s.reads := rfl
@[simp] theorem State.noteDst_sched (s : State) (a : Nat) : (s.noteDst a).sched = s.sched := rfl
@[simp] theorem State.noteDst_draws (s : State) (a : Nat) : (s.noteDst a).draws = s.draws := rfl
@[simp] theorem State.noteDst_overwritten (s : State) (a : Nat) : (s.noteDst a).overwritten = s.overwritten := rfl
@[simp] theorem State.noteDst_srcRead (s : State) (a : Nat) : (s.noteDst a).srcRead = s.srcRead := rfl
@[simp] theorem State.noteDst_dstRead (s : State) (a : Nat) : (s.noteDst a).dstRead = a :: s.dstRead := rfl
@[simp] theorem State.noteDst_srcForeign (s : State) (a : Nat) : (s.noteDst a).srcForeign = s.srcForeign := rfl
@[simp] theorem State.noteDst_dstForeign (s : State) (a : Nat) : (s.noteDst a).dstForeign = s.dstForeign := rfl
@[simp] theorem State.noteDst_launch (s : State) (a : Nat) : (s.noteDst a).launch = s.launch := rfl
@[simp] theorem State.noteDst_ticks (s : State) (a : Nat) : (s.noteDst a).ticks = s.ticks := rfl
@[simp] theorem State.noteDst_cancelAt (s : State) (a : Nat) : (s.noteDst a).cancelAt = s.cancelAt := rfl
@[simp] theorem State.ticked_params (s : State) (n : Nat) : (s.ticked n).params = s.params := rfl
@[simp] theorem State.ticked_regs (s : State) (n : Nat) : (s.ticked n).regs = s.regs := rfl
@[simp] theorem State.ticked_irqEn (s : State) (n : Nat) : (s.ticked n).irqEn = s.irqEn := rfl
@[simp] theorem State.ticked_cmd (s : State) (n : Nat) : (s.ticked n).cmd = s.cmd := rfl
@[simp] theorem State.ticked_busy (s : State) (n : Nat) : (s.ticked n).busy = s.busy := rfl
@[simp] theorem State.ticked_done (s : State) (n : Nat) : (s.ticked n).done = s.done := rfl
@[simp] theorem State.ticked_error (s : State) (n : Nat) : (s.ticked n).error = s.error := rfl
@[simp] theorem State.ticked_cancelled (s : State) (n : Nat) : (s.ticked n).cancelled = s.cancelled := rfl
@[simp] theorem State.ticked_overrun (s : State) (n : Nat) : (s.ticked n).overrun = s.overrun := rfl
@[simp] theorem State.ticked_trunc (s : State) (n : Nat) : (s.ticked n).trunc = s.trunc := rfl
@[simp] theorem State.ticked_errCode (s : State) (n : Nat) : (s.ticked n).errCode = s.errCode := rfl
@[simp] theorem State.ticked_pass (s : State) (n : Nat) : (s.ticked n).pass = s.pass := rfl
@[simp] theorem State.ticked_progress (s : State) (n : Nat) : (s.ticked n).progress = s.progress := rfl
@[simp] theorem State.ticked_op (s : State) (n : Nat) : (s.ticked n).op = s.op := rfl
@[simp] theorem State.ticked_cfg (s : State) (n : Nat) : (s.ticked n).cfg = s.cfg := rfl
@[simp] theorem State.ticked_cancelPending (s : State) (n : Nat) : (s.ticked n).cancelPending = s.cancelPending := rfl
@[simp] theorem State.ticked_pos (s : State) (n : Nat) : (s.ticked n).pos = s.pos := rfl
@[simp] theorem State.ticked_todo (s : State) (n : Nat) : (s.ticked n).todo = s.todo := rfl
@[simp] theorem State.ticked_stats (s : State) (n : Nat) : (s.ticked n).stats = s.stats := rfl
@[simp] theorem State.ticked_luts (s : State) (n : Nat) : (s.ticked n).luts = s.luts := rfl
@[simp] theorem State.ticked_lutValid (s : State) (n : Nat) : (s.ticked n).lutValid = s.lutValid := rfl
@[simp] theorem State.ticked_lutAddr (s : State) (n : Nat) : (s.ticked n).lutAddr = s.lutAddr := rfl
@[simp] theorem State.ticked_src (s : State) (n : Nat) : (s.ticked n).src = s.src := rfl
@[simp] theorem State.ticked_dst (s : State) (n : Nat) : (s.ticked n).dst = s.dst := rfl
@[simp] theorem State.ticked_host (s : State) (n : Nat) : (s.ticked n).host = s.host := rfl
@[simp] theorem State.ticked_reads (s : State) (n : Nat) : (s.ticked n).reads = s.reads := rfl
@[simp] theorem State.ticked_sched (s : State) (n : Nat) : (s.ticked n).sched = s.sched := rfl
@[simp] theorem State.ticked_draws (s : State) (n : Nat) : (s.ticked n).draws = s.draws := rfl
@[simp] theorem State.ticked_overwritten (s : State) (n : Nat) : (s.ticked n).overwritten = s.overwritten := rfl
@[simp] theorem State.ticked_srcRead (s : State) (n : Nat) : (s.ticked n).srcRead = s.srcRead := rfl
@[simp] theorem State.ticked_dstRead (s : State) (n : Nat) : (s.ticked n).dstRead = s.dstRead := rfl
@[simp] theorem State.ticked_srcForeign (s : State) (n : Nat) : (s.ticked n).srcForeign = s.srcForeign := rfl
@[simp] theorem State.ticked_dstForeign (s : State) (n : Nat) : (s.ticked n).dstForeign = s.dstForeign := rfl
@[simp] theorem State.ticked_launch (s : State) (n : Nat) : (s.ticked n).launch = s.launch := rfl
@[simp] theorem State.ticked_ticks (s : State) (n : Nat) : (s.ticked n).ticks = if s.busy then n + 1 else 0 := rfl
@[simp] theorem State.ticked_cancelAt (s : State) (n : Nat) : (s.ticked n).cancelAt = s.cancelAt := rfl

/-! ### launched -/

@[simp] theorem State.launched_params (s : State) (v : Option ErrCode) (plan : List PassPlan) : (s.launched v plan).params = s.params := rfl
@[simp] theorem State.launched_regs (s : State) (v : Option ErrCode) (plan : List PassPlan) : (s.launched v plan).regs = s.regs := rfl
@[simp] theorem State.launched_irqEn (s : State) (v : Option ErrCode) (plan : List PassPlan) : (s.launched v plan).irqEn = s.irqEn := rfl
@[simp] theorem State.launched_cmd (s : State) (v : Option ErrCode) (plan : List PassPlan) : (s.launched v plan).cmd = s.cmd := rfl
@[simp] theorem State.launched_busy (s : State) (v : Option ErrCode) (plan : List PassPlan) : (s.launched v plan).busy = s.busy := rfl
@[simp] theorem State.launched_done (s : State) (v : Option ErrCode) (plan : List PassPlan) : (s.launched v plan).done = s.done := rfl
@[simp] theorem State.launched_error (s : State) (v : Option ErrCode) (plan : List PassPlan) : (s.launched v plan).error = s.error := rfl
@[simp] theorem State.launched_cancelled (s : State) (v : Option ErrCode) (plan : List PassPlan) : (s.launched v plan).cancelled = s.cancelled := rfl
@[simp] theorem State.launched_overrun (s : State) (v : Option ErrCode) (plan : List PassPlan) : (s.launched v plan).overrun = s.overrun := rfl
@[simp] theorem State.launched_trunc (s : State) (v : Option ErrCode) (plan : List PassPlan) : (s.launched v plan).trunc = s.trunc := rfl
@[simp] theorem State.launched_errCode (s : State) (v : Option ErrCode) (plan : List PassPlan) : (s.launched v plan).errCode = s.errCode := rfl
@[simp] theorem State.launched_pass (s : State) (v : Option ErrCode) (plan : List PassPlan) : (s.launched v plan).pass = s.pass := rfl
@[simp] theorem State.launched_progress (s : State) (v : Option ErrCode) (plan : List PassPlan) : (s.launched v plan).progress = s.progress := rfl
@[simp] theorem State.launched_op (s : State) (v : Option ErrCode) (plan : List PassPlan) : (s.launched v plan).op = s.op := rfl
@[simp] theorem State.launched_cfg (s : State) (v : Option ErrCode) (plan : List PassPlan) : (s.launched v plan).cfg = s.cfg := rfl
@[simp] theorem State.launched_cancelPending (s : State) (v : Option ErrCode) (plan : List PassPlan) : (s.launched v plan).cancelPending = s.cancelPending := rfl
@[simp] theorem State.launched_pos (s : State) (v : Option ErrCode) (plan : List PassPlan) : (s.launched v plan).pos = .checked v := rfl
@[simp] theorem State.launched_todo (s : State) (v : Option ErrCode) (plan : List PassPlan) : (s.launched v plan).todo = plan := rfl
@[simp] theorem State.launched_stats (s : State) (v : Option ErrCode) (plan : List PassPlan) : (s.launched v plan).stats = s.stats := rfl
@[simp] theorem State.launched_luts (s : State) (v : Option ErrCode) (plan : List PassPlan) : (s.launched v plan).luts = s.luts := rfl
@[simp] theorem State.launched_lutValid (s : State) (v : Option ErrCode) (plan : List PassPlan) : (s.launched v plan).lutValid = s.lutValid := rfl
@[simp] theorem State.launched_lutAddr (s : State) (v : Option ErrCode) (plan : List PassPlan) : (s.launched v plan).lutAddr = s.lutAddr := rfl
@[simp] theorem State.launched_src (s : State) (v : Option ErrCode) (plan : List PassPlan) : (s.launched v plan).src = s.src := rfl
@[simp] theorem State.launched_dst (s : State) (v : Option ErrCode) (plan : List PassPlan) : (s.launched v plan).dst = s.dst := rfl
@[simp] theorem State.launched_host (s : State) (v : Option ErrCode) (plan : List PassPlan) : (s.launched v plan).host = s.host := rfl
@[simp] theorem State.launched_reads (s : State) (v : Option ErrCode) (plan : List PassPlan) : (s.launched v plan).reads = s.reads := rfl
@[simp] theorem State.launched_sched (s : State) (v : Option ErrCode) (plan : List PassPlan) : (s.launched v plan).sched = s.sched := rfl
@[simp] theorem State.launched_draws (s : State) (v : Option ErrCode) (plan : List PassPlan) : (s.launched v plan).draws = s.draws := rfl
@[simp] theorem State.launched_overwritten (s : State) (v : Option ErrCode) (plan : List PassPlan) : (s.launched v plan).overwritten = s.overwritten := rfl
@[simp] theorem State.launched_srcRead (s : State) (v : Option ErrCode) (plan : List PassPlan) : (s.launched v plan).srcRead = s.srcRead := rfl
@[simp] theorem State.launched_dstRead (s : State) (v : Option ErrCode) (plan : List PassPlan) : (s.launched v plan).dstRead = s.dstRead := rfl
@[simp] theorem State.launched_srcForeign (s : State) (v : Option ErrCode) (plan : List PassPlan) : (s.launched v plan).srcForeign = s.srcForeign := rfl
@[simp] theorem State.launched_dstForeign (s : State) (v : Option ErrCode) (plan : List PassPlan) : (s.launched v plan).dstForeign = s.dstForeign := rfl
@[simp] theorem State.launched_launch (s : State) (v : Option ErrCode) (plan : List PassPlan) : (s.launched v plan).launch = some ⟨s.draws, .checked v, plan, s.stats, s.luts, s.lutValid, s.sched, s.dst⟩ := rfl
@[simp] theorem State.launched_ticks (s : State) (v : Option ErrCode) (plan : List PassPlan) : (s.launched v plan).ticks = s.ticks := rfl
@[simp] theorem State.launched_cancelAt (s : State) (v : Option ErrCode) (plan : List PassPlan) : (s.launched v plan).cancelAt = s.cancelAt := rfl

/-! ### relaunch and a cancel request -/

@[simp] theorem relaunch_params (l : Launch) (s : State) : (relaunch l s).params = s.params := rfl
@[simp] theorem relaunch_regs (l : Launch) (s : State) : (relaunch l s).regs = s.regs := rfl
@[simp] theorem relaunch_irqEn (l : Launch) (s : State) : (relaunch l s).irqEn = s.irqEn := rfl
@[simp] theorem relaunch_cmd (l : Launch) (s : State) : (relaunch l s).cmd = s.cmd := rfl
@[simp] theorem relaunch_busy (l : Launch) (s : State) : (relaunch l s).busy = s.busy := rfl
@[simp] theorem relaunch_done (l : Launch) (s : State) : (relaunch l s).done = s.done := rfl
@[simp] theorem relaunch_error (l : Launch) (s : State) : (relaunch l s).error = s.error := rfl
@[simp] theorem relaunch_cancelled (l : Launch) (s : State) : (relaunch l s).cancelled = s.cancelled := rfl
@[simp] theorem relaunch_overrun (l : Launch) (s : State) : (relaunch l s).overrun = s.overrun := rfl
@[simp] theorem relaunch_trunc (l : Launch) (s : State) : (relaunch l s).trunc = false := rfl
@[simp] theorem relaunch_errCode (l : Launch) (s : State) : (relaunch l s).errCode = s.errCode := rfl
@[simp] theorem relaunch_pass (l : Launch) (s : State) : (relaunch l s).pass = .idle := rfl
@[simp] theorem relaunch_progress (l : Launch) (s : State) : (relaunch l s).progress = 0 := rfl
@[simp] theorem relaunch_op (l : Launch) (s : State) : (relaunch l s).op = s.op := rfl
@[simp] theorem relaunch_cfg (l : Launch) (s : State) : (relaunch l s).cfg = s.cfg := rfl
@[simp] theorem relaunch_cancelPending (l : Launch) (s : State) : (relaunch l s).cancelPending = false := rfl
@[simp] theorem relaunch_pos (l : Launch) (s : State) : (relaunch l s).pos = l.pos := rfl
@[simp] theorem relaunch_todo (l : Launch) (s : State) : (relaunch l s).todo = l.todo := rfl
@[simp] theorem relaunch_stats (l : Launch) (s : State) : (relaunch l s).stats = l.stats := rfl
@[simp] theorem relaunch_luts (l : Launch) (s : State) : (relaunch l s).luts = l.luts := rfl
@[simp] theorem relaunch_lutValid (l : Launch) (s : State) : (relaunch l s).lutValid = l.lutValid := rfl
@[simp] theorem relaunch_lutAddr (l : Launch) (s : State) : (relaunch l s).lutAddr = s.lutAddr := rfl
@[simp] theorem relaunch_src (l : Launch) (s : State) : (relaunch l s).src = s.src := rfl
@[simp] theorem relaunch_dst (l : Launch) (s : State) : (relaunch l s).dst = l.dst := rfl
@[simp] theorem relaunch_host (l : Launch) (s : State) : (relaunch l s).host = s.host := rfl
@[simp] theorem relaunch_reads (l : Launch) (s : State) : (relaunch l s).reads = s.reads := rfl
@[simp] theorem relaunch_sched (l : Launch) (s : State) : (relaunch l s).sched = l.sched := rfl
@[simp] theorem relaunch_draws (l : Launch) (s : State) : (relaunch l s).draws = s.draws := rfl
@[simp] theorem relaunch_overwritten (l : Launch) (s : State) : (relaunch l s).overwritten = [] := rfl
@[simp] theorem relaunch_srcRead (l : Launch) (s : State) : (relaunch l s).srcRead = [] := rfl
@[simp] theorem relaunch_dstRead (l : Launch) (s : State) : (relaunch l s).dstRead = [] := rfl
@[simp] theorem relaunch_srcForeign (l : Launch) (s : State) : (relaunch l s).srcForeign = s.srcForeign := rfl
@[simp] theorem relaunch_dstForeign (l : Launch) (s : State) : (relaunch l s).dstForeign = s.dstForeign := rfl
@[simp] theorem relaunch_launch (l : Launch) (s : State) : (relaunch l s).launch = s.launch := rfl
@[simp] theorem relaunch_ticks (l : Launch) (s : State) : (relaunch l s).ticks = 0 := rfl
@[simp] theorem relaunch_cancelAt (l : Launch) (s : State) : (relaunch l s).cancelAt = none := rfl
@[simp] theorem requestCancel_params (s : State) : (requestCancel s).params = s.params := by unfold requestCancel; split <;> rfl
@[simp] theorem requestCancel_regs (s : State) : (requestCancel s).regs = s.regs := by unfold requestCancel; split <;> rfl
@[simp] theorem requestCancel_irqEn (s : State) : (requestCancel s).irqEn = s.irqEn := by unfold requestCancel; split <;> rfl
@[simp] theorem requestCancel_cmd (s : State) : (requestCancel s).cmd = s.cmd := by unfold requestCancel; split <;> rfl
@[simp] theorem requestCancel_busy (s : State) : (requestCancel s).busy = s.busy := by unfold requestCancel; split <;> rfl
@[simp] theorem requestCancel_done (s : State) : (requestCancel s).done = s.done := by unfold requestCancel; split <;> rfl
@[simp] theorem requestCancel_error (s : State) : (requestCancel s).error = s.error := by unfold requestCancel; split <;> rfl
@[simp] theorem requestCancel_cancelled (s : State) : (requestCancel s).cancelled = s.cancelled := by unfold requestCancel; split <;> rfl
@[simp] theorem requestCancel_overrun (s : State) : (requestCancel s).overrun = s.overrun := by unfold requestCancel; split <;> rfl
@[simp] theorem requestCancel_trunc (s : State) : (requestCancel s).trunc = s.trunc := by unfold requestCancel; split <;> rfl
@[simp] theorem requestCancel_errCode (s : State) : (requestCancel s).errCode = s.errCode := by unfold requestCancel; split <;> rfl
@[simp] theorem requestCancel_pass (s : State) : (requestCancel s).pass = s.pass := by unfold requestCancel; split <;> rfl
@[simp] theorem requestCancel_progress (s : State) : (requestCancel s).progress = s.progress := by unfold requestCancel; split <;> rfl
@[simp] theorem requestCancel_op (s : State) : (requestCancel s).op = s.op := by unfold requestCancel; split <;> rfl
@[simp] theorem requestCancel_cfg (s : State) : (requestCancel s).cfg = s.cfg := by unfold requestCancel; split <;> rfl
@[simp] theorem requestCancel_pos (s : State) : (requestCancel s).pos = s.pos := by unfold requestCancel; split <;> rfl
@[simp] theorem requestCancel_todo (s : State) : (requestCancel s).todo = s.todo := by unfold requestCancel; split <;> rfl
@[simp] theorem requestCancel_stats (s : State) : (requestCancel s).stats = s.stats := by unfold requestCancel; split <;> rfl
@[simp] theorem requestCancel_luts (s : State) : (requestCancel s).luts = s.luts := by unfold requestCancel; split <;> rfl
@[simp] theorem requestCancel_lutValid (s : State) : (requestCancel s).lutValid = s.lutValid := by unfold requestCancel; split <;> rfl
@[simp] theorem requestCancel_lutAddr (s : State) : (requestCancel s).lutAddr = s.lutAddr := by unfold requestCancel; split <;> rfl
@[simp] theorem requestCancel_src (s : State) : (requestCancel s).src = s.src := by unfold requestCancel; split <;> rfl
@[simp] theorem requestCancel_dst (s : State) : (requestCancel s).dst = s.dst := by unfold requestCancel; split <;> rfl
@[simp] theorem requestCancel_host (s : State) : (requestCancel s).host = s.host := by unfold requestCancel; split <;> rfl
@[simp] theorem requestCancel_reads (s : State) : (requestCancel s).reads = s.reads := by unfold requestCancel; split <;> rfl
@[simp] theorem requestCancel_sched (s : State) : (requestCancel s).sched = s.sched := by unfold requestCancel; split <;> rfl
@[simp] theorem requestCancel_draws (s : State) : (requestCancel s).draws = s.draws := by unfold requestCancel; split <;> rfl
@[simp] theorem requestCancel_overwritten (s : State) : (requestCancel s).overwritten = s.overwritten := by unfold requestCancel; split <;> rfl
@[simp] theorem requestCancel_srcRead (s : State) : (requestCancel s).srcRead = s.srcRead := by unfold requestCancel; split <;> rfl
@[simp] theorem requestCancel_dstRead (s : State) : (requestCancel s).dstRead = s.dstRead := by unfold requestCancel; split <;> rfl
@[simp] theorem requestCancel_srcForeign (s : State) : (requestCancel s).srcForeign = s.srcForeign := by unfold requestCancel; split <;> rfl
@[simp] theorem requestCancel_dstForeign (s : State) : (requestCancel s).dstForeign = s.dstForeign := by unfold requestCancel; split <;> rfl
@[simp] theorem requestCancel_launch (s : State) : (requestCancel s).launch = s.launch := by unfold requestCancel; split <;> rfl
@[simp] theorem requestCancel_ticks (s : State) : (requestCancel s).ticks = s.ticks := by unfold requestCancel; split <;> rfl

end Sys2Proof.Machine
end

