-- ==== Sys2Proof/Laws/Ops.lean ====
section
/-! SUPPORT. What the shared operations do: one lemma an operation, which later proofs cite instead of unfolding it. -/

namespace Sys2Proof.Machine

/-! ### Pixel writes -/

theorem State.putWord_dst (s : State) (a n v : Nat) : (s.putWord a n v).dst = Memory.writeN s.dst a n v := by
  induction n generalizing s a v with
  | zero => rfl
  | succ n ih => rw [State.putWord, ih]; rfl

@[simp] theorem State.writePixel_dst (s : State) (x y : Nat) (v : Rgb) :
    (s.writePixel x y v).dst = Memory.writeN s.dst (s.cfg.dstAddr x y) s.cfg.bpp (s.cfg.pixelWord v) :=
  State.putWord_dst _ _ _ _

/-- WritePixel stores the packed pixel, byte by byte (R84, R222). -/
theorem State.writePixel_inside {s : State} (x y : Nat) (v : Rgb) {k : Nat} (h : Memory.wf s.dst = true)
    (hk : k < s.cfg.bpp) :
    Memory.read (s.writePixel x y v).dst (s.cfg.dstAddr x y + k) = byteOf (s.cfg.pixelWord v) k := by
  rw [State.writePixel_dst, Memory.read_writeN_inside _ h hk]

/-- WritePixel leaves every byte outside its pixel. -/
theorem State.writePixel_outside (s : State) (x y : Nat) (v : Rgb) {a : Nat}
    (h : a < s.cfg.dstAddr x y ∨ s.cfg.dstAddr x y + s.cfg.bpp ≤ a) :
    Memory.read (s.writePixel x y v).dst a = Memory.read s.dst a := by
  rw [State.writePixel_dst, Memory.read_writeN_outside _ _ h]

theorem State.writePixel_wf {s : State} (x y : Nat) (v : Rgb) (h : Memory.wf s.dst = true) :
    Memory.wf (s.writePixel x y v).dst = true := by
  rw [State.writePixel_dst]
  exact Memory.writeN_wf _ _ _ h

theorem CfgRegs.bpp_cases (c : CfgRegs) : c.bpp = 4 ∨ c.bpp = 8 := by
  unfold CfgRegs.bpp
  split_ifs <;> simp

/-- Two pixels of one frame share no byte where the stride holds a row (R87). -/
theorem CfgRegs.dstAddr_disjoint {c : CfgRegs} {x y x' y' : Nat} (hs : c.width * c.bpp ≤ c.dstStride.toNat)
    (hx : x < c.width) (hx' : x' < c.width) (hne : (x, y) ≠ (x', y')) :
    c.dstAddr x y + c.bpp ≤ c.dstAddr x' y' ∨ c.dstAddr x' y' + c.bpp ≤ c.dstAddr x y := by
  unfold CfgRegs.dstAddr
  have row : ∀ u, u < c.width → u * c.bpp + c.bpp ≤ c.dstStride.toNat := fun u hu =>
    le_trans (by rw [← Nat.succ_mul]; exact Nat.mul_le_mul_right _ hu) hs
  have up : ∀ u v : Nat, u < v → u * c.dstStride.toNat + c.dstStride.toNat ≤ v * c.dstStride.toNat := fun u v h => by
    rw [← Nat.succ_mul]
    exact Nat.mul_le_mul_right _ h
  have right : ∀ u v : Nat, u < v → u * c.bpp + c.bpp ≤ v * c.bpp := fun u v h => by
    rw [← Nat.succ_mul]
    exact Nat.mul_le_mul_right _ h
  have hr := row x hx
  have hr' := row x' hx'
  rcases Nat.lt_trichotomy y y' with h | h | h
  · have := up _ _ h
    omega
  · subst h
    rcases Nat.lt_trichotomy x x' with h | h | h
    · have := right _ _ h
      omega
    · subst h
      exact absurd rfl hne
    · have := right _ _ h
      omega
  · have := up _ _ h
    omega

/-! ### The end of a command -/

theorem State.settledDst_wf {s : State} (h : Memory.wf s.dst = true) : Memory.wf s.settledDst = true :=
  Memory.foldl_write_wf _ _ _ h

theorem State.settledSrc_wf {s : State} (h : Memory.wf s.src = true) : Memory.wf s.settledSrc = true :=
  Memory.foldl_write_wf _ _ _ h

/-- With no foreign write of a byte of the command, nothing of the source space is raced for. -/
theorem State.racedSources_of_nil {s : State} (h : s.srcForeign = []) : s.racedSources = [] := by
  rw [State.racedSources, h]
  rfl

/-- With no foreign write and the spaces kept apart, nothing of the destination space is raced for. -/
theorem State.racedBytes_of_apart {s : State} (hs : s.srcForeign = []) (hd : s.dstForeign = [])
    (ho : s.overlaps = false) : s.racedBytes = [] := by
  rw [State.racedBytes, State.racedSources_of_nil hs, hd, ho]
  rfl

/-- A byte not raced for is left by the end of a command. -/
theorem State.settledDst_other {s : State} {a : Nat} (h : a ∉ s.racedBytes) :
    Memory.read s.settledDst a = Memory.read s.dst a :=
  Memory.foldl_write_other _ _ _ h

/-- Where no byte is raced for, the end of a command leaves the destination space. -/
theorem State.settledDst_of_nil {s : State} (h : s.racedBytes = []) : s.settledDst = s.dst := by
  rw [State.settledDst, h]
  rfl

/-- A source byte no other agent has written is left by the end of a command. -/
theorem State.settledSrc_other {s : State} {a : Nat} (h : a ∉ s.srcForeign) :
    Memory.read s.settledSrc a = Memory.read s.src a :=
  Memory.foldl_write_other _ _ _ fun hm => h (List.mem_filter.1 (List.mem_filter.1 hm).1).1

/-- With no foreign write, the end of a command leaves the source space. -/
theorem State.settledSrc_of_nil {s : State} (h : s.srcForeign = []) : s.settledSrc = s.src := by
  rw [State.settledSrc, State.racedSources_of_nil h]
  rfl

/-- With the spaces kept apart, the end of a command leaves STATS. -/
theorem State.settledStats_of_apart {s : State} (h : s.overlaps = false) : s.settledStats = s.stats := by
  rw [State.settledStats, h]
  rfl

/-- Where the platform maps no byte into both spaces, none is aliased. -/
theorem State.overlaps_of_unshared {s : State} (h : ∀ r ∈ s.srcRead, aliasOf s.params r.addr = none) :
    s.overlaps = false := by
  rw [State.overlaps, List.any_eq_false]
  intro r hr
  rw [State.isAliased, h r hr]
  simp

/-- A source byte that no other agent has written and the platform maps into one space only is read as it stands. -/
theorem State.srcByte_exact {s : State} {a : Nat} (salt : Nat) (hf : a ∉ s.srcForeign) (ha : aliasOf s.params a = none) :
    s.srcByte salt a = Memory.read s.src a := by
  simp [State.srcByte, State.isAliased, State.srcAt, hf, ha]

/-- A destination byte that no other agent has written is read as it stands. -/
theorem State.dstByte_exact {s : State} {a : Nat} (salt : Nat) (hf : a ∉ s.dstForeign) :
    s.dstByte salt a = Memory.read s.dst a := by
  simp [State.dstByte, hf]

/-- With no foreign write of a destination byte a channel is read as the space holds it (R224). -/
theorem State.readCh_exact {s : State} (salt x y : Nat) (k : Chan) (h : s.dstForeign = []) :
    s.readCh salt x y k = s.cfg.channelOf (Memory.readN s.dst (s.cfg.dstAddr x y) s.cfg.bpp) k := by
  have : ∀ n a, s.dstWord salt a n = Memory.readN s.dst a n := by
    intro n
    induction n with
    | zero => intro a; rfl
    | succ n ih => intro a; rw [State.dstWord, Memory.readN, ih, State.dstByte_exact salt (by simp [h])]
  rw [State.readCh, this]

/-! ### What a pixel's reads give -/

/-- Values gathered key by key are those of the reader they came from. -/
theorem gathered_map {α β : Type} [BEq α] [LawfulBEq α] (keys : List α) (f : α → β) (absent : β) {a : α} (h : a ∈ keys) :
    gathered keys (keys.map f) absent a = f a := by
  induction keys with
  | nil => simp at h
  | cons k keys ih =>
    unfold gathered at ih ⊢
    simp only [List.map_cons, List.zip_cons_cons, List.lookup_cons]
    by_cases hk : a = k
    · subst hk; simp
    · have : (a == k) = false := by simpa using hk
      rw [this]
      exact ih ((List.mem_cons.1 h).resolve_left hk)

theorem CfgRegs.dep_length (c : CfgRegs) (p : PlaneRegs) (k : Container) (x y : Nat) :
    (c.dep p k x y).length = k.bytes := by
  cases k <;> simp [CfgRegs.dep, Container.bytes]

theorem mipiGeom_samples {b : Nat} {g : MipiGeom} (h : mipiGeom b = some g) :
    0 < g.samples ∧ g.samples < g.bytes := by
  unfold mipiGeom at h
  split_ifs at h <;> cases h <;> decide

/-- The container a descriptor codes has at least one byte. -/
theorem PlaneRegs.container_bytes {p : PlaneRegs} {k : Container} (h : p.container = some k) : 0 < k.bytes := by
  unfold PlaneRegs.container at h
  split_ifs at h
  · cases h; exact Nat.one_pos
  · cases h; exact Nat.two_pos
  · cases hg : mipiGeom p.bits with
    | none => simp [hg] at h
    | some g =>
      simp only [hg, Option.map_some, Option.some.injEq] at h
      subst h
      have := mipiGeom_samples hg
      show 0 < g.bytes
      omega

theorem extraLittle_congr {rd rd' : Nat → Byte} (e a : Nat) (h : ∀ j < e, rd (a + j) = rd' (a + j)) :
    extraLittle rd a e = extraLittle rd' a e := by
  induction e generalizing a with
  | zero => rfl
  | succ e ih =>
    have h0 := h 0 (by omega)
    rw [extraLittle, extraLittle, ih (a + 1) fun j hj => by
      have := h (j + 1) (by omega)
      rwa [show a + (j + 1) = a + 1 + j by omega] at this]
    simp only [Nat.add_zero] at h0
    rw [h0]

theorem extraBig_congr {rd rd' : Nat → Byte} (e a : Nat) (h : ∀ j < e, rd (a + j) = rd' (a + j)) :
    extraBig rd a e = extraBig rd' a e := by
  induction e generalizing a with
  | zero => rfl
  | succ e ih =>
    have h0 := h 0 (by omega)
    rw [extraBig, extraBig, ih (a + 1) fun j hj => by
      have := h (j + 1) (by omega)
      rwa [show a + (j + 1) = a + 1 + j by omega] at this]
    simp only [Nat.add_zero] at h0
    rw [h0]

/-- The raw code depends on the bytes of `Dep` alone (R170). -/
theorem CfgRegs.fetch_congr {c : CfgRegs} {p : PlaneRegs} {k : Container} {x y : Nat} {rd rd' : Nat → Byte}
    (hk : p.container = some k) (h : ∀ a ∈ c.dep p k x y, rd a = rd' a) : c.fetch rd p k x y = c.fetch rd' p k x y := by
  cases k with
  | byte8 => simp [CfgRegs.fetch, h _ (by simp [CfgRegs.dep] : c.sampleAddr p x y 0 ∈ c.dep p .byte8 x y)]
  | word16 b =>
    have h0 := h (c.sampleAddr p x y 0) (by simp [CfgRegs.dep])
    have h1 := h (c.sampleAddr p x y 1) (by simp [CfgRegs.dep])
    simp [CfgRegs.fetch, h0, h1]
  | mipi b g =>
    have hg : mipiGeom b = some g := by
      unfold PlaneRegs.container at hk
      split_ifs at hk
      · cases hk
      · cases hk
      · cases hm : mipiGeom p.bits with
        | none => simp [hm] at hk
        | some g' =>
          simp only [hm, Option.map_some, Option.some.injEq, Container.mipi.injEq] at hk
          rw [← hk.1, ← hk.2, hm]
    have hs := mipiGeom_samples hg
    have at_ : ∀ i < g.bytes, rd (c.groupAddr p g x y + i) = rd' (c.groupAddr p g x y + i) := fun i hi =>
      h _ (by simp only [CfgRegs.dep, List.mem_map, List.mem_range]; exact ⟨i, hi, rfl⟩)
    have extra : ∀ j < g.extra, rd (c.groupAddr p g x y + g.samples + j) = rd' (c.groupAddr p g x y + g.samples + j) :=
      fun j hj => by
        rw [Nat.add_assoc]
        exact at_ _ (by unfold MipiGeom.extra at hj; omega)
    have lane := at_ (x % g.samples) ((Nat.mod_lt _ hs.1).trans hs.2)
    simp only [CfgRegs.fetch, mipiSample, fragment, extraBig_congr _ _ extra, extraLittle_congr _ _ extra, lane]

/-- Once the bytes of the sample are all read, a raw pixel goes on with the raw code of the reader they came from. -/
theorem CfgRegs.rawFetched_map {c : CfgRegs} {k : Container} (f : Nat → Byte) (x y : Nat) (hk : c.p0.container = some k) :
    c.rawFetched k x y ((c.dep c.p0 k x y).map f) = .look (c.fetch f c.p0 k x y) := by
  simp only [CfgRegs.rawFetched, List.length_map, Nat.lt_irrefl, if_false, RawPhase.look.injEq]
  exact CfgRegs.fetch_congr hk fun a ha => gathered_map _ _ _ ha

/-- Once the bytes of the three samples are all read, a YUV pixel goes on with what the reader they came from converts
to. -/
theorem CfgRegs.yuvFetched_map {c : CfgRegs} {k : Container × Container × Container} (f : PlaneId → Nat → Byte) (x y : Nat)
    (hk : c.yuvContainers = some k) :
    c.yuvFetched k x y ((c.yuvDeps k x y).map fun q => f q.1 q.2) =
      .write (c.outRgb (c.cscConvert (c.yuvSample f k x y))) := by
  obtain ⟨h0, h1, h2⟩ : c.p0.container = some k.1 ∧ c.p1.container = some k.2.1 ∧ c.p2.container = some k.2.2 := by
    unfold CfgRegs.yuvContainers at hk
    split at hk
    · cases hk; exact ⟨‹_›, ‹_›, ‹_›⟩
    · cases hk
  have key : ∀ n a, (n, a) ∈ c.yuvDeps k x y →
      gathered (c.yuvDeps k x y) ((c.yuvDeps k x y).map fun q => f q.1 q.2) 0 (n, a) = f n a :=
    fun n a h => gathered_map (a := (n, a)) _ _ _ h
  have e0 := CfgRegs.fetch_congr (c := c) (x := x) (y := y) h0 fun a ha => key .p0 a (by simp [CfgRegs.yuvDeps, ha])
  have e1 := CfgRegs.fetch_congr (c := c) (x := (c.chromaPos x y).1) (y := (c.chromaPos x y).2) h1 fun a ha =>
    key .p1 a (by simp [CfgRegs.yuvDeps, ha])
  have e2 := CfgRegs.fetch_congr (c := c) (x := (c.chromaPos x y).1) (y := (c.chromaPos x y).2) h2 fun a ha =>
    key .p2 a (by simp [CfgRegs.yuvDeps, ha])
  simp only [CfgRegs.yuvFetched, List.length_map, Nat.lt_irrefl, if_false, CfgRegs.yuvSample, e0, e1, e2]

/-- A missing channel is a mean over the pixels it is averaged over (R282 to R284). -/
theorem CfgRegs.missing_eq (c : CfgRegs) (rd : Nat → Nat → Chan → Nat) (x y : Nat) (k : Chan) :
    c.missing rd x y k =
      if c.averaged x y k = [] then 0
      else ((c.averaged x y k).map fun p => rd p.1 p.2 k).sum / (c.averaged x y k).length := by
  unfold CfgRegs.missing CfgRegs.averaged CfgRegs.mean
  by_cases h1 : c.sameChannel k (neighbours c.width c.height 1 x y) = []
  · by_cases h4 : c.tileSize = 4
    · by_cases h2 : c.sameChannel k (neighbours c.width c.height 2 x y) = [] <;> simp [h1, h2, h4]
    · simp [h1, h4]
  · simp [h1]

/-- The demosaiced pixel depends on the channels `demosaicReads` names alone (R285). -/
theorem CfgRegs.demosaicPixel_congr {c : CfgRegs} {own : Chan} {x y : Nat} {rd rd' : Nat → Nat → Chan → Nat}
    (h : ∀ r ∈ c.demosaicReads own x y, rd r.1 r.2.1 r.2.2 = rd' r.1 r.2.1 r.2.2) :
    c.demosaicPixel rd own x y = c.demosaicPixel rd' own x y := by
  have hown : rd x y own = rd' x y own := h (x, y, own) (by simp [CfgRegs.demosaicReads])
  have hmis : ∀ k, k ≠ own → c.missing rd x y k = c.missing rd' x y k := by
    intro k hk
    have : (c.averaged x y k).map (fun p => rd p.1 p.2 k) = (c.averaged x y k).map fun p => rd' p.1 p.2 k :=
      List.map_congr_left fun p hp => h (p.1, p.2, k) (by
        refine List.mem_cons_of_mem _ (List.mem_flatMap.2 ⟨k, ?_, List.mem_map.2 ⟨p, hp, rfl⟩⟩)
        exact List.mem_filter.2 ⟨by cases k <;> decide, by simpa using hk⟩)
    rw [CfgRegs.missing_eq, CfgRegs.missing_eq, this]
  have chan : ∀ k, c.demosaicChan rd own x y k = c.demosaicChan rd' own x y k := by
    intro k
    unfold CfgRegs.demosaicChan
    split_ifs with hk
    · exact hown
    · exact hmis k hk
  simp only [CfgRegs.demosaicPixel, chan]

/-- Once the channels are all read, a worker goes on with the pixel demosaiced from the reader they came from. -/
theorem CfgRegs.demosaicFetched_map (c : CfgRegs) (own : Chan) (x y : Nat) (f : Nat → Nat → Chan → Nat) :
    c.demosaicFetched own x y ((c.demosaicReads own x y).map fun r => f r.1 r.2.1 r.2.2) =
      .write (c.demosaicPixel f own x y) := by
  simp only [CfgRegs.demosaicFetched, List.length_map, Nat.lt_irrefl, if_false, WorkPhase.write.injEq]
  exact CfgRegs.demosaicPixel_congr fun r hr =>
    gathered_map (a := (r.1, r.2.1, r.2.2)) _ (fun r => f r.1 r.2.1 r.2.2) _ hr

theorem neighbours_length (w h r x y : Nat) : (neighbours w h r x y).length ≤ (2 * r + 1) * (2 * r + 1) := by
  unfold neighbours
  refine (List.length_filterMap_le _ _).trans ?_
  simp [List.length_flatMap]

/-- A worker reads at most `readBound` channels for a pixel. -/
theorem CfgRegs.demosaicReads_length (c : CfgRegs) (own : Chan) (x y : Nat) :
    (c.demosaicReads own x y).length ≤ 76 := by
  have avg : ∀ k, (c.averaged x y k).length ≤ 25 := by
    intro k
    unfold CfgRegs.averaged CfgRegs.sameChannel
    dsimp only
    split_ifs
    · exact (List.length_filter_le _ _).trans (neighbours_length _ _ 2 _ _)
    · exact (List.length_filter_le _ _).trans ((neighbours_length _ _ 1 _ _).trans (by decide))
  have hr := avg .r
  have hg := avg .g
  have hb := avg .b
  cases own <;> simp [CfgRegs.demosaicReads, Chan.all] <;> omega

/-! ### The bytes of a plane -/

theorem divMod_of_lt {q r d n : Nat} (hr : r < d) (h : n = q * d + r) : n / d = q ∧ n % d = r := by
  subst h
  have hd : 0 < d := by omega
  constructor
  · rw [Nat.mul_comm, Nat.mul_add_div hd, Nat.div_eq_of_lt hr, Nat.add_zero]
  · rw [Nat.mul_comm, Nat.mul_add_mod, Nat.mod_eq_of_lt hr]

/-- Under a validated stride every byte a sample of a plane depends on is one the plane holds (R85, R176). -/
theorem CfgRegs.planeHolds_of_dep {c : CfgRegs} {p : PlaneRegs} {k : Container} {w h x y a : Nat}
    (hk : p.container = some k) (hs : p.badStride w = false) (hx : x < w) (hy : y < h) (ha : a ∈ c.dep p k x y) :
    c.planeHolds p w h a = true := by
  have hrow : ∀ u, x * p.pixelStride + u < (x + 1) * p.pixelStride ↔ u < p.pixelStride := fun u => by
    rw [Nat.succ_mul]; omega
  have hle : (x + 1) * p.pixelStride ≤ p.pixelStride * w := by
    rw [Nat.mul_comm p.pixelStride]; exact Nat.mul_le_mul_right _ hx
  have layout := hk
  unfold PlaneRegs.container at layout
  unfold PlaneRegs.badStride at hs
  unfold CfgRegs.planeHolds
  simp only [hk]
  split_ifs at layout hs with h0 h1 h2 h3 h4
  · cases layout
    simp only [PlaneRegs.shortStride, Bool.or_eq_false_iff, decide_eq_false_iff_not, not_lt] at hs
    simp only [CfgRegs.dep, CfgRegs.sampleAddr, List.mem_singleton] at ha
    have ho : a - (c.srcOffset.toNat + p.offset.toNat) = y * p.rowStride + x * p.pixelStride := by omega
    obtain ⟨hq, hr⟩ := divMod_of_lt (d := p.rowStride) (by have := (hrow 0).2 (by omega); omega) ho
    obtain ⟨hq', hr'⟩ := divMod_of_lt (q := x) (r := 0) (d := p.pixelStride) (n := x * p.pixelStride) (by omega) rfl
    simp only [hq, hr, hq', hr']
    simp; omega
  · cases layout
    simp only [PlaneRegs.shortStride, Bool.or_eq_false_iff, decide_eq_false_iff_not, not_lt] at hs
    simp only [CfgRegs.dep, CfgRegs.sampleAddr, List.mem_cons, List.not_mem_nil, or_false] at ha
    obtain ⟨j, hj, ho⟩ : ∃ j < 2,
        a - (c.srcOffset.toNat + p.offset.toNat) = y * p.rowStride + (x * p.pixelStride + j) := by
      rcases ha with ha | ha
      · exact ⟨0, by omega, by omega⟩
      · exact ⟨1, by omega, by omega⟩
    obtain ⟨hq, hr⟩ := divMod_of_lt (d := p.rowStride) (by have := (hrow j).2 (by omega); omega) ho
    obtain ⟨hq', hr'⟩ := divMod_of_lt (q := x) (r := j) (d := p.pixelStride) (n := x * p.pixelStride + j) (by omega) rfl
    simp only [hq, hr, hq', hr']
    simp; omega
  · cases hg : mipiGeom p.bits with
    | none => simp [hg] at layout
    | some g =>
      simp only [hg, Option.map_some, Option.some.injEq] at layout
      subst layout
      simp only [hg, decide_eq_false_iff_not, not_lt] at hs
      simp only [CfgRegs.dep, CfgRegs.groupAddr, CfgRegs.rowAddr, List.mem_map, List.mem_range] at ha
      obtain ⟨j, hj, rfl⟩ := ha
      have hn : 0 < g.samples := by
        unfold mipiGeom at hg
        split_ifs at hg <;> cases hg <;> decide
      have hgrp : x / g.samples + 1 ≤ ceilDiv w g.samples := by
        unfold ceilDiv
        rw [Nat.le_div_iff_mul_le hn, Nat.succ_mul]
        have := Nat.div_mul_le_self x g.samples
        omega
      have hb : x / g.samples * g.bytes + j < g.bytes * ceilDiv w g.samples := by
        have := Nat.mul_le_mul_right g.bytes hgrp
        rw [Nat.succ_mul, Nat.mul_comm (ceilDiv _ _)] at this
        omega
      have ho : c.srcOffset.toNat + p.offset.toNat + y * p.rowStride + x / g.samples * g.bytes + j -
          (c.srcOffset.toNat + p.offset.toNat) = y * p.rowStride + (x / g.samples * g.bytes + j) := by omega
      obtain ⟨hq, hr⟩ := divMod_of_lt (d := p.rowStride) (by omega) ho
      simp only [hq, hr]
      simp; omega
/-! ### Validation -/

/-- The verdict is a failing check of the list, and every check before it passes. -/
theorem firstFailing_eq_some {l : List (ErrCode × Bool)} {e : ErrCode} (h : firstFailing l = some e) :
    ∃ pre post, l = pre ++ (e, true) :: post ∧ ∀ c ∈ pre, c.2 = false := by
  induction l with
  | nil => simp [firstFailing] at h
  | cons c l ih =>
    obtain ⟨code, fails⟩ := c
    cases fails with
    | true =>
      simp only [firstFailing, if_true, Option.some.injEq] at h
      exact ⟨[], l, by simp [h], by simp⟩
    | false =>
      simp only [firstFailing, Bool.false_eq_true, if_false] at h
      obtain ⟨pre, post, rfl, hp⟩ := ih h
      exact ⟨(code, false) :: pre, post, rfl, by simpa using hp⟩

theorem firstFailing_eq_none {l : List (ErrCode × Bool)} : firstFailing l = none ↔ ∀ c ∈ l, c.2 = false := by
  induction l with
  | nil => simp [firstFailing]
  | cons c l ih =>
    obtain ⟨code, fails⟩ := c
    cases fails <;> simp [firstFailing, ih]

/-! ### Register accesses -/

/-- An access has a meaning exactly where nothing refuses it (R20, R23). -/
theorem accessRefusal_eq_none (off : Nat) (v : Word) (width : Nat) :
    accessRefusal off width = none ↔ (HostOp.write off v width).wf = true := by
  unfold accessRefusal HostOp.wf
  split_ifs <;> simp_all

end Sys2Proof.Machine
end

