-- ==== Sys2Proof/Laws/Engine.lean ====
section
/-! SUPPORT. What an engine step can do and what it leaves alone, said once; running the engine as an induction over its
steps; and the measure that makes every command end (R148). -/

namespace Sys2Proof.Machine

/-! ### Inversion -/

/-- What one step of a raw pixel can be: the pixel skipped, a byte read, a table entry read, the value accumulated, or the
pixel written. -/
theorem rawStep_cases {y x : Nat} {b : Bool} {phase : RawPhase} {k : Container} {ch : Chan} {s t : State}
    (h : rawStep y x b phase k ch s = .next t) :
    (phase = .fetch [] ∧ s.cfg.decodable s.cfg.p0 k x y = false ∧ t = { s with pos := .rawPix y (x + 1) true (.fetch []) }) ∨
      (∃ got a, phase = .fetch got ∧ (got = [] → s.cfg.decodable s.cfg.p0 k x y = true) ∧
        (s.cfg.dep s.cfg.p0 k x y)[got.length]? = some a ∧
        t = { s.noteSrc a x y with
          pos := .rawPix y x b (s.cfg.rawFetched k x y (got ++ [s.srcByte (readerSalt .p0 x y) a])) }) ∨
      (∃ raw p, phase = .look raw ∧ s.luts.look s.cfg k ch raw = some p ∧ t = { s with pos := .rawPix y x b p }) ∨
      (∃ i v, phase = .gain i ∧ s.luts.gain16 ch i (s.wideAt x y) = some v ∧
        t = { s with pos := .rawPix y x b (.count (s.cfg.value16 v)) }) ∨
      (∃ v, phase = .count v ∧
        t = { s with
          stats := s.stats.accumulate (s.cfg.inCentre x y) ch v.s16
          pos := .rawPix y x b (.write v.out) }) ∨
      ∃ out, phase = .write out ∧
        t = { s.writePixel x y (ownOnly ch out) with pos := .rawPix y (x + 1) b (.fetch []) } := by
  cases phase with
  | fetch got =>
    simp only [rawStep, rawFetch, State.fetchByte] at h
    split at h
    · rename_i hg
      cases h
      exact .inl ⟨by rw [hg.1], hg.2, rfl⟩
    · rename_i hg
      right; left
      split at h
      · rename_i a ha
        cases h
        exact ⟨got, a, rfl, fun he => by simpa [he] using hg, ha, rfl⟩
      · cases h
  | look raw =>
    simp only [rawStep] at h
    split at h
    · rename_i p hp
      cases h
      exact .inr (.inr (.inl ⟨raw, p, rfl, hp, rfl⟩))
    · cases h
  | gain i =>
    simp only [rawStep] at h
    split at h
    · rename_i v hv
      cases h
      exact .inr (.inr (.inr (.inl ⟨i, v, rfl, hv, rfl⟩)))
    · cases h
  | count v =>
    cases h
    exact .inr (.inr (.inr (.inr (.inl ⟨v, rfl, rfl⟩))))
  | write out =>
    cases h
    exact .inr (.inr (.inr (.inr (.inr ⟨out, rfl, rfl⟩))))

/-- A step of the raw pass within a row: the row ends, or it is a step of its pixel. -/
theorem stepRawPix_cases {y x : Nat} {b : Bool} {phase : RawPhase} {s t : State}
    (h : stepRawPix y x b phase s = .next t) :
    (s.cfg.width ≤ x ∧ t = stepRowEnd b (.rawRow (y + 1)) s) ∨
      (x < s.cfg.width ∧ s.inSpaces = true ∧ ∃ k ch, s.cfg.p0.container = some k ∧ s.cfg.color x y = some ch ∧
        rawStep y x b phase k ch s = .next t) := by
  unfold stepRawPix at h
  split at h
  · exact .inl ⟨‹_›, by simpa using h.symm⟩
  · split at h
    · split at h
      · exact .inr ⟨by omega, ‹_›, _, _, ‹_›, ‹_›, h⟩
      · cases h
    · cases h

/-- What one step of a YUV pixel can be: the pixel skipped, a byte read, or the converted pixel written. -/
theorem yuvStep_cases {y x : Nat} {b : Bool} {phase : YuvPhase} {k : Container × Container × Container} {s t : State}
    (h : yuvStep y x b phase k s = .next t) :
    (phase = .fetch [] ∧ s.cfg.yuvDecodable k x y = false ∧ t = { s with pos := .yuvPix y (x + 1) true (.fetch []) }) ∨
      (∃ got n a, phase = .fetch got ∧ (got = [] → s.cfg.yuvDecodable k x y = true) ∧
        (s.cfg.yuvDeps k x y)[got.length]? = some (n, a) ∧
        t = { s.noteSrc a x y with
          pos := .yuvPix y x b (s.cfg.yuvFetched k x y (got ++ [s.srcByte (readerSalt n x y) a])) }) ∨
      ∃ v, phase = .write v ∧ t = { s.writePixel x y v with pos := .yuvPix y (x + 1) b (.fetch []) } := by
  cases phase with
  | fetch got =>
    simp only [yuvStep, State.fetchByte] at h
    split at h
    · rename_i hg
      cases h
      exact .inl ⟨by rw [hg.1], hg.2, rfl⟩
    · rename_i hg
      right; left
      split at h
      · rename_i n a ha
        cases h
        exact ⟨got, n, a, rfl, fun he => by simpa [he] using hg, ha, rfl⟩
      · cases h
  | write v =>
    cases h
    exact .inr (.inr ⟨v, rfl, rfl⟩)

/-- A step of the YUV pass within a row: the row ends, or it is a step of its pixel. -/
theorem stepYuvPix_cases {y x : Nat} {b : Bool} {phase : YuvPhase} {s t : State}
    (h : stepYuvPix y x b phase s = .next t) :
    (s.cfg.width ≤ x ∧ t = stepRowEnd b (.yuvRow (y + 1)) s) ∨
      (x < s.cfg.width ∧ s.inSpaces = true ∧ ∃ k, s.cfg.yuvContainers = some k ∧ yuvStep y x b phase k s = .next t) := by
  unfold stepYuvPix at h
  split at h
  · exact .inl ⟨‹_›, by simpa using h.symm⟩
  · split at h
    · split at h
      · exact .inr ⟨by omega, ‹_›, _, ‹_›, h⟩
      · cases h
    · cases h

/-- What a worker's move can be: stopped by the cancel; its pixel entered; a channel read; its pixel written, the next one
or the end of the row reached; its finished row counted. -/
theorem stepWorker_cases {i : Nat} {w : Worker} {active : List Worker} {waiting : List Nat} {stopped : Bool}
    {s t : State} (h : stepWorker i w active waiting stopped s = .next t) :
    (w.phase = .gate ∧ s.cancelPending = true ∧ t = { s with pos := .demosaic (active.eraseIdx i) [] true }) ∨
      (w.phase = .gate ∧ s.cancelPending = false ∧
        t = { s with pos := .demosaic (active.set i ⟨w.y, w.x, .read []⟩) waiting stopped }) ∨
      (∃ got own px py c, w.phase = .read got ∧ s.cfg.color w.x w.y = some own ∧ s.cfg.badDst s.params.dstBytes = false ∧
        (s.cfg.demosaicReads own w.x w.y)[got.length]? = some (px, py, c) ∧
        t = { s.noteDst (s.cfg.dstAddr px py) with
          pos := .demosaic (active.set i ⟨w.y, w.x,
            s.cfg.demosaicFetched own w.x w.y (got ++ [s.readCh (readerSalt .p0 w.x w.y) px py c])⟩) waiting stopped }) ∨
      (∃ v, w.phase = .write v ∧ s.cfg.badDst s.params.dstBytes = false ∧
        t = { s.writePixel w.x w.y v with
          pos := .demosaic (active.set i
            (if w.x + 1 < s.cfg.width then ⟨w.y, w.x + 1, .gate⟩ else ⟨w.y, w.x, .count⟩)) waiting stopped }) ∨
      (w.phase = .count ∧ t = { s.count with pos := .demosaic (active.eraseIdx i) waiting stopped }) := by
  obtain ⟨wy, wx, phase⟩ := w
  cases phase with
  | gate =>
    simp only [stepWorker] at h
    split at h
    · rename_i hc
      cases h
      exact .inl ⟨rfl, hc, rfl⟩
    · rename_i hc
      cases h
      exact .inr (.inl ⟨rfl, by simpa using hc, rfl⟩)
  | read got =>
    simp only [stepWorker, workerRead] at h
    split at h
    · rename_i own hown
      split at h
      · cases h
      · rename_i hb
        cases hr : (s.cfg.demosaicReads own wx wy)[got.length]? with
        | none => simp [hr] at h
        | some r =>
          simp only [hr, Option.map_some] at h
          cases h
          exact .inr (.inr (.inl ⟨got, own, r.1, r.2.1, r.2.2, rfl, hown, by simpa using hb, hr, rfl⟩))
    · cases h
  | write v =>
    simp only [stepWorker] at h
    split at h
    · cases h
    · rename_i hb
      cases h
      exact .inr (.inr (.inr (.inl ⟨v, rfl, by simpa using hb, rfl⟩)))
  | count =>
    cases h
    exact .inr (.inr (.inr (.inr ⟨rfl, rfl⟩)))

/-- What a step of the demosaic pass can be: the pass ends, a worker moves, or a waiting row starts; the last two use up
one choice of the schedule. -/
theorem stepDemosaic_cases {active : List Worker} {waiting : List Nat} {stopped : Bool} {s t : State}
    (h : stepDemosaic active waiting stopped s = .next t) :
    (active = [] ∧ waiting = [] ∧ t = if stopped then finish .cancelled s else { s with pos := .between }) ∨
      (∃ i w, active[i]? = some w ∧
        stepWorker i w active waiting stopped { s with sched := s.sched.tail } = .next t) ∨
      (∃ j y, waiting[j]? = some y ∧ active.length < max s.params.workers 1 ∧
        t = { s with
          sched := s.sched.tail
          pos := .demosaic (active ++ [⟨y, 0, .gate⟩]) (waiting.eraseIdx j) stopped }) := by
  unfold stepDemosaic at h
  split at h
  · exact .inl ⟨rfl, rfl, by simpa using h.symm⟩
  · right
    dsimp only at h
    split at h
    · rename_i w hw
      exact .inl ⟨_, w, hw, h⟩
    · split at h
      · rename_i y hy
        right
        unfold startable at hy h
        split at hy
        · rename_i hlt
          rw [if_pos hlt] at h
          exact ⟨_, y, hy, hlt, by simpa using h.symm⟩
        · simp at hy
      · cases h

/-- A counted engine step is a move. -/
theorem engineStep_cases {s t : State} (h : engineStep s = .next t) :
    ∃ u, engineMove s = .next u ∧ t = u.ticked s.ticks := by
  unfold engineStep andThen at h
  split at h
  · exact ⟨_, ‹_›, by simpa using h.symm⟩
  · cases h
  · cases h

/-! ### What an engine step leaves alone -/

/-- What no engine step changes. -/
structure EngineKept (s t : State) : Prop where
  params : t.params = s.params
  regs : t.regs = s.regs
  irqEn : t.irqEn = s.irqEn
  overrun : t.overrun = s.overrun
  lutAddr : t.lutAddr = s.lutAddr
  host : t.host = s.host
  reads : t.reads = s.reads
  cmd : t.cmd = s.cmd
  op : t.op = s.op
  cfg : t.cfg = s.cfg
  draws : t.draws = s.draws

/-- What a step within a command does not change either. -/
structure CommandKept (s t : State) : Prop where
  busy : t.busy = s.busy
  launch : t.launch = s.launch
  srcForeign : t.srcForeign = s.srcForeign
  dstForeign : t.dstForeign = s.dstForeign
  src : t.src = s.src
  cancelPending : t.cancelPending = s.cancelPending
  cancelAt : t.cancelAt = s.cancelAt

/-- An engine step goes on within the command, or is the end of it. -/
def StepShape (s t : State) : Prop := CommandKept s t ∨ ∃ e : Ending, t = finish e s

theorem EngineKept.rfl' (s : State) : EngineKept s s := by constructor <;> rfl

theorem EngineKept.trans' {s t u : State} (h : EngineKept s t) (h' : EngineKept t u) : EngineKept s u where
  params := h'.params.trans h.params
  regs := h'.regs.trans h.regs
  irqEn := h'.irqEn.trans h.irqEn
  overrun := h'.overrun.trans h.overrun
  lutAddr := h'.lutAddr.trans h.lutAddr
  host := h'.host.trans h.host
  reads := h'.reads.trans h.reads
  cmd := h'.cmd.trans h.cmd
  op := h'.op.trans h.op
  cfg := h'.cfg.trans h.cfg
  draws := h'.draws.trans h.draws

theorem finish_kept (e : Ending) (s : State) : EngineKept s (finish e s) := by constructor <;> simp

/-- The end of a command, as a step's shape. -/
theorem finish_shape (e : Ending) (s : State) : StepShape s (finish e s) := .inr ⟨e, rfl⟩

/-- Both halves of what a step leaves alone, for a step that is no end of a command. -/
theorem kept_of_fields {s t : State} (h : EngineKept s t) (h' : CommandKept s t) : EngineKept s t ∧ StepShape s t :=
  ⟨h, .inl h'⟩

theorem rawStep_kept {y x : Nat} {b : Bool} {phase : RawPhase} {k : Container} {ch : Chan} {s t : State}
    (h : rawStep y x b phase k ch s = .next t) : EngineKept s t ∧ CommandKept s t := by
  obtain ⟨-, -, rfl⟩ | ⟨got, a, -, -, -, rfl⟩ | ⟨raw, p, -, -, rfl⟩ | ⟨i, v, -, -, rfl⟩ | ⟨v, -, rfl⟩ | ⟨out, -, rfl⟩ :=
    rawStep_cases h <;> constructor <;> constructor <;> simp

theorem yuvStep_kept {y x : Nat} {b : Bool} {phase : YuvPhase} {k : Container × Container × Container} {s t : State}
    (h : yuvStep y x b phase k s = .next t) : EngineKept s t ∧ CommandKept s t := by
  obtain ⟨-, -, rfl⟩ | ⟨got, n, a, -, -, -, rfl⟩ | ⟨v, -, rfl⟩ := yuvStep_cases h <;>
    constructor <;> constructor <;> simp

theorem stepWorker_kept {i : Nat} {w : Worker} {active : List Worker} {waiting : List Nat} {stopped : Bool}
    {s t : State} (h : stepWorker i w active waiting stopped s = .next t) : EngineKept s t ∧ CommandKept s t := by
  obtain ⟨-, -, rfl⟩ | ⟨-, -, rfl⟩ | ⟨got, own, px, py, c, -, -, -, -, rfl⟩ | ⟨v, -, -, rfl⟩ | ⟨-, rfl⟩ :=
    stepWorker_cases h <;> constructor <;> constructor <;> simp

theorem stepRowStart_kept (y : Nat) (row : Pos) (s : State) :
    EngineKept s (stepRowStart y row s) ∧ StepShape s (stepRowStart y row s) := by
  unfold stepRowStart
  split_ifs
  · exact kept_of_fields (by constructor <;> rfl) (by constructor <;> rfl)
  · exact ⟨finish_kept _ _, finish_shape _ _⟩
  · exact kept_of_fields (by constructor <;> rfl) (by constructor <;> rfl)

theorem stepRowEnd_kept (b : Bool) (p : Pos) (s : State) :
    EngineKept s (stepRowEnd b p s) ∧ StepShape s (stepRowEnd b p s) :=
  kept_of_fields (by constructor <;> rfl) (by constructor <;> rfl)

/-- An engine step changes none of the host's registers, the command word, the snapshot or what the host does, and either
stays within the command or ends it. -/
theorem engineMove_kept {s t : State} (h : engineMove s = .next t) : EngineKept s t ∧ StepShape s t := by
  unfold engineMove at h
  split at h
  case h_1 => cases h
  case h_2 => cases h; exact ⟨finish_kept _ _, finish_shape _ _⟩
  case h_4 =>
    cases h
    unfold stepBetween
    split
    · exact ⟨finish_kept _ _, finish_shape _ _⟩
    · rename_i p rest _
      cases p <;> exact kept_of_fields (by constructor <;> rfl) (by constructor <;> rfl)
  case h_5 p hp =>
    cases h
    cases p <;> exact kept_of_fields (by constructor <;> rfl) (by constructor <;> rfl)
  case h_6 =>
    cases h
    unfold stepLutOpen
    split
    · exact kept_of_fields (by constructor <;> rfl) (by constructor <;> rfl)
    · split
      · exact ⟨finish_kept _ _, finish_shape _ _⟩
      · exact kept_of_fields (by constructor <;> rfl) (by constructor <;> rfl)
  case h_12 => cases h; exact stepRowStart_kept _ _ _
  case h_13 =>
    obtain ⟨-, rfl⟩ | ⟨-, -, k, ch, -, -, hr⟩ := stepRawPix_cases h
    · exact stepRowEnd_kept _ _ _
    · exact (rawStep_kept hr).imp_right .inl
  case h_14 =>
    obtain ⟨-, -, rfl⟩ | ⟨i, w, -, hw⟩ | ⟨j, y, -, -, rfl⟩ := stepDemosaic_cases h
    · split_ifs
      · exact ⟨finish_kept _ _, finish_shape _ _⟩
      · exact kept_of_fields (by constructor <;> rfl) (by constructor <;> rfl)
    · obtain ⟨⟨⟩, ⟨⟩⟩ := stepWorker_kept hw
      exact kept_of_fields (by constructor <;> assumption) (by constructor <;> assumption)
    · exact kept_of_fields (by constructor <;> rfl) (by constructor <;> rfl)
  case h_15 => cases h; exact stepRowStart_kept _ _ _
  case h_16 =>
    obtain ⟨-, rfl⟩ | ⟨-, -, k, -, hr⟩ := stepYuvPix_cases h
    · exact stepRowEnd_kept _ _ _
    · exact (yuvStep_kept hr).imp_right .inl
  all_goals
    cases h
    exact kept_of_fields (by constructor <;> rfl) (by constructor <;> rfl)

theorem engineStep_kept {s t : State} (h : engineStep s = .next t) : EngineKept s t := by
  obtain ⟨u, hu, rfl⟩ := engineStep_cases h
  exact (engineMove_kept hu).1.trans' (by constructor <;> rfl)

/-- What an engine step does to the source space and to the record of foreign writes: a byte no other agent has written
reads as before, and the record is kept, or dropped with the command. -/
structure SourceKept (s t : State) : Prop where
  other : ∀ a, a ∉ s.srcForeign → Memory.read t.src a = Memory.read s.src a
  same : s.srcForeign = [] → t.src = s.src
  foreign : t.srcForeign = s.srcForeign ∨ t.srcForeign = []

theorem SourceKept.rfl' (s : State) : SourceKept s s := ⟨fun _ _ => rfl, fun _ => rfl, .inl rfl⟩

theorem SourceKept.trans' {s t u : State} (h : SourceKept s t) (h' : SourceKept t u) : SourceKept s u where
  other a ha := by
    rw [h'.other a, h.other a ha]
    rcases h.foreign with e | e <;> simp [e, ha]
  same hs := by
    have : t.srcForeign = [] := h.foreign.elim (fun e => e.trans hs) id
    rw [h'.same this, h.same hs]
  foreign := by
    rcases h'.foreign with e | e
    · exact h.foreign.imp e.trans e.trans
    · exact .inr e

theorem engineStep_source {s t : State} (h : engineStep s = .next t) : SourceKept s t := by
  obtain ⟨u, hu, rfl⟩ := engineStep_cases h
  rcases (engineMove_kept hu).2 with hk | ⟨e, rfl⟩
  · exact ⟨fun a _ => by simp [hk.src], fun _ => by simp [hk.src], .inl (by simp [hk.srcForeign])⟩
  · refine ⟨fun a ha => ?_, fun hs => ?_, .inr (by simp)⟩
    · rw [State.ticked_src, finish_src, State.settledSrc_other ha]
    · rw [State.ticked_src, finish_src, State.settledSrc_of_nil hs]

/-- A command that goes on is the one that ran before the step, with what it set out from and the foreign writes to it. -/
theorem engineStep_busy {s t : State} (h : engineStep s = .next t) (hb : t.busy = true) :
    s.busy = true ∧ t.launch = s.launch ∧ t.srcForeign = s.srcForeign ∧ t.dstForeign = s.dstForeign ∧ t.src = s.src ∧
      t.cancelPending = s.cancelPending ∧ t.cancelAt = s.cancelAt ∧ t.ticks = s.ticks + 1 := by
  obtain ⟨u, hu, rfl⟩ := engineStep_cases h
  rw [State.ticked_busy] at hb
  rcases (engineMove_kept hu).2 with hk | ⟨e, rfl⟩
  · refine ⟨hk.busy ▸ hb, ?_⟩
    simp [hk.launch, hk.srcForeign, hk.dstForeign, hk.src, hk.cancelPending, hk.cancelAt, hb]
  · simp at hb

/-! ### Running the engine -/

@[simp] theorem runEngine_zero (s : State) : runEngine 0 s = .next s := rfl

theorem runEngine_idle {s : State} (n : Nat) (h : s.busy = false) : runEngine n s = .next s := by
  cases n with
  | zero => rfl
  | succ n => rw [runEngine, h]; rfl

theorem runEngine_succ {s : State} (n : Nat) (h : s.busy = true) :
    runEngine (n + 1) s = andThen (engineStep s) (runEngine n) := by
  rw [runEngine, if_pos h]
  cases engineStep s <;> rfl

theorem runEngine_next {s t : State} (n : Nat) (h : s.busy = true) (ht : engineStep s = .next t) :
    runEngine (n + 1) s = runEngine n t := by
  rw [runEngine, if_pos h, ht]

/-- A run of at least one step, taken apart: no command runs, or one step and the rest. -/
theorem runEngine_succ_cases {n : Nat} {s t : State} (h : runEngine (n + 1) s = .next t) :
    s.busy = false ∧ t = s ∨ s.busy = true ∧ ∃ u, engineStep s = .next u ∧ runEngine n u = .next t := by
  cases hb : s.busy with
  | false =>
    rw [runEngine_idle _ hb] at h
    exact .inl ⟨rfl, by simpa using h.symm⟩
  | true =>
    rw [runEngine, if_pos hb] at h
    split at h
    · exact .inr ⟨rfl, _, ‹_›, h⟩
    · cases h
    · cases h

/-- What holds of a state and is kept by every engine step holds after running the engine. -/
theorem runEngine_induct {P : State → Prop}
    (hstep : ∀ s t, s.busy = true → P s → engineStep s = .next t → P t) {n : Nat} {s t : State} (hs : P s)
    (h : runEngine n s = .next t) : P t := by
  induction n generalizing s with
  | zero => simp_all
  | succ n ih =>
    obtain ⟨-, rfl⟩ | ⟨hb, u, hu, h⟩ := runEngine_succ_cases h
    · exact hs
    · exact ih (hstep s u hb hs hu) h

/-- Running the engine changes what an engine step may change. -/
theorem runEngine_kept {n : Nat} {s t : State} (h : runEngine n s = .next t) : EngineKept s t ∧ SourceKept s t :=
  runEngine_induct (P := fun u => EngineKept s u ∧ SourceKept s u)
    (fun _ _ _ hu hstep => ⟨hu.1.trans' (engineStep_kept hstep), hu.2.trans' (engineStep_source hstep)⟩)
    ⟨EngineKept.rfl' s, SourceKept.rfl' s⟩ h

/-- Running the engine of an unraced command leaves the whole of the host's side. -/
theorem runEngine_hostSide {n : Nat} {s t : State} (hs : s.srcForeign = []) (h : runEngine n s = .next t) :
    HostSideKept s t := by
  obtain ⟨hk, hsrc⟩ := runEngine_kept h
  exact ⟨hk.params, hk.regs, hk.irqEn, hk.overrun, hk.lutAddr, hsrc.same hs, hk.host, hk.reads⟩

/-- A run is a first part and the rest. -/
theorem runEngine_add (n m : Nat) (s : State) : runEngine (n + m) s = andThen (runEngine n s) (runEngine m) := by
  induction n generalizing s with
  | zero => rw [Nat.zero_add]; rfl
  | succ n ih =>
    cases hb : s.busy with
    | false => rw [runEngine_idle _ hb, runEngine_idle _ hb]; exact (runEngine_idle m hb).symm
    | true =>
      rw [Nat.succ_add, runEngine_succ _ hb, runEngine_succ _ hb]
      cases he : engineStep s with
      | next t => exact ih t
      | fault e => rfl
      | refused e => rfl

/-- Once the host does nothing before the command has ended, the engine runs as long as the command takes. -/
theorem settle_undisturbed {s : State} (h : s.Undisturbed) : settle s = runEngine s.work s := by
  unfold settle State.budget
  cases hh : s.host with
  | nil => rfl
  | cons e rest =>
    obtain ⟨n, op⟩ := e
    have hop : op = .wait := by simpa [State.Undisturbed, hh] using h
    subst hop
    rfl

theorem settle_idle {s : State} (h : s.busy = false) : settle s = .next s := runEngine_idle _ h

/-! ### Every command ends (R148) -/

theorem rowsWork_succ {c : CfgRegs} {px y : Nat} (h : y < c.height) :
    rowsWork c px y = rowsWork c px (y + 1) + (c.width * px + 3) := by
  unfold rowsWork
  rw [show c.height - y = (c.height - (y + 1)) + 1 by omega, Nat.succ_mul]
  omega

theorem rowsWork_pos (c : CfgRegs) (px y : Nat) : 0 < rowsWork c px y := Nat.succ_pos _

/-- The first pixel of a row has the work of the row, less the row's own bookkeeping. -/
theorem rowWork_start (c : CfgRegs) (px y : Nat) (h : y < c.height) : rowWork c px y 0 px < rowsWork c px y := by
  rw [rowsWork_succ h]
  unfold rowWork
  split_ifs with hw
  · have : (c.width - 1) * px + px = c.width * px := by
      rw [← Nat.succ_mul, show (c.width - 1).succ = c.width by omega]
    simp only [Nat.zero_add]
    omega
  · omega

/-- Within a pixel the work falls with the phase's. -/
theorem rowWork_lt {c : CfgRegs} {px y x left left' : Nat} (hx : x < c.width) (h : left' < left) :
    rowWork c px y x left' < rowWork c px y x left := by
  simp only [rowWork, if_pos hx]
  omega

/-- The next pixel has less work than the one before it. -/
theorem rowWork_next {c : CfgRegs} {px y x left : Nat} (hx : x < c.width) (h : 0 < left) :
    rowWork c px y (x + 1) px < rowWork c px y x left := by
  simp only [rowWork, if_pos hx]
  split_ifs with hn
  · have : (c.width - (x + 1 + 1)) * px + px = (c.width - (x + 1)) * px := by
      rw [← Nat.succ_mul, show (c.width - (x + 1 + 1)).succ = c.width - (x + 1) by omega]
    omega
  · omega

theorem work_eq (s : State) : s.work = s.pos.work s.cfg + (s.todo.map (PassPlan.work s.cfg)).sum + 1 := rfl

theorem sum_map_eraseIdx {α : Type} (f : α → Nat) {l : List α} {i : Nat} {a : α} (h : l[i]? = some a) :
    ((l.eraseIdx i).map f).sum + f a = (l.map f).sum := by
  induction l generalizing i with
  | nil => simp at h
  | cons b l ih =>
    cases i with
    | zero =>
      simp only [List.getElem?_cons_zero, Option.some.injEq] at h
      subst h
      simp only [List.eraseIdx_zero, List.tail_cons, List.map_cons, List.sum_cons]
      omega
    | succ i =>
      rw [List.getElem?_cons_succ] at h
      have := ih h
      simp only [List.eraseIdx_cons_succ, List.map_cons, List.sum_cons]
      omega

theorem sum_map_set {α : Type} (f : α → Nat) {l : List α} {i : Nat} {a : α} (b : α) (h : l[i]? = some a) :
    ((l.set i b).map f).sum + f a = (l.map f).sum + f b := by
  induction l generalizing i with
  | nil => simp at h
  | cons c l ih =>
    cases i with
    | zero =>
      simp only [List.getElem?_cons_zero, Option.some.injEq] at h
      subst h
      simp only [List.set_cons_zero, List.map_cons, List.sum_cons]
      omega
    | succ i =>
      rw [List.getElem?_cons_succ] at h
      have := ih h
      simp only [List.set_cons_succ, List.map_cons, List.sum_cons]
      omega

theorem CfgRegs.rawBytes_eq {c : CfgRegs} {k : Container} (h : c.p0.container = some k) : c.rawBytes = k.bytes := by
  simp [CfgRegs.rawBytes, h]

theorem CfgRegs.yuvBytes_eq {c : CfgRegs} {k : Container × Container × Container} (h : c.yuvContainers = some k)
    (x y : Nat) : c.yuvBytes = (c.yuvDeps k x y).length := by
  simp [CfgRegs.yuvBytes, h, CfgRegs.yuvDeps, CfgRegs.dep_length, Nat.add_assoc]

theorem lt_of_getElem? {α : Type} {l : List α} {i : Nat} {a : α} (h : l[i]? = some a) : i < l.length := by
  by_contra hc
  rw [List.getElem?_eq_none (by omega)] at h
  cases h

/-- A move within the pass lowers the work of the position. -/
theorem rawStep_work {y x : Nat} {b : Bool} {phase : RawPhase} {k : Container} {ch : Chan} {s t : State}
    (hk : s.cfg.p0.container = some k) (hx : x < s.cfg.width) (h : rawStep y x b phase k ch s = .next t) :
    t.todo = s.todo ∧ t.pos.work s.cfg < Pos.work s.cfg (.rawPix y x b phase) := by
  have px : pixelWork s.cfg.rawBytes = RawPhase.work s.cfg.rawBytes (.fetch []) := rfl
  have hb := CfgRegs.rawBytes_eq hk
  obtain ⟨rfl, -, rfl⟩ | ⟨got, a, rfl, -, ha, rfl⟩ | ⟨raw, p, rfl, hp, rfl⟩ | ⟨i, v, rfl, -, rfl⟩ | ⟨v, rfl, rfl⟩ |
    ⟨out, rfl, rfl⟩ := rawStep_cases h
  · exact ⟨rfl, rowWork_next hx (Nat.succ_pos _)⟩
  · refine ⟨rfl, rowWork_lt hx ?_⟩
    have hl := lt_of_getElem? ha
    rw [CfgRegs.dep_length] at hl
    unfold CfgRegs.rawFetched
    dsimp only
    split_ifs
    · simp only [RawPhase.work, List.length_append, List.length_singleton]; omega
    · simp only [RawPhase.work]; omega
  · refine ⟨rfl, rowWork_lt hx ?_⟩
    cases k <;> simp only [Luts.look, Option.map_eq_some_iff] at hp <;> obtain ⟨v, -, rfl⟩ := hp <;>
      simp [RawPhase.work]
  · exact ⟨rfl, rowWork_lt hx (by simp [RawPhase.work])⟩
  · exact ⟨rfl, rowWork_lt hx (by simp [RawPhase.work])⟩
  · exact ⟨by simp, rowWork_next hx Nat.one_pos⟩

theorem yuvStep_work {y x : Nat} {b : Bool} {phase : YuvPhase} {k : Container × Container × Container} {s t : State}
    (hk : s.cfg.yuvContainers = some k) (hx : x < s.cfg.width) (h : yuvStep y x b phase k s = .next t) :
    t.todo = s.todo ∧ t.pos.work s.cfg < Pos.work s.cfg (.yuvPix y x b phase) := by
  have hb := CfgRegs.yuvBytes_eq hk x y
  obtain ⟨rfl, -, rfl⟩ | ⟨got, n, a, rfl, -, ha, rfl⟩ | ⟨v, rfl, rfl⟩ := yuvStep_cases h
  · exact ⟨rfl, rowWork_next hx (Nat.succ_pos _)⟩
  · refine ⟨rfl, rowWork_lt hx ?_⟩
    have hl := lt_of_getElem? ha
    unfold CfgRegs.yuvFetched
    dsimp only
    split_ifs
    · simp only [YuvPhase.work, List.length_append, List.length_singleton]; omega
    · simp only [YuvPhase.work]; omega
  · exact ⟨by simp, rowWork_next hx Nat.one_pos⟩

/-- A worker's move lowers the work of the pass. -/
theorem stepWorker_work {i : Nat} {w : Worker} {active : List Worker} {waiting : List Nat} {stopped : Bool} {s t : State}
    (hi : active[i]? = some w) (h : stepWorker i w active waiting stopped s = .next t) :
    t.todo = s.todo ∧ t.pos.work s.cfg < demosaicWork s.cfg active waiting := by
  have herase := sum_map_eraseIdx (Worker.work s.cfg) hi
  have hset := fun p => sum_map_set (Worker.work s.cfg) (p : Worker) hi
  unfold demosaicWork
  obtain ⟨hp, -, rfl⟩ | ⟨hp, -, rfl⟩ | ⟨got, own, px, py, c, hp, -, -, hr, rfl⟩ | ⟨v, hp, -, rfl⟩ | ⟨hp, rfl⟩ :=
    stepWorker_cases h
  · refine ⟨rfl, ?_⟩
    simp only [Pos.work, demosaicWork, List.length_nil, Nat.zero_mul]
    simp only [Worker.work, hp, WorkPhase.work] at herase ⊢
    omega
  · refine ⟨rfl, ?_⟩
    have := hset ⟨w.y, w.x, .read []⟩
    simp only [Pos.work, demosaicWork]
    simp only [Worker.work, hp, WorkPhase.work, List.length_nil, readBound] at this ⊢
    omega
  · refine ⟨rfl, ?_⟩
    have hl := (lt_of_getElem? hr).trans_le (CfgRegs.demosaicReads_length _ _ _ _)
    have := hset ⟨w.y, w.x, s.cfg.demosaicFetched own w.x w.y (got ++ [s.readCh (readerSalt .p0 w.x w.y) px py c])⟩
    simp only [Pos.work, demosaicWork]
    have hlow : WorkPhase.work
        (s.cfg.demosaicFetched own w.x w.y (got ++ [s.readCh (readerSalt .p0 w.x w.y) px py c])) <
          WorkPhase.work (.read got) := by
      unfold CfgRegs.demosaicFetched
      dsimp only
      split_ifs
      · simp only [WorkPhase.work, List.length_append, List.length_singleton, readBound]; omega
      · simp only [WorkPhase.work, readBound]; omega
    simp only [Worker.work, hp] at this ⊢
    omega
  · refine ⟨by simp, ?_⟩
    have := hset (if w.x + 1 < s.cfg.width then ⟨w.y, w.x + 1, .gate⟩ else ⟨w.y, w.x, .count⟩)
    simp only [Pos.work, demosaicWork]
    have hlow : Worker.work s.cfg (if w.x + 1 < s.cfg.width then ⟨w.y, w.x + 1, .gate⟩ else ⟨w.y, w.x, .count⟩) <
        Worker.work s.cfg w := by
      split_ifs with hx
      · have : (s.cfg.width - (w.x + 1 + 1)) * (readBound + 3) + (readBound + 3) =
            (s.cfg.width - (w.x + 1)) * (readBound + 3) := by
          rw [← Nat.succ_mul, show (s.cfg.width - (w.x + 1 + 1)).succ = s.cfg.width - (w.x + 1) by omega]
        simp only [Worker.work, hp, WorkPhase.work]
        omega
      · simp only [Worker.work, hp, WorkPhase.work]
        omega
    omega
  · refine ⟨rfl, ?_⟩
    simp only [Pos.work, demosaicWork]
    simp only [Worker.work, hp, WorkPhase.work] at herase ⊢
    omega

/-- A move lowers the work of the position, or ends the pass within its bound, or ends the command. -/
theorem engineMove_work {s t : State} (h : engineMove s = .next t) : t.busy = false ∨ t.work < s.work := by
  have hcfg := (engineMove_kept h).1.cfg
  have lower : t.todo = s.todo ∧ t.pos.work s.cfg < s.pos.work s.cfg → t.work < s.work := fun hl => by
    rw [work_eq, work_eq, hcfg, hl.1]
    omega
  cases hp : s.pos with
  | idle => simp [engineMove, hp] at h
  | checked v =>
    cases v with
    | some code =>
      simp only [engineMove, hp] at h
      cases h
      exact .inl (by simp)
    | none =>
      simp only [engineMove, hp] at h
      cases h
      exact .inr (lower ⟨rfl, by rw [hp]; exact Nat.one_pos⟩)
  | between =>
    simp only [engineMove, hp] at h
    cases h
    unfold stepBetween at hcfg ⊢
    cases ht : s.todo with
    | nil => exact .inl (by simp)
    | cons p rest =>
      right
      have h0 : Pos.work s.cfg .between = 0 := rfl
      cases p <;>
        simp only [work_eq, showPass, Pos.work, hp, ht, List.map_cons, List.sum_cons, PassPlan.work] <;> omega
  | starting p =>
    simp only [engineMove, hp] at h
    cases h
    right
    refine lower ⟨by cases p <;> rfl, ?_⟩
    rw [hp]
    cases p <;> simp [startPass, Pos.work, PassPlan.body]
  | lutOpen gs =>
    simp only [engineMove, hp] at h
    cases h
    unfold stepLutOpen at hcfg ⊢
    cases gs with
    | nil => exact .inr (by simp [work_eq, hp, Pos.work, lutWork])
    | cons g rest =>
      dsimp only
      split_ifs
      · exact .inl (by simp)
      · right
        simp only [work_eq, hp, Pos.work, lutWork, List.map_cons, List.sum_cons]
        omega
  | lutClear g rest =>
    simp only [engineMove, hp] at h
    cases h
    exact .inr (lower ⟨rfl, by simp [hp, stepLutClear, Pos.work]⟩)
  | lutFill g rest n =>
    simp only [engineMove, hp] at h
    cases h
    refine .inr (lower ⟨rfl, ?_⟩)
    rw [hp, stepLutFill]
    dsimp only
    split_ifs <;> simp only [Pos.work] <;> omega
  | lutMark g rest =>
    simp only [engineMove, hp] at h
    cases h
    exact .inr (lower ⟨rfl, by simp [hp, stepLutMark, Pos.work]⟩)
  | lutCount rest =>
    simp only [engineMove, hp] at h
    cases h
    exact .inr (lower ⟨rfl, by simp [hp, Pos.work]⟩)
  | rawClear =>
    simp only [engineMove, hp] at h
    cases h
    exact .inr (lower ⟨rfl, by simp [hp, Pos.work]⟩)
  | rawRow y =>
    simp only [engineMove, hp] at h
    cases h
    unfold stepRowStart at hcfg ⊢
    split_ifs with h1
    · exact .inr (by simp [work_eq, hp, Pos.work, rowsWork])
    · exact .inl (by simp)
    · right
      have : rowWork s.cfg (pixelWork s.cfg.rawBytes) y 0 (RawPhase.work s.cfg.rawBytes (.fetch [])) < _ :=
        rowWork_start s.cfg (pixelWork s.cfg.rawBytes) y (by omega)
      simp only [work_eq, hp, Pos.work]
      omega
  | rawPix y x b phase =>
    simp only [engineMove, hp] at h
    obtain ⟨hx, rfl⟩ | ⟨hx, -, k, ch, hk, -, hr⟩ := stepRawPix_cases h
    · right
      unfold stepRowEnd
      split_ifs <;> simp [work_eq, hp, Pos.work, rowWork, Nat.not_lt.2 hx]; omega
    · exact .inr (lower (hp ▸ rawStep_work hk hx hr))
  | demosaic active waiting stopped =>
    simp only [engineMove, hp] at h
    obtain ⟨rfl, rfl, rfl⟩ | ⟨i, w, hi, hw⟩ | ⟨j, y, hj, -, rfl⟩ := stepDemosaic_cases h
    · split_ifs
      · exact .inl (by simp)
      · right; simp [work_eq, hp, Pos.work, demosaicWork]
    · exact .inr (lower (by
        rw [hp]
        exact stepWorker_work (s := { s with sched := s.sched.tail }) hi hw))
    · refine .inr (lower ⟨rfl, ?_⟩)
      have hlen : (waiting.eraseIdx j).length + 1 = waiting.length := by
        have hj := lt_of_getElem? hj
        rw [List.length_eraseIdx, if_pos hj]
        omega
      have hrow : (s.cfg.width - 1) * (readBound + 3) + (readBound + 3) < demosaicRowWork s.cfg := by
        unfold demosaicRowWork
        have : (s.cfg.width - 1) * (readBound + 3) ≤ s.cfg.width * (readBound + 3) := Nat.mul_le_mul_right _ (by omega)
        rw [Nat.succ_mul]
        omega
      simp only [hp, Pos.work, demosaicWork, List.map_append, List.sum_append, List.map_cons, List.map_nil,
        List.sum_cons, List.sum_nil, ← hlen, Nat.succ_mul, Worker.work, WorkPhase.work, Nat.zero_add]
      omega
  | yuvRow y =>
    simp only [engineMove, hp] at h
    cases h
    unfold stepRowStart at hcfg ⊢
    split_ifs with h1
    · exact .inr (by simp [work_eq, hp, Pos.work, rowsWork])
    · exact .inl (by simp)
    · right
      have : rowWork s.cfg (pixelWork s.cfg.yuvBytes) y 0 (YuvPhase.work s.cfg.yuvBytes (.fetch [])) < _ :=
        rowWork_start s.cfg (pixelWork s.cfg.yuvBytes) y (by omega)
      simp only [work_eq, hp, Pos.work]
      omega
  | yuvPix y x b phase =>
    simp only [engineMove, hp] at h
    obtain ⟨hx, rfl⟩ | ⟨hx, -, k, hk, hr⟩ := stepYuvPix_cases h
    · right
      unfold stepRowEnd
      split_ifs <;> simp [work_eq, hp, Pos.work, rowWork, Nat.not_lt.2 hx]; omega
    · exact .inr (lower (hp ▸ yuvStep_work hk hx hr))
  | truncated =>
    simp only [engineMove, hp] at h
    cases h
    exact .inr (lower ⟨rfl, by rw [hp]; exact Nat.one_pos⟩)

/-- Every engine step ends the command or lowers the measure. -/
theorem engineStep_work {s t : State} (h : engineStep s = .next t) : t.busy = false ∨ t.work < s.work := by
  obtain ⟨u, hu, rfl⟩ := engineStep_cases h
  rcases engineMove_work hu with hb | hw
  · exact .inl hb
  · exact .inr hw

/-- Given the steps the measure allows, the engine ends the command or stops with a fault. -/
theorem runEngine_ends {n : Nat} {s t : State} (hn : s.work ≤ n) (h : runEngine n s = .next t) : t.busy = false := by
  induction n generalizing s with
  | zero => simp [work_eq] at hn
  | succ n ih =>
    obtain ⟨hb, rfl⟩ | ⟨-, u, hu, h⟩ := runEngine_succ_cases h
    · exact hb
    · rcases engineStep_work hu with hb | hw
      · rw [runEngine_idle _ hb] at h
        cases h
        exact hb
      · exact ih (by omega) h

/-- More steps than a command takes change nothing. -/
theorem runEngine_more {n m : Nat} {s t : State} (h : runEngine n s = .next t) (ht : t.busy = false) (hm : n ≤ m) :
    runEngine m s = .next t := by
  obtain ⟨k, rfl⟩ := Nat.exists_eq_add_of_le hm
  rw [runEngine_add, h]
  exact runEngine_idle k ht

end Sys2Proof.Machine
end

