-- ==== Sys2Proof/Laws/PerInstr.lean ====
section
/-! SUPPORT. Facts about every command as syntax, one lemma a constructor (R110, R113, R126). -/

namespace Sys2Proof.Laws.EncodeLayout

/-- The word of a command keeps to the format CMD32: OP is one of the five opcodes and every RSV bit is 0 (R110). -/
def Statement (i : Instr) : Prop :=
  i.wf = true ∧ ((encode i).extractLsb' 0 4).toNat < 5 ∧ (encode i).extractLsb' 7 25 = 0

theorem nop : Statement .nop := by unfold Statement; decide

theorem lutBuild (lvl g8 g16 : Bool) : Statement (.lutBuild lvl g8 g16) := by
  unfold Statement
  cases lvl <;> cases g8 <;> cases g16 <;> decide

theorem bayerDecode (build : Bool) : Statement (.bayerDecode build) := by
  unfold Statement
  cases build <;> decide

theorem demosaic : Statement .demosaic := by unfold Statement; decide

theorem yuvConvert : Statement .yuvConvert := by unfold Statement; decide

end Sys2Proof.Laws.EncodeLayout
end

