-- ==== Sys2Proof/Laws/Ram.lean ====
section
/-! SUPPORT. The laws of the lookup-table RAMs. -/

namespace Sys2Proof.Machine

variable {α : Type}

/-- A filled table holds the function it was filled with. -/
theorem Ram.read_build (d : Nat) (f : Nat → α) {i : Nat} (h : i < 2 ^ d) : Ram.read (Ram.build d f) i = f i := by
  induction d generalizing f i with
  | zero => simp_all [Ram.build, Ram.read]
  | succ d ih =>
    rw [pow_succ] at h
    have h2 : i / 2 < 2 ^ d := by omega
    rw [Ram.build, Ram.read]
    split_ifs with hi
    · rw [ih _ h2]
      congr 1
      omega
    · rw [ih _ h2]
      congr 1
      omega

theorem Ram.read_const (d : Nat) (v : α) (i : Nat) : Ram.read (Ram.const d v) i = v := by
  induction d generalizing i with
  | zero => rfl
  | succ d ih =>
    rw [Ram.const, Ram.read]
    split_ifs <;> exact ih _

theorem Ram.hasDepth_build (d : Nat) (f : Nat → α) : Ram.hasDepth (Ram.build d f) d = true := by
  induction d generalizing f with
  | zero => rfl
  | succ d ih => simp [Ram.build, Ram.hasDepth, ih]

theorem Ram.hasDepth_const (d : Nat) (v : α) : Ram.hasDepth (Ram.const d v) d = true := by
  induction d with
  | zero => rfl
  | succ d ih => simp [Ram.const, Ram.hasDepth, ih]

theorem Ram.hasDepth_write {t : Ram α} {d : Nat} (i : Nat) (v : α) (h : Ram.hasDepth t d = true) :
    Ram.hasDepth (Ram.write t i v) d = true := by
  induction t generalizing d i with
  | leaf w => exact h
  | node even odd ihe iho =>
    cases d with
    | zero => simp [Ram.hasDepth] at h
    | succ d =>
      simp only [Ram.hasDepth, Bool.and_eq_true] at h
      rw [Ram.write]
      split_ifs
      · simp [Ram.hasDepth, ihe _ h.1, h.2]
      · simp [Ram.hasDepth, iho _ h.2, h.1]

/-- Storing an entry makes it readable (in a tree of any shape). -/
theorem Ram.read_write_same (t : Ram α) (i : Nat) (v : α) : Ram.read (Ram.write t i v) i = v := by
  induction t generalizing i with
  | leaf w => rfl
  | node even odd ihe iho =>
    rw [Ram.write]
    split_ifs with h
    · rw [Ram.read, if_pos h, ihe]
    · rw [Ram.read, if_neg h, iho]

/-- Storing an entry leaves every other entry of the table. -/
theorem Ram.read_write_other {t : Ram α} {d i j : Nat} (v : α) (h : Ram.hasDepth t d = true) (hi : i < 2 ^ d)
    (hj : j < 2 ^ d) (hij : j ≠ i) : Ram.read (Ram.write t i v) j = Ram.read t j := by
  induction t generalizing d i j with
  | leaf w =>
    cases d with
    | zero =>
      simp only [pow_zero, Nat.lt_one_iff] at hi hj
      omega
    | succ d => simp [Ram.hasDepth] at h
  | node even odd ihe iho =>
    cases d with
    | zero => simp [Ram.hasDepth] at h
    | succ d =>
      simp only [Ram.hasDepth, Bool.and_eq_true] at h
      rw [pow_succ] at hi hj
      have hi2 : i / 2 < 2 ^ d := by omega
      have hj2 : j / 2 < 2 ^ d := by omega
      rw [Ram.write]
      split_ifs with hp
      · rw [Ram.read, Ram.read]
        split_ifs with hq
        · exact ihe h.1 hi2 hj2 (by omega)
        · rfl
      · rw [Ram.read, Ram.read]
        split_ifs with hq
        · rfl
        · exact iho h.2 hi2 hj2 (by omega)

/-- Two tables of one size with the same entries are the same table. -/
theorem Ram.ext_entries {s t : Ram α} {d : Nat} (hs : Ram.hasDepth s d = true) (ht : Ram.hasDepth t d = true)
    (h : ∀ i < 2 ^ d, Ram.read s i = Ram.read t i) : s = t := by
  induction d generalizing s t with
  | zero =>
    cases s <;> cases t <;> simp_all [Ram.hasDepth, Ram.read]
  | succ d ih =>
    cases s with
    | leaf v => simp [Ram.hasDepth] at hs
    | node e o =>
      cases t with
      | leaf v => simp [Ram.hasDepth] at ht
      | node e' o' =>
        simp only [Ram.hasDepth, Bool.and_eq_true] at hs ht
        have he : e = e' := ih hs.1 ht.1 fun i hi => by
          have := h (2 * i) (by rw [pow_succ]; omega)
          simpa [Ram.read] using this
        have ho : o = o' := ih hs.2 ht.2 fun i hi => by
          have := h (2 * i + 1) (by rw [pow_succ]; omega)
          rw [Ram.read, Ram.read, if_neg (by omega), if_neg (by omega)] at this
          simpa [show (2 * i + 1) / 2 = i by omega] using this
        rw [he, ho]

end Sys2Proof.Machine
end

