-- ==== Sys2Proof/Tests/Slice0.lean ====
section
/-! SUPPORT. Tests: the well-formedness smoke, command words written out from the opcode map, single steps against the
vectors of 95_test_vectors, and for every claim with hypotheses a witness that meets them together. -/

namespace Sys2Proof.Tests.Slice0

open Sys2Proof.Machine

/-! ### Well-formedness: one ill-formed access for each check (R20, R23); every command term is well formed (R113) -/

theorem test_wf_refuses_width_16 : (HostOp.read 0x010 16).wf = false := by decide
theorem test_wf_refuses_misaligned_offset : (HostOp.write 0x012 0 32).wf = false := by decide
theorem test_wf_refuses_offset_beyond_window : (HostOp.read 0x200 32).wf = false := by decide
theorem test_wf_accepts_last_register_word : (HostOp.read 0x1FC 32).wf = true := by decide
theorem test_wf_accepts_every_flag_combination :
    ∀ l a b : Bool, (Instr.lutBuild l a b).wf = true ∧ (Instr.bayerDecode l).wf = true := by decide

/-! ### Command words, bit by bit from R110 and R112: RSV 31:7, F2, F1, F0, OP -/

theorem test_decode_nop : decode 0b0000000000000000000000000_0_0_0_0000#32 = .command .nop := by decide
theorem test_decode_lutBuild :
    decode 0b0000000000000000000000000_1_0_1_0001#32 = .command (.lutBuild true false true) := by decide
theorem test_decode_bayerDecode : decode 0b0000000000000000000000000_0_0_1_0010#32 = .command (.bayerDecode true) := by
  decide
theorem test_decode_demosaic : decode 0b0000000000000000000000000_0_0_0_0011#32 = .command .demosaic := by decide
theorem test_decode_yuvConvert : decode 0b0000000000000000000000000_0_0_0_0100#32 = .command .yuvConvert := by decide

/-- The illegal words of vectors H6 and H7. -/
theorem test_decode_illegal_words :
    ([0x00000010, 0x80000000, 0x00000005, 0x00000013, 0x00000081].all fun w => (decode w).command? == none) = true := by
  decide

/-- R126. -/
theorem test_text_of_commands :
    (Instr.lutBuild true false true).text = "LUT_BUILD lvl,g16" ∧ (Instr.lutBuild false false false).text = "LUT_BUILD" ∧
      (Instr.bayerDecode true).text = "BAYER_DECODE build" := by decide

/-- R127. -/
theorem test_pseudo_expansions :
    Pseudo.expand .bayerRender = [.write 0x00C 0x12 32] ∧ Pseudo.expand .lutBuildAll = [.write 0x00C 0x71 32] ∧
      Pseudo.expand .clr = [.write 0x010 0x1E 32] ∧ Pseudo.expand .cancel = [.write 0x008 0x1 32] ∧
      Pseudo.expand .srst = [.write 0x008 0x2 32] := by decide

/-! ### Small states and what is asked of an answer -/

/-- A block with 64-byte spaces, DST all 0, two workers and the frame of width w and height h at DST address 0, BGRA32, RGGB; P0 and
the chroma planes BYTE8 from SRC address 0 on. -/
def block (w h srcSize : Nat) (bytes : List Byte) : State :=
  { State.reset with
    params := ⟨64, 64, 2, 0, []⟩
    src := (bytes.zipIdx.map fun p => (p.2, p.1)).filter fun c => c.2 != Memory.blank
    dst := []
    regs :=
      { CfgRegs.reset with
        srcSize := BitVec.ofNat 32 srcSize
        dstStride := BitVec.ofNat 32 (4 * w)
        dim := BitVec.ofNat 32 (65536 * h + w)
        p0 := ⟨0, 1, BitVec.ofNat 32 w, 8⟩
        p1 := ⟨1, 1, BitVec.ofNat 32 w, 8⟩
        p2 := ⟨2, 1, BitVec.ofNat 32 w, 8⟩ } }

/-- The answer is a next state of which `f` holds. -/
def nextIs (r : Result) (f : State → Bool) : Bool :=
  match r with
  | .next t => f t
  | .fault _ => false
  | .refused _ => false

/-- Bytes a to a+n-1 of DST. -/
def dstBytesAt (s : State) (a n : Nat) : List Byte := (List.range n).map fun k => Memory.read s.dst (a + k)

/-! ### Single steps against the vectors of 95_test_vectors -/

/-- H1. -/
theorem test_nop_from_reset :
    nextIs (exec .nop State.reset) (fun t => t.status == 0x2 && t.cmd == 0 && t.progress == 0 && !t.irq) = true := by
  decide

/-- H6. -/
theorem test_illegal_word_from_reset :
    nextIs (issueWord 0x10 State.reset) (fun t => t.status == 0x104 && t.cmd == 0x10) = true := by decide

/-- H9, H10: OVERRUN outlives the accept. -/
theorem test_nop_keeps_overrun : nextIs (exec .nop State.reset.setOverrun) (fun t => t.status == 0x12) = true := by decide

/-- T12: LUT_BUILD g8 with GAIN_R 2.0; T13: G8R[100] is 200. -/
theorem test_lutBuild_g8 :
    nextIs (exec (.lutBuild false true false)
        { State.reset with regs := { CfgRegs.reset with gain := ⟨0x20000, 0x10000, 0x10000⟩ } })
      (fun t => t.status == 0x2 && t.lutValid.word == 0x2 && t.progress == 1 &&
        Ram.read t.luts.g8.r 100 == some 0xC8 && Ram.read t.luts.g8.g 100 == some 100) = true := by
  decide +kernel

/-- T18: LUT_BUILD lvl at 10 bits, LEVEL 64..1023: entry 500, stored by one engine step, is 465; the last entry ends the
table. -/
theorem test_lutFill_lvl :
    let s (n : Nat) : State :=
      { State.reset with
        busy := true
        pos := .lutFill .lvl [] n
        cfg := { CfgRegs.reset with p0 := ⟨0, 0, 0, 0x12A⟩, level := 0x03FF0040 } }
    nextIs (engineStep (s 500)) (fun t => t.pos == .lutFill .lvl [] 501 && Ram.read t.luts.lvl 500 == some 465) = true ∧
      nextIs (engineStep (s 65535)) (fun t => t.pos == .lutMark .lvl [] && Ram.read t.luts.lvl 65535 == some 1023) =
        true := by
  decide +kernel

/-- V25: LUT_BUILD with no flag builds nothing. -/
theorem test_lutBuild_nothing :
    nextIs (exec (.lutBuild false false false) State.reset) (fun t => t.status == 0x2 && t.lutValid.word == 0) = true := by
  decide

/-- B7. -/
theorem test_bayerDecode_one_pixel :
    nextIs (exec (.bayerDecode true) (block 1 1 1 [0x40]))
      (fun t => t.status == 0x2 && dstBytesAt t 0 4 == [0x00, 0x00, 0x40, 0xFF] &&
        t.stats.unweighted.r == ⟨0x4000, 1⟩ && t.stats.centre.r == ⟨0x8000, 2⟩) = true := by
  decide +kernel

/-- B8: no source byte is available. -/
theorem test_bayerDecode_truncated :
    nextIs (exec (.bayerDecode true) (block 1 1 0 [0x40]))
      (fun t => t.status == 0x22 && t.progress == 1 && t.stats == Stats.zero && dstBytesAt t 0 4 == [0, 0, 0, 0]) =
      true := by
  decide +kernel

/-- V22: BAYER_DECODE without valid tables. -/
theorem test_bayerDecode_needs_tables :
    nextIs (exec (.bayerDecode false) (block 1 1 1 [0x40])) (fun t => t.status == 0xB04) = true := by decide +kernel

/-- DM1. -/
theorem test_demosaic_one_pixel :
    nextIs (exec .demosaic { block 1 1 0 [] with dst := [(0, 0x11), (1, 0x22), (2, 0x33), (3, 0x7F)] })
      (fun t => t.status == 0x2 && dstBytesAt t 0 4 == [0x00, 0x00, 0x33, 0xFF]) = true := by
  decide +kernel

/-- DM2. -/
theorem test_demosaic_one_row :
    nextIs (exec .demosaic { block 4 1 0 [] with dst := [(2, 5), (5, 9), (10, 5), (13, 9)] })
      (fun t => (List.range 4).all fun x => dstBytesAt t (4 * x) 4 == [0x00, 0x09, 0x05, 0xFF]) = true := by
  decide +kernel

/-- Y1. -/
theorem test_yuvConvert_white :
    nextIs (exec .yuvConvert (block 1 1 3 [235, 128, 128]))
      (fun t => t.status == 0x2 && dstBytesAt t 0 4 == [0xFE, 0xFE, 0xFE, 0xFF]) = true := by
  decide +kernel

/-- Y4. -/
theorem test_yuvConvert_red :
    nextIs (exec .yuvConvert (block 1 1 3 [81, 90, 240]))
      (fun t => dstBytesAt t 0 4 == [0x00, 0x00, 0xFE, 0xFF]) = true := by
  decide +kernel

/-- U2 to U4. -/
theorem test_word16_samples :
    sampleOf false 10 (wordOf false 0x34 0x12) = 0x234 ∧ sampleOf true 10 (wordOf false 0x34 0x12) = 0x048 ∧
      sampleOf false 10 (wordOf true 0x34 0x12) = 0x012 := by
  decide

/-- U14, U15. -/
theorem test_mipi14_samples :
    let rd (a : Nat) : Byte := [0xFF, 0x00, 0xAA, 0x55, 0x7F, 0xA0, 0x56].getD a 0
    (List.range 4).map (mipiSample rd false ⟨4, 7, 6⟩ 0) = [0x3FFF, 0x0001, 0x2AAA, 0x1555] ∧
      (List.range 4).map (mipiSample rd true ⟨4, 7, 6⟩ 0) = [0x3FDF, 0x003A, 0x2A81, 0x1556] := by
  decide

/-- T8: the unity band. -/
theorem test_gain_unity_band : gainFn 0 16 40000 65538 = 40001 ∧ gainFn 2 16 40000 65538 = 40000 := by decide

/-- T16: the port stores an entry and marks its group. -/
theorem test_port_write :
    (lutPortWrite 0x1234 { State.reset with lutAddr := 0x00040000 }).lutValid.word = 0x4 ∧
      Ram.read (lutPortWrite 0x1234 { State.reset with lutAddr := 0x00040000 }).luts.g16.r 0 = some 0x1234 := by
  decide +kernel

/-- T15: an unwritten entry. -/
theorem test_port_read_unwritten :
    (match lutPortRead { State.reset with lutAddr := 0x00040000 } with | .fault .uninitLut => true | _ => false) = true := by
  decide +kernel

/-- H16. -/
theorem test_unmapped_offset : Reg.ofOffset 0x01C = none := by decide

/-! ### Witnesses: for each claim with hypotheses, states and operands that meet them together -/

/-- A running command at its start: `block w h` with its snapshot taken. -/
def running (w h srcSize : Nat) (bytes : List Byte) (pos : Pos) : State :=
  { block w h srcSize bytes with busy := true, cfg := (block w h srcSize bytes).regs, pos := pos }

/-- Every pixel of a pattern-0 frame has a colour. -/
theorem color_ne_none_of_rggb {c : CfgRegs} (h : c.patternId = 0) (x y : Nat) : c.color x y ≠ none := by
  simp [CfgRegs.color, CfgRegs.label, h]

theorem witness_DecodeAndEncodeAgree :
    (Instr.lutBuild true true true).wf = true ∧ decode 0x71 = .command (.lutBuild true true true) := by decide

theorem witness_IllegalWordsAreExactlyTheReservedOnes :
    decode 0x80000002 = .illegal .reservedBit ∧ decode 0xF = .illegal .reservedOpcode ∧
      decode 0x10 = .illegal .flagMustBeZero ∧ State.reset.busy = false := by decide

theorem witness_StepRunsTheDecodedCommand :
    { State.reset with host := [⟨0, .write 0x00C 0x03 32⟩] }.host = ⟨0, .write 0x00C 0x03 32⟩ :: [] ∧
      decode 0x03 = .command .demosaic ∧ decode 0x13 = .illegal .flagMustBeZero := by decide

theorem witness_NopOnlyReportsDone :
    State.reset.busy = false ∧ BitVec.extractLsb' 0 4 (0x80000000 : Word) = 0 ∧ (0x80000000 : Word) ≠ 0 := by decide

theorem witness_CommandWhileBusyOnlySetsOverrun : (running 1 1 1 [0x40] (.checked none)).busy = true := by decide

theorem witness_FailedValidationChangesNothing :
    State.reset.busy = false ∧ State.reset.Undisturbed ∧
      verdictOf .demosaic (accept (encode .demosaic) State.reset) = some .cfgDim ∧
      (running 1 1 1 [] (.checked (some .cfgLut))).busy = true := by decide

/-- A fresh block, and a running one in its raw pass. -/
theorem witness_EveryCommandEnds :
    State.reset.busy = false ∧ State.reset.Undisturbed ∧ (running 1 1 1 [0x40] (.rawRow 0)).EngineReady ∧
      (running 1 1 1 [0x40] (.rawRow 0)).busy = true ∧ nextIs (hostAccess .wait State.reset) (fun t => !t.busy) = true := by
  refine ⟨rfl, by decide, ?_, rfl, by decide⟩
  intro _
  exact ⟨⟨⟨by decide, color_ne_none_of_rggb (by decide), by decide⟩, .inr (by intro p hp; cases hp)⟩,
    fun l hl => (nomatch hl)⟩

/-- Idle, with the bytes before and after the frame; and busy with a source byte another agent wrote. -/
theorem witness_CommandsLeaveTheHostSideAlone :
    (∃ t, State.reset.busy = false ∧ exec .nop State.reset = .next t) ∧
      (block 1 1 1 [9]).regs.mayWrite .demosaic 4 = false ∧ (block 1 1 1 [9]).regs.mayWrite .demosaic 3 = true ∧
      let s : State := { running 1 1 1 [9] (.yuvRow 1) with srcForeign := [0] }
      s.busy = true ∧ 1 ∉ s.srcForeign ∧ ∃ t, exec .nop s = .next t :=
  ⟨⟨_, rfl, rfl⟩, by decide, by decide, rfl, by decide, ⟨_, rfl⟩⟩

theorem witness_TablesAndStatsChangeOnlyWhereStated :
    (∃ t, engineStep (running 1 1 1 [0x40] (.checked none)) = .next t) ∧
      (∃ t, State.reset.busy = false ∧ exec .nop State.reset = .next t) ∧
      ∀ g rest n, State.reset.pos ≠ .lutFill g rest n :=
  ⟨⟨_, rfl⟩, ⟨_, rfl, rfl⟩, by intro g rest n h; cases h⟩

theorem witness_FirstFailingCheckIsReported :
    verdictOf (.lutBuild true true true) (accept 0x71 State.reset) = some .cfgBits ∧
      checksOf .demosaic (accept 3 State.reset) =
        [] ++ (.cfgDim, true) :: (checksOf .demosaic (accept 3 State.reset)).tail := by decide

theorem witness_ChecksFailExactlyWhenStated : (accept 0x12 State.reset).cfg = CfgRegs.reset := rfl

theorem witness_ValidationSeesSnapshotAndLutValidOnly :
    State.reset.params = { State.reset with src := [(0, 1)] }.params ∧
      State.reset.cfg = { State.reset with src := [(0, 1)] }.cfg ∧
      State.reset.lutValid = { State.reset with src := [(0, 1)] }.lutValid := by decide

theorem reset_luts_sized : Luts.unwritten.sized := by
  refine ⟨Ram.hasDepth_const 16 none, ?_, ?_⟩ <;> intro c <;> cases c
  · exact Ram.hasDepth_const 8 none
  · exact Ram.hasDepth_const 8 none
  · exact Ram.hasDepth_const 8 none
  · exact Ram.hasDepth_const 16 none
  · exact Ram.hasDepth_const 16 none
  · exact Ram.hasDepth_const 16 none

/-- The least and the greatest depth of LVL, and no group at all. -/
theorem witness_LutBuildFillsTheSelectedTables :
    State.reset.busy = false ∧ State.reset.Undisturbed ∧ State.reset.luts.sized ∧
      Valid (.lutBuild false false false) State.reset ∧
      Valid (.lutBuild true true true) { State.reset with regs := { CfgRegs.reset with p0 := ⟨0, 0, 0, 9⟩ } } ∧
      Valid (.lutBuild true true true) { State.reset with regs := { CfgRegs.reset with p0 := ⟨0, 0, 0, 16⟩ } } :=
  ⟨rfl, by decide, reset_luts_sized, by decide, by decide, by decide⟩

/-- The LUT pass of a BAYER_DECODE build, cancelled before its group; each position of the pass takes a step. -/
theorem witness_CancelledLutPassLeavesWholeGroups :
    (let s := { running 1 1 1 [] (.lutOpen [.g8]) with todo := [.raw] }
    ∃ s₁ t, [Group.g8].Nodup ∧ LutPassStart [.g8] s ∧ runEngine 0 s = .next s₁ ∧
      runEngine 1 (writeCtrl 1 s₁) = .next t ∧ t.busy = false) ∧
    ∀ p ∈ [Pos.lutOpen [.g8], .lutClear .g8 [], .lutFill .g8 [] 767, .lutMark .g8 []],
      ∃ t, engineStep (running 1 1 1 [] p) = .next t := by
  refine ⟨⟨_, _, by decide, ⟨rfl, rfl, rfl, rfl, fun gs h => (nomatch List.mem_singleton.1 h), rfl, ⟨rfl, rfl⟩,
    ⟨rfl, rfl, rfl⟩, reset_luts_sized⟩, rfl, rfl, rfl⟩, ?_⟩
  intro p hp
  fin_cases hp <;> exact ⟨_, rfl⟩

/-- Levels off, and levels 0 and 1 at depth 8: the closest legal pair. -/
theorem witness_LevelFunctionProperties :
    CfgRegs.reset.badLevel 8 = false ∧ CfgRegs.reset.lvlEn = false ∧
      { CfgRegs.reset with p0 := ⟨0, 0, 0, 0x108⟩, level := 0x00010000 }.badLevel 8 = false ∧
      { CfgRegs.reset with p0 := ⟨0, 0, 0, 0x108⟩, level := 0x00010000 }.lvlEn = true := by decide

/-- The saturation clause at its least input for gain 2.0, and at gain 1.0 with no band. -/
theorem witness_GainFunctionProperties :
    ((2 ^ 8 - 1) * 65536 + 131072 - 1) / 131072 ≤ 128 ∧ 128 ≤ 2 ^ 8 - 1 ∧ 0 < 131072 - 65536 ∧
      ((2 ^ 8 - 1) * 65536 + 65536 - 1) / 65536 ≤ 2 ^ 8 - 1 := by decide

/-- The state right after reset with every table whole from the snapshot `c`. -/
def whole (c : CfgRegs) : State :=
  { State.reset with
    luts := ⟨fillLvl c, ⟨fillG8 c 0 .r, fillG8 c 0 .g, fillG8 c 0 .b⟩, ⟨fillG16 c 0 .r, fillG16 c 0 .g, fillG16 c 0 .b⟩⟩
    lutValid := ⟨true, true, true⟩ }

theorem whole_built (c : CfgRegs) : TablesBuilt c 0 [.lvl, .g8, .g16] State.reset (whole c) where
  lvl _ i hi := by rw [whole, fillLvl, Ram.read_build _ _ (by omega)]
  g8 _ ch i hi := by cases ch <;> simp only [whole, PerChan.get, fillG8] <;> rw [Ram.read_build _ _ (by omega)]
  g16 _ ch i hi := by cases ch <;> simp only [whole, PerChan.get, fillG16] <;> rw [Ram.read_build _ _ (by omega)]
  lvlKept h := absurd (by decide) h
  g8Kept h := absurd (by decide) h
  g16Kept h := absurd (by decide) h
  valid g := by cases g <;> rfl

/-- The greatest depth and its greatest raw code, with all groups built. -/
theorem witness_DefaultTablesAreIdentities :
    let c := { CfgRegs.reset with p0 := ⟨0, 0, 0, 16⟩ }
    c.lvlEn = false ∧ (∀ k, c.gain.get k = 0x00010000) ∧ TablesBuilt c 0 [.lvl, .g8, .g16] State.reset (whole c) ∧
      9 ≤ c.p0.bits ∧ c.p0.bits ≤ 16 ∧ 65535 < 2 ^ c.p0.bits :=
  ⟨by decide, by intro k; cases k <;> rfl, whole_built _, by decide, by decide, by decide⟩

/-- The depths 9 and 16 with their greatest samples, little-endian, from a source that holds them at address 0. -/
theorem witness_ContainersAreFetchedAndRoundTrip :
    let rd (v a : Nat) : Byte := byteOf v a
    (9 ≤ 9 ∧ 0x1FF < 2 ^ 9 ∧ rd 0x1FF 0 = byteOf 0x1FF (if CfgRegs.reset.bigEndian then 1 else 0) ∧
        rd 0x1FF 1 = byteOf 0x1FF (if CfgRegs.reset.bigEndian then 0 else 1)) ∧
      (16 ≤ 16 ∧ 0xFFFF < 2 ^ 16 ∧ rd 0xFFFF 0 = byteOf 0xFFFF (if CfgRegs.reset.bigEndian then 1 else 0) ∧
        rd 0xFFFF 1 = byteOf 0xFFFF (if CfgRegs.reset.bigEndian then 0 else 1)) ∧
      CfgRegs.reset.sampleAddr PlaneRegs.reset 0 0 0 = 0 ∧ CfgRegs.reset.sampleAddr PlaneRegs.reset 0 0 1 = 1 ∧
      PlaneRegs.reset.msbAlign = false := by decide

theorem witness_MipiGroupRoundTrip :
    ∃ g, mipiGeom 14 = some g ∧ (∀ j < g.samples, (fun _ => 2 ^ 14 - 1) j < 2 ^ 14) ∧
      ∀ i < g.bytes, (fun a => packedByte false g (fun _ => 2 ^ 14 - 1) (a - 0)) (0 + i) =
        packedByte CfgRegs.reset.bigEndian g (fun _ => 2 ^ 14 - 1) i :=
  ⟨⟨4, 7, 6⟩, by decide, by decide, by decide⟩

/-- The greatest channel values of both formats. -/
theorem witness_PixelWriteStoresBgraAndReadsBack :
    Memory.wf (block 1 1 1 []).dst = true ∧ (block 1 1 1 []).cfg.bgra64 = false ∧ (block 1 1 1 []).dstForeign = [] ∧
      (∀ k, PerChan.get ⟨255, 255, 255⟩ k < 2 ^ (block 1 1 1 []).cfg.depth) ∧
      { CfgRegs.zero with renderCfg := 2 }.bgra64 = true ∧
      ∀ k, PerChan.get ⟨65535, 65535, 65535⟩ k < 2 ^ { CfgRegs.zero with renderCfg := 2 }.depth := by
  refine ⟨by decide, by decide, rfl, ?_, by decide, ?_⟩ <;> intro k <;> cases k <;> decide

theorem witness_MatrixRoundsHalfUpAndSaturates :
    (⟨65535, 0x8000, 0x8000⟩ : Yuv).y < 65536 ∧ (⟨65535, 0x8000, 0x8000⟩ : Yuv).u < 65536 ∧
      (⟨65535, 0x8000, 0x8000⟩ : Yuv).v < 65536 ∧ CfgRegs.reset.csc = CfgRegs.reset.csc ∧
      (⟨65535, 0x8000, 0x8000⟩ : Yuv).u = field CfgRegs.reset.cscCoff 0 16 ∧
      (⟨65535, 0x8000, 0x8000⟩ : Yuv).v = field CfgRegs.reset.cscCoff 0 16 := by decide

/-- Where the platform maps no byte into both spaces, every command keeps them apart. -/
theorem apart_of_unshared {c : CfgRegs} {p : Params} (i : Instr) (h : p.shared = []) : c.apart p i := by
  intro a d had
  simp [aliasOf, h] at had

/-- A whole frame, one that is cut short, and one on a platform that maps bytes into both spaces, but none the command
both reads and writes. -/
theorem witness_YuvConvertWritesTheDecodablePixels :
    (block 1 1 3 [235, 128, 128]).busy = false ∧ (block 1 1 3 [235, 128, 128]).Undisturbed ∧
      Memory.wf (block 1 1 3 [235, 128, 128]).dst = true ∧ Valid .yuvConvert (block 1 1 3 [235, 128, 128]) ∧
      Valid .yuvConvert (block 1 1 2 [235, 128, 128]) ∧ Apart .yuvConvert (block 1 1 3 [235, 128, 128]) ∧
      Apart .yuvConvert { block 1 1 3 [235, 128, 128] with params := ⟨64, 64, 2, 0, [⟨2, 8, 4⟩]⟩ } ∧
      (block 1 1 3 [235, 128, 128]).regs.yuvContainers = some (.byte8, .byte8, .byte8) := by
  refine ⟨rfl, by decide, by decide, by decide, by decide, apart_of_unshared _ rfl, ?_, by decide⟩
  intro a d h _
  simp only [aliasOf, List.find?_cons, List.find?_nil] at h
  split at h
  · rename_i ho
    simp only [Option.map_some, Option.some.injEq] at h
    have ha : 2 ≤ a := (of_decide_eq_true ho).1
    have hf : (block 1 1 3 [235, 128, 128]).regs.inFrame d = true → d < 4 := by
      intro hf
      simp only [CfgRegs.inFrame, decide_eq_true_eq] at hf
      have e1 : (block 1 1 3 [235, 128, 128]).regs.dstBase.toNat = 0 := by decide
      have e2 : (block 1 1 3 [235, 128, 128]).regs.dstStride.toNat = 4 := by decide
      have e3 : (block 1 1 3 [235, 128, 128]).regs.height = 1 := by decide
      rw [e1, e2, e3] at hf
      omega
    cases hm : CfgRegs.mayWrite _ Instr.yuvConvert d with
    | false => rfl
    | true => have := hf hm; omega
  · simp at h

/-- Without and with the demosaic pass. -/
theorem witness_BayerDecodeBuildDecodesTheFrame :
    (block 2 2 4 [1, 2, 3, 4]).busy = false ∧ (block 2 2 4 [1, 2, 3, 4]).Undisturbed ∧
      Memory.wf (block 2 2 4 [1, 2, 3, 4]).dst = true ∧ Valid (.bayerDecode true) (block 2 2 4 [1, 2, 3, 4]) ∧
      (block 2 2 4 [1, 2, 3, 4]).luts.sized ∧ Apart (.bayerDecode true) (block 2 2 4 [1, 2, 3, 4]) ∧
      Valid (.bayerDecode true)
        { block 2 2 4 [1, 2, 3, 4] with regs := { (block 2 2 4 [1, 2, 3, 4]).regs with renderCfg := 4 } } :=
  ⟨rfl, by decide, by decide, by decide, reset_luts_sized, apart_of_unshared _ rfl, by decide⟩

/-- `block 1 1 1` with the table group G8 written through the port at the index of its one pixel, or at no index. -/
def tabled (written : Bool) : State :=
  { block 1 1 1 [0x40] with
    lutValid := ⟨false, true, false⟩
    luts := if written then Luts.unwritten.portStore 0x00010040 0x80 else Luts.unwritten }

theorem tabled_color_zero : (tabled true).regs.color 0 0 = some .r := by decide

theorem witness_BayerDecodeUsesTheTablesAsTheyStand :
    (tabled true).busy = false ∧ (tabled true).Undisturbed ∧ Memory.wf (tabled true).dst = true ∧
      Valid (.bayerDecode false) (tabled true) ∧ Apart (.bayerDecode false) (tabled true) ∧
      (tabled true).regs.p0.container = some .byte8 ∧
      ∀ x y, (tabled true).regs.writes ((tabled true).regs.decodable (tabled true).regs.p0 .byte8) x y →
        (tabled true).storedAt .byte8 x y ≠ none := by
  refine ⟨rfl, by decide, by decide, by decide, apart_of_unshared _ rfl, by decide, ?_⟩
  intro x y h
  have hw : (tabled true).regs.width = 1 := by decide
  have hh : (tabled true).regs.height = 1 := by decide
  obtain ⟨⟨hx, hy⟩, -, -⟩ := h
  obtain ⟨rfl, rfl⟩ : x = 0 ∧ y = 0 := by omega
  decide +kernel

theorem witness_UnwrittenEntryStopsTheModel :
    (tabled false).busy = false ∧ (tabled false).Undisturbed ∧ Valid (.bayerDecode false) (tabled false) ∧
      Apart (.bayerDecode false) (tabled false) ∧ Memory.wf (tabled false).dst = true ∧
      (tabled false).regs.p0.container = some .byte8 ∧
      (tabled false).regs.writes ((tabled false).regs.decodable (tabled false).regs.p0 .byte8) 0 0 ∧
      (tabled false).storedAt .byte8 0 0 = none ∧ (tabled false).luts.portEntry (tabled false).lutAddr = none := by
  refine ⟨rfl, by decide, by decide, apart_of_unshared _ rfl, by decide, by decide, ⟨by decide, by decide, ?_⟩,
    by decide +kernel, by decide +kernel⟩
  intro y hy
  exact absurd hy (Nat.not_lt_zero y)

/-- The next pixel of a row, and the first of the next row. -/
theorem witness_DecodedPixelsAreAPrefixOfTheScan :
    let c := (block 2 2 1 []).regs
    c.p0.container = some .byte8 ∧ c.p0.badStride c.width = false ∧ c.hasPixel 1 0 ∧ c.hasPixel 1 1 ∧ c.hasPixel 0 1 ∧
      c.decodable c.p0 .byte8 1 0 = false := by decide

/-- A raw pass with a demosaic pass to come, at its first cancel point after a request; one that is the last; and a YUV
pass. -/
theorem witness_CancelledRowPassesLeaveWholeRows :
    (let s := { running 1 2 0 [] .rawClear with todo := [.demosaic] }
      ∃ s₁ u, RawPassStart .byte8 s ∧ runEngine 0 s = .next s₁ ∧ runEngine 1 (writeCtrl 1 s₁) = .next u ∧
        u.busy = true ∧ u.pos = .rawRow 0 ∧ 0 < s.cfg.height) ∧
      (let s := running 1 2 0 [] .rawClear
      ∃ s₁ t, RawPassStart .byte8 s ∧ s.todo = [] ∧ runEngine 1 s = .next s₁ ∧ runEngine 1 (writeCtrl 1 s₁) = .next t ∧
        t.busy = false ∧ t.cancelled = true) ∧
      (let s := running 1 2 0 [] (.yuvRow 0)
      ∃ s₁ t, YuvPassStart (.byte8, .byte8, .byte8) s ∧ runEngine 0 s = .next s₁ ∧
        runEngine 1 (writeCtrl 1 s₁) = .next t ∧ t.busy = false ∧ t.cancelled = true) := by
  have start : RawPassStart .byte8 (running 1 2 0 [] .rawClear) :=
    ⟨rfl, rfl, rfl, by decide, rfl, rfl, ⟨rfl, rfl⟩, ⟨rfl, rfl, rfl⟩, by decide, by decide,
      color_ne_none_of_rggb (by decide), by decide, by decide, by decide, by decide, apart_of_unshared _ rfl⟩
  refine ⟨⟨_, _, ⟨start.busy, start.cancelled, start.pos, by decide, start.progress, start.trunc, ⟨rfl, rfl⟩,
    ⟨rfl, rfl, rfl⟩, start.dstWf, start.container, start.colors, start.spaces, start.dim, start.stride, start.dstStride,
    start.apart⟩, rfl, rfl, rfl, rfl, by decide⟩,
    ⟨_, _, start, rfl, rfl, rfl, rfl, rfl⟩,
    ⟨_, _, ⟨rfl, rfl, rfl, rfl, rfl, rfl, rfl, ⟨rfl, rfl⟩, ⟨rfl, rfl, rfl⟩, by decide, by decide, by decide, by decide,
      ?_, by decide, apart_of_unshared _ rfl⟩, rfl, rfl, rfl, rfl⟩⟩
  intro n; cases n <;> decide

theorem witness_PatternTilesAreTheTable :
    CfgRegs.reset.patternId = 0 ∧ { CfgRegs.reset with renderCfg := 0x70 }.patternId = 7 ∧
      { CfgRegs.reset with renderCfg := 0x80 }.patternId = 8 ∧ { CfgRegs.reset with renderCfg := 0x90 }.patternId = 9 ∧
      { CfgRegs.reset with renderCfg := 0xA0 }.patternId = 10 ∧ CfgRegs.reset.tileSize = 2 ∧
      { CfgRegs.reset with renderCfg := 0x70 }.tileSize = 4 := by decide

/-- Frames of width 2 and of width 3. -/
theorem witness_CentreRegionIsSymmetric :
    (block 2 1 1 []).regs.width ≤ 2 ∧ (block 2 1 1 []).regs.hasPixel 1 0 ∧ (block 3 1 1 []).regs.width = 3 * 1 := by decide

theorem witness_DemosaicWritesTheFrame :
    (block 2 2 0 []).busy = false ∧ (block 2 2 0 []).Undisturbed ∧ Memory.wf (block 2 2 0 []).dst = true ∧
      Valid .demosaic (block 2 2 0 []) := by decide

theorem witness_DemosaicResultIsScheduleFree :
    (block 1 3 0 []).busy = false ∧ (block 1 3 0 []).Undisturbed ∧ Memory.wf (block 1 3 0 []).dst = true ∧
      Valid .demosaic (block 1 3 0 []) := by decide

/-- `block 1 1 1` with DEMOSAIC_EN = 1. -/
def demosaicking : State :=
  { block 1 1 1 [0x40] with regs := { (block 1 1 1 [0x40]).regs with renderCfg := 4 } }

theorem witness_DemosaicAfterDecodeEqualsOneCommand :
    demosaicking.busy = false ∧ demosaicking.Undisturbed ∧ Memory.wf demosaicking.dst = true ∧
      Valid (.bayerDecode true) demosaicking ∧ Apart (.bayerDecode true) demosaicking ∧
      demosaicking.regs.demosaicEn = true ∧
      nextIs (exec (.bayerDecode true) demosaicking) (fun t => t.done) = true := by
  refine ⟨rfl, by decide, by decide, by decide, apart_of_unshared _ rfl, by decide, by decide +kernel⟩

/-- An interior pixel of each kind of a 4x4 frame, and the corner of a 2x2 one. -/
theorem witness_RggbNeighbourCounts :
    (block 4 4 0 []).regs.patternId = 0 ∧ (∀ x ∈ [1, 2], 1 ≤ x ∧ x + 2 ≤ (block 4 4 0 []).regs.width) ∧
      (∀ y ∈ [1, 2], 1 ≤ y ∧ y + 2 ≤ (block 4 4 0 []).regs.height) ∧ (block 2 2 0 []).regs.patternId = 0 ∧
      2 ≤ (block 2 2 0 []).regs.width ∧ 2 ≤ (block 2 2 0 []).regs.height := by decide

/-- A frame of the 4x4 pattern RGGB_4x4. -/
def quad (w h : Nat) : CfgRegs := { (block w h 0 []).regs with renderCfg := 0x40 }

/-- A pixel with neighbours; a one-pixel frame of a 2x2 and of a 4x4 pattern, which has none; and the 3x3 frame of a 4x4
pattern, whose corner finds blue only in the 5x5 neighbourhood. -/
theorem witness_AveragingRule :
    let near (c : CfgRegs) (r x y : Nat) (k : Chan) :=
      (neighbours c.width c.height r x y).filter fun p => c.color p.1 p.2 == some k
    near (block 2 2 0 []).regs 1 0 0 .g ≠ [] ∧
      (near (block 1 1 0 []).regs 1 0 0 .g = [] ∧ (block 1 1 0 []).regs.tileSize = 2) ∧
      (near (quad 3 3) 1 0 0 .b = [] ∧ (quad 3 3).tileSize = 4 ∧ near (quad 3 3) 2 0 0 .b ≠ []) ∧
      near (quad 1 1) 1 0 0 .b = [] ∧ (quad 1 1).tileSize = 4 ∧ near (quad 1 1) 2 0 0 .b = [] := by decide

/-- The constant frame of the least size the rule resolves everywhere, and a frame with an unresolved channel. -/
theorem witness_UniformFrameStaysUniform :
    (∀ x y own, (block 2 2 0 []).regs.hasPixel x y → (block 2 2 0 []).regs.color x y = some own →
        (fun _ _ _ => 7 : Nat → Nat → Chan → Nat) x y own = (fun _ => 7) own) ∧
      (block 2 2 0 []).regs.hasPixel 0 0 ∧ (block 2 2 0 []).regs.color 0 0 = some .r ∧
      (block 2 2 0 []).regs.patternId ≤ 3 ∧ 2 ≤ (block 2 2 0 []).regs.width ∧ 2 ≤ (block 2 2 0 []).regs.height ∧
      (block 2 2 0 []).regs.mean (fun _ _ _ => 7) (neighbours 2 2 1 0 0) .g = some 7 ∧
      (block 1 1 0 []).regs.color 0 0 = some .r ∧ Chan.g ≠ Chan.r ∧
      (block 1 1 0 []).regs.mean (fun _ _ _ => 7) (neighbours 1 1 1 0 0) .g = none ∧
      (block 1 1 0 []).regs.tileSize ≠ 4 := by
  refine ⟨fun _ _ _ _ _ => rfl, ?_⟩
  decide

theorem witness_CancelledDemosaicWritesRowPrefixes :
    ∃ s₁ t, DemosaicPassStart (running 1 1 0 [] (.demosaic [] [0] false)) ∧
      runEngine 1 (running 1 1 0 [] (.demosaic [] [0] false)) = .next s₁ ∧ runEngine 2 (writeCtrl 1 s₁) = .next t ∧
      t.busy = false ∧ t.cancelled = true :=
  ⟨_, _,
    ⟨rfl, rfl, rfl, rfl, rfl, rfl, ⟨rfl, rfl⟩, fun r hr => (nomatch hr), by decide, color_ne_none_of_rggb (by decide),
      by decide, by decide, by decide⟩,
    rfl, rfl, rfl, rfl⟩

theorem witness_WritesKeepReservedBitsZero : CfgReg.plane .p1 .cfg ≠ CfgReg.plane .p0 .cfg := by decide

theorem witness_RegisterMapAndUnmappedOffsets :
    0x1FC < 0x200 ∧ 0x1FC % 4 = 0 ∧ 0x1FC ∉ Reg.all.map Reg.offset ∧ Reg.ofOffset 0x188 = some .lutValid := by decide

theorem witness_StatsReadsWhileIdleAreExact :
    State.reset.busy = false ∧ (running 1 1 1 [] (.rawRow 0)).busy = true := by decide

theorem witness_CancelRequestsAndResetRequests :
    (3 : Word).getLsbD 1 = true ∧ (1 : Word).getLsbD 1 = false ∧ (1 : Word).getLsbD 0 = true ∧
      (running 1 1 1 [] (.rawRow 0)).busy = true ∧ State.reset.busy = false ∧ (0 : Word).getLsbD 0 = false := by decide

/-- A table code of each clause: 0, 1 and 3, 4 and 6, 7; and an index on either side of 256. -/
theorem witness_PortWriteStoresTheEntry :
    State.reset.busy = false ∧ State.reset.luts.sized ∧
      [0x00000000, 0x00010000, 0x00030000, 0x00040000, 0x00060000, 0x00070000].map
          (fun a => (BitVec.extractLsb' 16 3 (a : Word)).toNat) = [0, 1, 3, 4, 6, 7] ∧
      (BitVec.extractLsb' 0 16 (0x000100FF : Word)).toNat < 256 ∧
      256 ≤ (BitVec.extractLsb' 0 16 (0x00010100 : Word)).toNat := by
  exact ⟨rfl, reset_luts_sized, by decide, by decide, by decide⟩

/-- An unwritten entry of each kind of table, and a written one. -/
theorem witness_PortReadAnswersTheEntry :
    State.reset.busy = false ∧ Ram.read State.reset.luts.lvl 65535 = none ∧
      Ram.read (State.reset.luts.g8.get .b) 255 = none ∧ Ram.read (State.reset.luts.g16.get .b) 65535 = none ∧
      Ram.read ((Luts.unwritten.portStore 0x00010040 0x80).g8.get .r) 0x40 = some 0x80 := by
  refine ⟨rfl, Ram.read_const _ _ _, Ram.read_const _ _ _, Ram.read_const _ _ _, by decide +kernel⟩

theorem witness_PortWhileBusyOnlySetsOverrun : (running 1 1 1 [] (.lutOpen [.g8])).busy = true := by decide

/-- The last byte of each space and the first beyond, idle, on a platform that maps the last source byte into both; and a
byte of a running command's spaces. -/
theorem witness_HostReadsOfMemoryAnswerAValueHeld :
    (let s : State := { block 1 1 1 [9] with params := ⟨64, 64, 2, 0, [⟨63, 63, 1⟩]⟩ };
      s.busy = false ∧ s.MemoriesCanonical ∧ 63 < s.params.dstBytes ∧ 63 < s.params.srcBytes ∧ s.params.dstBytes ≤ 64 ∧
        s.params.srcBytes ≤ 64 ∧ aliasOf s.params 62 = none ∧ aliasOf s.params 63 = some 63) ∧
      let s := running 1 1 1 [9] (.rawRow 0);
      s.busy = true ∧ 63 < s.params.dstBytes ∧ 63 < s.params.srcBytes ∧ 63 ∉ s.racedBytes ∧ 63 ∉ s.racedSources ∧
        aliasOf s.params 63 = none ∧ s.overwritten = [] := by decide

/-- A YUV_CONVERT of one pixel, its Y and U bytes read (six engine steps), the V byte still to be read; then a write of
source byte `a` by another agent. -/
def yuvRaced (a : Nat) : State :=
  { block 1 1 3 [235, 128, 128] with host := [⟨0, commandWrite 4⟩, ⟨6, .srcWrite a 7⟩, ⟨0, .dstRead 0⟩] }

/-- R102: a byte read before another agent writes it has given a free value; the other byte read is exact. -/
theorem test_foreign_write_of_a_byte_already_read :
    ∃ t u, step (yuvRaced 0) = .next t ∧ t.pos = .yuvPix 0 0 false (.fetch [235, 128]) ∧ step t = .next u ∧
      u.pos = .yuvPix 0 0 false (.fetch [Config.racedSrc 1 1 0, 128]) ∧ u.ticks = 6 ∧ u.racedSources = [0] :=
  ⟨_, _, rfl, rfl, rfl, rfl, rfl, rfl⟩

/-- R102: a byte the command does not read is a plain store. -/
theorem test_foreign_write_of_a_byte_not_read :
    ∃ t u, step (yuvRaced 3) = .next t ∧ step t = .next u ∧ u.pos = .yuvPix 0 0 false (.fetch [235, 128]) ∧
      u.srcForeign = [] ∧ Memory.read u.src 3 = 7 :=
  ⟨_, _, rfl, rfl, rfl, rfl, rfl⟩

/-- R83, I4: on a platform that maps the source byte into the pixel, the command overlaps once it has written it, and its
four bytes are unspecified. -/
theorem test_overlapping_spaces :
    ∃ t, runEngine 9 ((accept 2 (tabled true)).launched none [.raw]) = .next t ∧ t.overlaps = false ∧
      let u : State := { t with params := ⟨64, 64, 2, 0, [⟨0, 2, 1⟩]⟩ }
      u.overlaps = true ∧ u.racedBytes = [3, 2, 1, 0] :=
  ⟨_, rfl, by decide +kernel, by decide +kernel, by decide +kernel⟩

theorem witness_ResetsGiveTheResetState : State.reset.busy = false ∧ (2 : Word).getLsbD 1 = true := by decide

/-- In a raw pass before a pixel write, and storing the entries of a table. -/
theorem witness_ResetsTearOnlyTheWritesInFlight :
    (let s := running 1 1 1 [9] (.rawPix 0 0 false (.write 9));
      s.busy = true ∧ s.Unraced ∧ (∀ r ∈ s.srcRead, aliasOf s.params r.addr = none) ∧ Memory.wf s.dst = true ∧
        s.inFlight = [(0, 0), (1, 0), (2, 9), (3, 0xFF)]) ∧
      (2 : Word).getLsbD 1 = true ∧
      ∀ g : Group, let s : State := { (running 1 1 1 [9] .idle).launched none [] with pos := .lutFill g [] 300 };
        s.busy = true ∧ s.pos = .lutFill g [] 300 ∧ ∃ l, s.launch = some l :=
  ⟨⟨rfl, ⟨rfl, rfl⟩, fun r hr => (nomatch hr), by decide, by decide⟩, by decide, fun _ => ⟨rfl, rfl, _, rfl⟩⟩

/-- A reset block whose host issues a NOP meets every invariant and steps. -/
theorem witness_step_invariants :
    let s := State.reset.withFetchWord 32 0
    s.StorageOk ∧ s.IdleIsClean ∧ s.OneOutcome ∧ s.ReservedZero ∧ s.EngineReady ∧ s.ProgressTracked ∧
      nextIs (step s) (fun t => t.done) = true := by
  refine ⟨⟨⟨Memory.ofCells_wf _ _, Memory.ofCells_wf _ _⟩, reset_luts_sized, fun l hl => (nomatch hl)⟩, by decide, by decide,
    by decide, ?_, ⟨by decide, trivial, fun gs hg => (nomatch hg), fun l hl => (nomatch hl)⟩, by decide⟩
  intro h; cases h

/-- A LUT_BUILD of two groups that has finished the first: PROGRESS is 1; and a demosaic pass with one of its three rows
finished, one in progress and one waiting. -/
theorem witness_StepKeepsProgressTracked :
    State.ProgressTracked
        { (running 1 1 1 [] .idle).launched none [.lut [.lvl, .g8]] with
          todo := []
          progress := 1
          pos := .lutOpen [.g8] } ∧
      State.ProgressTracked { running 1 3 1 [] (.demosaic [⟨0, 0, .gate⟩] [2] false) with progress := 1 } := by
  refine ⟨⟨by decide, ⟨[.lvl], rfl, rfl, by decide⟩, fun gs hg => (nomatch hg), ?_⟩,
    ⟨by decide, rfl, fun gs hg => (nomatch hg), fun l hl => (nomatch hl)⟩⟩
  intro l hl
  obtain rfl := Option.some.inj hl
  refine ⟨⟨_, rfl⟩, ?_⟩
  intro gs hg
  simp only [List.mem_singleton, PassPlan.lut.injEq] at hg
  subst hg
  exact ⟨rfl, by decide⟩

end Sys2Proof.Tests.Slice0
end

section
/-! The register window (10_state): what a register access does, register by register, what the engine has to do with the
registers, and the obligations of this family. -/

namespace Sys2Proof.Machine

/-! ### The register map -/

theorem Chan.mem_all (c : Chan) : c ∈ Chan.all := by cases c <;> decide

theorem PlaneId.mem_all (n : PlaneId) : n ∈ PlaneId.all := by cases n <;> decide

theorem PlaneReg.mem_all (r : PlaneReg) : r ∈ PlaneReg.all := by cases r <;> decide

theorem CscCol.mem_all (c : CscCol) : c ∈ CscCol.all := by cases c <;> decide

theorem StatWord.mem_all (w : StatWord) : w ∈ StatWord.all := by cases w <;> decide

theorem CfgReg.mem_all (r : CfgReg) : r ∈ CfgReg.all := by
  cases r <;> simp [CfgReg.all, Chan.mem_all, PlaneId.mem_all, PlaneReg.mem_all, CscCol.mem_all]

theorem Reg.mem_all (r : Reg) : r ∈ Reg.all := by
  cases r <;> simp [Reg.all, CfgReg.mem_all, Chan.mem_all, StatWord.mem_all]

/-- No two registers share an offset (R21). -/
@[simp] theorem Reg.ofOffset_offset (r : Reg) : Reg.ofOffset r.offset = some r :=
  (by decide : ∀ r ∈ Reg.all, Reg.ofOffset r.offset = some r) r r.mem_all

theorem Reg.offset_of_ofOffset {off : Nat} {r : Reg} (h : Reg.ofOffset off = some r) : r.offset = off := by
  simpa using List.find?_some h

theorem Reg.ofOffset_eq_none {off : Nat} (h : off ∉ Reg.all.map Reg.offset) : Reg.ofOffset off = none := by
  refine List.find?_eq_none.2 fun r hr hoff => h (List.mem_map.2 ⟨r, hr, ?_⟩)
  simpa using hoff

/-- Every register is an aligned word of the window (R20, R23). -/
@[simp] theorem Reg.accessRefusal_offset (r : Reg) : accessRefusal r.offset 32 = none :=
  (by decide : ∀ r ∈ Reg.all, accessRefusal r.offset 32 = none) r r.mem_all

/-! ### Register accesses by register -/

theorem hostAccess_write_offset (r : Reg) (v : Word) (s : State) :
    hostAccess (.write r.offset v 32) s = writeReg r v s := by
  simp [hostAccess, hostWrite]

theorem hostAccess_read_offset (r : Reg) (s : State) :
    hostAccess (.read r.offset 32) s = thenSettle (readReg r s) := by
  simp [hostAccess, hostRead]

/-- An aligned offset of the window that no register occupies ignores writes (R21). -/
theorem hostAccess_write_unmapped {off : Nat} (hr : accessRefusal off 32 = none) (hu : Reg.ofOffset off = none)
    (v : Word) (s : State) : hostAccess (.write off v 32) s = settle s := by
  simp [hostAccess, hostWrite, hr, hu]

/-- An aligned offset of the window that no register occupies reads 0 (R21). -/
theorem hostAccess_read_unmapped {off : Nat} (hr : accessRefusal off 32 = none) (hu : Reg.ofOffset off = none)
    (s : State) : hostAccess (.read off 32) s = settle (s.answer 0) := by
  simp [hostAccess, hostRead, hr, hu]

/-! ### What a configuration register holds after a write -/

theorem PerChan.get_set {α : Type} (p : PerChan α) (c c' : Chan) (v : α) :
    (p.set c v).get c' = if c' = c then v else p.get c' := by
  cases c <;> cases c' <;> rfl

theorem CscRow.get_set (r : CscRow) (c c' : CscCol) (v : Word) :
    (r.set c v).get c' = if c' = c then v else r.get c' := by
  cases c <;> cases c' <;> rfl

theorem PlaneRegs.get_set (p : PlaneRegs) (r r' : PlaneReg) (v : Word) :
    (p.set r v).get r' = if r' = r then v else p.get r' := by
  cases r <;> cases r' <;> rfl

theorem CfgRegs.plane_setPlane (c : CfgRegs) (n n' : PlaneId) (p : PlaneRegs) :
    (c.setPlane n p).plane n' = if n' = n then p else c.plane n' := by
  cases n <;> cases n' <;> rfl

/-- A configuration register set holds its word, and every other one what it held. -/
theorem CfgRegs.get_set (c : CfgRegs) (r r' : CfgReg) (v : Word) :
    (c.set r v).get r' = if r' = r then v else c.get r' := by
  cases r with
  | plane n p =>
    cases r' with
    | plane n' p' =>
      simp only [CfgRegs.set, CfgRegs.get, CfgRegs.plane_setPlane, CfgReg.plane.injEq]
      split_ifs <;> simp_all [PlaneRegs.get_set]
    | _ => cases n <;> rfl
  | gain k =>
    cases r' with
    | gain k' => simp [CfgRegs.set, CfgRegs.get, PerChan.get_set]
    | _ => rfl
  | csc row col =>
    cases r' with
    | csc row' col' =>
      simp only [CfgRegs.set, CfgRegs.get, PerChan.get_set, CfgReg.csc.injEq]
      split_ifs <;> simp_all [CscRow.get_set]
    | _ => rfl
  | _ => cases r' <;> rfl

/-- A write stores the implemented bits (R22). -/
theorem CfgRegs.get_write_same (c : CfgRegs) (r : CfgReg) (v : Word) : (c.write r v).get r = v &&& r.mask := by
  rw [CfgRegs.write, CfgRegs.get_set, if_pos rfl]

theorem CfgRegs.get_write_other (c : CfgRegs) {r r' : CfgReg} (v : Word) (h : r' ≠ r) :
    (c.write r v).get r' = c.get r' := by
  rw [CfgRegs.write, CfgRegs.get_set, if_neg h]

/-! ### Bits of words -/

theorem flag_eq_getLsbD (v : Word) (i : Nat) : flag v i = v.getLsbD i := rfl

/-- Masking a word that has at most bit i. -/
theorem bitAt_and (b : Bool) (i : Nat) (w : Word) : bitAt b i &&& w = bitAt (b && w.getLsbD i) i := by
  cases b with
  | false => exact BitVec.zero_and
  | true =>
    rw [Bool.true_and]
    exact BitVec.twoPow_and w i

theorem and_not_and_of_apart {x m : Word} (v : Word) (h : x &&& m = 0) : x &&& ~~~(v &&& m) = x := by
  ext j hj
  have hj : (x[j] && m[j]) = false := by simpa using congrArg (·[j]) h
  cases hx : x[j] <;> simp_all

/-! ### The engine and the registers refuse nothing -/

/-- The answer is a next state or a fault, no refusal. -/
abbrev NotRefused (r : Result) : Prop := ∀ q, r ≠ .refused q

theorem NotRefused.next (s : State) : NotRefused (.next s) := nofun

theorem NotRefused.andThen {r : Result} {k : State → Result} (hr : NotRefused r) (hk : ∀ t, NotRefused (k t)) :
    NotRefused (andThen r k) := by
  cases r with
  | next t => exact hk t
  | fault e => exact nofun
  | refused q => exact absurd rfl (hr q)

theorem rawStep_notRefused (y x : Nat) (b : Bool) (phase : RawPhase) (k : Container) (ch : Chan) (s : State) :
    NotRefused (rawStep y x b phase k ch s) := by
  unfold rawStep rawFetch
  repeat' split
  all_goals exact nofun

theorem yuvStep_notRefused (y x : Nat) (b : Bool) (phase : YuvPhase) (k : Container × Container × Container) (s : State) :
    NotRefused (yuvStep y x b phase k s) := by
  unfold yuvStep
  repeat' split
  all_goals exact nofun

theorem stepWorker_notRefused (i : Nat) (w : Worker) (active : List Worker) (waiting : List Nat) (stopped : Bool)
    (s : State) : NotRefused (stepWorker i w active waiting stopped s) := by
  unfold stepWorker
  repeat' split
  all_goals exact nofun

theorem stepRawPix_notRefused (y x : Nat) (b : Bool) (phase : RawPhase) (s : State) :
    NotRefused (stepRawPix y x b phase s) := by
  unfold stepRawPix
  split
  · exact .next _
  · split
    · split
      · exact rawStep_notRefused _ _ _ _ _ _ _
      · exact nofun
    · exact nofun

theorem stepYuvPix_notRefused (y x : Nat) (b : Bool) (phase : YuvPhase) (s : State) :
    NotRefused (stepYuvPix y x b phase s) := by
  unfold stepYuvPix
  split
  · exact .next _
  · split
    · split
      · exact yuvStep_notRefused _ _ _ _ _ _
      · exact nofun
    · exact nofun

theorem stepDemosaic_notRefused (active : List Worker) (waiting : List Nat) (stopped : Bool) (s : State) :
    NotRefused (stepDemosaic active waiting stopped s) := by
  unfold stepDemosaic
  split
  · exact .next _
  · dsimp only
    split
    · exact stepWorker_notRefused _ _ _ _ _ _
    · split <;> exact nofun

theorem engineMove_notRefused (s : State) : NotRefused (engineMove s) := by
  unfold engineMove
  cases s.pos with
  | rawPix y x b phase => exact stepRawPix_notRefused y x b phase s
  | demosaic active waiting stopped => exact stepDemosaic_notRefused active waiting stopped s
  | yuvPix y x b phase => exact stepYuvPix_notRefused y x b phase s
  | checked verdict => cases verdict <;> exact .next _
  | _ => exact nofun

theorem engineStep_notRefused (s : State) : NotRefused (engineStep s) :=
  (engineMove_notRefused s).andThen fun _ => .next _

theorem runEngine_notRefused (n : Nat) (s : State) : NotRefused (runEngine n s) := by
  induction n generalizing s with
  | zero => exact .next s
  | succ n ih =>
    cases hb : s.busy with
    | false =>
      rw [runEngine_idle _ hb]
      exact .next s
    | true =>
      rw [runEngine_succ n hb]
      exact (engineStep_notRefused s).andThen ih

theorem settle_notRefused (s : State) : NotRefused (settle s) := runEngine_notRefused _ s

theorem issue_notRefused (w : Word) (verdict : State → Option ErrCode) (plan : State → List PassPlan) (s : State) :
    NotRefused (issue w verdict plan s) := by
  unfold issue
  split <;> exact settle_notRefused _

/-- No command is refused (R143). -/
theorem exec_notRefused (i : Instr) (s : State) : NotRefused (exec i s) := by
  cases i with
  | nop =>
    rw [exec, execNop]
    split
    · exact settle_notRefused _
    · exact .next _
  | lutBuild _ _ _ => rw [exec, execLutBuild]; exact issue_notRefused _ _ _ s
  | bayerDecode _ => rw [exec, execBayerDecode]; exact issue_notRefused _ _ _ s
  | demosaic => rw [exec, execDemosaic]; exact issue_notRefused _ _ _ s
  | yuvConvert => rw [exec, execYuvConvert]; exact issue_notRefused _ _ _ s

theorem writeReg_notRefused (r : Reg) (v : Word) (s : State) : NotRefused (writeReg r v s) := by
  cases r with
  | cmd =>
    rw [writeReg, issueWord]
    split
    · exact exec_notRefused _ s
    · exact settle_notRefused _
  | _ => rw [writeReg]; exact settle_notRefused _

theorem readReg_notRefused (r : Reg) (s : State) : NotRefused (readReg r s) := by
  cases r with
  | lutData =>
    rw [readReg, lutPortRead]
    repeat' split
    all_goals exact nofun
  | _ => rw [readReg]; exact .next _

/-- A register write is refused for its width or offset alone (R23). -/
theorem hostAccess_write_refused_iff (off width : Nat) (v : Word) (s : State) :
    (∃ q, hostAccess (.write off v width) s = .refused q) ↔ accessRefusal off width ≠ none := by
  simp only [hostAccess, hostWrite]
  cases accessRefusal off width with
  | some q => simp
  | none =>
    simp only [ne_eq, not_true, iff_false, not_exists]
    split
    · exact writeReg_notRefused _ v s
    · exact settle_notRefused s

/-- A register read is refused for its width or offset alone (R23). -/
theorem hostAccess_read_refused_iff (off width : Nat) (s : State) :
    (∃ q, hostAccess (.read off width) s = .refused q) ↔ accessRefusal off width ≠ none := by
  simp only [hostAccess, hostRead]
  cases accessRefusal off width with
  | some q => simp
  | none =>
    simp only [ne_eq, not_true, iff_false, not_exists]
    split
    · exact (readReg_notRefused _ s).andThen settle_notRefused
    · exact settle_notRefused _

/-! ### The words of STATUS, LUT_VALID, STATS and CTRL -/

/-- The W1C mask of STATUS acts on each flag as the write's own bit (R28). -/
theorem State.clearStatus_status (s : State) (v : Word) : (s.clearStatus v).status = s.status &&& ~~~(v &&& 0x1E) := by
  have hcode : s.errCode.code <<< 8 &&& ~~~(v &&& 0x1E) = s.errCode.code <<< 8 :=
    and_not_and_of_apart v (by cases s.errCode <;> decide)
  have hpass : s.pass.code <<< 12 &&& ~~~(v &&& 0x1E) = s.pass.code <<< 12 :=
    and_not_and_of_apart v (by cases s.pass <;> decide)
  simp only [State.status, BitVec.and_or_distrib_right, bitAt_and, hcode, hpass]
  simp [State.clearStatus, flag_eq_getLsbD]

theorem LutValid.word_bits (b : LutValid) :
    b.word.getLsbD 0 = b.lvl ∧ b.word.getLsbD 1 = b.g8 ∧ b.word.getLsbD 2 = b.g16 ∧ b.word.extractLsb' 3 29 = 0 := by
  obtain ⟨lvl, g8, g16⟩ := b
  cases lvl <;> cases g8 <;> cases g16 <;> decide

theorem writeCtrl_reset {v : Word} (s : State) (h : v.getLsbD 1 = true) : writeCtrl v s = softReset s :=
  if_pos h

theorem writeCtrl_cancel {v : Word} {s : State} (h1 : v.getLsbD 1 = false) (h0 : v.getLsbD 0 = true)
    (hb : s.busy = true) :
    writeCtrl v s = { s with cancelPending := true, cancelAt := s.cancelAt.or (some s.ticks) } := by
  rw [writeCtrl, flag_eq_getLsbD, flag_eq_getLsbD, h1, h0]
  simp [requestCancel, hb]

theorem writeCtrl_nothing {v : Word} {s : State} (h1 : v.getLsbD 1 = false) (h : s.busy = false ∨ v.getLsbD 0 = false) :
    writeCtrl v s = s := by
  rw [writeCtrl, flag_eq_getLsbD, flag_eq_getLsbD, h1]
  rcases h with hb | h0
  · simp [requestCancel, hb]
  · rw [h0]
    rfl

theorem readStat_idle {s : State} (hb : s.busy = false) (centre : Bool) (c : Chan) (w : StatWord) :
    readStat centre c w s = s.answer (s.stats.word centre c w) := by
  simp [readStat, hb]

theorem readStat_busy {s : State} (hb : s.busy = true) (centre : Bool) (c : Chan) (w : StatWord) :
    readStat centre c w s = s.draw.answer (Config.statsWhileBusy s.draws) := by
  simp [readStat, hb]

/-- The halves of a statistic are those of its sum and its count (R43). -/
theorem Stats.word_halves (t : Stats) (centre : Bool) (c : Chan) :
    t.word centre c .sumHi ++ t.word centre c .sumLo = ((if centre then t.centre else t.unweighted).get c).sum ∧
      t.word centre c .cntHi ++ t.word centre c .cntLo = ((if centre then t.centre else t.unweighted).get c).cnt := by
  cases centre <;> exact ⟨BitVec.extractLsb'_append_extractLsb', BitVec.extractLsb'_append_extractLsb'⟩

theorem Stats.word_zero (centre : Bool) (c : Chan) (w : StatWord) : Stats.zero.word centre c w = 0 := by
  cases centre <;> cases c <;> cases w <;> rfl

/-! ### The engine is blind to the host's registers -/

/-- The state with the configuration registers and OVERRUN changed: what a host's register write, or a CMD write or
table-port access while a command runs, changes (R48, R141, R205). Reducible, so that every other field is seen to be the
one of `s`. -/
abbrev State.mapHostRegs (f : CfgRegs → CfgRegs) (g : Bool → Bool) (s : State) : State :=
  { s with regs := f s.regs, overrun := g s.overrun }

section EngineBlind

variable (f : CfgRegs → CfgRegs) (g : Bool → Bool) (s : State)

theorem finish_mapHostRegs (e : Ending) : finish e (s.mapHostRegs f g) = (finish e s).mapHostRegs f g := by
  cases e <;> rfl

theorem State.putWord_mapHostRegs (a n v : Nat) :
    (s.mapHostRegs f g).putWord a n v = (s.putWord a n v).mapHostRegs f g := by
  induction n generalizing s a v with
  | zero => rfl
  | succ n ih => exact ih (s.putByte a (BitVec.ofNat 8 v)) (a + 1) (v / 256)

theorem State.writePixel_mapHostRegs (x y : Nat) (v : Rgb) :
    (s.mapHostRegs f g).writePixel x y v = (s.writePixel x y v).mapHostRegs f g :=
  State.putWord_mapHostRegs f g s _ _ _

theorem State.dstWord_mapHostRegs (salt a n : Nat) :
    (s.mapHostRegs f g).dstWord salt a n = s.dstWord salt a n := by
  induction n generalizing a with
  | zero => rfl
  | succ n ih => rw [State.dstWord, State.dstWord, ih]; rfl

theorem State.readCh_mapHostRegs (salt x y : Nat) (k : Chan) :
    (s.mapHostRegs f g).readCh salt x y k = s.readCh salt x y k := by
  rw [State.readCh, State.readCh, State.dstWord_mapHostRegs]

theorem stepBetween_mapHostRegs : stepBetween (s.mapHostRegs f g) = (stepBetween s).mapHostRegs f g := by
  unfold stepBetween
  cases s.todo with
  | nil => exact finish_mapHostRegs f g s .done
  | cons p rest => cases p <;> rfl

theorem startPass_mapHostRegs (p : PassPlan) : startPass p (s.mapHostRegs f g) = (startPass p s).mapHostRegs f g := by
  cases p <;> rfl

theorem stepLutOpen_mapHostRegs (gs : List Group) :
    stepLutOpen gs (s.mapHostRegs f g) = (stepLutOpen gs s).mapHostRegs f g := by
  cases gs with
  | nil => rfl
  | cons grp rest =>
    unfold stepLutOpen
    split_ifs
    · exact finish_mapHostRegs f g s .cancelled
    · rfl

theorem stepRowStart_mapHostRegs (y : Nat) (row : Pos) :
    stepRowStart y row (s.mapHostRegs f g) = (stepRowStart y row s).mapHostRegs f g := by
  unfold stepRowStart
  split_ifs
  · rfl
  · exact finish_mapHostRegs f g s .cancelled
  · rfl

theorem rawStep_mapHostRegs (y x : Nat) (b : Bool) (phase : RawPhase) (k : Container) (ch : Chan) :
    rawStep y x b phase k ch (s.mapHostRegs f g) = mapNext (State.mapHostRegs f g) (rawStep y x b phase k ch s) := by
  cases phase with
  | fetch got =>
    simp only [rawStep, rawFetch]
    split_ifs
    · rfl
    · split <;> rfl
  | look raw =>
    simp only [rawStep]
    split <;> rfl
  | gain index =>
    simp only [rawStep]
    rw [show (s.mapHostRegs f g).wideAt x y = s.wideAt x y from rfl]
    split <;> rfl
  | count v => rfl
  | write out =>
    simp only [rawStep, State.writePixel_mapHostRegs]
    rfl

theorem stepRawPix_mapHostRegs (y x : Nat) (b : Bool) (phase : RawPhase) :
    stepRawPix y x b phase (s.mapHostRegs f g) = mapNext (State.mapHostRegs f g) (stepRawPix y x b phase s) := by
  unfold stepRawPix
  rw [show (s.mapHostRegs f g).inSpaces = s.inSpaces from rfl]
  split_ifs
  · rfl
  · dsimp only
    split
    · exact rawStep_mapHostRegs f g s _ _ _ _ _ _
    · rfl
  · rfl

theorem yuvStep_mapHostRegs (y x : Nat) (b : Bool) (phase : YuvPhase) (k : Container × Container × Container) :
    yuvStep y x b phase k (s.mapHostRegs f g) = mapNext (State.mapHostRegs f g) (yuvStep y x b phase k s) := by
  cases phase with
  | fetch got =>
    simp only [yuvStep]
    split_ifs
    · rfl
    · split <;> rfl
  | write v =>
    simp only [yuvStep, State.writePixel_mapHostRegs]
    rfl

theorem stepYuvPix_mapHostRegs (y x : Nat) (b : Bool) (phase : YuvPhase) :
    stepYuvPix y x b phase (s.mapHostRegs f g) = mapNext (State.mapHostRegs f g) (stepYuvPix y x b phase s) := by
  unfold stepYuvPix
  rw [show (s.mapHostRegs f g).inSpaces = s.inSpaces from rfl]
  split_ifs
  · rfl
  · dsimp only
    split
    · exact yuvStep_mapHostRegs f g s _ _ _ _ _
    · rfl
  · rfl

theorem stepWorker_mapHostRegs (i : Nat) (w : Worker) (active : List Worker) (waiting : List Nat) (stopped : Bool) :
    stepWorker i w active waiting stopped (s.mapHostRegs f g) =
      mapNext (State.mapHostRegs f g) (stepWorker i w active waiting stopped s) := by
  obtain ⟨wy, wx, phase⟩ := w
  cases phase with
  | gate =>
    simp only [stepWorker]
    split_ifs <;> rfl
  | read got =>
    simp only [stepWorker, workerRead, State.readCh_mapHostRegs]
    cases s.cfg.color wx wy with
    | none => rfl
    | some own =>
      dsimp only
      split_ifs
      · rfl
      · cases (s.cfg.demosaicReads own wx wy)[got.length]? <;> rfl
  | write v =>
    simp only [stepWorker, State.writePixel_mapHostRegs]
    split_ifs <;> rfl
  | count => rfl

theorem stepDemosaic_mapHostRegs (active : List Worker) (waiting : List Nat) (stopped : Bool) :
    stepDemosaic active waiting stopped (s.mapHostRegs f g) =
      mapNext (State.mapHostRegs f g) (stepDemosaic active waiting stopped s) := by
  unfold stepDemosaic
  split
  · cases stopped with
    | true => exact congrArg Host.Outcome.next (finish_mapHostRegs f g s .cancelled)
    | false => rfl
  · dsimp only
    split
    · exact stepWorker_mapHostRegs f g { s with sched := s.sched.tail } _ _ _ _ _
    · split <;> rfl

/-- The engine neither reads nor writes the configuration registers and OVERRUN (R48, R141). -/
theorem engineMove_mapHostRegs :
    engineMove (s.mapHostRegs f g) = mapNext (State.mapHostRegs f g) (engineMove s) := by
  unfold engineMove
  cases s.pos with
  | checked v =>
    cases v with
    | none => rfl
    | some code => exact congrArg Host.Outcome.next (finish_mapHostRegs f g s (.error code))
  | between => exact congrArg Host.Outcome.next (stepBetween_mapHostRegs f g s)
  | starting p => exact congrArg Host.Outcome.next (startPass_mapHostRegs f g s p)
  | lutOpen gs => exact congrArg Host.Outcome.next (stepLutOpen_mapHostRegs f g s gs)
  | rawRow y => exact congrArg Host.Outcome.next (stepRowStart_mapHostRegs f g s y _)
  | rawPix y x b phase => exact stepRawPix_mapHostRegs f g s y x b phase
  | demosaic active waiting stopped => exact stepDemosaic_mapHostRegs f g s active waiting stopped
  | yuvRow y => exact congrArg Host.Outcome.next (stepRowStart_mapHostRegs f g s y _)
  | yuvPix y x b phase => exact stepYuvPix_mapHostRegs f g s y x b phase
  | _ => rfl

theorem engineStep_mapHostRegs :
    engineStep (s.mapHostRegs f g) = mapNext (State.mapHostRegs f g) (engineStep s) := by
  unfold engineStep
  rw [engineMove_mapHostRegs]
  cases engineMove s <;> rfl

theorem runEngine_mapHostRegs (n : Nat) :
    runEngine n (s.mapHostRegs f g) = mapNext (State.mapHostRegs f g) (runEngine n s) := by
  induction n generalizing s with
  | zero => rfl
  | succ n ih =>
    cases hb : s.busy with
    | false => rw [runEngine_idle (s := s.mapHostRegs f g) _ hb, runEngine_idle _ hb]; rfl
    | true =>
      rw [runEngine_succ (s := s.mapHostRegs f g) n hb, runEngine_succ n hb, engineStep_mapHostRegs]
      cases engineStep s with
      | next t => exact ih t
      | fault e => rfl
      | refused e => rfl

theorem settle_mapHostRegs : settle (s.mapHostRegs f g) = mapNext (State.mapHostRegs f g) (settle s) :=
  runEngine_mapHostRegs f g s s.budget

end EngineBlind

/-! ### The obligations on the state and the registers -/

/-- Settles O11: the engine neither reads nor writes the configuration registers. -/
theorem runningCommandIgnoresRegisterWrites : Obligations.RunningCommandIgnoresRegisterWrites := by
  unfold Obligations.RunningCommandIgnoresRegisterWrites
  refine ⟨fun n s r => runEngine_mapHostRegs (fun _ => r) id s n, fun s r v => ⟨?_, ?_, ?_⟩⟩
  · exact hostAccess_write_offset (.cfg r) v s
  · exact settle_mapHostRegs (fun _ => s.regs.write r v) id s
  · exact hostAccess_read_offset (.cfg r) _

/-- Settles O41: each register's own write and read arm, and `CfgRegs.get_set` for the configuration registers. -/
theorem writesKeepReservedBitsZero : Obligations.WritesKeepReservedBitsZero := by
  unfold Obligations.WritesKeepReservedBitsZero
  refine ⟨fun s r v => ⟨?_, ?_, ?_, ?_⟩, by decide, fun s v => ⟨?_, ?_, ?_, ?_, ?_, ?_, ?_, ?_, ?_⟩⟩
  · exact hostAccess_write_offset (.cfg r) v s
  · exact hostAccess_read_offset (.cfg r) s
  · exact CfgRegs.get_write_same s.regs r v
  · exact fun r' h => CfgRegs.get_write_other s.regs v h
  · exact hostAccess_write_offset .irqEn v s
  · exact hostAccess_write_offset .lutAddr v s
  · intro off hoff
    simp only [List.mem_cons, List.not_mem_nil, or_false] at hoff
    rcases hoff with rfl | rfl | rfl | rfl
    · exact hostAccess_write_offset .id v s
    · exact hostAccess_write_offset .version v s
    · exact hostAccess_write_offset .progress v s
    · exact hostAccess_write_offset .lutValid v s
  · exact fun centre c w => hostAccess_write_offset (.stat centre c w) v s
  · exact hostAccess_read_offset .cmd s
  · exact hostAccess_read_offset .irqEn s
  · exact hostAccess_read_offset .progress s
  · exact hostAccess_read_offset .lutAddr s
  · exact ⟨_, hostAccess_read_offset .lutValid s, s.lutValid.word_bits⟩

/-- Settles O43: past the check of width and offset nothing a register access does is refused. -/
theorem malformedAccessesAreRefused : Obligations.MalformedAccessesAreRefused := by
  unfold Obligations.MalformedAccessesAreRefused
  intro s off width v
  refine ⟨?_, ?_, ?_⟩
  · rw [hostAccess_write_refused_iff, ne_eq, accessRefusal_eq_none off v, Bool.not_eq_true]
  · rw [hostAccess_read_refused_iff, ne_eq, accessRefusal_eq_none off v, Bool.not_eq_true]
    rfl
  · simp only [HostOp.wf, Bool.and_eq_true, beq_iff_eq, decide_eq_true_eq, and_assoc]
    rfl

/-- Settles O45: each bit of STATUS masked on its own. -/
theorem statusWriteClearsNamedBits : Obligations.StatusWriteClearsNamedBits := by
  unfold Obligations.StatusWriteClearsNamedBits
  exact fun s v => ⟨hostAccess_write_offset .status v s, s.clearStatus_status v, rfl⟩

/-- Settles O47: an idle read draws no free value, a busy one draws one. -/
theorem statsReadsWhileIdleAreExact : Obligations.StatsReadsWhileIdleAreExact := by
  unfold Obligations.StatsReadsWhileIdleAreExact
  intro s centre c
  have hread : ∀ w, hostAccess (.read (Reg.stat centre c w).offset 32) s = settle (readStat centre c w s) :=
    fun w => hostAccess_read_offset (.stat centre c w) s
  refine ⟨fun hb w => ?_, fun hb w => ?_, s.stats.word_halves centre c⟩
  · rw [hread, readStat_idle hb, settle_idle (by exact hb)]
  · exact ⟨_, by rw [hread, readStat_busy hb]⟩

/-- Settles O40: the reset state's registers, read one by one. -/
theorem resetColumnOfTheRegisterMap : Obligations.ResetColumnOfTheRegisterMap := by
  unfold Obligations.ResetColumnOfTheRegisterMap
  refine ⟨by decide, rfl, rfl, ?_, ?_, rfl, rfl, rfl, rfl, rfl, rfl, rfl, rfl⟩
  · intro r hr
    simp only [List.mem_cons, List.not_mem_nil, or_false] at hr
    rcases hr with rfl | rfl | rfl | rfl | rfl | rfl | rfl <;> rfl
  · intro centre c w
    have hword : State.reset.stats.word centre c w = 0 := Stats.word_zero centre c w
    rw [readReg, readStat_idle rfl, hword]

/-- Settles O42: the map's list of registers holds every one, no two at one offset. -/
theorem registerMapAndUnmappedOffsets : Obligations.RegisterMapAndUnmappedOffsets := by
  unfold Obligations.RegisterMapAndUnmappedOffsets
  refine ⟨by decide, fun r => ⟨r.mem_all, r.ofOffset_offset⟩, fun _ _ => Reg.offset_of_ofOffset,
    fun s v => ⟨fun off hlt hal hu => ?_, ?_, ?_, ?_, ?_⟩⟩
  · have hr : accessRefusal off 32 = none :=
      (accessRefusal_eq_none off v 32).2 (by simp [HostOp.wf, regWidth, regWindow, hlt, hal])
    have hn := Reg.ofOffset_eq_none hu
    exact ⟨hostAccess_write_unmapped hr hn v s, hostAccess_read_unmapped hr hn s⟩
  · exact hostAccess_write_offset .id v s
  · exact hostAccess_read_offset .id s
  · exact hostAccess_write_offset .version v s
  · exact hostAccess_read_offset .version s

/-- Settles O48: the three cases of a CTRL write, SRST first. -/
theorem cancelRequestsAndResetRequests : Obligations.CancelRequestsAndResetRequests := by
  unfold Obligations.CancelRequestsAndResetRequests
  intro s v
  refine ⟨hostAccess_write_offset .ctrl v s, writeCtrl_reset s, fun h1 h0 hb => ⟨_, writeCtrl_cancel h1 h0 hb⟩,
    writeCtrl_nothing, hostAccess_read_offset .ctrl s⟩

end Sys2Proof.Machine
end

section
/-! The destination space (20_memory): the layout of a pixel, and what a command may write, for the obligations of this
family. -/

namespace Sys2Proof.Machine

/-! ### A word held byte by byte -/

theorem byteOf_toNat (w k : Nat) : (byteOf w k).toNat = w / 256 ^ k % 256 := BitVec.toNat_ofNat _ _

/-- Where a memory holds a word byte by byte, l bytes from byte j on are the word's own (R84). -/
theorem Memory.readN_of_bytes {m : Memory} {a n w : Nat} (h : ∀ k < n, Memory.read m (a + k) = byteOf w k) {j l : Nat}
    (hl : j + l ≤ n) : Memory.readN m (a + j) l = w / 256 ^ j % 256 ^ l := by
  induction l generalizing j with
  | zero => simp [Memory.readN, Nat.mod_one]
  | succ l ih =>
    rw [Memory.readN, h j (by omega), byteOf_toNat, Nat.add_assoc, ih (by omega), pow_succ, ← Nat.div_div_eq_div_mul,
      pow_succ', Nat.mod_mul]

/-! ### The layout of a pixel (43_pack) -/

theorem natBits_eq (n lo len : Nat) : natBits n lo len = n / 2 ^ lo % 2 ^ len := by
  rw [natBits, Nat.shiftRight_eq_div_pow]

/-- Channels that fit the output depth do not run into each other in the packed pixel, in either format (R222, R224). -/
theorem CfgRegs.channelOf_pixelWord {c : CfgRegs} {v : Rgb} (hv : ∀ k, v.get k < 2 ^ c.depth) (k : Chan) :
    c.channelOf (c.pixelWord v % 256 ^ c.bpp) k = v.get k := by
  have hb := hv .b
  have hg := hv .g
  have hr := hv .r
  cases hf : c.bgra64 <;> cases k <;>
    simp only [CfgRegs.channelOf, CfgRegs.pixelWord, CfgRegs.depth, CfgRegs.bpp, PerChan.get, natBits_eq, hf, if_true,
      if_false, Bool.false_eq_true] at hb hg hr ⊢ <;> omega

/-- A pixel written holds the channels written (R222, R224). -/
theorem State.chanIn_writePixel {s : State} {v : Rgb} (x y : Nat) (hm : Memory.wf s.dst = true)
    (hv : ∀ k, v.get k < 2 ^ s.cfg.depth) (k : Chan) : s.cfg.chanIn (s.writePixel x y v).dst x y k = v.get k := by
  rw [CfgRegs.chanIn, State.writePixel_dst, Memory.readN_writeN _ _ _ hm, CfgRegs.channelOf_pixelWord hv]

/-- A BGRA32 pixel is B, G, R and 0xFF, a byte each (R90, R222). -/
theorem CfgRegs.bytes_pixelWord_bgra32 {c : CfgRegs} {v : Rgb} (hf : c.bgra64 = false)
    (hv : ∀ k, v.get k < 2 ^ c.depth) :
    byteOf (c.pixelWord v) 0 = BitVec.ofNat 8 v.b ∧ byteOf (c.pixelWord v) 1 = BitVec.ofNat 8 v.g ∧
      byteOf (c.pixelWord v) 2 = BitVec.ofNat 8 v.r ∧ byteOf (c.pixelWord v) 3 = BitVec.ofNat 8 0xFF := by
  have hb := hv .b
  have hg := hv .g
  have hr := hv .r
  simp only [CfgRegs.depth, PerChan.get, hf, Bool.false_eq_true, if_false] at hb hg hr
  refine ⟨?_, ?_, ?_, ?_⟩ <;> apply BitVec.eq_of_toNat_eq <;>
    simp only [byteOf_toNat, CfgRegs.pixelWord, hf, Bool.false_eq_true, if_false, BitVec.toNat_ofNat] <;> omega

/-- A BGRA64 pixel is B, G, R and 0xFFFF, two bytes each, the low one first (R90, R222). -/
theorem CfgRegs.halves_pixelWord_bgra64 {c : CfgRegs} {v : Rgb} (hf : c.bgra64 = true)
    (hv : ∀ k, v.get k < 2 ^ c.depth) :
    c.pixelWord v / 256 ^ 0 % 256 ^ 2 = v.b ∧ c.pixelWord v / 256 ^ 2 % 256 ^ 2 = v.g ∧
      c.pixelWord v / 256 ^ 4 % 256 ^ 2 = v.r ∧ c.pixelWord v / 256 ^ 6 % 256 ^ 2 = 0xFFFF := by
  have hb := hv .b
  have hg := hv .g
  have hr := hv .r
  simp only [CfgRegs.depth, PerChan.get, hf, if_true] at hb hg hr
  simp only [CfgRegs.pixelWord, hf, if_true]
  omega

theorem to8_eq (v : Nat) : to8 v = v / 256 % 256 := natBits_eq v 8 8

/-! ### What a command may write (R87, R238, R258, R285) -/

/-- Every byte of every pixel of the frame lies in `A`, and the frame has a first pixel in each row. -/
structure CfgRegs.PixelsIn (c : CfgRegs) (A : Nat → Prop) : Prop where
  width : 0 < c.width
  pixel : ∀ {x y a}, c.hasPixel x y → c.pixelHas x y a → A a

/-- The pixels of a frame whose stride holds a row are bytes of the frame (R87). -/
theorem CfgRegs.inFrame_of_pixelHas {c : CfgRegs} {x y a : Nat} (hs : c.badDstStride = false) (hp : c.hasPixel x y)
    (ha : c.pixelHas x y a) : c.inFrame a = true := by
  obtain ⟨hx, hy⟩ := hp
  obtain ⟨hlo, hhi⟩ := ha
  have hrow : c.width * c.bpp ≤ c.dstStride.toNat := by simpa [CfgRegs.badDstStride] using hs
  have hpix : x * c.bpp + c.bpp ≤ c.width * c.bpp := by
    rw [← Nat.succ_mul]
    exact Nat.mul_le_mul_right _ hx
  unfold CfgRegs.dstAddr at hlo hhi
  obtain ⟨hq, hr⟩ := divMod_of_lt (q := y) (r := a - c.dstBase.toNat - y * c.dstStride.toNat) (d := c.dstStride.toNat)
    (n := a - c.dstBase.toNat) (by omega) (by omega)
  simp only [CfgRegs.inFrame, hq, hr, decide_eq_true_eq]
  omega

/-- A pass writes pixels in `A` only; a LUT pass writes none. -/
def PassPlan.within (c : CfgRegs) (A : Nat → Prop) : PassPlan → Prop
  | .lut _ => True
  | .raw => c.PixelsIn A
  | .demosaic => c.PixelsIn A
  | .yuv => c.PixelsIn A

/-- What the engine writes from this position to the end of the pass lies in `A`. -/
def Pos.within (c : CfgRegs) (A : Nat → Prop) : Pos → Prop
  | .starting p => p.within c A
  | .rawClear => c.PixelsIn A
  | .rawRow _ => c.PixelsIn A
  | .rawPix y _ _ _ => c.PixelsIn A ∧ y < c.height
  | .demosaic active waiting _ =>
    c.PixelsIn A ∧ (∀ w ∈ active, c.hasPixel w.x w.y) ∧ ∀ y ∈ waiting, y < c.height
  | .yuvRow _ => c.PixelsIn A
  | .yuvPix y _ _ _ => c.PixelsIn A ∧ y < c.height
  | _ => True

/-- The running command, unraced, has written in `A` only, over a destination space that held `m`, and will write in `A`
only: in the pass it is in and, unless its verdict is an error still to be reported, in those to come. -/
structure State.Confined (A : Nat → Prop) (m : Memory) (s : State) : Prop where
  dst : ∀ a, ¬A a → Memory.read s.dst a = Memory.read m a
  overwritten : ∀ c ∈ s.overwritten, A c.1
  srcForeign : s.srcForeign = []
  dstForeign : s.dstForeign = []
  pos : s.pos.within s.cfg A
  todo : (∀ code, s.pos ≠ .checked (some code)) → ∀ p ∈ s.todo, p.within s.cfg A

/-- The bytes a pixel write records as overwritten are those of the pixel (R100). -/
theorem State.mem_overwritten_putWord {s : State} {a n v : Nat} {c : Host.Cell} (h : c ∈ (s.putWord a n v).overwritten) :
    c ∈ s.overwritten ∨ a ≤ c.1 ∧ c.1 < a + n := by
  induction n generalizing s a v with
  | zero => exact .inl h
  | succ n ih =>
    rcases ih h with h | h
    · rcases List.mem_cons.1 h with rfl | h
      · exact .inr ⟨le_rfl, by simp⟩
      · exact .inl h
    · exact .inr (by omega)

/-- Unraced, the only bytes left unspecified are some the command has itself written (R83, I4). -/
theorem State.mem_overwritten_of_raced {s : State} {a : Nat} (hs : s.srcForeign = []) (hd : s.dstForeign = [])
    (h : a ∈ s.racedBytes) : ∃ c ∈ s.overwritten, c.1 = a := by
  cases ho : s.overlaps with
  | false => simp [State.racedBytes_of_apart hs hd ho] at h
  | true => simpa [State.racedBytes, State.racedSources_of_nil hs, hd, ho] using h

section Confined

variable {A : Nat → Prop} {m : Memory} {s t : State}

/-- A step that leaves the destination space and the records of it, and goes on within the plan. -/
theorem State.Confined.goOn (h : s.Confined A m) (hp : t.pos.within s.cfg A) (ht : ∀ q ∈ t.todo, q.within s.cfg A)
    (hkept : t.dst = s.dst ∧ t.overwritten = s.overwritten ∧ t.srcForeign = s.srcForeign ∧
      t.dstForeign = s.dstForeign ∧ t.cfg = s.cfg := by exact ⟨rfl, rfl, rfl, rfl, rfl⟩) : t.Confined A m := by
  obtain ⟨hd, ho, hsf, hdf, hc⟩ := hkept
  exact ⟨hd ▸ h.dst, ho ▸ h.overwritten, hsf ▸ h.srcForeign, hdf ▸ h.dstForeign, hc ▸ hp, fun _ => hc ▸ ht⟩

/-- A pixel written in `A`. -/
theorem State.Confined.writePixel (h : s.Confined A m) {x y : Nat} (v : Rgb) (hA : ∀ {a}, s.cfg.pixelHas x y a → A a)
    {p : Pos} (hp : p.within s.cfg A) (ht : ∀ q ∈ s.todo, q.within s.cfg A) :
    State.Confined A m { s.writePixel x y v with pos := p } where
  dst a ha := by
    have hout : ¬s.cfg.pixelHas x y a := fun hin => ha (hA hin)
    exact (State.writePixel_outside s x y v (by omega)).trans (h.dst a ha)
  overwritten c hc := (State.mem_overwritten_putWord hc).elim (h.overwritten c) hA
  srcForeign := by simp [h.srcForeign]
  dstForeign := by simp [h.dstForeign]
  pos := by simpa using hp
  todo _ := by simpa using ht

/-- The end of a command leaves unspecified only bytes it has written. -/
theorem State.Confined.finish (h : s.Confined A m) (e : Ending) : (finish e s).Confined A m where
  dst a ha := by
    rw [finish_dst, State.settledDst_other, h.dst a ha]
    intro hr
    obtain ⟨c, hc, rfl⟩ := State.mem_overwritten_of_raced h.srcForeign h.dstForeign hr
    exact ha (h.overwritten c hc)
  overwritten := by simp
  srcForeign := by simp
  dstForeign := by simp
  pos := by simp [Pos.within]
  todo := by simp

theorem rawStep_confined {y x : Nat} {b : Bool} {phase : RawPhase} {k : Container} {ch : Chan} (h : s.Confined A m)
    (hA : s.cfg.PixelsIn A) (hx : x < s.cfg.width) (hy : y < s.cfg.height) (ht : ∀ q ∈ s.todo, q.within s.cfg A)
    (hr : rawStep y x b phase k ch s = .next t) : t.Confined A m := by
  obtain ⟨-, -, rfl⟩ | ⟨got, a, -, -, -, rfl⟩ | ⟨raw, p, -, -, rfl⟩ | ⟨i, v, -, -, rfl⟩ | ⟨v, -, rfl⟩ | ⟨out, -, rfl⟩ :=
    rawStep_cases hr
  case inr.inr.inr.inr.inr => exact h.writePixel _ (hA.pixel ⟨hx, hy⟩) ⟨hA, hy⟩ ht
  all_goals exact h.goOn ⟨hA, hy⟩ ht

theorem yuvStep_confined {y x : Nat} {b : Bool} {phase : YuvPhase} {k : Container × Container × Container}
    (h : s.Confined A m) (hA : s.cfg.PixelsIn A) (hx : x < s.cfg.width) (hy : y < s.cfg.height)
    (ht : ∀ q ∈ s.todo, q.within s.cfg A) (hr : yuvStep y x b phase k s = .next t) : t.Confined A m := by
  obtain ⟨-, -, rfl⟩ | ⟨got, n, a, -, -, -, rfl⟩ | ⟨v, -, rfl⟩ := yuvStep_cases hr
  · exact h.goOn ⟨hA, hy⟩ ht
  · exact h.goOn ⟨hA, hy⟩ ht
  · exact h.writePixel _ (hA.pixel ⟨hx, hy⟩) ⟨hA, hy⟩ ht

theorem stepWorker_confined {i : Nat} {w : Worker} {active : List Worker} {waiting : List Nat} {stopped : Bool}
    (h : s.Confined A m) (hA : s.cfg.PixelsIn A) (hactive : ∀ w ∈ active, s.cfg.hasPixel w.x w.y)
    (hwaiting : ∀ y ∈ waiting, y < s.cfg.height) (hi : active[i]? = some w) (ht : ∀ q ∈ s.todo, q.within s.cfg A)
    (hw : stepWorker i w active waiting stopped s = .next t) : t.Confined A m := by
  have hwp : s.cfg.hasPixel w.x w.y := hactive w (List.mem_of_getElem? hi)
  have herase : ∀ u ∈ active.eraseIdx i, s.cfg.hasPixel u.x u.y := fun u hu => hactive u (List.mem_of_mem_eraseIdx hu)
  have hset : ∀ p : Worker, s.cfg.hasPixel p.x p.y → ∀ u ∈ active.set i p, s.cfg.hasPixel u.x u.y := fun p hp u hu =>
    (List.mem_or_eq_of_mem_set hu).elim (hactive u) fun e => e ▸ hp
  obtain ⟨-, -, rfl⟩ | ⟨-, -, rfl⟩ | ⟨got, own, px, py, c, -, -, -, -, rfl⟩ | ⟨v, -, -, rfl⟩ | ⟨-, rfl⟩ :=
    stepWorker_cases hw
  · exact h.goOn ⟨hA, herase, by simp⟩ ht
  · exact h.goOn ⟨hA, hset _ hwp, hwaiting⟩ ht
  · exact h.goOn ⟨hA, hset _ hwp, hwaiting⟩ ht
  · refine h.writePixel _ (hA.pixel hwp) ⟨hA, hset _ ?_, hwaiting⟩ ht
    split_ifs with hx
    · exact ⟨hx, hwp.2⟩
    · exact hwp
  · exact h.goOn ⟨hA, herase, hwaiting⟩ ht

/-- The start of a row whose pixels may be written. -/
theorem stepRowStart_confined {y : Nat} {row : Pos} (h : s.Confined A m) (hrow : y < s.cfg.height → row.within s.cfg A)
    (ht : ∀ q ∈ s.todo, q.within s.cfg A) : (stepRowStart y row s).Confined A m := by
  unfold stepRowStart
  split_ifs with hy
  · exact h.goOn trivial ht
  · exact h.finish _
  · exact h.goOn (hrow (by omega)) ht

theorem stepRowEnd_confined {b : Bool} {nextRow : Pos} (h : s.Confined A m) (hnext : nextRow.within s.cfg A)
    (ht : ∀ q ∈ s.todo, q.within s.cfg A) : (stepRowEnd b nextRow s).Confined A m :=
  h.goOn (by cases b <;> [exact hnext; trivial]) ht

theorem stepBetween_confined (h : s.Confined A m) (ht : ∀ q ∈ s.todo, q.within s.cfg A) :
    (stepBetween s).Confined A m := by
  unfold stepBetween
  split
  · exact h.finish _
  · rename_i p rest hp
    rw [hp, List.forall_mem_cons] at ht
    cases p <;> exact h.goOn ht.1 ht.2

theorem startPass_confined {p : PassPlan} (h : s.Confined A m) (hp : p.within s.cfg A)
    (ht : ∀ q ∈ s.todo, q.within s.cfg A) : (startPass p s).Confined A m := by
  cases p with
  | demosaic => exact h.goOn ⟨hp, by simp, fun y hy => List.mem_range.1 hy⟩ ht
  | _ => exact h.goOn hp ht

theorem stepLutOpen_confined {groups : List Group} (h : s.Confined A m) (ht : ∀ q ∈ s.todo, q.within s.cfg A) :
    (stepLutOpen groups s).Confined A m := by
  unfold stepLutOpen
  split
  · exact h.goOn trivial ht
  · split_ifs
    · exact h.finish _
    · exact h.goOn trivial ht

theorem stepDemosaic_confined {active : List Worker} {waiting : List Nat} {stopped : Bool} (h : s.Confined A m)
    (hpos : (Pos.demosaic active waiting stopped).within s.cfg A) (ht : ∀ q ∈ s.todo, q.within s.cfg A)
    (hd : stepDemosaic active waiting stopped s = .next t) : t.Confined A m := by
  obtain ⟨hA, hactive, hwaiting⟩ := hpos
  obtain ⟨-, -, rfl⟩ | ⟨i, w, hi, hw⟩ | ⟨j, y, hj, -, rfl⟩ := stepDemosaic_cases hd
  · split_ifs
    · exact h.finish _
    · exact h.goOn trivial ht
  · have h' : State.Confined A m { s with sched := s.sched.tail } :=
      ⟨h.dst, h.overwritten, h.srcForeign, h.dstForeign, h.pos, h.todo⟩
    exact stepWorker_confined h' hA hactive hwaiting hi ht hw
  · refine h.goOn ⟨hA, ?_, ?_⟩ ht
    · rw [List.forall_mem_append, List.forall_mem_singleton]
      exact ⟨hactive, hA.width, hwaiting y (List.mem_of_getElem? hj)⟩
    · exact fun u hu => hwaiting u (List.mem_of_mem_eraseIdx hu)

/-- A step of a confined command keeps it confined. -/
theorem engineMove_confined (h : s.Confined A m) (hm : engineMove s = .next t) : t.Confined A m := by
  have hpos := h.pos
  have htodo := h.todo
  unfold engineMove at hm
  generalize s.pos = p at hm hpos htodo
  cases p with
  | idle => cases hm
  | checked v =>
    cases v with
    | some code => cases hm; exact h.finish _
    | none => cases hm; exact h.goOn trivial (htodo nofun)
  | between => cases hm; exact stepBetween_confined h (htodo nofun)
  | starting p => cases hm; exact startPass_confined h hpos (htodo nofun)
  | lutOpen groups => cases hm; exact stepLutOpen_confined h (htodo nofun)
  | rawRow y => cases hm; exact stepRowStart_confined h (fun hy => ⟨hpos, hy⟩) (htodo nofun)
  | yuvRow y => cases hm; exact stepRowStart_confined h (fun hy => ⟨hpos, hy⟩) (htodo nofun)
  | rawPix y x b phase =>
    obtain ⟨hA, hy⟩ := hpos
    obtain ⟨-, rfl⟩ | ⟨hx, -, k, ch, -, -, hr⟩ := stepRawPix_cases hm
    · exact stepRowEnd_confined h hA (htodo nofun)
    · exact rawStep_confined h hA hx hy (htodo nofun) hr
  | yuvPix y x b phase =>
    obtain ⟨hA, hy⟩ := hpos
    obtain ⟨-, rfl⟩ | ⟨hx, -, k, -, hr⟩ := stepYuvPix_cases hm
    · exact stepRowEnd_confined h hA (htodo nofun)
    · exact yuvStep_confined h hA hx hy (htodo nofun) hr
  | demosaic active waiting stopped => exact stepDemosaic_confined h hpos (htodo nofun) hm
  | rawClear => cases hm; exact h.goOn hpos (htodo nofun)
  | lutFill g rest n =>
    cases hm
    unfold stepLutFill
    exact h.goOn (by dsimp only; split_ifs <;> trivial) (htodo nofun)
  | _ => cases hm; exact h.goOn trivial (htodo nofun)

theorem engineStep_confined (h : s.Confined A m) (ht : engineStep s = .next t) : t.Confined A m := by
  obtain ⟨u, hu, rfl⟩ := engineStep_cases ht
  have hc := engineMove_confined h hu
  exact ⟨hc.dst, hc.overwritten, hc.srcForeign, hc.dstForeign, hc.pos, hc.todo⟩

theorem settle_confined (h : s.Confined A m) (ht : settle s = .next t) : t.Confined A m :=
  runEngine_induct (fun _ _ _ hu hs => engineStep_confined hu hs) h ht

end Confined

/-! ### What a command sets out from -/

/-- The state a command leaves behind before its first engine step: OVERRUN set while another command runs; a NOP over
already; any other command accepted and validated (R140 to R144). -/
def issued (i : Instr) (s : State) : State :=
  if s.busy then s.setOverrun
  else match i with
    | .nop => finish .done (accept (encode i) s)
    | _ => (accept (encode i) s).launched (verdictOf i (accept (encode i) s)) (planOf i (accept (encode i) s))

/-- Every command is what it sets out from and the engine's run from there (R143). -/
theorem exec_eq_settle_issued (i : Instr) (s : State) : exec i s = settle (issued i s) := by
  cases hb : s.busy with
  | true =>
    cases i <;> simp [exec, execNop, execLutBuild, execBayerDecode, execDemosaic, execYuvConvert, issue, issued, hb]
  | false =>
    cases i with
    | nop => simp [exec, execNop, issued, hb, settle_idle]
    | _ =>
      simp [exec, execLutBuild, execBayerDecode, execDemosaic, execYuvConvert, issue, issued, hb, verdictOf, planOf]

theorem issued_busy {i : Instr} {s : State} (hb : s.busy = true) : issued i s = s.setOverrun := if_pos hb

/-- On an idle block a command sets out with the host's side as it was, and no foreign write to it. -/
theorem issued_idle {i : Instr} {s : State} (hb : s.busy = false) :
    HostSideKept s (issued i s) ∧ (issued i s).srcForeign = [] := by
  unfold issued
  rw [if_neg (by simp [hb])]
  cases i with
  | nop =>
    have hsrc : (accept (encode .nop) s).settledSrc = s.src := State.settledSrc_of_nil rfl
    exact ⟨by constructor <;> simp [hsrc], by simp⟩
  | _ => exact ⟨by constructor <;> rfl, rfl⟩

/-- A frame that is not empty and holds to its stride has its pixels in the frame (R87, R301). -/
theorem CfgRegs.pixelsIn_frame {c : CfgRegs} (hd : c.badDim = false) (hs : c.badDstStride = false) :
    c.PixelsIn fun a => c.inFrame a = true where
  width := by
    simp only [CfgRegs.badDim, Bool.or_eq_false_iff, beq_eq_false_iff_ne] at hd
    omega
  pixel := CfgRegs.inFrame_of_pixelHas hs

/-- The passes of a command that has passed its validation write in its frame only (R301, R303). -/
theorem planOf_within {i : Instr} {a : State} (hv : verdictOf i a = none) :
    ∀ p ∈ planOf i a, p.within a.cfg fun d => a.cfg.mayWrite i d = true := by
  have hok : ∀ c ∈ checksOf i a, c.2 = false := by
    cases i with
    | nop => exact nofun
    | _ => exact firstFailing_eq_none.1 hv
  cases i with
  | nop => exact nofun
  | lutBuild lvl g8 g16 =>
    intro p hp
    simp only [planOf, lutBuildPlan] at hp
    split_ifs at hp
    · cases hp
    · cases List.mem_singleton.1 hp
      trivial
  | bayerDecode build =>
    have hd := hok (.cfgDim, a.cfg.badDim) (by simp [checksOf, bayerChecks])
    have hs := hok (.cfgStride, a.cfg.p0.badStride (a.cfg.planeWidth .p0) || a.cfg.badDstStride)
      (by simp [checksOf, bayerChecks])
    have hin := CfgRegs.pixelsIn_frame hd (Bool.or_eq_false_iff.1 hs).2
    intro p hp
    cases p with
    | lut gs => trivial
    | _ => exact hin
  | demosaic =>
    have hd := hok (.cfgDim, a.cfg.badDim) (by simp [checksOf, demosaicChecks])
    have hs := hok (.cfgStride, a.cfg.badDstStride) (by simp [checksOf, demosaicChecks])
    intro p hp
    cases List.mem_singleton.1 hp
    exact CfgRegs.pixelsIn_frame hd hs
  | yuvConvert =>
    have hd := hok (.cfgDim, a.cfg.badDim) (by simp [checksOf, yuvChecks])
    have hs := hok (.cfgStride, a.cfg.p0.badStride (a.cfg.planeWidth .p0) || a.cfg.p1.badStride (a.cfg.planeWidth .p1) ||
        a.cfg.p2.badStride (a.cfg.planeWidth .p2) || a.cfg.badDstStride) (by simp [checksOf, yuvChecks])
    intro p hp
    cases List.mem_singleton.1 hp
    exact CfgRegs.pixelsIn_frame hd (Bool.or_eq_false_iff.1 hs).2

/-- What a command sets out from has written nothing, and will write in the frame of the snapshot only. -/
theorem issued_confined (i : Instr) {s : State} (hb : s.busy = false) :
    (issued i s).Confined (fun a => s.regs.mayWrite i a = true) s.dst := by
  unfold issued
  rw [if_neg (by simp [hb])]
  have plan : ∀ {verdict : Option ErrCode}, verdict = verdictOf i (accept (encode i) s) →
      (∀ code, Pos.checked verdict ≠ .checked (some code)) →
      ∀ p ∈ planOf i (accept (encode i) s), p.within s.regs fun a => s.regs.mayWrite i a = true := fun hv hc =>
    planOf_within (Option.eq_none_iff_forall_ne_some.2 fun code h => hc code (by rw [hv, h]))
  cases i with
  | nop =>
    have hkeep : (accept (encode .nop) s).settledDst = s.dst :=
      State.settledDst_of_nil (State.racedBytes_of_apart rfl rfl rfl)
    exact ⟨fun a _ => by rw [finish_dst, hkeep], by simp, by simp, by simp, by simp [Pos.within], by simp⟩
  | _ => exact ⟨fun _ _ => rfl, nofun, rfl, rfl, trivial, plan rfl⟩

/-! ### The obligations on the destination space -/

/-- Settles O22: the packed pixel is taken apart channel by channel, and its bytes are those WritePixel stores. -/
theorem pixelWriteStoresBgraAndReadsBack : Obligations.PixelWriteStoresBgraAndReadsBack := by
  unfold Obligations.PixelWriteStoresBgraAndReadsBack
  intro s x y v hm hv
  have hread := State.chanIn_writePixel x y hm hv
  have hbytes : s.cfg.pixelIs (s.writePixel x y v).dst x y v := fun k hk => State.writePixel_inside x y v hm hk
  refine ⟨hread, fun salt k hd => ?_, fun hf => ?_, fun hf => ?_, fun a ha => ?_, fun o ho => ⟨?_, ?_⟩, fun o ho => ?_⟩
  · rw [State.readCh_exact salt x y k (by simpa using hd), State.writePixel_cfg]
    exact hread k
  · obtain ⟨hb, hg, hr, ha⟩ := CfgRegs.bytes_pixelWord_bgra32 hf hv
    simp only [CfgRegs.pixelIs, CfgRegs.dstAddr, CfgRegs.bpp, hf, Bool.false_eq_true, if_false] at hbytes
    exact ⟨(hbytes 0 (by omega)).trans hb, (hbytes 1 (by omega)).trans hg, (hbytes 2 (by omega)).trans hr,
      (hbytes 3 (by omega)).trans ha⟩
  · obtain ⟨hb, hg, hr, ha⟩ := CfgRegs.halves_pixelWord_bgra64 hf hv
    simp only [CfgRegs.pixelIs, CfgRegs.dstAddr, CfgRegs.bpp, hf, if_true] at hbytes
    have hhalf (j : Nat) (hj : j ≤ 6) := Memory.readN_of_bytes (j := j) (l := 2) hbytes (by omega)
    exact ⟨(hhalf 0 (by omega)).trans hb, (hhalf 2 (by omega)).trans hg, (hhalf 4 (by omega)).trans hr,
      (hhalf 6 (by omega)).trans ha⟩
  · exact State.writePixel_outside s x y v (by omega)
  · rw [to8_eq, to16]
    omega
  · rfl
  · rw [CfgRegs.out16, to8_eq, Nat.mod_eq_of_lt (by omega)]

/-- Settles O9: what every engine step leaves alone, and the destination bytes it may write, carried over the run from
what the command sets out from. -/
theorem commandsLeaveTheHostSideAlone : Obligations.CommandsLeaveTheHostSideAlone := by
  unfold Obligations.CommandsLeaveTheHostSideAlone
  intro i s t ht
  rw [exec_eq_settle_issued] at ht
  obtain ⟨hk, hsrc⟩ := runEngine_kept ht
  cases hb : s.busy with
  | true =>
    rw [issued_busy hb] at hk hsrc
    exact ⟨fun h => hsrc.same (h.resolve_left nofun), hsrc.other, nofun, hk.regs, hk.irqEn, hk.lutAddr, hk.params, hk.host,
      hk.reads, by simp [hk.overrun]⟩
  | false =>
    obtain ⟨hi, hf⟩ := issued_idle (i := i) hb
    have hsame : t.src = s.src := (hsrc.same hf).trans hi.src
    refine ⟨fun _ => hsame, fun a _ => by rw [hsame], fun _ a ha => ?_, hk.regs.trans hi.regs, hk.irqEn.trans hi.irqEn,
      hk.lutAddr.trans hi.lutAddr, hk.params.trans hi.params, hk.host.trans hi.host, hk.reads.trans hi.reads,
      by simp [hk.overrun, hi.overrun]⟩
    exact (settle_confined (issued_confined i hb) ht).dst a (by simp [ha])

end Sys2Proof.Machine
end

section
/-! The command word (30_encoding): the decoder and the encoder against each other, an illegal word accepted, the pattern
tiles, and their obligations. -/

namespace Sys2Proof

/-! ### Decoding and encoding (R110 to R116) -/

/-- Every command: NOP, the eight LUT_BUILD, the two BAYER_DECODE, DEMOSAIC, YUV_CONVERT. -/
def Instr.all : List Instr :=
  [.nop, .lutBuild false false false, .lutBuild true false false, .lutBuild false true false, .lutBuild true true false,
    .lutBuild false false true, .lutBuild true false true, .lutBuild false true true, .lutBuild true true true,
    .bayerDecode false, .bayerDecode true, .demosaic, .yuvConvert]

theorem Instr.mem_all (i : Instr) : i ∈ Instr.all := by
  cases i with
  | lutBuild lvl g8 g16 => cases lvl <;> cases g8 <;> cases g16 <;> decide
  | bayerDecode build => cases build <;> decide
  | _ => decide

theorem decode_encode (i : Instr) : decode (encode i) = .command i := by
  cases i with
  | lutBuild lvl g8 g16 => cases lvl <;> cases g8 <;> cases g16 <;> decide
  | bayerDecode build => cases build <;> decide
  | _ => decide

/-- A single bit of a word is the flag at that place. -/
theorem and_bit (w : Word) (k : Nat) : w &&& 1#32 <<< k = flagBit (w.getLsbD k) k := by
  rw [flagBit, ← BitVec.twoPow_eq, BitVec.and_twoPow]
  rfl

theorem OpcodeRow.selects_iff {r : OpcodeRow} {w : Word} : r.selects w = true ↔ w &&& r.mask = r.pattern := beq_iff_eq

/-- A word a row selects is the row's pattern and its bits off the row's mask. -/
theorem OpcodeRow.eq_of_selects {r : OpcodeRow} {w : Word} (h : r.selects w = true) : w = r.pattern ||| w &&& ~~~r.mask := by
  rw [← OpcodeRow.selects_iff.1 h, ← BitVec.and_or_distrib_left, BitVec.or_not_self, BitVec.and_allOnes]

/-- A word that decodes to a command is the command's encoding: off the mask of its row lie the command's flags. -/
theorem eq_encode_of_decode {w : Word} {i : Instr} (h : decode w = .command i) : w = encode i := by
  unfold decode at h
  split_ifs at h with h0 h1 h2 h3 h4 <;> cases h
  · simpa [rowNop, encode] using OpcodeRow.eq_of_selects h0
  · have hmask : ~~~rowLutBuild.mask = 1#32 <<< 4 ||| 1#32 <<< 5 ||| 1#32 <<< 6 := by decide
    have hw := OpcodeRow.eq_of_selects h1
    rw [hmask, BitVec.and_or_distrib_left, BitVec.and_or_distrib_left, and_bit, and_bit, and_bit] at hw
    simpa only [encode, rowLutBuild, BitVec.or_assoc] using hw
  · have hmask : ~~~rowBayerDecode.mask = 1#32 <<< 4 := by decide
    have hw := OpcodeRow.eq_of_selects h2
    rwa [hmask, and_bit] at hw
  · simpa [rowDemosaic, encode] using OpcodeRow.eq_of_selects h3
  · simpa [rowYuvConvert, encode] using OpcodeRow.eq_of_selects h4

theorem decode_eq_command_iff {w : Word} {i : Instr} : decode w = .command i ↔ w = encode i :=
  ⟨eq_encode_of_decode, fun h => h ▸ decode_encode i⟩

theorem exists_encode_iff {w : Word} : (∃ i, w = encode i) ↔ w ∈ Instr.all.map encode := by
  simp [Instr.mem_all, eq_comm]

/-- The thirteen legal words (R116). -/
theorem encode_all :
    Instr.all.map encode = [0x00, 0x01, 0x11, 0x21, 0x31, 0x41, 0x51, 0x61, 0x71, 0x02, 0x12, 0x03, 0x04] := by decide

/-- Settles O1: a word decodes to a command iff it is the command's encoding, and the encodings are the thirteen words. -/
theorem decodeAndEncodeAgree : Obligations.DecodeAndEncodeAgree := by
  unfold Obligations.DecodeAndEncodeAgree
  refine ⟨fun i _ => decode_encode i, fun w i => eq_encode_of_decode, fun w => ?_⟩
  simp only [decode_eq_command_iff, exists_encode_iff, encode_all]

/-! ### Illegal words (R115) -/

theorem exists_illegal_iff {d : Decoded} : (∃ why, d = .illegal why) ↔ d.command? = none := by
  cases d <;> simp [Decoded.command?]

theorem command?_eq_some {d : Decoded} {i : Instr} (h : d.command? = some i) : d = .command i := by
  cases d with
  | command j => exact congrArg _ (Option.some.inj h)
  | illegal why => cases h

/-- The word of every command keeps to the format CMD32 (R110). -/
theorem encode_layout (i : Instr) : Laws.EncodeLayout.Statement i := by
  cases i with
  | nop => exact Laws.EncodeLayout.nop
  | lutBuild lvl g8 g16 => exact Laws.EncodeLayout.lutBuild lvl g8 g16
  | bayerDecode build => exact Laws.EncodeLayout.bayerDecode build
  | demosaic => exact Laws.EncodeLayout.demosaic
  | yuvConvert => exact Laws.EncodeLayout.yuvConvert

/-- A word is its fields RSV, F2 to F0 and OP (R110). -/
theorem word_eq_fields (w : Word) : w = w.extractLsb' 7 25 ++ w.extractLsb' 4 3 ++ w.extractLsb' 0 4 := by
  rw [BitVec.extractLsb'_append_extractLsb'_eq_extractLsb' (show 7 = 4 + 3 from rfl),
    BitVec.extractLsb'_append_extractLsb'_eq_extractLsb' (show 4 = 0 + 4 from rfl), BitVec.extractLsb'_eq_self]

/-- With RSV 0 a word is illegal by its OP and its flags: the 128 words of seven bits. -/
theorem command?_of_rsv_zero (f : BitVec 3) (op : BitVec 4) :
    (decode ((0 : BitVec 25) ++ f ++ op)).command? = none ↔
      5 ≤ op.toNat ∨ (op ∈ [(0 : BitVec 4), 3, 4] ∧ f ≠ 0) ∨ (op = 2 ∧ f.extractLsb' 1 2 ≠ 0) := by
  revert f op
  decide

/-- R115, on the three fields of a word. -/
theorem command?_eq_none_iff (w : Word) :
    (decode w).command? = none ↔
      (5 ≤ (w.extractLsb' 0 4).toNat ∨ w.extractLsb' 7 25 ≠ 0 ∨
        (w.extractLsb' 0 4 ∈ [(0 : BitVec 4), 3, 4] ∧ w.extractLsb' 4 3 ≠ 0) ∨
        (w.extractLsb' 0 4 = (2 : BitVec 4) ∧ w.extractLsb' 5 2 ≠ 0)) := by
  by_cases hr : w.extractLsb' 7 25 = 0
  · have hf : w.extractLsb' 5 2 = (w.extractLsb' 4 3).extractLsb' 1 2 := by
      ext i hi
      grind
    have hw := word_eq_fields w
    rw [hr] at hw
    rw [hf, congrArg decode hw, command?_of_rsv_zero]
    simp [hr]
  · simp only [ne_eq, hr, not_false_eq_true, true_or, or_true, iff_true]
    refine Option.eq_none_iff_forall_ne_some.2 fun i hi => hr ?_
    obtain ⟨-, -, hrsv⟩ := encode_layout i
    rwa [eq_encode_of_decode (command?_eq_some hi)]

end Sys2Proof

namespace Sys2Proof.Machine

/-! ### The end of a command that has read nothing -/

theorem overlaps_of_unread {s : State} (hr : s.srcRead = []) : s.overlaps = false := by rw [State.overlaps, hr]; rfl

/-- A command that has read no source byte and raced with no other agent ends with the destination space as it stands. -/
theorem finish_dst_unread {s : State} (e : Ending) (hr : s.srcRead = []) (hs : s.srcForeign = [])
    (hd : s.dstForeign = []) : (finish e s).dst = s.dst := by
  rw [finish_dst, State.settledDst_of_nil (State.racedBytes_of_apart hs hd (overlaps_of_unread hr))]

theorem finish_src_unraced {s : State} (e : Ending) (hs : s.srcForeign = []) : (finish e s).src = s.src := by
  rw [finish_src, State.settledSrc_of_nil hs]

theorem finish_stats_unread {s : State} (e : Ending) (hr : s.srcRead = []) : (finish e s).stats = s.stats := by
  rw [finish_stats, State.settledStats_of_apart (overlaps_of_unread hr)]

/-! ### An illegal word accepted (R115) -/

theorem illegalCommand_idle {w : Word} {s : State} (hb : s.busy = false) :
    illegalCommand w s = finish (.error .illegalCmd) (accept w s) := if_neg (by simp [hb])

theorem issueWord_illegal {w : Word} {why : IllegalReason} {s : State} (hw : decode w = .illegal why)
    (hb : s.busy = false) : issueWord w s = .next (finish (.error .illegalCmd) (accept w s)) := by
  simp only [issueWord, hw, illegalCommand_idle hb]
  exact settle_idle (finish_busy _ _)

/-- Settles O2: a word is illegal iff no command encodes it, read off its three fields; accepted, it is over at once. -/
theorem illegalWordsAreExactlyTheReservedOnes : Obligations.IllegalWordsAreExactlyTheReservedOnes := by
  unfold Obligations.IllegalWordsAreExactlyTheReservedOnes
  refine ⟨fun w => exists_illegal_iff.trans (command?_eq_none_iff w), fun w why s hw hb =>
    ⟨_, issueWord_illegal hw hb, ?_, ?_, ⟨rfl, rfl, rfl, rfl, rfl, finish_src_unraced _ rfl, rfl, rfl⟩,
      ⟨rfl, rfl, finish_stats_unread _ rfl⟩, finish_dst_unread _ rfl rfl rfl⟩⟩
  · constructor <;> simp
  · constructor <;> simp

/-! ### The pattern tiles (R121, R251) -/

theorem CfgRegs.label_of_bayer {c : CfgRegs} (h : c.patternId < 4) (r k : Nat) :
    c.label r k = some (bayer2 c.patternId r k) := if_pos h

theorem CfgRegs.label_of_quad {c : CfgRegs} (h4 : 4 ≤ c.patternId) (h8 : c.patternId < 8) (r k : Nat) :
    c.label r k = some (bayer2 (c.patternId - 4) (r / 2) (k / 2)) := by
  rw [CfgRegs.label, if_neg (by omega), if_pos h8]

theorem CfgRegs.label_of_custom {c : CfgRegs} (h : c.patternId = 8 ∨ c.patternId = 9) (r k : Nat) :
    c.label r k = labelCode (field c.patternTile (8 * r + 2 * k) 2) := by
  rw [CfgRegs.label, if_neg (by omega), if_neg (by omega), if_pos (by omega)]

theorem CfgRegs.label_of_reserved {c : CfgRegs} (h : 10 ≤ c.patternId) (r k : Nat) : c.label r k = none := by
  rw [CfgRegs.label, if_neg (by omega), if_neg (by omega), if_neg (by omega)]

theorem labelCode_eq_getD (n : Nat) : labelCode n = [some Chan.r, some .g, some .b, none].getD n none := by
  match n with
  | 0 => rfl
  | 1 => rfl
  | 2 => rfl
  | 3 => rfl
  | _ + 4 => rfl

theorem CfgRegs.tileSize_two {c : CfgRegs} (h : c.patternId < 4 ∨ c.patternId = 8) : c.tileSize = 2 := if_pos h

theorem CfgRegs.tileSize_four {c : CfgRegs} (h : ¬(c.patternId < 4 ∨ c.patternId = 8)) : c.tileSize = 4 := if_neg h

theorem CfgRegs.tileSize_cases (c : CfgRegs) : c.tileSize = 2 ∨ c.tileSize = 4 :=
  (Decidable.em (c.patternId < 4 ∨ c.patternId = 8)).imp CfgRegs.tileSize_two CfgRegs.tileSize_four

/-- The labels of the first `n` rows and columns. -/
def CfgRegs.tile (c : CfgRegs) (n : Nat) : List (List (Option Chan)) :=
  (List.range n).map fun r => (List.range n).map fun k => c.label r k

theorem CfgRegs.tile_of_bayer {c : CfgRegs} {n : Nat} (h : c.patternId = n) (hn : n < 4) :
    c.tileSize = 2 ∧ c.tile 2 = (List.range 2).map fun r => (List.range 2).map fun k => some (bayer2 n r k) := by
  subst h
  exact ⟨CfgRegs.tileSize_two (.inl hn), by simp only [CfgRegs.tile, CfgRegs.label_of_bayer hn]⟩

theorem CfgRegs.tile_of_quad {c : CfgRegs} {n : Nat} (h : c.patternId = n + 4) (hn : n < 4) :
    c.tileSize = 4 ∧
      c.tile 4 = (List.range 4).map fun r => (List.range 4).map fun k => some (bayer2 n (r / 2) (k / 2)) := by
  obtain rfl : n = c.patternId - 4 := by omega
  exact ⟨CfgRegs.tileSize_four (by omega), by
    simp only [CfgRegs.tile, CfgRegs.label_of_quad (c := c) (by omega) (by omega)]⟩

/-- Settles O30: the label of each id, on the rows and columns of its tile. -/
theorem patternTilesAreTheTable : Obligations.PatternTilesAreTheTable := by
  unfold Obligations.PatternTilesAreTheTable
  intro tile R G B c
  refine ⟨fun h => CfgRegs.tile_of_bayer h (by decide), fun h => CfgRegs.tile_of_bayer h (by decide),
    fun h => CfgRegs.tile_of_bayer h (by decide), fun h => CfgRegs.tile_of_bayer h (by decide),
    fun h => CfgRegs.tile_of_quad h (by decide), fun h => CfgRegs.tile_of_quad h (by decide),
    fun h => CfgRegs.tile_of_quad h (by decide), fun h => CfgRegs.tile_of_quad h (by decide),
    fun h => CfgRegs.tileSize_two (.inr h), fun h => CfgRegs.tileSize_four (by omega),
    fun h r k => (CfgRegs.label_of_custom h r k).trans (labelCode_eq_getD _), CfgRegs.label_of_reserved,
    c.tileSize_cases, fun x y => ?_⟩
  rcases c.tileSize_cases with h | h <;> simp [CfgRegs.color, h]

end Sys2Proof.Machine
end

section
/-! What a LUT pass leaves in the tables (42_lut, R200): the engine run from one state to a later one, a group filled entry
by entry, the pass over the groups, and LUT_BUILD's obligation. -/

namespace Sys2Proof.Machine

/-! ### Running the engine to a later state -/

/-- Some number of engine steps leads from one state to the other. -/
def Reaches (s t : State) : Prop := ∃ n, runEngine n s = .next t

theorem Reaches.refl (s : State) : Reaches s s := ⟨0, rfl⟩

theorem Reaches.trans {s t u : State} (h : Reaches s t) (h' : Reaches t u) : Reaches s u := by
  obtain ⟨n, hn⟩ := h
  obtain ⟨m, hm⟩ := h'
  exact ⟨n + m, by rw [runEngine_add, hn]; exact hm⟩

theorem Reaches.of_step {s t : State} (hb : s.busy = true) (h : engineStep s = .next t) : Reaches s t :=
  ⟨1, runEngine_next 0 hb h⟩

/-- A step within the command, counted. -/
theorem Reaches.of_move {s t : State} (hs : s.busy = true) (h : engineMove s = .next t) (ht : t.busy = true) :
    Reaches s { t with ticks := s.ticks + 1 } :=
  .of_step hs (by simp [engineStep, h, andThen, State.ticked, ht])

/-- The step that ends the command. -/
theorem Reaches.of_finish {s : State} {e : Ending} (hs : s.busy = true) (h : engineMove s = .next (finish e s)) :
    Reaches s (finish e s) :=
  .of_step hs (by rw [engineStep, h]; cases e <;> rfl)

/-- An undisturbed command that can come to its end comes to it. -/
theorem settle_of_reaches {s t : State} (hu : s.Undisturbed) (h : Reaches s t) (ht : t.busy = false) :
    settle s = .next t := by
  obtain ⟨n, hn⟩ := h
  rw [settle_undisturbed hu]
  have hmax := runEngine_more hn ht (Nat.le_add_right n s.work)
  rw [Nat.add_comm, runEngine_add] at hmax
  cases hw : runEngine s.work s with
  | next u =>
    rw [hw] at hmax
    exact (runEngine_idle n (runEngine_ends le_rfl hw)).symm.trans hmax
  | fault e => rw [hw] at hmax; cases hmax
  | refused e => rw [hw] at hmax; cases hmax

/-- What a valid command other than NOP sets out from on an idle block. -/
theorem issued_of_valid {i : Instr} {s : State} (hi : i ≠ .nop) (hb : s.busy = false) (hv : Valid i s) :
    issued i s = (accept (encode i) s).launched none (planOf i (accept (encode i) s)) := by
  unfold issued
  rw [if_neg (by simp [hb])]
  cases i with
  | nop => exact absurd rfl hi
  | _ => exact congrArg (fun v => State.launched _ v _) hv

/-- A valid command that, undisturbed, can come to its end answers with it. -/
theorem exec_of_reaches {i : Instr} {s t : State} (hi : i ≠ .nop) (hb : s.busy = false) (hu : s.Undisturbed)
    (hv : Valid i s) (h : Reaches ((accept (encode i) s).launched none (planOf i (accept (encode i) s))) t)
    (ht : t.busy = false) : exec i s = .next t := by
  rw [← issued_of_valid hi hb hv] at h
  rw [exec_eq_settle_issued]
  exact settle_of_reaches (by rwa [State.Undisturbed, (issued_idle hb).1.host]) h ht

/-! ### Storing the entries of a table one by one -/

section Stored

variable {α : Type}

/-- The table with its first `n` entries stored. -/
def Ram.stored (f : Nat → α) (t : Ram α) : Nat → Ram α
  | 0 => t
  | n + 1 => Ram.write (Ram.stored f t n) n (f n)

theorem Ram.hasDepth_stored (f : Nat → α) {t : Ram α} {d : Nat} (h : t.hasDepth d = true) (n : Nat) :
    (Ram.stored f t n).hasDepth d = true := by
  induction n with
  | zero => exact h
  | succ n ih => exact Ram.hasDepth_write _ _ ih

theorem Ram.read_stored (f : Nat → α) {t : Ram α} {d n i : Nat} (h : t.hasDepth d = true) (hn : n ≤ 2 ^ d)
    (hi : i < 2 ^ d) : Ram.read (Ram.stored f t n) i = if i < n then f i else Ram.read t i := by
  induction n with
  | zero => rfl
  | succ n ih =>
    rw [Ram.stored]
    by_cases hin : i = n
    · rw [hin, Ram.read_write_same, if_pos (by omega)]
    · rw [Ram.read_write_other _ (Ram.hasDepth_stored f h n) (by omega) hi hin, ih (by omega)]
      simp [show i < n + 1 ↔ i < n by omega]

/-- A table with every entry stored is the filled table. -/
theorem Ram.stored_all (f : Nat → α) {t : Ram α} {d n : Nat} (h : t.hasDepth d = true) (hn : n = 2 ^ d) :
    Ram.stored f t n = Ram.build d f :=
  Ram.ext_entries (Ram.hasDepth_stored f h _) (Ram.hasDepth_build d f) fun i hi => by
    rw [Ram.read_stored f h hn.le hi, if_pos (hn ▸ hi), Ram.read_build d f hi]

/-- One thing per channel, given channel by channel. -/
def PerChan.of (f : Chan → α) : PerChan α := ⟨f .r, f .g, f .b⟩

@[simp] theorem PerChan.get_of (f : Chan → α) (ch : Chan) : (PerChan.of f).get ch = f ch := by cases ch <;> rfl

theorem PerChan.ext_get {p q : PerChan α} (h : ∀ ch, p.get ch = q.get ch) : p = q := by
  obtain ⟨r, g, b⟩ := p
  obtain ⟨r', g', b'⟩ := q
  obtain ⟨rfl, rfl, rfl⟩ : r = r' ∧ g = g' ∧ b = b' := ⟨h .r, h .g, h .b⟩
  rfl

/-- The table of a channel comes at the channel's place (R200). -/
theorem index_chanAt {n : Nat} (h : n < 3) : (chanAt n).index = n := by
  interval_cases n <;> rfl

theorem chanAt_index (k : Chan) : chanAt k.index = k := by cases k <;> rfl

/-- Three tables of `size` entries, one a channel, with the first `n` of their entries stored, table by table. -/
def PerChan.stored (size : Nat) (f : Chan → Nat → α) (p : PerChan (Ram α)) (n : Nat) : PerChan (Ram α) :=
  .of fun ch => Ram.stored (f ch) (p.get ch) (min (n - ch.index * size) size)

theorem PerChan.stored_zero (size : Nat) (f : Chan → Nat → α) (p : PerChan (Ram α)) : p.stored size f 0 = p :=
  PerChan.ext_get fun ch => by simp [PerChan.stored, Ram.stored]

/-- Storing entry `n` of the three tables, in its table at its index, is storing one entry more. -/
theorem PerChan.stored_succ {size n : Nat} (f : Chan → Nat → α) (p : PerChan (Ram α)) (hn : n < 3 * size) :
    (p.stored size f n).set (chanAt (n / size))
        (Ram.write ((p.stored size f n).get (chanAt (n / size))) (n % size) (f (chanAt (n / size)) (n % size))) =
      p.stored size f (n + 1) := by
  have hidx : (chanAt (n / size)).index = n / size := index_chanAt (Nat.div_lt_of_lt_mul (by omega))
  have hdm : n / size * size + n % size = n := Nat.div_add_mod' n size
  have hr : n % size < size := Nat.mod_lt _ (by omega)
  refine PerChan.ext_get fun k => ?_
  rw [PerChan.get_set]
  simp only [PerChan.stored, PerChan.get_of]
  split_ifs with hk
  · have h0 : min (n - k.index * size) size = n % size := by rw [hk, hidx]; omega
    have h1 : min (n + 1 - k.index * size) size = n % size + 1 := by rw [hk, hidx]; omega
    rw [← hk, h0, h1, Ram.stored]
  · congr 1
    have hne : k.index ≠ n / size := fun h => hk (by rw [← h, chanAt_index])
    rcases Nat.lt_or_gt_of_ne hne with hlt | hlt
    all_goals
      have := Nat.mul_le_mul_right size hlt
      rw [Nat.succ_mul] at this
      omega

theorem PerChan.stored_all {d size : Nat} (f : Chan → Nat → α) {p : PerChan (Ram α)}
    (h : ∀ ch, (p.get ch).hasDepth d = true) (hn : size = 2 ^ d) :
    p.stored size f (3 * size) = .of fun ch => Ram.build d (f ch) := by
  refine PerChan.ext_get fun ch => ?_
  have hfull : min (3 * size - ch.index * size) size = size := by
    have : ch.index ≤ 2 := by cases ch <;> decide
    have := Nat.mul_le_mul_right size this
    omega
  rw [PerChan.stored, PerChan.get_of, PerChan.get_of, hfull, Ram.stored_all _ (h ch) hn]

end Stored

/-! ### What storing the entries of the groups makes of the tables -/

/-- The tables with the first `n` entries of a group stored. -/
def Luts.stored (c : CfgRegs) (tol : Nat) (g : Group) (t : Luts) (n : Nat) : Luts :=
  match g with
  | .lvl => { t with lvl := Ram.stored (fun i => some (BitVec.ofNat 16 (c.lvlEntry i))) t.lvl n }
  | .g8 => { t with g8 := t.g8.stored 256 (fun ch i => some (BitVec.ofNat 8 (c.g8Entry tol ch i))) n }
  | .g16 => { t with g16 := t.g16.stored 65536 (fun ch i => some (BitVec.ofNat 16 (c.g16Entry tol ch i))) n }

theorem Luts.stored_zero (c : CfgRegs) (tol : Nat) (g : Group) (t : Luts) : t.stored c tol g 0 = t := by
  cases g <;> simp [Luts.stored, Ram.stored, PerChan.stored_zero]

theorem Luts.stored_succ (c : CfgRegs) (tol : Nat) {g : Group} (t : Luts) {n : Nat} (hn : n < g.entries) :
    (t.stored c tol g n).storeEntry c tol g n = t.stored c tol g (n + 1) := by
  cases g with
  | lvl => rfl
  | g8 => exact congrArg (fun p => { t with g8 := p }) (PerChan.stored_succ (size := 256) _ t.g8 hn)
  | g16 => exact congrArg (fun p => { t with g16 := p }) (PerChan.stored_succ (size := 65536) _ t.g16 hn)

/-- The tables with the groups filled. -/
def Luts.built (c : CfgRegs) (tol : Nat) (gs : List Group) (t : Luts) : Luts where
  lvl := if .lvl ∈ gs then fillLvl c else t.lvl
  g8 := if .g8 ∈ gs then .of (fillG8 c tol) else t.g8
  g16 := if .g16 ∈ gs then .of (fillG16 c tol) else t.g16

/-- LUT_VALID with the bits of the groups 1. -/
def LutValid.marked (gs : List Group) (v : LutValid) : LutValid where
  lvl := decide (.lvl ∈ gs) || v.lvl
  g8 := decide (.g8 ∈ gs) || v.g8
  g16 := decide (.g16 ∈ gs) || v.g16

theorem Luts.stored_entries (c : CfgRegs) (tol : Nat) (g : Group) {t : Luts} (h : t.sized) :
    t.stored c tol g g.entries = t.built c tol [g] := by
  obtain ⟨hlvl, hg8, hg16⟩ := h
  cases g with
  | lvl =>
    have hall : Ram.stored _ t.lvl Group.lvl.entries = fillLvl c := Ram.stored_all _ hlvl (by decide)
    simp [Luts.stored, Luts.built, hall]
  | g8 =>
    have hall : t.g8.stored 256 _ Group.g8.entries = .of (fillG8 c tol) := PerChan.stored_all _ hg8 (by decide)
    simp [Luts.stored, Luts.built, hall]
  | g16 =>
    have hall : t.g16.stored 65536 _ Group.g16.entries = .of (fillG16 c tol) := PerChan.stored_all _ hg16 (by decide)
    simp [Luts.stored, Luts.built, hall]

theorem Luts.built_nil (c : CfgRegs) (tol : Nat) (t : Luts) : t.built c tol [] = t := rfl

theorem Luts.built_cons (c : CfgRegs) (tol : Nat) (g : Group) (gs : List Group) (t : Luts) :
    (t.built c tol [g]).built c tol gs = t.built c tol (g :: gs) := by
  cases g <;> simp [Luts.built, or_comm]

theorem Luts.built_sized (c : CfgRegs) (tol : Nat) (gs : List Group) {t : Luts} (h : t.sized) :
    (t.built c tol gs).sized := by
  obtain ⟨hlvl, hg8, hg16⟩ := h
  unfold Luts.built
  refine ⟨?_, fun ch => ?_, fun ch => ?_⟩ <;> dsimp only <;> split_ifs
  · exact Ram.hasDepth_build _ _
  · exact hlvl
  · rw [PerChan.get_of]
    exact Ram.hasDepth_build _ _
  · exact hg8 ch
  · rw [PerChan.get_of]
    exact Ram.hasDepth_build _ _
  · exact hg16 ch

theorem LutValid.marked_nil (v : LutValid) : v.marked [] = v := rfl

theorem LutValid.marked_singleton (g : Group) (v : LutValid) : (v.set g false).set g true = v.marked [g] := by
  cases g <;> simp [LutValid.set, LutValid.marked]

theorem LutValid.marked_cons (g : Group) (gs : List Group) (v : LutValid) :
    (v.marked [g]).marked gs = v.marked (g :: gs) := by
  cases g <;> simp [LutValid.marked]

theorem LutValid.get_marked (gs : List Group) (v : LutValid) (g : Group) :
    (v.marked gs).get g = (decide (g ∈ gs) || v.get g) := by cases g <;> rfl

/-- Tables filled and bits marked for the same groups are what R200 leaves. -/
theorem tablesBuilt_of_built {c : CfgRegs} {tol : Nat} {gs : List Group} {s t : State}
    (hl : t.luts = s.luts.built c tol gs) (hv : t.lutValid = s.lutValid.marked gs) : TablesBuilt c tol gs s t where
  lvl hg i hi := by rw [hl, Luts.built, if_pos hg, fillLvl, Ram.read_build 16 _ hi]
  g8 hg ch i hi := by rw [hl, Luts.built, if_pos hg, PerChan.get_of, fillG8, Ram.read_build 8 _ hi]
  g16 hg ch i hi := by rw [hl, Luts.built, if_pos hg, PerChan.get_of, fillG16, Ram.read_build 16 _ hi]
  lvlKept hg := by simp [hl, Luts.built, hg]
  g8Kept hg := by simp [hl, Luts.built, hg]
  g16Kept hg := by simp [hl, Luts.built, hg]
  valid g := by rw [hv, LutValid.get_marked]

/-! ### The LUT pass (R200) -/

theorem Group.entries_pos (g : Group) : 0 < g.entries := by cases g <;> decide

/-- A state within a LUT pass: the tables, bits and count the pass has come to, and where it is. -/
def State.lutAt (s : State) (luts : Luts) (valid : LutValid) (progress : Word) (pos : Pos) (ticks : Nat) : State :=
  { s with luts := luts, lutValid := valid, progress := progress, pos := pos, ticks := ticks }

section LutPass

variable {s : State} {l l' : Luts} {v v' : LutValid} {p p' : Word} {pos pos' : Pos} {j : Nat}

/-- A step of the pass, counted. -/
theorem Reaches.lutAt (hb : s.busy = true)
    (h : engineMove (s.lutAt l v p pos j) = .next (s.lutAt l' v' p' pos' j)) :
    Reaches (s.lutAt l v p pos j) (s.lutAt l' v' p' pos' (j + 1)) :=
  .of_move (s := s.lutAt l v p pos j) hb h hb

/-- A step of the filling of a group stores the next entry, and the last one ends it. -/
theorem engineMove_lutFill {g : Group} {rest : List Group} {n : Nat} (hn : n < g.entries) :
    engineMove (s.lutAt (l.stored s.cfg s.params.gainTol g n) v p (.lutFill g rest n) j) =
      .next (s.lutAt (l.stored s.cfg s.params.gainTol g (n + 1)) v p
        (if n + 1 < g.entries then .lutFill g rest (n + 1) else .lutMark g rest) j) := by
  rw [← Luts.stored_succ _ _ _ hn]
  rfl

/-- Filling a group comes to each of its entries in turn. -/
theorem lutFill_reaches (hb : s.busy = true) (g : Group) (rest : List Group) {n : Nat} (hn : n < g.entries) :
    Reaches (s.lutAt l v p (.lutFill g rest 0) j)
      (s.lutAt (l.stored s.cfg s.params.gainTol g n) v p (.lutFill g rest n) (j + n)) := by
  induction n with
  | zero => rw [Luts.stored_zero]; exact Reaches.refl _
  | succ n ih =>
    have hn' : n < g.entries := Nat.lt_of_succ_lt hn
    exact (ih hn').trans (.lutAt hb (by rw [engineMove_lutFill hn', if_pos hn]))

/-- A group is cleared, filled, marked and counted. -/
theorem lutGroup_reaches (hb : s.busy = true) (hs : l.sized) (g : Group) (rest : List Group) :
    ∃ j', Reaches (s.lutAt l v p (.lutClear g rest) j)
      (s.lutAt (l.built s.cfg s.params.gainTol [g]) (v.marked [g]) (p + 1) (.lutOpen rest) j') := by
  have hlast : g.entries - 1 + 1 = g.entries := Nat.sub_add_cancel g.entries_pos
  have hclear : Reaches (s.lutAt l v p (.lutClear g rest) j)
      (s.lutAt l (v.set g false) p (.lutFill g rest 0) (j + 1)) := .lutAt hb rfl
  have hfill := hclear.trans (lutFill_reaches hb g rest (Nat.sub_one_lt_of_lt g.entries_pos))
  have hstored := hfill.trans (.lutAt hb (engineMove_lutFill (Nat.sub_one_lt_of_lt g.entries_pos)))
  rw [hlast, if_neg (lt_irrefl _), Luts.stored_entries _ _ g hs] at hstored
  have hmark := hstored.trans (.lutAt (v' := v.marked [g]) (pos' := .lutCount rest) hb
    (by rw [← LutValid.marked_singleton]; rfl))
  exact ⟨_, hmark.trans (.lutAt hb rfl)⟩

/-- The LUT pass fills, marks and counts its groups. -/
theorem lutPass_reaches (hb : s.busy = true) (hc : s.cancelPending = false) (hs : l.sized) (gs : List Group) :
    ∃ j', Reaches (s.lutAt l v p (.lutOpen gs) j)
      (s.lutAt (l.built s.cfg s.params.gainTol gs) (v.marked gs) (p + BitVec.ofNat 32 gs.length) .between j') := by
  induction gs generalizing l v p j with
  | nil =>
    rw [List.length_nil, BitVec.add_zero]
    exact ⟨j + 1, .lutAt hb rfl⟩
  | cons g gs ih =>
    have hopen : Reaches (s.lutAt l v p (.lutOpen (g :: gs)) j) (s.lutAt l v p (.lutClear g gs) (j + 1)) :=
      .lutAt hb (by simp [engineMove, stepLutOpen, State.lutAt, hc])
    obtain ⟨j₁, hgroup⟩ := lutGroup_reaches (v := v) (p := p) (j := j + 1) hb hs g gs
    obtain ⟨j₂, hpass⟩ := ih (v := v.marked [g]) (p := p + 1) (j := j₁)
      (Luts.built_sized s.cfg s.params.gainTol [g] hs)
    have hcount : p + 1 + BitVec.ofNat 32 gs.length = p + BitVec.ofNat 32 (g :: gs).length := by
      rw [List.length_cons, BitVec.ofNat_add, BitVec.add_assoc, BitVec.add_comm 1]
      rfl
    rw [Luts.built_cons, LutValid.marked_cons, hcount] at hpass
    exact ⟨j₂, hopen.trans (hgroup.trans hpass)⟩

end LutPass

/-- A command whose next pass is a LUT pass comes to the end of that pass. -/
theorem nextLutPass_reaches {s : State} {gs : List Group} {rest : List PassPlan} (hb : s.busy = true)
    (hc : s.cancelPending = false) (hs : s.luts.sized) (hp : s.pos = .between) (ht : s.todo = .lut gs :: rest) :
    ∃ j, Reaches s
      ({ s with pass := .lut, todo := rest }.lutAt (s.luts.built s.cfg s.params.gainTol gs) (s.lutValid.marked gs)
        (BitVec.ofNat 32 gs.length) .between j) := by
  obtain ⟨j, hpass⟩ := lutPass_reaches (s := { s with pass := .lut, todo := rest }) (v := s.lutValid) (p := 0)
    (j := s.ticks + 2) hb hc hs gs
  rw [show (0 : Word) + BitVec.ofNat 32 gs.length = _ from BitVec.zero_add _] at hpass
  have hmove : engineMove s = .next
      ({ s with pass := .lut, todo := rest }.lutAt s.luts s.lutValid s.progress (.starting (.lut gs)) s.ticks) := by
    simp only [engineMove, hp, stepBetween, ht]
    rfl
  refine ⟨j, (Reaches.of_move hb hmove hb).trans (.trans ?_ hpass)⟩
  exact .lutAt (s := { s with pass := .lut, todo := rest }) (j := s.ticks + 1) hb rfl

/-! ### LUT_BUILD (R199) -/

/-- A valid LUT_BUILD comes to its end with the selected groups filled, marked and counted. -/
theorem lutBuild_reaches {s : State} (lvl g8 g16 : Bool) (hb : s.busy = true) (hc : s.cancelPending = false)
    (hs : s.luts.sized) (hp : s.pos = .checked none) (ht : s.todo = lutBuildPlan lvl g8 g16) (h0 : s.progress = 0) :
    ∃ (pass : Pass) (j : Nat), Reaches s
      (finish .done ({ s with pass := pass, todo := [] }.lutAt
        (s.luts.built s.cfg s.params.gainTol (selectedGroups lvl g8 g16))
        (s.lutValid.marked (selectedGroups lvl g8 g16))
        (BitVec.ofNat 32 (selectedGroups lvl g8 g16).length) .between j)) := by
  have hmove : engineMove s = .next { s with pos := .between } := by simp [engineMove, hp]
  have hfirst := Reaches.of_move hb hmove hb
  rw [lutBuildPlan] at ht
  split_ifs at ht with hgs
  · refine ⟨s.pass, s.ticks + 1, ?_⟩
    rw [hgs, Luts.built_nil, LutValid.marked_nil, List.length_nil, ← ht]
    rw [show BitVec.ofNat 32 0 = s.progress from h0.symm]
    exact hfirst.trans (.of_finish hb (by simp [engineMove, stepBetween, ht]))
  · obtain ⟨j, hpass⟩ := nextLutPass_reaches (s := { s with pos := .between, ticks := s.ticks + 1 }) hb hc hs rfl ht
    exact ⟨.lut, j, hfirst.trans (hpass.trans (.of_finish hb rfl))⟩

theorem selectedGroups_length (lvl g8 g16 : Bool) :
    (selectedGroups lvl g8 g16).length = lvl.toNat + g8.toNat + g16.toNat := by
  cases lvl <;> cases g8 <;> cases g16 <;> rfl

/-- Settles O15: the run of the LUT pass, ended by `finish`, which leaves what the pass has made. -/
theorem lutBuildFillsTheSelectedTables : Obligations.LutBuildFillsTheSelectedTables := by
  unfold Obligations.LutBuildFillsTheSelectedTables
  intro lvl g8 g16 s hb hu hs hv
  obtain ⟨pass, j, ht⟩ := lutBuild_reaches lvl g8 g16
    (s := (accept (encode (.lutBuild lvl g8 g16)) s).launched none (lutBuildPlan lvl g8 g16)) rfl rfl hs rfl rfl rfl
  refine ⟨_, exec_of_reaches nofun hb hu hv ht (finish_busy _ _), ?_, ?_,
    ⟨rfl, rfl, rfl, rfl, rfl, finish_src_unraced .done rfl, rfl, rfl⟩,
    tablesBuilt_of_built (finish_luts _ _) (finish_lutValid _ _), ?_, finish_stats_unread .done rfl,
    finish_dst_unread .done rfl rfl rfl⟩
  · constructor <;> rfl
  · constructor <;> rfl
  · have hlen := selectedGroups_length lvl g8 g16
    have hlvl := Bool.toNat_le lvl
    have hg8 := Bool.toNat_le g8
    have hg16 := Bool.toNat_le g16
    rw [finish_progress, State.lutAt, BitVec.toNat_ofNat, Nat.mod_eq_of_lt (by omega), hlen]

end Sys2Proof.Machine
end

section
/-! The life cycle of a command (40_harness): NOP, a word written while a command runs, and what validation sees, with their
obligations. -/

namespace Sys2Proof.Machine

/-! ### NOP, and a word written while a command runs (R141, R154) -/

/-- OVERRUN set before the engine runs is OVERRUN set after it. -/
theorem settle_setOverrun (s : State) : settle s.setOverrun = mapNext State.setOverrun (settle s) :=
  settle_mapHostRegs id (fun _ => true) s

theorem exec_busy {i : Instr} {s : State} (hb : s.busy = true) : exec i s = mapNext State.setOverrun (settle s) := by
  rw [exec_eq_settle_issued, issued_busy hb, settle_setOverrun]

/-- Settles O6: every word leaves the running command as it is, and the engine never sees OVERRUN. -/
theorem commandWhileBusyOnlySetsOverrun : Obligations.CommandWhileBusyOnlySetsOverrun := by
  unfold Obligations.CommandWhileBusyOnlySetsOverrun
  intro s hb
  refine ⟨fun i => exec_busy hb, fun w => ?_⟩
  unfold issueWord
  split
  · exact exec_busy hb
  · rw [illegalCommand, if_pos hb, settle_setOverrun]

theorem exec_nop_idle {s : State} (hb : s.busy = false) : exec .nop s = .next (finish .done (accept 0 s)) :=
  if_neg (by simp [hb])

/-- With OP 0 only the word 0 is legal (R115). -/
theorem illegal_of_op_zero {w : Word} (hop : w.extractLsb' 0 4 = 0) (hw : w ≠ 0) : ∃ why, decode w = .illegal why := by
  rw [exists_illegal_iff, command?_eq_none_iff]
  by_contra hlegal
  simp only [hop, not_or, not_and, ne_eq, not_not] at hlegal
  obtain ⟨-, hrsv, hflags, -⟩ := hlegal
  refine hw ?_
  rw [word_eq_fields w, hop, hrsv, hflags (by simp)]
  rfl

/-- STATUS of an idle block that has ended DONE with nothing truncated (R27). -/
theorem status_of_endedDone {t : State} (h : EndedDone false t) (hb : t.busy = false) (hp : t.pass = .idle) :
    t.status = if t.overrun then 0x12 else 0x02 := by
  obtain ⟨hd, he, hc, hcode, ht⟩ := h
  rw [State.status, hb, hd, he, hc, hcode, ht, hp]
  cases t.overrun <;> rfl

/-- Settles O5: NOP is accepted and over at once; OP 0 with another bit set decodes to no command. -/
theorem nopOnlyReportsDone : Obligations.NopOnlyReportsDone := by
  unfold Obligations.NopOnlyReportsDone
  refine ⟨fun s hb => ?_, fun w => illegal_of_op_zero⟩
  have hdone : EndedDone false (finish .done (accept 0 s)) := by constructor <;> rfl
  refine ⟨_, exec_nop_idle hb, by constructor <;> rfl, hdone,
    ⟨rfl, rfl, rfl, rfl, rfl, finish_src_unraced _ rfl, rfl, rfl⟩, ⟨rfl, rfl, finish_stats_unread _ rfl⟩,
    finish_dst_unread _ rfl rfl rfl, rfl, ?_⟩
  exact status_of_endedDone hdone rfl rfl

/-! ### What validation sees (R145) -/

/-- Settles O14: every check reads the snapshot, the sizes of the spaces or LUT_VALID. -/
theorem validationSeesSnapshotAndLutValidOnly : Obligations.ValidationSeesSnapshotAndLutValidOnly := by
  unfold Obligations.ValidationSeesSnapshotAndLutValidOnly
  intro i a b hp hc hv
  cases i with
  | nop => rfl
  | lutBuild lvl g8 g16 => simp only [verdictOf, lutBuildChecks, hc]
  | bayerDecode build => simp only [verdictOf, bayerChecks, hc, hp, hv]
  | demosaic => simp only [verdictOf, demosaicChecks, hc, hp]
  | yuvConvert => simp only [verdictOf, yuvChecks, hc, hp]

end Sys2Proof.Machine
end

section
/-! The engine of a validated command (R144, R145): every step keeps it on passes its snapshot allows, and it stops at an
unwritten table entry only. -/

namespace Sys2Proof.Machine

/-! ### The engine of a validated command (R144, R145) -/

section Ready

variable {s t : State}

/-- What a position and a plan need is a matter of the snapshot and the parameters. -/
theorem State.planReady_congr (hc : t.cfg = s.cfg) (hp : t.params = s.params) : t.planReady = s.planReady := by
  have hpass : t.passReady = s.passReady := by
    funext p
    cases p <;> simp only [State.passReady, State.inSpaces, hc, hp]
  have hpos : t.posReady = s.posReady := by
    funext p
    cases p <;> simp only [State.posReady, hpass, hc]
  funext p todo
  simp only [State.planReady, hpass, hpos]

/-- The passes to come are ready where no error is to be reported. -/
theorem State.planReady.todo {p : Pos} {todo : List PassPlan} (h : s.planReady p todo)
    (hp : ∀ code, p ≠ .checked (some code)) : ∀ q ∈ todo, s.passReady q :=
  h.2.resolve_left fun ⟨code, hc⟩ => hp code hc

theorem CfgRegs.demosaicReads_pos (c : CfgRegs) (own : Chan) (x y : Nat) : 0 < (c.demosaicReads own x y).length :=
  Nat.succ_pos _

/-- A pixel of the raw pass starts with a byte to fetch. -/
theorem State.passReady_raw_bytes (h : s.passReady .raw) : 0 < s.cfg.rawBytes := by
  obtain ⟨k, hk⟩ := Option.ne_none_iff_exists'.1 h.1
  rw [CfgRegs.rawBytes_eq hk]
  exact PlaneRegs.container_bytes hk

/-- A pixel of the YUV pass starts with a byte to fetch. -/
theorem State.passReady_yuv_bytes (h : s.passReady .yuv) : 0 < s.cfg.yuvBytes := by
  obtain ⟨k, hk⟩ := Option.ne_none_iff_exists'.1 h.1
  have h0 : s.cfg.p0.container = some k.1 := by
    unfold CfgRegs.yuvContainers at hk
    split at hk
    · cases hk; assumption
    · cases hk
  have := PlaneRegs.container_bytes h0
  rw [CfgRegs.yuvBytes_eq hk 0 0]
  simp only [CfgRegs.yuvDeps, List.length_append, List.length_map, CfgRegs.dep_length]
  omega

theorem rawStep_ready {y x : Nat} {b : Bool} {phase : RawPhase} {k : Container} {ch : Chan} (h : s.passReady .raw)
    (hk : s.cfg.p0.container = some k) (hr : rawStep y x b phase k ch s = .next t) :
    s.posReady t.pos ∧ t.todo = s.todo := by
  have hstart := State.passReady_raw_bytes h
  obtain ⟨-, -, rfl⟩ | ⟨got, a, -, -, -, rfl⟩ | ⟨raw, p, -, hp, rfl⟩ | ⟨i, v, -, -, rfl⟩ | ⟨v, -, rfl⟩ | ⟨out, -, rfl⟩ :=
    rawStep_cases hr
  · exact ⟨⟨h, hstart⟩, rfl⟩
  · refine ⟨⟨h, ?_⟩, rfl⟩
    unfold CfgRegs.rawFetched
    dsimp only
    split_ifs with hlt
    · rwa [RawPhase.ready, CfgRegs.rawBytes_eq hk, ← CfgRegs.dep_length s.cfg s.cfg.p0 k x y]
    · trivial
  · refine ⟨⟨h, ?_⟩, rfl⟩
    cases k <;> simp only [Luts.look, Option.map_eq_some_iff] at hp <;> obtain ⟨v, -, rfl⟩ := hp <;> trivial
  · exact ⟨⟨h, trivial⟩, rfl⟩
  · exact ⟨⟨h, trivial⟩, rfl⟩
  · exact ⟨⟨h, hstart⟩, State.writePixel_todo _ _ _ _⟩

theorem yuvStep_ready {y x : Nat} {b : Bool} {phase : YuvPhase} {k : Container × Container × Container}
    (h : s.passReady .yuv) (hk : s.cfg.yuvContainers = some k) (hr : yuvStep y x b phase k s = .next t) :
    s.posReady t.pos ∧ t.todo = s.todo := by
  have hstart := State.passReady_yuv_bytes h
  obtain ⟨-, -, rfl⟩ | ⟨got, n, a, -, -, -, rfl⟩ | ⟨v, -, rfl⟩ := yuvStep_cases hr
  · exact ⟨⟨h, hstart⟩, rfl⟩
  · refine ⟨⟨h, ?_⟩, rfl⟩
    unfold CfgRegs.yuvFetched
    dsimp only
    split_ifs with hlt
    · rwa [YuvPhase.ready, CfgRegs.yuvBytes_eq hk x y]
    · trivial
  · exact ⟨⟨h, hstart⟩, State.writePixel_todo _ _ _ _⟩

/-- A worker that is not reading has nothing to be ready for. -/
theorem Worker.ready_of_phase {c : CfgRegs} {w : Worker} (h : ∀ got, w.phase ≠ .read got) : w.ready c :=
  fun got hg => absurd hg (h got)

theorem Worker.ready_fetched {c : CfgRegs} {own : Chan} {x y : Nat} {got : List Nat} (ho : c.color x y = some own) :
    (⟨y, x, c.demosaicFetched own x y got⟩ : Worker).ready c := by
  intro got' hg own' ho'
  cases ho.symm.trans ho'
  simp only [CfgRegs.demosaicFetched] at hg
  split_ifs at hg with hlt
  cases hg
  exact hlt

theorem stepWorker_ready {i : Nat} {w : Worker} {active : List Worker} {waiting : List Nat} {stopped : Bool}
    (h : s.passReady .demosaic) (hactive : ∀ w ∈ active, w.ready s.cfg)
    (hw : stepWorker i w active waiting stopped s = .next t) : s.posReady t.pos ∧ t.todo = s.todo := by
  have herase : ∀ u ∈ active.eraseIdx i, u.ready s.cfg := fun u hu => hactive u (List.mem_of_mem_eraseIdx hu)
  have hset : ∀ p : Worker, p.ready s.cfg → ∀ u ∈ active.set i p, u.ready s.cfg := fun p hp u hu =>
    (List.mem_or_eq_of_mem_set hu).elim (hactive u) fun e => e ▸ hp
  obtain ⟨-, -, rfl⟩ | ⟨-, -, rfl⟩ | ⟨got, own, px, py, c, -, ho, -, -, rfl⟩ | ⟨v, -, -, rfl⟩ | ⟨-, rfl⟩ :=
    stepWorker_cases hw
  · exact ⟨⟨h, herase⟩, rfl⟩
  · refine ⟨⟨h, hset _ fun got hg own _ => ?_⟩, rfl⟩
    cases hg
    exact s.cfg.demosaicReads_pos own w.x w.y
  · exact ⟨⟨h, hset _ (Worker.ready_fetched ho)⟩, rfl⟩
  · refine ⟨⟨h, hset _ (Worker.ready_of_phase fun got => ?_)⟩, State.writePixel_todo _ _ _ _⟩
    split_ifs <;> nofun
  · exact ⟨⟨h, herase⟩, rfl⟩

/-- A step of a validated command ends it, or comes to a position that is validated too. -/
theorem engineMove_ready (h : s.planReady s.pos s.todo) (hm : engineMove s = .next t) :
    t.busy = false ∨ s.planReady t.pos t.todo := by
  have htodo := h.todo
  have hpos := h.1
  have goOn {u : State} (hp : s.posReady u.pos) (ht : ∀ q ∈ u.todo, s.passReady q) :
      u.busy = false ∨ s.planReady u.pos u.todo := .inr ⟨hp, .inr ht⟩
  unfold engineMove at hm
  generalize s.pos = p at hm hpos htodo
  cases p with
  | idle => cases hm
  | checked v =>
    cases v with
    | some code => cases hm; exact .inl (finish_busy _ _)
    | none => cases hm; exact goOn trivial (htodo nofun)
  | between =>
    cases hm
    have ht := htodo nofun
    unfold stepBetween
    split
    · exact .inl (finish_busy _ _)
    · rename_i p rest hp
      rw [hp, List.forall_mem_cons] at ht
      cases p <;> exact goOn ht.1 ht.2
  | starting p =>
    cases hm
    cases p with
    | demosaic => exact goOn ⟨hpos, nofun⟩ (htodo nofun)
    | lut gs => exact goOn trivial (htodo nofun)
    | raw => exact goOn hpos (htodo nofun)
    | yuv => exact goOn hpos (htodo nofun)
  | lutOpen groups =>
    cases hm
    unfold stepLutOpen
    split
    · exact goOn trivial (htodo nofun)
    · split_ifs
      · exact .inl (finish_busy _ _)
      · exact goOn trivial (htodo nofun)
  | lutFill g rest n =>
    cases hm
    unfold stepLutFill
    exact goOn (by dsimp only; split_ifs <;> trivial) (htodo nofun)
  | rawClear => cases hm; exact goOn hpos (htodo nofun)
  | rawRow y =>
    cases hm
    unfold stepRowStart
    split_ifs
    · exact goOn trivial (htodo nofun)
    · exact .inl (finish_busy _ _)
    · exact goOn ⟨hpos, State.passReady_raw_bytes hpos⟩ (htodo nofun)
  | rawPix y x b phase =>
    obtain ⟨-, rfl⟩ | ⟨-, -, k, ch, hk, -, hr⟩ := stepRawPix_cases hm
    · exact goOn (by cases b <;> [exact hpos.1; trivial]) (htodo nofun)
    · obtain ⟨hp, ht⟩ := rawStep_ready hpos.1 hk hr
      exact goOn hp (ht ▸ htodo nofun)
  | demosaic active waiting stopped =>
    obtain ⟨hpass, hactive⟩ := hpos
    obtain ⟨-, -, rfl⟩ | ⟨i, w, -, hw⟩ | ⟨j, y, -, -, rfl⟩ := stepDemosaic_cases hm
    · split_ifs
      · exact .inl (finish_busy _ _)
      · exact goOn trivial (htodo nofun)
    · obtain ⟨hp, ht⟩ := stepWorker_ready (s := { s with sched := s.sched.tail }) hpass hactive hw
      exact goOn hp (ht ▸ htodo nofun)
    · refine goOn ⟨hpass, ?_⟩ (htodo nofun)
      rw [List.forall_mem_append, List.forall_mem_singleton]
      exact ⟨hactive, Worker.ready_of_phase nofun⟩
  | yuvRow y =>
    cases hm
    unfold stepRowStart
    split_ifs
    · exact goOn trivial (htodo nofun)
    · exact .inl (finish_busy _ _)
    · exact goOn ⟨hpos, State.passReady_yuv_bytes hpos⟩ (htodo nofun)
  | yuvPix y x b phase =>
    obtain ⟨-, rfl⟩ | ⟨-, -, k, hk, hr⟩ := stepYuvPix_cases hm
    · exact goOn (by cases b <;> [exact hpos.1; trivial]) (htodo nofun)
    · obtain ⟨hp, ht⟩ := yuvStep_ready hpos.1 hk hr
      exact goOn hp (ht ▸ htodo nofun)
  | _ => cases hm; exact goOn trivial (htodo nofun)

/-- A counted step keeps the engine of a validated command at work on validated passes. -/
theorem engineStep_ready (h : s.EngineReady) (ht : engineStep s = .next t) : t.EngineReady := by
  intro hb
  obtain ⟨hbs, hlaunch, -⟩ := engineStep_busy ht hb
  obtain ⟨hplan, hfrom⟩ := h hbs
  have hk := engineStep_kept ht
  rw [State.planReady_congr hk.cfg hk.params, hlaunch]
  obtain ⟨u, hu, rfl⟩ := engineStep_cases ht
  exact ⟨(engineMove_ready hplan hu).resolve_left (by simpa using hb), hfrom⟩

/-! ### Where the engine can stop (R60, R84) -/

/-- The table entry the phase is to read is unwritten. -/
def RawPhase.unwritten (t : Luts) (c : CfgRegs) (k : Container) (ch : Chan) (wide : Half) : RawPhase → Prop
  | .look raw => t.look c k ch raw = none
  | .gain index => t.gain16 ch index wide = none
  | _ => False

/-- The engine stands before the read of an unwritten table entry. -/
def State.AtUnwritten (s : State) : Prop :=
  ∃ y x b phase k ch, s.pos = .rawPix y x b phase ∧ s.cfg.p0.container = some k ∧
    phase.unwritten s.luts s.cfg k ch (s.wideAt x y)

theorem rawStep_fault {y x : Nat} {b : Bool} {phase : RawPhase} {k : Container} {ch : Chan} {e : Fault}
    (hk : s.cfg.p0.container = some k) (hp : phase.ready s.cfg) (hr : rawStep y x b phase k ch s = .fault e) :
    e = .uninitLut ∧ phase.unwritten s.luts s.cfg k ch (s.wideAt x y) := by
  cases phase with
  | fetch got =>
    have hlt : got.length < (s.cfg.dep s.cfg.p0 k x y).length := by
      rwa [CfgRegs.dep_length, ← CfgRegs.rawBytes_eq hk]
    simp only [rawStep, rawFetch, List.getElem?_eq_getElem hlt] at hr
    split_ifs at hr
  | look raw =>
    simp only [rawStep] at hr
    split at hr
    · cases hr
    · cases hr; exact ⟨rfl, ‹_›⟩
  | gain index =>
    simp only [rawStep] at hr
    split at hr
    · cases hr
    · cases hr; exact ⟨rfl, ‹_›⟩
  | count v => cases hr
  | write out => cases hr

theorem stepRawPix_fault {y x : Nat} {b : Bool} {phase : RawPhase} {e : Fault} (h : s.passReady .raw)
    (hp : phase.ready s.cfg) (hf : stepRawPix y x b phase s = .fault e) :
    e = .uninitLut ∧ ∃ k ch, s.cfg.p0.container = some k ∧ phase.unwritten s.luts s.cfg k ch (s.wideAt x y) := by
  obtain ⟨hcont, hcolor, hin⟩ := h
  obtain ⟨k, hk⟩ := Option.ne_none_iff_exists'.1 hcont
  obtain ⟨ch, hch⟩ := Option.ne_none_iff_exists'.1 (hcolor x y)
  simp only [stepRawPix, hin, hk, hch, if_true] at hf
  split_ifs at hf
  obtain ⟨he, hu⟩ := rawStep_fault hk hp hf
  exact ⟨he, k, ch, hk, hu⟩

theorem stepYuvPix_ne_fault {y x : Nat} {b : Bool} {phase : YuvPhase} (h : s.passReady .yuv)
    (hp : phase.ready s.cfg) (e : Fault) : stepYuvPix y x b phase s ≠ .fault e := by
  obtain ⟨hcont, hin⟩ := h
  obtain ⟨k, hk⟩ := Option.ne_none_iff_exists'.1 hcont
  simp only [stepYuvPix, hin, hk, if_true]
  split_ifs
  · nofun
  · cases phase with
    | fetch got =>
      have hlt : got.length < (s.cfg.yuvDeps k x y).length := by rwa [← CfgRegs.yuvBytes_eq hk x y]
      simp only [yuvStep, List.getElem?_eq_getElem hlt]
      split_ifs <;> nofun
    | write v => nofun

theorem stepWorker_ne_fault {i : Nat} {w : Worker} {active : List Worker} {waiting : List Nat} {stopped : Bool}
    (h : s.passReady .demosaic) (hw : w.ready s.cfg) (e : Fault) :
    stepWorker i w active waiting stopped s ≠ .fault e := by
  obtain ⟨hcolor, hdst⟩ := h
  obtain ⟨wy, wx, phase⟩ := w
  cases phase with
  | gate =>
    simp only [stepWorker]
    split_ifs <;> nofun
  | read got =>
    obtain ⟨own, ho⟩ := Option.ne_none_iff_exists'.1 (hcolor wx wy)
    have hlt : got.length < (s.cfg.demosaicReads own wx wy).length := hw got rfl own ho
    simp [stepWorker, workerRead, ho, hdst, List.getElem?_eq_getElem hlt]
  | write v => simp [stepWorker, hdst]
  | count => nofun

/-- While a row is left, there is a worker to move or a row to start (R286). -/
theorem choices_pos {workers : Nat} {active : List Worker} {waiting : List Nat}
    (h : active = [] → waiting = [] → False) : 0 < active.length + (startable workers active waiting).length := by
  cases active with
  | nil =>
    have hpos : ([] : List Worker).length < max workers 1 := by simp
    rw [startable, if_pos hpos, List.length_nil, Nat.zero_add]
    exact List.length_pos_iff.2 (h rfl)
  | cons w ws => exact Nat.add_pos_left (Nat.succ_pos _) _

theorem stepDemosaic_ne_fault {active : List Worker} {waiting : List Nat} {stopped : Bool}
    (h : s.passReady .demosaic) (hw : ∀ w ∈ active, w.ready s.cfg) (e : Fault) :
    stepDemosaic active waiting stopped s ≠ .fault e := by
  unfold stepDemosaic
  split
  · nofun
  · rename_i hleft
    have hpick := Nat.mod_lt (s.sched.headD 0) (choices_pos (workers := s.params.workers) hleft)
    dsimp only
    split
    · rename_i w hi
      exact stepWorker_ne_fault (s := { s with sched := s.sched.tail }) h (hw w (List.mem_of_getElem? hi)) e
    · rename_i hnone
      split
      · nofun
      · rename_i hrow
        rw [List.getElem?_eq_none_iff] at hnone hrow
        unfold schedulePick at hnone hrow
        omega

/-- The engine of a validated command stops at an unwritten table entry only. -/
theorem engineMove_fault {e : Fault} (h : s.planReady s.pos s.todo) (hf : engineMove s = .fault e) :
    e = .uninitLut ∧ s.AtUnwritten := by
  have hpos := h.1
  unfold engineMove at hf
  unfold State.AtUnwritten
  generalize s.pos = p at hf hpos
  cases p with
  | idle => exact hpos.elim
  | checked v => cases v <;> cases hf
  | rawPix y x b phase =>
    obtain ⟨he, k, ch, hk, hu⟩ := stepRawPix_fault hpos.1 hpos.2 hf
    exact ⟨he, y, x, b, phase, k, ch, rfl, hk, hu⟩
  | demosaic active waiting stopped => exact absurd hf (stepDemosaic_ne_fault hpos.1 hpos.2 e)
  | yuvPix y x b phase => exact absurd hf (stepYuvPix_ne_fault hpos.1 hpos.2 e)
  | _ => cases hf

/-- A run that stops does so from a state with what holds at its start and is kept by every step. -/
theorem runEngine_fault {P : State → Prop}
    (hstep : ∀ s t, s.busy = true → P s → engineStep s = .next t → P t) {n : Nat} {e : Fault} (hs : P s)
    (h : runEngine n s = .fault e) : ∃ u, u.busy = true ∧ P u ∧ engineMove u = .fault e := by
  induction n generalizing s with
  | zero => cases h
  | succ n ih =>
    cases hb : s.busy with
    | false =>
      rw [runEngine_idle _ hb] at h
      cases h
    | true =>
      rw [runEngine_succ n hb] at h
      cases hm : engineMove s with
      | next u =>
        have hu : engineStep s = .next (u.ticked s.ticks) := by rw [engineStep, hm]; rfl
        rw [hu] at h
        exact ih (hstep s _ hb hs hu) h
      | fault e' =>
        rw [engineStep, hm] at h
        cases h
        exact ⟨s, hb, hs, hm⟩
      | refused q => exact absurd hm (engineMove_notRefused s q)

/-- The engine of a validated command, given the steps the measure allows, ends it or stops at an unwritten entry. -/
theorem runEngine_work (h : s.EngineReady) :
    (∃ t, runEngine s.work s = .next t ∧ t.busy = false) ∨ runEngine s.work s = .fault .uninitLut := by
  cases hr : runEngine s.work s with
  | next t => exact .inl ⟨t, rfl, runEngine_ends le_rfl hr⟩
  | fault e =>
    obtain ⟨u, hb, hu, hf⟩ := runEngine_fault (P := State.EngineReady) (fun _ _ _ => engineStep_ready) h hr
    obtain ⟨rfl, -⟩ := engineMove_fault (hu hb).1 hf
    exact .inr rfl
  | refused q => exact absurd hr (runEngine_notRefused _ s q)

end Ready

/-! ### What validation grants (R301, R303) -/

/-- A command that has passed its validation has passed each check. -/
theorem checksOf_pass {i : Instr} {a : State} (hv : verdictOf i a = none) : ∀ c ∈ checksOf i a, c.2 = false := by
  cases i with
  | nop => exact nofun
  | _ => exact firstFailing_eq_none.1 hv

theorem CfgRegs.color_ne_none {c : CfgRegs} (h : c.badPattern = false) (x y : Nat) : c.color x y ≠ none := by
  have hsize : 0 < c.tileSize := by rcases c.tileSize_cases with h | h <;> omega
  simp only [CfgRegs.badPattern, Bool.or_eq_false_iff, List.any_eq_false, List.mem_range] at h
  have hrow := h.2 (y % c.tileSize) (Nat.mod_lt _ hsize)
  simp only [List.any_eq_true, List.mem_range, not_exists, not_and, beq_iff_eq] at hrow
  exact hrow (x % c.tileSize) (Nat.mod_lt _ hsize)

theorem PlaneRegs.exists_container {p : PlaneRegs} (h : p.badBits = false) : ∃ k, p.container = some k := by
  rw [PlaneRegs.badBits, beq_eq_false_iff_ne] at h
  exact Option.ne_none_iff_exists'.1 h

/-- The passes of a command that has passed its validation are ready (R144). -/
theorem planOf_ready {i : Instr} {a : State} (hv : verdictOf i a = none) : ∀ p ∈ planOf i a, a.passReady p := by
  have hok := checksOf_pass hv
  cases i with
  | nop => exact nofun
  | lutBuild lvl g8 g16 =>
    intro p hp
    simp only [planOf, lutBuildPlan] at hp
    split_ifs at hp
    · cases hp
    · cases List.mem_singleton.1 hp
      trivial
  | bayerDecode build =>
    simp only [checksOf, bayerChecks, List.forall_mem_cons] at hok
    obtain ⟨-, hdst, hsrc, -, hbits, -, -, -, hpattern, -⟩ := hok
    have hcolor := CfgRegs.color_ne_none hpattern
    intro p hp
    cases p with
    | lut gs => trivial
    | raw =>
      obtain ⟨k, hk⟩ := PlaneRegs.exists_container hbits
      exact ⟨by simp [hk], hcolor, by simp [State.inSpaces, hdst, hsrc]⟩
    | demosaic => exact ⟨hcolor, hdst⟩
    | yuv => simp [planOf, bayerPlan] at hp
  | demosaic =>
    simp only [checksOf, demosaicChecks, List.forall_mem_cons] at hok
    obtain ⟨-, hdst, -, hpattern, -⟩ := hok
    intro p hp
    cases List.mem_singleton.1 hp
    exact ⟨CfgRegs.color_ne_none hpattern, hdst⟩
  | yuvConvert =>
    simp only [checksOf, yuvChecks, List.forall_mem_cons, Bool.or_eq_false_iff] at hok
    obtain ⟨-, hdst, hsrc, -, ⟨⟨hb0, hb1⟩, hb2⟩, -⟩ := hok
    obtain ⟨k0, hk0⟩ := PlaneRegs.exists_container hb0
    obtain ⟨k1, hk1⟩ := PlaneRegs.exists_container hb1
    obtain ⟨k2, hk2⟩ := PlaneRegs.exists_container hb2
    intro p hp
    cases List.mem_singleton.1 hp
    exact ⟨by simp [CfgRegs.yuvContainers, hk0, hk1, hk2], by simp [State.inSpaces, hdst, hsrc]⟩

/-- On an idle block a command is over at once, or set out from its verdict (R143, R144). -/
theorem issued_idle_cases (i : Instr) {s : State} (hb : s.busy = false) :
    issued i s = finish .done (accept (encode i) s) ∨
      issued i s =
        (accept (encode i) s).launched (verdictOf i (accept (encode i) s)) (planOf i (accept (encode i) s)) := by
  unfold issued
  rw [if_neg (by simp [hb])]
  cases i with
  | nop => exact .inl rfl
  | _ => exact .inr rfl

/-- What a command sets out from is validated, or is to report why it is not (R144). -/
theorem issued_ready (i : Instr) {s : State} (hb : s.busy = false) : (issued i s).EngineReady := by
  rcases issued_idle_cases i hb with h | h <;> rw [h]
  · exact fun hbusy => absurd hbusy (by simp)
  · have hplan : (accept (encode i) s).planReady (.checked (verdictOf i (accept (encode i) s)))
        (planOf i (accept (encode i) s)) := by
      refine ⟨trivial, ?_⟩
      cases hv : verdictOf i (accept (encode i) s) with
      | some code => exact .inl ⟨code, rfl⟩
      | none => exact .inr (planOf_ready hv)
    exact fun _ => ⟨hplan, fun l hl => by cases hl; exact hplan⟩

end Sys2Proof.Machine
end

section
/-! How a command ends (R147, R148): uncancelled with one of DONE and ERROR, and at no unwritten table entry where it fills
the tables its raw pass reads; and the obligation on the end of every command. -/

namespace Sys2Proof.Machine

/-! ### A command no one cancels ends DONE or ERROR (R147, R150) -/

/-- A running command with no outcome yet, that no one has asked to cancel. -/
structure State.Uncancelled (s : State) : Prop where
  busy : s.busy = true
  cancelPending : s.cancelPending = false
  done : s.done = false
  error : s.error = false
  cancelled : s.cancelled = false
  unstopped : ∀ active waiting, s.pos ≠ .demosaic active waiting true

/-- No command runs, and the last one has ended with one of DONE and ERROR. -/
structure State.EndedOnce (t : State) : Prop where
  busy : t.busy = false
  pass : t.pass = .idle
  cancelPending : t.cancelPending = false
  pos : t.pos = .idle
  todo : t.todo = []
  done : t.done = !t.error
  cancelled : t.cancelled = false

section Uncancelled

variable {s t : State}

theorem State.Uncancelled.finish_done (h : s.Uncancelled) : (finish .done s).EndedOnce := by
  constructor <;> simp [h.error, h.cancelled]

theorem State.Uncancelled.finish_error (h : s.Uncancelled) (code : ErrCode) : (finish (.error code) s).EndedOnce := by
  constructor <;> simp [h.done, h.cancelled]

/-- A step that leaves the outcome bits and the cancel request, and goes on where no worker has seen a cancel. -/
theorem State.Uncancelled.goOn (h : s.Uncancelled) (hp : ∀ active waiting, t.pos ≠ .demosaic active waiting true)
    (hkept : t.busy = s.busy ∧ t.cancelPending = s.cancelPending ∧ t.done = s.done ∧ t.error = s.error ∧
      t.cancelled = s.cancelled := by exact ⟨rfl, rfl, rfl, rfl, rfl⟩) : t.Uncancelled := by
  obtain ⟨hb, hcp, hd, he, hc⟩ := hkept
  exact ⟨hb.trans h.busy, hcp.trans h.cancelPending, hd.trans h.done, he.trans h.error, hc.trans h.cancelled, hp⟩

theorem rawStep_uncancelled {y x : Nat} {b : Bool} {phase : RawPhase} {k : Container} {ch : Chan} (h : s.Uncancelled)
    (hr : rawStep y x b phase k ch s = .next t) : t.Uncancelled := by
  obtain ⟨-, -, rfl⟩ | ⟨got, a, -, -, -, rfl⟩ | ⟨raw, p, -, -, rfl⟩ | ⟨i, v, -, -, rfl⟩ | ⟨v, -, rfl⟩ | ⟨out, -, rfl⟩ :=
    rawStep_cases hr
  case inr.inr.inr.inr.inr => exact h.goOn nofun (by simp)
  all_goals exact h.goOn nofun

theorem yuvStep_uncancelled {y x : Nat} {b : Bool} {phase : YuvPhase} {k : Container × Container × Container}
    (h : s.Uncancelled) (hr : yuvStep y x b phase k s = .next t) : t.Uncancelled := by
  obtain ⟨-, -, rfl⟩ | ⟨got, n, a, -, -, -, rfl⟩ | ⟨v, -, rfl⟩ := yuvStep_cases hr
  · exact h.goOn nofun
  · exact h.goOn nofun
  · exact h.goOn nofun (by simp)

theorem stepWorker_uncancelled {i : Nat} {w : Worker} {active : List Worker} {waiting : List Nat} (h : s.Uncancelled)
    (hw : stepWorker i w active waiting false s = .next t) : t.Uncancelled := by
  obtain ⟨-, hc, rfl⟩ | ⟨-, -, rfl⟩ | ⟨got, own, px, py, c, -, -, -, -, rfl⟩ | ⟨v, -, -, rfl⟩ | ⟨-, rfl⟩ :=
    stepWorker_cases hw
  · exact absurd (h.cancelPending.symm.trans hc) nofun
  · exact h.goOn nofun
  · exact h.goOn nofun
  · exact h.goOn nofun (by simp)
  · exact h.goOn nofun

theorem stepRowStart_uncancelled {y : Nat} {row : Pos} (h : s.Uncancelled)
    (hrow : ∀ active waiting, row ≠ .demosaic active waiting true) : (stepRowStart y row s).Uncancelled := by
  unfold stepRowStart
  split_ifs with hy hc
  · exact h.goOn nofun
  · exact absurd (h.cancelPending.symm.trans hc) nofun
  · exact h.goOn hrow

theorem stepRowEnd_uncancelled {b : Bool} {nextRow : Pos} (h : s.Uncancelled)
    (hnext : ∀ active waiting, nextRow ≠ .demosaic active waiting true) : (stepRowEnd b nextRow s).Uncancelled :=
  h.goOn (by cases b <;> [exact hnext; exact nofun])

/-- With no cancel request, a step goes on or ends the command with one of DONE and ERROR. -/
theorem engineMove_uncancelled (h : s.Uncancelled) (hm : engineMove s = .next t) : t.Uncancelled ∨ t.EndedOnce := by
  have hstop := h.unstopped
  unfold engineMove at hm
  generalize s.pos = p at hm hstop
  cases p with
  | idle => cases hm
  | checked v =>
    cases v with
    | some code => cases hm; exact .inr (h.finish_error code)
    | none => cases hm; exact .inl (h.goOn nofun)
  | between =>
    cases hm
    unfold stepBetween
    split
    · exact .inr h.finish_done
    · rename_i p rest _
      cases p <;> exact .inl (h.goOn nofun)
  | starting p => cases hm; cases p <;> exact .inl (h.goOn nofun)
  | lutOpen groups =>
    cases hm
    cases groups with
    | nil => exact .inl (h.goOn nofun)
    | cons g rest =>
      rw [stepLutOpen, if_neg (by simp [h.cancelPending])]
      exact .inl (h.goOn nofun)
  | lutFill g rest n =>
    cases hm
    exact .inl (h.goOn fun _ _ => by unfold stepLutFill; dsimp only; split_ifs <;> nofun)
  | rawRow y => cases hm; exact .inl (stepRowStart_uncancelled h nofun)
  | yuvRow y => cases hm; exact .inl (stepRowStart_uncancelled h nofun)
  | rawPix y x b phase =>
    obtain ⟨-, rfl⟩ | ⟨-, -, k, ch, -, -, hr⟩ := stepRawPix_cases hm
    · exact .inl (stepRowEnd_uncancelled h nofun)
    · exact .inl (rawStep_uncancelled h hr)
  | yuvPix y x b phase =>
    obtain ⟨-, rfl⟩ | ⟨-, -, k, -, hr⟩ := stepYuvPix_cases hm
    · exact .inl (stepRowEnd_uncancelled h nofun)
    · exact .inl (yuvStep_uncancelled h hr)
  | demosaic active waiting stopped =>
    obtain rfl : stopped = false := Bool.eq_false_of_not_eq_true fun e => hstop active waiting (by rw [e])
    obtain ⟨-, -, rfl⟩ | ⟨i, w, -, hw⟩ | ⟨j, y, -, -, rfl⟩ := stepDemosaic_cases hm
    · exact .inl (h.goOn nofun)
    · have h' : State.Uncancelled { s with sched := s.sched.tail } := h.goOn h.unstopped
      exact .inl (stepWorker_uncancelled h' hw)
    · exact .inl (h.goOn nofun)
  | _ => cases hm; exact .inl (h.goOn nofun)

theorem engineStep_uncancelled (h : s.Uncancelled) (ht : engineStep s = .next t) : t.Uncancelled ∨ t.EndedOnce := by
  obtain ⟨u, hu, rfl⟩ := engineStep_cases ht
  refine (engineMove_uncancelled h hu).imp (fun h' => h'.goOn h'.unstopped) fun h' => ?_
  exact ⟨h'.busy, h'.pass, h'.cancelPending, h'.pos, h'.todo, h'.done, h'.cancelled⟩

/-- A command sets out with no outcome and no cancel request; NOP is over. -/
theorem issued_uncancelled (i : Instr) (hb : s.busy = false) :
    (issued i s).Uncancelled ∨ (issued i s).EndedOnce := by
  rcases issued_idle_cases i hb with h | h <;> rw [h]
  · right
    constructor <;> simp
  · exact .inl ⟨rfl, rfl, rfl, rfl, rfl, nofun⟩

/-- Undisturbed, a command that comes to an end comes to it with one of DONE and ERROR. -/
theorem exec_endedOnce {i : Instr} (hb : s.busy = false) (hu : s.Undisturbed) (ht : exec i s = .next t) :
    t.EndedOnce := by
  rw [exec_eq_settle_issued, settle_undisturbed (by rwa [State.Undisturbed, (issued_idle hb).1.host])] at ht
  have hover : t.busy = false := runEngine_ends le_rfl ht
  have hstep (u v : State) (hbu : u.busy = true) (hu : u.Uncancelled ∨ u.EndedOnce) :
      engineStep u = .next v → v.Uncancelled ∨ v.EndedOnce :=
    engineStep_uncancelled (hu.resolve_right fun h => by simp [h.busy] at hbu)
  exact (runEngine_induct hstep (issued_uncancelled i hb) ht).resolve_left fun h => by simp [h.busy] at hover

end Uncancelled

/-! ### Storing entries leaves none unwritten that was written (R60, R200) -/

section Written

variable {α : Type}

/-- A written entry stays written (in a tree of any shape). -/
theorem Ram.read_write_ne_none {t : Ram (Option α)} {j : Nat} (i : Nat) (v : α) (h : Ram.read t j ≠ none) :
    Ram.read (Ram.write t i (some v)) j ≠ none := by
  induction t generalizing i j with
  | leaf w => exact Option.some_ne_none v
  | node even odd ihe iho =>
    rw [Ram.read] at h
    rw [Ram.write]
    by_cases hj : j % 2 = 0
    · rw [if_pos hj] at h
      split_ifs <;> rw [Ram.read, if_pos hj]
      · exact ihe _ h
      · exact h
    · rw [if_neg hj] at h
      split_ifs <;> rw [Ram.read, if_neg hj]
      · exact h
      · exact iho _ h

theorem PerChan.read_store_ne_none {p : PerChan (Ram (Option α))} {k : Chan} {j : Nat} (ch : Chan) (i : Nat) (v : α)
    (h : Ram.read (p.get k) j ≠ none) :
    Ram.read ((p.set ch (Ram.write (p.get ch) i (some v))).get k) j ≠ none := by
  rw [PerChan.get_set]
  split_ifs with hk
  · subst hk
    exact Ram.read_write_ne_none i v h
  · exact h

theorem PerChan.read_store_same (p : PerChan (Ram (Option α))) (ch : Chan) (i : Nat) (v : α) :
    Ram.read ((p.set ch (Ram.write (p.get ch) i (some v))).get ch) i ≠ none := by
  rw [PerChan.get_set, if_pos rfl, Ram.read_write_same]
  exact Option.some_ne_none v

end Written

/-- Entry `n` of a group, in the order its entries are stored, is written. -/
def Luts.isWritten (t : Luts) (n : Nat) : Group → Prop
  | .lvl => Ram.read t.lvl n ≠ none
  | .g8 => Ram.read (t.g8.get (chanAt (n / 256))) (n % 256) ≠ none
  | .g16 => Ram.read (t.g16.get (chanAt (n / 65536))) (n % 65536) ≠ none

/-- Every entry of the group is written. -/
def Luts.filled (t : Luts) (g : Group) : Prop := ∀ n < g.entries, t.isWritten n g

theorem Luts.isWritten_storeEntry_same (t : Luts) (c : CfgRegs) (tol n : Nat) (g : Group) :
    (t.storeEntry c tol g n).isWritten n g := by
  cases g with
  | lvl => simp [Luts.isWritten, Luts.storeEntry, Ram.read_write_same]
  | g8 => exact PerChan.read_store_same _ _ _ _
  | g16 => exact PerChan.read_store_same _ _ _ _

theorem Luts.isWritten_storeEntry {t : Luts} {m : Nat} {g' : Group} (c : CfgRegs) (tol n : Nat) (g : Group)
    (h : t.isWritten m g') : (t.storeEntry c tol g n).isWritten m g' := by
  cases g with
  | lvl =>
    cases g' with
    | lvl => exact Ram.read_write_ne_none _ _ h
    | _ => exact h
  | g8 =>
    cases g' with
    | g8 => exact PerChan.read_store_ne_none _ _ _ h
    | _ => exact h
  | g16 =>
    cases g' with
    | g16 => exact PerChan.read_store_ne_none _ _ _ h
    | _ => exact h

theorem Luts.filled_storeEntry {t : Luts} {g' : Group} (c : CfgRegs) (tol n : Nat) (g : Group) (h : t.filled g') :
    (t.storeEntry c tol g n).filled g' := fun m hm => Luts.isWritten_storeEntry c tol n g (h m hm)

/-- With one entry more stored in order, one entry more is written. -/
theorem Luts.isWritten_succ {t : Luts} {g : Group} {n : Nat} (c : CfgRegs) (tol : Nat) (h : ∀ m < n, t.isWritten m g) :
    ∀ m < n + 1, (t.storeEntry c tol g n).isWritten m g := by
  intro m hm
  rcases Nat.lt_succ_iff_lt_or_eq.1 hm with hlt | rfl
  · exact Luts.isWritten_storeEntry c tol n g (h m hlt)
  · exact Luts.isWritten_storeEntry_same t c tol m g

/-- The entry `i` of channel `ch` is among the entries of its group of three tables of `size` entries (R53). -/
theorem entry_of_chan (ch : Chan) {i size : Nat} (hi : i < size) :
    ch.index * size + i < 3 * size ∧ chanAt ((ch.index * size + i) / size) = ch ∧ (ch.index * size + i) % size = i := by
  obtain ⟨hq, hr⟩ := divMod_of_lt hi (rfl : ch.index * size + i = _)
  refine ⟨?_, by rw [hq, chanAt_index], hr⟩
  have hidx : ch.index ≤ 2 := by cases ch <;> decide
  have := Nat.mul_le_mul_right size hidx
  omega

theorem Luts.filled.read_lvl {t : Luts} (h : t.filled .lvl) {i : Nat} (hi : i < 65536) : Ram.read t.lvl i ≠ none :=
  h i hi

theorem Luts.filled.read_g8 {t : Luts} (h : t.filled .g8) (ch : Chan) {i : Nat} (hi : i < 256) :
    Ram.read (t.g8.get ch) i ≠ none := by
  obtain ⟨hlt, hch, hmod⟩ := entry_of_chan ch hi
  have hw := h (ch.index * 256 + i) hlt
  rwa [Luts.isWritten, hch, hmod] at hw

theorem Luts.filled.read_g16 {t : Luts} (h : t.filled .g16) (ch : Chan) {i : Nat} (hi : i < 65536) :
    Ram.read (t.g16.get ch) i ≠ none := by
  obtain ⟨hlt, hch, hmod⟩ := entry_of_chan ch hi
  have hw := h (ch.index * 65536 + i) hlt
  rwa [Luts.isWritten, hch, hmod] at hw

/-! ### Raw codes fit their tables (R122, R170, R255) -/

/-- The container a plane codes, with its legal depths (R122, R123). -/
theorem PlaneRegs.container_cases {p : PlaneRegs} {k : Container} (h : p.container = some k) :
    (p.layout = 0 ∧ k = .byte8) ∨ (p.layout ≠ 0 ∧ p.bits ≤ 16 ∧ k = .word16 p.bits) ∨
      (p.layout ≠ 0 ∧ ∃ g, mipiGeom p.bits = some g ∧ k = .mipi p.bits g) := by
  unfold PlaneRegs.container at h
  split_ifs at h with h0 h1 h2 h3 h4
  · cases h; exact .inl ⟨h0, rfl⟩
  · cases h; exact .inr (.inl ⟨h0, h3.2, rfl⟩)
  · obtain ⟨g, hg, rfl⟩ := Option.map_eq_some_iff.1 h
    exact .inr (.inr ⟨h0, g, hg, rfl⟩)

theorem mipiGeom_depth {b : Nat} {g : MipiGeom} (h : mipiGeom b = some g) : b = 8 + g.frag ∧ b ≤ 16 := by
  unfold mipiGeom at h
  split_ifs at h <;> cases h <;> subst b <;> decide

theorem natBits_lt (n lo len : Nat) : natBits n lo len < 2 ^ len := Nat.mod_lt _ (Nat.two_pow_pos _)

theorem sampleOf_lt (msbAlign : Bool) (b w : Nat) : sampleOf msbAlign b w < 2 ^ b := by
  unfold sampleOf
  split_ifs <;> exact natBits_lt _ _ _

theorem mipiSample_lt (rd : Nat → Byte) (bigEndian : Bool) (g : MipiGeom) (ga j : Nat) :
    mipiSample rd bigEndian g ga j < 2 ^ (8 + g.frag) := by
  have hfrag : fragment rd bigEndian g ga j < 2 ^ g.frag := by
    unfold fragment
    split_ifs <;> exact natBits_lt _ _ _
  have hbyte := Nat.mul_le_mul_right (2 ^ g.frag) (Nat.succ_le_of_lt (rd (ga + j)).isLt)
  rw [Nat.succ_mul] at hbyte
  rw [mipiSample, pow_add]
  omega

/-- A raw code fits the depth of its container (R170). -/
theorem CfgRegs.fetch_lt (c : CfgRegs) (rd : Nat → Byte) {p : PlaneRegs} {k : Container} (x y : Nat)
    (hk : p.container = some k) : c.fetch rd p k x y < 2 ^ k.depth := by
  obtain ⟨-, rfl⟩ | ⟨-, -, rfl⟩ | ⟨-, g, hg, rfl⟩ := PlaneRegs.container_cases hk
  · exact (rd (c.sampleAddr p x y 0)).isLt
  · exact sampleOf_lt _ _ _
  · rw [Container.depth, (mipiGeom_depth hg).1]
    exact mipiSample_lt _ _ _ _ _

/-- The tables a decode needs hold an entry for every raw code (R53, R255). -/
theorem CfgRegs.needed_cases {c : CfgRegs} {k : Container} (hk : c.p0.container = some k) :
    (k = .byte8 ∧ c.needed = [.g8]) ∨ (k ≠ .byte8 ∧ k.depth ≤ 16 ∧ c.needed = [.lvl, .g16]) := by
  unfold CfgRegs.needed
  obtain ⟨h0, rfl⟩ | ⟨h0, hb, rfl⟩ | ⟨h0, g, hg, rfl⟩ := PlaneRegs.container_cases hk
  · exact .inl ⟨rfl, if_pos h0⟩
  · exact .inr ⟨nofun, hb, if_neg h0⟩
  · exact .inr ⟨nofun, (mipiGeom_depth hg).2, if_neg h0⟩

/-! ### A raw pass after its tables are built meets no unwritten entry (R60, R256, R259) -/

/-- Every raw pass of a plan finds the groups it needs filled: `W` says which are before the plan runs, and a LUT pass
fills its own. -/
def RawServed (c : CfgRegs) : (Group → Prop) → List PassPlan → Prop
  | _, [] => True
  | W, .lut gs :: rest => RawServed c (fun g => W g ∨ g ∈ gs) rest
  | W, .raw :: rest => (∀ g ∈ c.needed, W g) ∧ RawServed c W rest
  | W, .demosaic :: rest => RawServed c W rest
  | W, .yuv :: rest => RawServed c W rest

theorem RawServed.mono {c : CfgRegs} {W W' : Group → Prop} {ps : List PassPlan} (h : RawServed c W ps)
    (hW : ∀ g, W g → W' g) : RawServed c W' ps := by
  induction ps generalizing W W' with
  | nil => trivial
  | cons p ps ih =>
    cases p with
    | lut gs => exact ih h fun g => Or.imp_left (hW g)
    | raw => exact ⟨fun g hg => hW g (h.1 g hg), ih h.2 hW⟩
    | demosaic => exact ih h hW
    | yuv => exact ih h hW

/-- What is left of the pass at a position, as a pass. -/
def Pos.left : Pos → List PassPlan
  | .starting p => [p]
  | .lutOpen gs => [.lut gs]
  | .lutClear g rest => [.lut (g :: rest)]
  | .lutFill g rest _ => [.lut (g :: rest)]
  | .lutMark _ rest => [.lut rest]
  | .lutCount rest => [.lut rest]
  | .rawClear => [.raw]
  | .rawRow _ => [.raw]
  | .rawPix _ _ _ _ => [.raw]
  | _ => []

/-- What a raw pixel of the container is to look up lies in the tables. -/
def RawPhase.inTables (k : Container) : RawPhase → Prop
  | .look raw => raw < 2 ^ k.depth
  | .gain _ => k ≠ .byte8
  | _ => True

/-- The entries of the group being filled are written so far, and the pixel being decoded keeps to its tables. -/
def Pos.served (c : CfgRegs) (t : Luts) : Pos → Prop
  | .lutFill g _ n => ∀ m < n, t.isWritten m g
  | .rawPix _ _ _ phase => ∀ k, c.p0.container = some k → phase.inTables k
  | _ => True

/-- The raw passes of the running command, the one it is in included, find their tables filled. -/
structure State.Served (s : State) : Prop where
  plan : RawServed s.cfg s.luts.filled (s.pos.left ++ s.todo)
  pos : s.pos.served s.cfg s.luts

section Served

variable {s t : State}

/-- A step that leaves the tables, and goes on within the plan. -/
theorem served_goOn (hplan : RawServed s.cfg s.luts.filled (t.pos.left ++ s.todo)) (hpos : t.pos.served s.cfg s.luts)
    (hkept : t.cfg = s.cfg ∧ t.luts = s.luts ∧ t.todo = s.todo := by exact ⟨rfl, rfl, rfl⟩) : t.Served := by
  obtain ⟨hc, hl, ht⟩ := hkept
  exact ⟨by rw [hc, hl, ht]; exact hplan, by rw [hc, hl]; exact hpos⟩

theorem RawPhase.inTables_look {t : Luts} {c : CfgRegs} {k : Container} {ch : Chan} {raw : Nat} {p : RawPhase}
    (h : t.look c k ch raw = some p) : p.inTables k := by
  cases k <;> simp only [Luts.look, Option.map_eq_some_iff] at h <;> obtain ⟨v, -, rfl⟩ := h
  · trivial
  · exact nofun
  · exact nofun

theorem RawPhase.inTables_fetched {c : CfgRegs} {k : Container} {x y : Nat} {got : List Byte}
    (hk : c.p0.container = some k) : (c.rawFetched k x y got).inTables k := by
  unfold CfgRegs.rawFetched
  dsimp only
  split_ifs
  · trivial
  · exact c.fetch_lt _ x y hk

theorem rawStep_served {y x : Nat} {b : Bool} {phase : RawPhase} {k : Container} {ch : Chan}
    (h : RawServed s.cfg s.luts.filled (.raw :: s.todo)) (hk : s.cfg.p0.container = some k)
    (hr : rawStep y x b phase k ch s = .next t) : t.Served := by
  have hphase {p : RawPhase} (hp : p.inTables k) : (Pos.rawPix y x b p).served s.cfg s.luts := by
    intro k' hk'
    cases hk.symm.trans hk'
    exact hp
  obtain ⟨-, -, rfl⟩ | ⟨got, a, -, -, -, rfl⟩ | ⟨raw, p, -, hp, rfl⟩ | ⟨i, v, -, -, rfl⟩ | ⟨v, -, rfl⟩ | ⟨out, -, rfl⟩ :=
    rawStep_cases hr
  · exact served_goOn h fun _ _ => trivial
  · exact served_goOn h (hphase (RawPhase.inTables_fetched hk))
  · exact served_goOn h (hphase (RawPhase.inTables_look hp))
  · exact served_goOn h (hphase trivial)
  · exact served_goOn h (hphase trivial)
  · exact served_goOn h (fun _ _ => trivial) (by simp)

theorem yuvStep_served {y x : Nat} {b : Bool} {phase : YuvPhase} {k : Container × Container × Container}
    (h : RawServed s.cfg s.luts.filled s.todo) (hr : yuvStep y x b phase k s = .next t) : t.Served := by
  obtain ⟨-, -, rfl⟩ | ⟨got, n, a, -, -, -, rfl⟩ | ⟨v, -, rfl⟩ := yuvStep_cases hr
  · exact served_goOn h trivial
  · exact served_goOn h trivial
  · exact served_goOn h trivial (by simp)

theorem stepWorker_served {i : Nat} {w : Worker} {active : List Worker} {waiting : List Nat} {stopped : Bool}
    (h : RawServed s.cfg s.luts.filled s.todo) (hw : stepWorker i w active waiting stopped s = .next t) : t.Served := by
  obtain ⟨-, -, rfl⟩ | ⟨-, -, rfl⟩ | ⟨got, own, px, py, c, -, -, -, -, rfl⟩ | ⟨v, -, -, rfl⟩ | ⟨-, rfl⟩ :=
    stepWorker_cases hw
  case inr.inr.inr.inl => exact served_goOn h trivial (by simp)
  all_goals exact served_goOn h trivial

/-- The last entry of a group stored fills it; one before leaves the group to be filled. -/
theorem stepLutFill_served {g : Group} {rest : List Group} {n : Nat}
    (h : RawServed s.cfg s.luts.filled (.lut (g :: rest) :: s.todo)) (hn : ∀ m < n, s.luts.isWritten m g) :
    (stepLutFill g rest n s).Served := by
  have hkept := fun g' => Luts.filled_storeEntry (t := s.luts) (g' := g') s.cfg s.params.gainTol n g
  have hwritten := Luts.isWritten_succ s.cfg s.params.gainTol hn
  unfold stepLutFill
  split_ifs with hlast
  · exact ⟨RawServed.mono (ps := s.todo) h fun g' => Or.imp_left (hkept g'), hwritten⟩
  · refine ⟨RawServed.mono (ps := s.todo) h fun g' hg' => ?_, trivial⟩
    rw [List.mem_cons] at hg'
    rcases hg' with hf | rfl | hr
    · exact .inl (hkept g' hf)
    · exact .inl fun m hm => hwritten m (by omega)
    · exact .inr hr

/-- A step keeps the raw passes to come supplied with their tables. -/
theorem engineMove_served (h : s.Served) (hm : engineMove s = .next t) : t.busy = false ∨ t.Served := by
  obtain ⟨hplan, hpos⟩ := h
  unfold engineMove at hm
  generalize s.pos = p at hm hplan hpos
  cases p with
  | idle => cases hm
  | checked v =>
    cases v with
    | some code => cases hm; exact .inl (finish_busy _ _)
    | none => cases hm; exact .inr (served_goOn hplan trivial)
  | between =>
    cases hm
    unfold stepBetween
    split
    · exact .inl (finish_busy _ _)
    · rename_i p rest hp
      rw [hp] at hplan
      cases p <;> exact .inr ⟨hplan, trivial⟩
  | starting p => cases hm; cases p <;> exact .inr (served_goOn hplan trivial)
  | lutOpen groups =>
    cases hm
    cases groups with
    | nil => exact .inr (served_goOn (RawServed.mono hplan (by simp)) trivial)
    | cons g rest =>
      unfold stepLutOpen
      dsimp only
      split_ifs
      · exact .inl (finish_busy _ _)
      · exact .inr (served_goOn hplan trivial)
  | lutClear g rest => cases hm; exact .inr (served_goOn hplan nofun)
  | lutFill g rest n => cases hm; exact .inr (stepLutFill_served hplan hpos)
  | rawRow y =>
    cases hm
    unfold stepRowStart
    split_ifs
    · exact .inr (served_goOn hplan.2 trivial)
    · exact .inl (finish_busy _ _)
    · exact .inr (served_goOn hplan fun _ _ => trivial)
  | rawPix y x b phase =>
    obtain ⟨-, rfl⟩ | ⟨-, -, k, ch, hk, -, hr⟩ := stepRawPix_cases hm
    · cases b with
      | true => exact .inr (served_goOn hplan.2 trivial)
      | false => exact .inr (served_goOn hplan trivial)
    · exact .inr (rawStep_served hplan hk hr)
  | demosaic active waiting stopped =>
    obtain ⟨-, -, rfl⟩ | ⟨i, w, -, hw⟩ | ⟨j, y, -, -, rfl⟩ := stepDemosaic_cases hm
    · split_ifs
      · exact .inl (finish_busy _ _)
      · exact .inr (served_goOn hplan trivial)
    · exact .inr (stepWorker_served (s := { s with sched := s.sched.tail }) hplan hw)
    · exact .inr (served_goOn hplan trivial)
  | yuvRow y =>
    cases hm
    unfold stepRowStart
    split_ifs
    · exact .inr (served_goOn hplan trivial)
    · exact .inl (finish_busy _ _)
    · exact .inr (served_goOn hplan trivial)
  | yuvPix y x b phase =>
    obtain ⟨-, rfl⟩ | ⟨-, -, k, -, hr⟩ := stepYuvPix_cases hm
    · cases b <;> exact .inr (served_goOn hplan trivial)
    · exact .inr (yuvStep_served hplan hr)
  | _ => cases hm; exact .inr (served_goOn hplan trivial)

theorem engineStep_served (h : s.busy = true → s.Served) (hb : s.busy = true) (ht : engineStep s = .next t) :
    t.busy = true → t.Served := by
  obtain ⟨u, hu, rfl⟩ := engineStep_cases ht
  intro hbu
  have hs := (engineMove_served (h hb) hu).resolve_left (by simpa using hbu)
  exact ⟨hs.plan, hs.pos⟩

/-- With its tables filled, a raw pass stands before no unwritten entry. -/
theorem not_atUnwritten (h : s.Served) : ¬s.AtUnwritten := by
  rintro ⟨y, x, b, phase, k, ch, hp, hk, hun⟩
  obtain ⟨⟨hneed, -⟩, hin⟩ : RawServed s.cfg s.luts.filled (.raw :: s.todo) ∧ phase.inTables k := by
    have hplan := h.plan
    have hpos := h.pos
    rw [hp] at hplan hpos
    exact ⟨hplan, hpos k hk⟩
  obtain ⟨rfl, hg⟩ | ⟨hwide, hdepth, hg⟩ := CfgRegs.needed_cases hk
  · have hg8 := hneed .g8 (by simp [hg])
    cases phase with
    | look raw => exact hg8.read_g8 ch hin (Option.map_eq_none_iff.1 hun)
    | gain index => exact hin rfl
    | _ => exact hun
  · have hlvl := hneed .lvl (by simp [hg])
    have hg16 := hneed .g16 (by simp [hg])
    cases phase with
    | look raw =>
      have hraw : raw < 65536 := lt_of_lt_of_le hin (Nat.pow_le_pow_right Nat.two_pos hdepth)
      refine hlvl.read_lvl hraw ?_
      cases k with
      | byte8 => exact absurd rfl hwide
      | word16 b => exact Option.map_eq_none_iff.1 hun
      | mipi b g => exact Option.map_eq_none_iff.1 hun
    | gain index =>
      simp only [RawPhase.unwritten, Luts.gain16] at hun
      split_ifs at hun with hi
      exact hg16.read_g16 ch hi hun
    | _ => exact hun

/-- A command other than BAYER_DECODE without build fills the tables its raw pass needs, or has no raw pass. -/
theorem planOf_served {i : Instr} (hi : i ≠ .bayerDecode false) (W : Group → Prop) (a : State) :
    RawServed a.cfg W (planOf i a) := by
  cases i with
  | nop => trivial
  | lutBuild lvl g8 g16 =>
    simp only [planOf, lutBuildPlan]
    split_ifs <;> trivial
  | bayerDecode build =>
    cases build with
    | false => exact absurd rfl hi
    | true =>
      simp only [planOf, bayerPlan]
      refine ⟨fun g hg => .inr hg, ?_⟩
      split_ifs <;> trivial
  | demosaic => trivial
  | yuvConvert => trivial

theorem issued_served {i : Instr} (hi : i ≠ .bayerDecode false) (hb : s.busy = false) :
    (issued i s).busy = true → (issued i s).Served := by
  rcases issued_idle_cases i hb with h | h <;> rw [h]
  · exact fun hbusy => absurd hbusy (by simp)
  · exact fun _ => ⟨planOf_served hi s.luts.filled (accept (encode i) s), trivial⟩

/-- On an idle block only BAYER_DECODE without build stops the model, and at an unwritten entry (R60, R306). -/
theorem exec_fault {i : Instr} {e : Fault} (hb : s.busy = false) (hf : exec i s = .fault e) :
    i = .bayerDecode false ∧ e = .uninitLut := by
  rw [exec_eq_settle_issued] at hf
  obtain ⟨u, hbu, ⟨hu, hserved⟩, hfu⟩ := runEngine_fault
    (P := fun u => u.EngineReady ∧ (i ≠ .bayerDecode false → u.busy = true → u.Served))
    (fun u v hbu hu huv => ⟨engineStep_ready hu.1 huv, fun hi => engineStep_served (hu.2 hi) hbu huv⟩)
    ⟨issued_ready i hb, fun hi => issued_served hi hb⟩ hf
  obtain ⟨he, hat⟩ := engineMove_fault (hu hbu).1 hfu
  exact ⟨by_contra fun hi => not_atUnwritten (hserved hi hbu) hat, he⟩

end Served

/-! ### The obligation on the end of a command -/

theorem issued_cmd {i : Instr} {s : State} (hb : s.busy = false) :
    (issued i s).cmd = encode i ∧ (issued i s).op = encode i ∧ (issued i s).cfg = s.regs := by
  rcases issued_idle_cases i hb with h | h <;> rw [h] <;> exact ⟨rfl, rfl, rfl⟩

/-- A command that ended once is over, with its word and its snapshot as they were taken (R140, R147). -/
theorem exec_commandOver {i : Instr} {s t : State} (hb : s.busy = false) (ht : exec i s = .next t) (h : t.EndedOnce) :
    CommandOver (encode i) s t := by
  rw [exec_eq_settle_issued] at ht
  obtain ⟨hcmd, hop, hcfg⟩ := issued_cmd (i := i) hb
  obtain ⟨hk, -⟩ := runEngine_kept ht
  exact ⟨h.busy, h.pass, h.cancelPending, h.pos, h.todo, hk.cmd.trans hcmd, hk.op.trans hop, hk.cfg.trans hcfg⟩

theorem getElem_zero_bitAt (b : Bool) (i : Nat) : (bitAt b i)[0] = (b && decide (i = 0)) := by
  cases b with
  | false => simp [bitAt]
  | true => cases i <;> simp [bitAt]

/-- STATUS bit 0 is BUSY (R27). -/
theorem State.status_busy (s : State) : s.status.getLsbD 0 = s.busy := by
  simp [State.status, getElem_zero_bitAt]

/-- A WAIT answers a state in which no command runs (R126). -/
theorem hostAccess_wait_busy {s t : State} (h : hostAccess .wait s = .next t) : t.busy = false := by
  simp only [hostAccess, thenSettle] at h
  cases hr : runEngine s.work s with
  | next u =>
    have hu := runEngine_ends le_rfl hr
    rw [hr] at h
    cases (settle_idle hu).symm.trans h
    exact hu
  | fault e => rw [hr] at h; cases h
  | refused q => rw [hr] at h; cases h

/-- Settles O8: the measure bounds the steps, every step keeps the engine on validated passes, and uncancelled a command
ends DONE or ERROR. -/
theorem everyCommandEnds : Obligations.EveryCommandEnds := by
  unfold Obligations.EveryCommandEnds
  refine ⟨fun i s hb hu => ?_, fun s hready _ => ?_, fun s t ht => ?_⟩
  · cases hx : exec i s with
    | next t =>
      have hend := exec_endedOnce hb hu hx
      exact .inl ⟨t, rfl, exec_commandOver hb hx hend, hend.done, hend.cancelled⟩
    | fault e =>
      obtain ⟨hi, rfl⟩ := exec_fault hb hx
      exact .inr ⟨hi, rfl⟩
    | refused q => exact absurd hx (exec_notRefused i s q)
  · exact ⟨s.work, runEngine_work hready⟩
  · have hb := hostAccess_wait_busy ht
    exact ⟨hb, (State.status_busy t).trans hb⟩

end Sys2Proof.Machine
end

section
/-! The pixel unpacker (41_unpack): a 16-bit container and a MIPI group hold what was packed into them; and the obligations
of this family. -/

namespace Sys2Proof.Machine

/-! ### 16-bit containers (R172, R174) -/

theorem wordOf_lt (bigEndian : Bool) (c0 c1 : Byte) : wordOf bigEndian c0 c1 < 65536 := by
  unfold wordOf
  split_ifs <;> omega

/-- Of a 16-bit container the sample is the b high or the b low bits (R172). -/
theorem sampleOf_eq {b w : Nat} (msbAlign : Bool) (hb : b ≤ 16) (hw : w < 65536) :
    sampleOf msbAlign b w = if msbAlign then w / 2 ^ (16 - b) else w % 2 ^ b := by
  have hhigh : w / 2 ^ (16 - b) < 2 ^ b := by
    rw [Nat.div_lt_iff_lt_mul (Nat.two_pow_pos _), ← pow_add, Nat.add_sub_cancel' hb]
    exact hw
  rw [sampleOf, natBits_eq, natBits_eq, Nat.mod_eq_of_lt hhigh, pow_zero, Nat.div_one]

/-- A sample of 16 bits is the whole container, wherever it is aligned (R172). -/
theorem sampleOf_sixteen {w : Nat} (msbAlign : Bool) (hw : w < 65536) : sampleOf msbAlign 16 w = w := by
  rw [sampleOf_eq msbAlign le_rfl hw, Nat.sub_self, pow_zero, Nat.div_one]
  split_ifs
  · rfl
  · exact Nat.mod_eq_of_lt hw

/-- The two low bytes of a number, laid down in a byte order, read in that order as the number (R89, R174). -/
theorem wordOf_byteOf {v : Nat} (bigEndian : Bool) (hv : v < 65536) :
    wordOf bigEndian (byteOf v (if bigEndian then 1 else 0)) (byteOf v (if bigEndian then 0 else 1)) = v := by
  cases bigEndian <;> simp [wordOf, byteOf_toNat] <;> omega

/-- A value packed in the byte order is fetched back from the low bits of its container (R174). -/
theorem CfgRegs.fetch_word16_of_bytes {c : CfgRegs} {rd : Nat → Byte} {p : PlaneRegs} {x y b v : Nat} (hb : b ≤ 16)
    (hv : v < 2 ^ b) (hmsb : p.msbAlign = false)
    (h0 : rd (c.sampleAddr p x y 0) = byteOf v (if c.bigEndian then 1 else 0))
    (h1 : rd (c.sampleAddr p x y 1) = byteOf v (if c.bigEndian then 0 else 1)) : c.fetch rd p (.word16 b) x y = v := by
  have hv16 : v < 65536 := hv.trans_le (Nat.pow_le_pow_right two_pos hb)
  rw [fetch, h0, h1, hmsb, wordOf_byteOf _ hv16, sampleOf_eq _ hb hv16]
  exact Nat.mod_eq_of_lt hv

/-- Settles O20: the addresses are those of R85; the sample is read off the container, which holds the bytes of v. -/
theorem containersAreFetchedAndRoundTrip : Obligations.ContainersAreFetchedAndRoundTrip := by
  unfold Obligations.ContainersAreFetchedAndRoundTrip
  refine fun c rd p x y => ⟨rfl, rfl, fun b _ hb => ?_⟩
  have hword := wordOf_lt c.bigEndian (rd (c.sampleAddr p x y 0)) (rd (c.sampleAddr p x y 1))
  refine ⟨rfl, sampleOf_eq _ hb hword, sampleOf_lt _ _ _, ?_, fun v hv hmsb h0 h1 => ⟨?_, ?_⟩⟩
  · rintro rfl
    exact sampleOf_sixteen _ hword
  · exact CfgRegs.fetch_word16_of_bytes hb hv hmsb h0 h1
  · exact Nat.mul_div_cancel _ (Nat.two_pow_pos _)

/-! ### The extra bytes of a MIPI group (R177, R178) -/

/-- Extra bytes that hold a number from the low byte on read as the number in little-endian order (R177). -/
theorem extraLittle_of_bytes {rd : Nat → Byte} {w e a j : Nat} (h : ∀ k < e, rd (a + k) = byteOf w (j + k)) :
    extraLittle rd a e = w / 256 ^ j % 256 ^ e := by
  induction e generalizing a j with
  | zero => simp [extraLittle, Nat.mod_one]
  | succ e ih =>
    have hrest : ∀ k < e, rd (a + 1 + k) = byteOf w (j + 1 + k) := fun k hk => by
      have := h (k + 1) (by omega)
      rwa [Nat.add_comm k 1, ← Nat.add_assoc, ← Nat.add_assoc] at this
    have hfirst : (rd a).toNat = w / 256 ^ j % 256 := by rw [← byteOf_toNat]; exact congrArg _ (h 0 (by omega))
    rw [extraLittle, hfirst, ih hrest, pow_succ, ← Nat.div_div_eq_div_mul, pow_succ', Nat.mod_mul]

/-- Extra bytes that hold a number from the high byte on read as the number in big-endian order (R178). -/
theorem extraBig_of_bytes {rd : Nat → Byte} {w e a : Nat} (h : ∀ k < e, rd (a + k) = byteOf w (e - 1 - k)) :
    extraBig rd a e = w % 256 ^ e := by
  induction e generalizing a with
  | zero => simp [extraBig, Nat.mod_one]
  | succ e ih =>
    have hrest : ∀ k < e, rd (a + 1 + k) = byteOf w (e - 1 - k) := fun k hk => by
      have := h (k + 1) (by omega)
      rwa [Nat.add_comm k 1, ← Nat.add_assoc, show e + 1 - 1 - (1 + k) = e - 1 - k by omega] at this
    have hfirst : (rd a).toNat = w / 256 ^ e % 256 := by rw [← byteOf_toNat]; exact congrArg _ (h 0 (by omega))
    rw [extraBig, hfirst, ih hrest, pow_mul, pow_succ 256, Nat.mod_mul, Nat.add_comm, Nat.mul_comm]
    rfl

/-- A bit field that lies within the bits kept (R9). -/
theorem natBits_mod {lo len m : Nat} (n : Nat) (h : lo + len ≤ m) : natBits (n % 2 ^ m) lo len = natBits n lo len := by
  apply Nat.eq_of_testBit_eq
  intro i
  simp only [natBits, Nat.testBit_mod_two_pow, Nat.testBit_shiftRight]
  by_cases hi : i < len
  · simp [hi, show lo + i < m by omega]
  · simp [hi]

/-- Where the fragment of lane j lies in the extra bytes: lane 0 lowest in little-endian, highest in big-endian order
(R177, R178). -/
def MipiGeom.fragPlace (g : MipiGeom) (bigEndian : Bool) (j : Nat) : Nat :=
  if bigEndian then 8 * g.extra - g.frag * (j + 1) else g.frag * j

/-- The three geometries (R175). -/
theorem mipiGeom_cases {b : Nat} {g : MipiGeom} (h : mipiGeom b = some g) :
    (b = 10 ∧ g = ⟨4, 5, 2⟩) ∨ (b = 12 ∧ g = ⟨2, 3, 4⟩) ∨ (b = 14 ∧ g = ⟨4, 7, 6⟩) := by
  unfold mipiGeom at h
  split_ifs at h <;> cases h <;> simp [*]

/-- The fragments of a group fill its extra bytes (R175). -/
theorem mipiGeom_extra {b : Nat} {g : MipiGeom} (h : mipiGeom b = some g) : 8 * g.extra = g.frag * g.samples := by
  obtain ⟨-, rfl⟩ | ⟨-, rfl⟩ | ⟨-, rfl⟩ := mipiGeom_cases h <;> rfl

/-- In big-endian order the lanes lie in the reverse order (R178). -/
theorem MipiGeom.fragPlace_big {g : MipiGeom} (hg : 8 * g.extra = g.frag * g.samples) (j : Nat) :
    g.fragPlace true j = g.frag * (g.samples - 1 - j) := by
  simp only [fragPlace, if_true, hg, ← Nat.mul_sub]
  congr 1
  omega

theorem MipiGeom.fragPlace_le {g : MipiGeom} {j : Nat} (hg : 8 * g.extra = g.frag * g.samples) (bigEndian : Bool)
    (hj : j < g.samples) : g.fragPlace bigEndian j + g.frag ≤ 8 * g.extra := by
  have hlane : g.frag * (j + 1) ≤ 8 * g.extra := hg ▸ Nat.mul_le_mul_left _ hj
  rw [Nat.mul_succ] at hlane
  cases bigEndian <;> simp only [fragPlace, Nat.mul_succ, Bool.false_eq_true, if_true, if_false] <;> omega

/-- Extra bytes that hold a number in the byte order give lane j the bits of the number at the lane's place. -/
theorem fragment_of_bytes {rd : Nat → Byte} {bigEndian : Bool} {g : MipiGeom} {ga w j : Nat}
    (hg : 8 * g.extra = g.frag * g.samples) (hj : j < g.samples)
    (h : ∀ k < g.extra, rd (ga + g.samples + k) = byteOf w (if bigEndian then g.extra - 1 - k else k)) :
    fragment rd bigEndian g ga j = natBits w (g.fragPlace bigEndian j) g.frag := by
  have hkept :
      natBits (w % 256 ^ g.extra) (g.fragPlace bigEndian j) g.frag = natBits w (g.fragPlace bigEndian j) g.frag := by
    rw [show 256 = 2 ^ 8 from rfl, ← pow_mul]
    exact natBits_mod w (MipiGeom.fragPlace_le hg bigEndian hj)
  rw [← hkept]
  cases bigEndian with
  | true => rw [← extraBig_of_bytes (by simpa using h)]; rfl
  | false =>
    have hlittle := extraLittle_of_bytes (j := 0) (by simpa using h)
    rw [pow_zero, Nat.div_one] at hlittle
    rw [← hlittle]; rfl

/-! ### The packing of a MIPI group, read back (R181) -/

/-- Digit i of a number given by its n digits. -/
theorem sum_digits_div_mod {B : Nat} {d : Nat → Nat} (hd : ∀ k, d k < B) {n i : Nat} (hi : i < n) :
    (∑ k ∈ Finset.range n, d k * B ^ k) / B ^ i % B = d i := by
  have hB : 0 < B := (Nat.zero_le _).trans_lt (hd 0)
  induction n generalizing d i with
  | zero => omega
  | succ n ih =>
    have hsum : ∑ k ∈ Finset.range (n + 1), d k * B ^ k = d 0 + B * ∑ k ∈ Finset.range n, d (k + 1) * B ^ k := by
      rw [Finset.sum_range_succ', Finset.mul_sum, pow_zero, mul_one, add_comm]
      congr 1
      exact Finset.sum_congr rfl fun k _ => by ring
    rw [hsum]
    cases i with
    | zero => rw [pow_zero, Nat.div_one, Nat.add_mul_mod_self_left, Nat.mod_eq_of_lt (hd 0)]
    | succ i =>
      rw [pow_succ', ← Nat.div_div_eq_div_mul, Nat.add_mul_div_left _ _ hB, Nat.div_eq_of_lt (hd 0), Nat.zero_add]
      exact ih (fun k => hd (k + 1)) (by omega)

/-- The fragments in little-endian order are the digits of one number, lane by lane. -/
theorem packedFragments_little (g : MipiGeom) (v : Nat → Nat) :
    packedFragments false g v = ∑ k ∈ Finset.range g.samples, v k % 2 ^ g.frag * (2 ^ g.frag) ^ k := by
  simp only [← pow_mul]
  rfl

/-- Big-endian packing is the little-endian packing of the lanes in reverse order. -/
theorem packedFragments_big {g : MipiGeom} (hg : 8 * g.extra = g.frag * g.samples) (v : Nat → Nat) :
    packedFragments true g v = packedFragments false g fun k => v (g.samples - 1 - k) := by
  rw [packedFragments_little, ← Finset.sum_range_reflect]
  have hterm : ∀ j ∈ Finset.range g.samples, v j % 2 ^ g.frag * 2 ^ g.fragPlace true j =
      v (g.samples - 1 - (g.samples - 1 - j)) % 2 ^ g.frag * (2 ^ g.frag) ^ (g.samples - 1 - j) := fun j hj => by
    have := Finset.mem_range.1 hj
    rw [MipiGeom.fragPlace_big hg, pow_mul, show g.samples - 1 - (g.samples - 1 - j) = j by omega]
  exact Finset.sum_congr rfl hterm

/-- At the place of lane j the packed fragments hold the fragment of sample j. -/
theorem natBits_packedFragments {g : MipiGeom} {j : Nat} (hg : 8 * g.extra = g.frag * g.samples) (bigEndian : Bool)
    (v : Nat → Nat) (hj : j < g.samples) :
    natBits (packedFragments bigEndian g v) (g.fragPlace bigEndian j) g.frag = v j % 2 ^ g.frag := by
  have hlittle (u : Nat → Nat) {i : Nat} (hi : i < g.samples) :
      natBits (packedFragments false g u) (g.frag * i) g.frag = u i % 2 ^ g.frag := by
    rw [natBits_eq, packedFragments_little, pow_mul]
    exact sum_digits_div_mod (fun k => Nat.mod_lt _ (Nat.two_pow_pos _)) hi
  cases bigEndian with
  | false => exact hlittle v hj
  | true =>
    rw [packedFragments_big hg, MipiGeom.fragPlace_big hg, hlittle _ (by omega),
      show g.samples - 1 - (g.samples - 1 - j) = j by omega]

/-- A byte of the packing before the extra ones is the high bits of its sample (R175). -/
theorem packedByte_high {bigEndian : Bool} {g : MipiGeom} {v : Nat → Nat} {j : Nat} (hj : j < g.samples)
    (hv : v j < 2 ^ (8 + g.frag)) : (packedByte bigEndian g v j).toNat = v j / 2 ^ g.frag := by
  rw [packedByte, if_pos hj, BitVec.toNat_ofNat]
  refine Nat.mod_eq_of_lt ?_
  rwa [Nat.div_lt_iff_lt_mul (Nat.two_pow_pos _), ← pow_add]

/-- The extra bytes of the packing hold the packed fragments in the byte order (R177, R178). -/
theorem packedByte_extra {g : MipiGeom} {k : Nat} (bigEndian : Bool) (v : Nat → Nat) :
    packedByte bigEndian g v (g.samples + k) =
      byteOf (packedFragments bigEndian g v) (if bigEndian then g.extra - 1 - k else k) := by
  rw [packedByte, if_neg (by omega), MipiGeom.extra]
  congr 2 <;> omega

/-- A group that holds the packing of a tuple gives each lane its sample (R181). -/
theorem mipiSample_of_packed {rd : Nat → Byte} {bigEndian : Bool} {b : Nat} {g : MipiGeom} {v : Nat → Nat} {ga j : Nat}
    (hgeom : mipiGeom b = some g) (hj : j < g.samples) (hv : v j < 2 ^ b)
    (h : ∀ i < g.bytes, rd (ga + i) = packedByte bigEndian g v i) : mipiSample rd bigEndian g ga j = v j := by
  have hextra := mipiGeom_extra hgeom
  have hhigh : (rd (ga + j)).toNat = v j / 2 ^ g.frag := by
    rw [h j (hj.trans (mipiGeom_samples hgeom).2), packedByte_high hj ((mipiGeom_depth hgeom).1 ▸ hv)]
  have hfrag : fragment rd bigEndian g ga j = v j % 2 ^ g.frag := by
    rw [← natBits_packedFragments hextra bigEndian v hj]
    refine fragment_of_bytes hextra hj fun k hk => ?_
    rw [← packedByte_extra, Nat.add_assoc]
    exact h _ (by unfold MipiGeom.extra at hk; omega)
  rw [mipiSample, hhigh, hfrag, Nat.div_add_mod']

/-- Settles O21: the addresses are those of R176; each lane has its high byte and its place among the fragments. -/
theorem mipiGroupRoundTrip : Obligations.MipiGroupRoundTrip := by
  unfold Obligations.MipiGroupRoundTrip
  refine fun c rd p b g v x y hgeom => ⟨rfl, rfl, mipiGeom_cases hgeom, fun hv hrd => ?_⟩
  have hlane : x % g.samples < g.samples := Nat.mod_lt _ (mipiGeom_samples hgeom).1
  exact mipiSample_of_packed hgeom hlane (hv _ hlane) hrd

end Sys2Proof.Machine
end

section
/-! The functions the lookup tables hold and the host port (42_lut): the level function of a validated snapshot, the tables
of the default levels and gains, and what an access of LUT_DATA reads and stores, with their obligations. -/

namespace Sys2Proof.Machine

/-! ### The level function (R190, R191) -/

section Level

variable {b bl wh i j : Nat}

theorem levelFn_black (b wh : Nat) (h : i ≤ bl) : levelFn b bl wh i = 0 := if_pos h

theorem levelFn_between (hbl : bl < i) (hwh : i < wh) :
    levelFn b bl wh i = (i - bl) * (2 ^ b - 1) / (wh - bl) := by
  rw [levelFn, if_neg (by omega), if_neg (by omega)]

/-- From the white level on the function is full scale, for levels in order or a full scale of 0. -/
theorem levelFn_white (hlv : bl < wh ∨ 2 ^ b - 1 = 0) (h : wh ≤ i) : levelFn b bl wh i = 2 ^ b - 1 := by
  rw [levelFn, if_pos h]
  split_ifs with hi
  · omega
  · rfl

theorem levelFn_le_full (b bl wh i : Nat) : levelFn b bl wh i ≤ 2 ^ b - 1 := by
  unfold levelFn
  split_ifs with hbl hwh
  · exact Nat.zero_le _
  · exact le_rfl
  · refine Nat.div_le_of_le_mul ?_
    exact Nat.mul_le_mul_right _ (by omega)

theorem levelFn_mono (hlv : bl < wh ∨ 2 ^ b - 1 = 0) (hij : i ≤ j) : levelFn b bl wh i ≤ levelFn b bl wh j := by
  by_cases hi : i ≤ bl
  · rw [levelFn_black b wh hi]
    exact Nat.zero_le _
  by_cases hj : wh ≤ j
  · rw [levelFn_white hlv hj]
    exact levelFn_le_full b bl wh i
  rw [levelFn_between (by omega) (by omega), levelFn_between (by omega) (by omega)]
  exact Nat.div_le_div_right (Nat.mul_le_mul_right _ (by omega))

/-- From 0 to full scale the level function is the identity. -/
theorem levelFn_identity (h : i ≤ 2 ^ b - 1) : levelFn b 0 (2 ^ b - 1) i = i := by
  unfold levelFn
  split_ifs with h0 hf
  · omega
  · omega
  · exact Nat.mul_div_cancel i (by omega)

end Level

theorem CfgRegs.level_b_identity {c : CfgRegs} {b i : Nat} (hen : c.lvlEn = false) (hi : i ≤ 2 ^ b - 1) :
    c.level_b b i = i := by
  rw [CfgRegs.level_b, CfgRegs.levels, hen]
  exact levelFn_identity hi

/-- The levels of a snapshot that passes CFG_LEVEL lie within full scale, and in order but for a full scale of 0. -/
theorem CfgRegs.levels_of_not_bad {c : CfgRegs} {b : Nat} (h : c.badLevel b = false) :
    (c.levels b).2 ≤ 2 ^ b - 1 ∧ ((c.levels b).1 < (c.levels b).2 ∨ 2 ^ b - 1 = 0) := by
  cases hen : c.lvlEn with
  | false => simp only [CfgRegs.levels, hen, Bool.false_eq_true, if_false]; omega
  | true =>
    simp only [CfgRegs.badLevel, hen, Bool.true_and, Bool.not_eq_false', decide_eq_true_eq] at h
    simpa only [CfgRegs.levels, hen, if_true] using ⟨h.2, .inl h.1⟩

/-- Settles O17: the cases of the level function, at the levels the check lets pass. -/
theorem levelFunctionProperties : Obligations.LevelFunctionProperties := by
  unfold Obligations.LevelFunctionProperties
  refine ⟨fun c b hok => ?_, by decide, by decide, by decide, by decide⟩
  obtain ⟨hfull, hlv⟩ := CfgRegs.levels_of_not_bad hok
  have hblack : (c.levels b).1 = if c.lvlEn then c.black else 0 := by unfold CfgRegs.levels; split <;> rfl
  have hwhite : (c.levels b).2 = if c.lvlEn then c.white else 2 ^ b - 1 := by unfold CfgRegs.levels; split <;> rfl
  refine ⟨fun hen i hi => CfgRegs.level_b_identity hen hi, fun i j hij => levelFn_mono hlv hij, ?_, ?_,
    fun i hi => levelFn_white hlv (hfull.trans hi), fun i => levelFn_le_full _ _ _ i, fun hen i hbl hwh => ?_⟩
  · rw [← hblack]
    exact levelFn_black _ _ le_rfl
  · rw [← hwhite]
    exact levelFn_white hlv le_rfl
  · rw [CfgRegs.level_b, CfgRegs.levels, hen]
    exact levelFn_between hbl hwh

/-! ### Tables of default levels and gains (R202) -/

theorem gainFn_unity (tol n i : Nat) : gainFn tol n i 65536 = i := if_pos (Nat.zero_le tol)

theorem CfgRegs.gainCode_unity {c : CfgRegs} (hg : ∀ k, c.gain.get k = 0x00010000) (k : Chan) :
    c.gainCode k = 65536 := by
  rw [CfgRegs.gainCode, hg]
  rfl

theorem leftJustify_lt {raw b : Nat} (hb : b ≤ 16) (hraw : raw < 2 ^ b) : leftJustify raw b < 65536 := by
  calc raw * 2 ^ (16 - b) < 2 ^ b * 2 ^ (16 - b) := Nat.mul_lt_mul_of_pos_right hraw (Nat.two_pow_pos _)
    _ = 65536 := by rw [← pow_add, Nat.add_sub_cancel' hb]; rfl

/-- Settles O19: the entry functions are the identity, and the left-justified index lies in G16. -/
theorem defaultTablesAreIdentities : Obligations.DefaultTablesAreIdentities := by
  unfold Obligations.DefaultTablesAreIdentities
  intro c tol gs s t ch hen hgain hbuilt
  have hunity := CfgRegs.gainCode_unity hgain ch
  refine ⟨fun hg raw hraw => ?_, fun hlvl hg raw wide _ hb hraw => ?_⟩
  · have hlevel : c.level_b 8 raw = raw := CfgRegs.level_b_identity hen (Nat.le_sub_one_of_lt hraw)
    rw [hbuilt.g8 hg ch raw hraw, CfgRegs.g8Entry, hunity, gainFn_unity, hlevel]
  · have hsmall : raw < 65536 := hraw.trans_le (Nat.pow_le_pow_right Nat.two_pos hb)
    have hindex := leftJustify_lt hb hraw
    have hlevel : c.lvlEntry raw = raw := CfgRegs.level_b_identity hen (Nat.le_sub_one_of_lt hraw)
    have hread : Ram.read t.luts.lvl raw = some (BitVec.ofNat 16 raw) := by rw [hbuilt.lvl hlvl raw hsmall, hlevel]
    have hwidth : (BitVec.ofNat 16 raw).toNat = raw := Nat.mod_eq_of_lt hsmall
    rw [Luts.apply16, hread, Option.bind_some, hwidth, Luts.gain16, if_pos hindex, hbuilt.g16 hg ch _ hindex,
      CfgRegs.g16Entry, hunity, gainFn_unity]

/-! ### What LUT_ADDR selects (R45) -/

/-- The TABLE code of a selection (R45). -/
def TableSel.code : TableSel → Nat
  | .lvl => 0
  | .g8 c => 1 + c.index
  | .g16 c => 4 + c.index
  | .nothing => 7

/-- LUT_ADDR bits 18:16 are the code of what they select (R45). -/
theorem tableSel_code (addr : Word) : (tableSel addr).code = (addr.extractLsb' 16 3).toNat := by
  have hcode : field addr 16 3 < 8 := Nat.mod_lt _ (by decide)
  rw [BitVec.extractLsb'_toNat]
  change _ = field addr 16 3
  unfold tableSel
  generalize field addr 16 3 = T at hcode
  interval_cases T <;> rfl

theorem tableSel_of_code {addr : Word} {sel : TableSel} (h : (addr.extractLsb' 16 3).toNat = sel.code) :
    tableSel addr = sel := by
  rw [BitVec.extractLsb'_toNat] at h
  change field addr 16 3 = sel.code at h
  rw [tableSel, h]
  cases sel with
  | g8 c => cases c <;> rfl
  | g16 c => cases c <;> rfl
  | _ => rfl

theorem tableIndex_eq (addr : Word) : tableIndex addr = (addr.extractLsb' 0 16).toNat := by
  rw [BitVec.extractLsb'_toNat]
  rfl

theorem tableIndex_lt (addr : Word) : tableIndex addr < 65536 := Nat.mod_lt _ (by decide)

/-- Two addresses that differ in TABLE and INDEX select different tables or different entries. -/
theorem selection_ne {a b : Word} (h : a.extractLsb' 0 19 ≠ b.extractLsb' 0 19) (hsel : tableSel a = tableSel b) :
    tableIndex a ≠ tableIndex b := by
  intro hidx
  have hcode : (a.extractLsb' 16 3).toNat = (b.extractLsb' 16 3).toNat := by rw [← tableSel_code, hsel, tableSel_code]
  rw [tableIndex_eq, tableIndex_eq] at hidx
  refine h (BitVec.eq_of_toNat_eq ?_)
  simp only [BitVec.extractLsb'_toNat, Nat.shiftRight_eq_div_pow] at hcode hidx ⊢
  omega

/-! ### The step of the index (R203, R204) -/

/-- With AUTO_INC a port access steps the index modulo 65536 and leaves the other bits; without it LUT_ADDR stays. -/
theorem nextAddr_stepped (addr : Word) : IndexStepped addr (nextAddr addr) := by
  unfold nextAddr
  rw [flag_eq_getLsbD]
  have hidx : (tableIndex addr + 1) % 65536 < 65536 := Nat.mod_lt _ (by decide)
  cases hinc : addr.getLsbD 31 with
  | false => exact ⟨fun _ => rfl, fun h => absurd (hinc.symm.trans h) nofun, rfl⟩
  | true =>
    have hhigh : (BitVec.ofNat 32 ((tableIndex addr + 1) % 65536)).extractLsb' 16 16 = 0#16 := by
      refine BitVec.eq_of_toNat_eq ?_
      simp only [BitVec.extractLsb'_toNat, BitVec.toNat_ofNat, Nat.shiftRight_eq_div_pow, Nat.zero_mod]
      omega
    have hlow : ((BitVec.ofNat 32 ((tableIndex addr + 1) % 65536)).extractLsb' 0 16).toNat =
        (tableIndex addr + 1) % 65536 := by
      simp only [BitVec.extractLsb'_toNat, BitVec.toNat_ofNat, Nat.shiftRight_zero]
      omega
    have hmaskHigh : (0xFFFF0000 : Word).extractLsb' 16 16 = BitVec.allOnes 16 := by decide
    have hmaskLow : (0xFFFF0000 : Word).extractLsb' 0 16 = 0#16 := by decide
    refine ⟨fun h => absurd (hinc.symm.trans h) nofun, fun _ => ?_, ?_⟩ <;>
      rw [if_pos rfl, BitVec.extractLsb'_or, BitVec.extractLsb'_and]
    · rw [hmaskLow, BitVec.and_zero, BitVec.zero_or, hlow, tableIndex_eq]
    · rw [hmaskHigh, BitVec.and_allOnes, hhigh, BitVec.or_zero]

/-! ### What the port reads (R203) -/

section Port

variable {t : Luts} {addr a : Word}

theorem Luts.portEntry_lvl (h : tableSel addr = .lvl) :
    t.portEntry addr = (Ram.read t.lvl (tableIndex addr)).map (BitVec.zeroExtend 32) := by
  rw [Luts.portEntry, h]

theorem Luts.portEntry_g8 {c : Chan} (h : tableSel addr = .g8 c) (hi : tableIndex addr < 256) :
    t.portEntry addr = (Ram.read (t.g8.get c) (tableIndex addr)).map (BitVec.zeroExtend 32) := by
  simp only [Luts.portEntry, h, if_pos hi]

theorem Luts.portEntry_g8_outside {c : Chan} (h : tableSel addr = .g8 c) (hi : 256 ≤ tableIndex addr) :
    t.portEntry addr = some 0 := by
  simp only [Luts.portEntry, h, if_neg (Nat.not_lt.2 hi)]

theorem Luts.portEntry_g16 {c : Chan} (h : tableSel addr = .g16 c) :
    t.portEntry addr = (Ram.read (t.g16.get c) (tableIndex addr)).map (BitVec.zeroExtend 32) := by
  rw [Luts.portEntry, h]

theorem Luts.portEntry_nothing (h : tableSel addr = .nothing) : t.portEntry addr = some 0 := by
  rw [Luts.portEntry, h]

/-! ### What the port stores (R204) -/

theorem zeroExtend_low16 (v : Word) : BitVec.zeroExtend 32 (v.extractLsb' 0 16) = v &&& 0xFFFF := by
  refine BitVec.eq_of_toNat_eq ?_
  have hmask : (v &&& 0xFFFF).toNat = v.toNat % 2 ^ 16 := Nat.and_two_pow_sub_one_eq_mod v.toNat 16
  rw [hmask, BitVec.toNat_setWidth, BitVec.extractLsb'_toNat, Nat.shiftRight_zero]
  omega

theorem zeroExtend_low8 (v : Word) : BitVec.zeroExtend 32 (v.extractLsb' 0 8) = v &&& 0xFF := by
  refine BitVec.eq_of_toNat_eq ?_
  have hmask : (v &&& 0xFF).toNat = v.toNat % 2 ^ 8 := Nat.and_two_pow_sub_one_eq_mod v.toNat 8
  rw [hmask, BitVec.toNat_setWidth, BitVec.extractLsb'_toNat, Nat.shiftRight_zero]
  omega

/-- An entry of LVL stored is read back, its group is marked (R204). -/
theorem Luts.portStore_lvl (b : LutValid) (v : Word) (h : tableSel addr = .lvl) :
    (t.portStore addr v).portEntry addr = some (v &&& 0xFFFF) ∧ b.portStore addr = { b with lvl := true } := by
  rw [Luts.portEntry_lvl h, Luts.portStore, LutValid.portStore, h]
  exact ⟨by rw [Ram.read_write_same, Option.map_some, zeroExtend_low16], rfl⟩

theorem Luts.portStore_g8 (b : LutValid) (v : Word) {c : Chan} (h : tableSel addr = .g8 c)
    (hi : tableIndex addr < 256) :
    (t.portStore addr v).portEntry addr = some (v &&& 0xFF) ∧ b.portStore addr = { b with g8 := true } := by
  rw [Luts.portEntry_g8 h hi, Luts.portStore, LutValid.portStore, h]
  simp only [if_pos hi]
  exact ⟨by rw [PerChan.get_set, if_pos rfl, Ram.read_write_same, Option.map_some, zeroExtend_low8], rfl⟩

theorem Luts.portStore_g8_outside (t : Luts) (b : LutValid) (v : Word) {c : Chan} (h : tableSel addr = .g8 c)
    (hi : 256 ≤ tableIndex addr) : t.portStore addr v = t ∧ b.portStore addr = b := by
  rw [Luts.portStore, LutValid.portStore, h]
  exact ⟨if_neg (Nat.not_lt.2 hi), if_neg (Nat.not_lt.2 hi)⟩

theorem Luts.portStore_g16 (b : LutValid) (v : Word) {c : Chan} (h : tableSel addr = .g16 c) :
    (t.portStore addr v).portEntry addr = some (v &&& 0xFFFF) ∧ b.portStore addr = { b with g16 := true } := by
  rw [Luts.portEntry_g16 h, Luts.portStore, LutValid.portStore, h]
  exact ⟨by rw [PerChan.get_set, if_pos rfl, Ram.read_write_same, Option.map_some, zeroExtend_low16], rfl⟩

theorem Luts.portStore_nothing (t : Luts) (b : LutValid) (v : Word) (h : tableSel addr = .nothing) :
    t.portStore addr v = t ∧ b.portStore addr = b := by
  rw [Luts.portStore, LutValid.portStore, h]
  exact ⟨rfl, rfl⟩

/-- Of three tables, one a channel, an entry stored leaves the entries at other channels or indexes. -/
theorem PerChan.read_store_other {α : Type} {p : PerChan (Ram α)} {d i j : Nat} {c k : Chan} (v : α)
    (hs : ∀ ch, (p.get ch).hasDepth d = true) (hi : i < 2 ^ d) (hj : j < 2 ^ d) (hne : k = c → j ≠ i) :
    Ram.read ((p.set c (Ram.write (p.get c) i v)).get k) j = Ram.read (p.get k) j := by
  rw [PerChan.get_set]
  split_ifs with hk
  · rw [Ram.read_write_other v (hs c) hi hj (hne hk), hk]
  · rfl

/-- A port write leaves what the port reads at every other selection (R204). -/
theorem Luts.portEntry_portStore_other (v : Word) (hs : t.sized) (hne : a.extractLsb' 0 19 ≠ addr.extractLsb' 0 19) :
    (t.portStore addr v).portEntry a = t.portEntry a := by
  obtain ⟨hlvl, hg8, hg16⟩ := hs
  have hindex := selection_ne hne
  unfold Luts.portStore
  cases hsel : tableSel addr with
  | lvl =>
    cases ha : tableSel a with
    | lvl =>
      rw [Luts.portEntry_lvl ha, Luts.portEntry_lvl ha]
      dsimp only
      rw [Ram.read_write_other _ hlvl (tableIndex_lt addr) (tableIndex_lt a) (hindex (ha.trans hsel.symm))]
    | _ => simp only [Luts.portEntry, ha]
  | g8 c =>
    dsimp only
    split_ifs with hi
    · cases ha : tableSel a with
      | g8 k =>
        by_cases hj : tableIndex a < 256
        · rw [Luts.portEntry_g8 ha hj, Luts.portEntry_g8 ha hj]
          dsimp only
          rw [PerChan.read_store_other _ hg8 hi hj fun hk => hindex (by rw [ha, hsel, hk])]
        · rw [Luts.portEntry_g8_outside ha (Nat.not_lt.1 hj), Luts.portEntry_g8_outside ha (Nat.not_lt.1 hj)]
      | _ => simp only [Luts.portEntry, ha]
    · rfl
  | g16 c =>
    cases ha : tableSel a with
    | g16 k =>
      rw [Luts.portEntry_g16 ha, Luts.portEntry_g16 ha]
      dsimp only
      rw [PerChan.read_store_other _ hg16 (tableIndex_lt addr) (tableIndex_lt a) fun hk => hindex (by rw [ha, hsel, hk])]
    | _ => simp only [Luts.portEntry, ha]
  | nothing => rfl

end Port

/-! ### The obligations on the port -/

/-- A TABLE code of G8 is that of a channel's table, and so is one of G16 (R45). -/
theorem exists_index_of_lt {n : Nat} (h : n < 3) : ∃ c : Chan, c.index = n := ⟨chanAt n, index_chanAt h⟩

theorem lutPortWrite_idle {s : State} (v : Word) (hb : s.busy = false) :
    lutPortWrite v s = { s with
      luts := s.luts.portStore s.lutAddr v
      lutValid := s.lutValid.portStore s.lutAddr
      lutAddr := nextAddr s.lutAddr } := if_neg (by simp [hb])

/-- Settles O49: the clauses by table code, each from what the port stores at a selection. -/
theorem portWriteStoresTheEntry : Obligations.PortWriteStoresTheEntry := by
  unfold Obligations.PortWriteStoresTheEntry
  intro s v hb hs T i t
  have ht : t = _ := lutPortWrite_idle v hb
  have hi : tableIndex s.lutAddr = i := tableIndex_eq s.lutAddr
  have hsel {sel : TableSel} (h : T = sel.code) : tableSel s.lutAddr = sel := tableSel_of_code h
  have hg8 (h1 : 1 ≤ T) (h3 : T ≤ 3) : ∃ c, tableSel s.lutAddr = .g8 c := by
    obtain ⟨c, hc⟩ := exists_index_of_lt (n := T - 1) (by omega)
    exact ⟨c, hsel (by rw [TableSel.code]; omega)⟩
  have hg16 (h4 : 4 ≤ T) (h6 : T ≤ 6) : ∃ c, tableSel s.lutAddr = .g16 c := by
    obtain ⟨c, hc⟩ := exists_index_of_lt (n := T - 4) (by omega)
    exact ⟨c, hsel (by rw [TableSel.code]; omega)⟩
  rw [ht]
  refine ⟨?_, fun h => Luts.portStore_lvl _ v (hsel h), fun h1 h3 hlt => ?_, fun h1 h3 hge => ?_, fun h4 h6 => ?_,
    fun h => Luts.portStore_nothing _ _ v (hsel h), fun a ha => Luts.portEntry_portStore_other v hs ha,
    nextAddr_stepped s.lutAddr⟩
  · rw [← ht]
    exact (hostAccess_write_offset .lutData v s).trans (settle_idle (by rw [lutPortWrite_idle v hb]; exact hb))
  · obtain ⟨c, hc⟩ := hg8 h1 h3
    exact Luts.portStore_g8 _ v hc (hi ▸ hlt)
  · obtain ⟨c, hc⟩ := hg8 h1 h3
    exact Luts.portStore_g8_outside _ _ v hc (hi ▸ hge)
  · obtain ⟨c, hc⟩ := hg16 h4 h6
    exact Luts.portStore_g16 _ v hc

/-- A read of LUT_DATA on an idle block answers a written entry, and stops the model at an unwritten one (R203). -/
theorem hostAccess_portRead {s : State} (hb : s.busy = false) :
    (∀ v, s.luts.portEntry s.lutAddr = some v →
      hostAccess (.read 0x184 32) s = .next ({ s with lutAddr := nextAddr s.lutAddr }.answer v)) ∧
    (s.luts.portEntry s.lutAddr = none → hostAccess (.read 0x184 32) s = .fault .uninitLut) := by
  have hread : hostAccess (.read 0x184 32) s = thenSettle (lutPortRead s) := hostAccess_read_offset .lutData s
  rw [hread, lutPortRead, if_neg (by simp [hb])]
  refine ⟨fun v hv => ?_, fun hn => ?_⟩
  · rw [hv]
    exact settle_idle hb
  · rw [hn]
    rfl

/-- Settles O50: the entry the port reads, by table code. -/
theorem portReadAnswersTheEntry : Obligations.PortReadAnswersTheEntry := by
  unfold Obligations.PortReadAnswersTheEntry
  intro s hb T i stops
  obtain ⟨hreads, hstops⟩ := hostAccess_portRead hb
  have hi : tableIndex s.lutAddr = i := tableIndex_eq s.lutAddr
  have hsel {sel : TableSel} (h : T = sel.code) : tableSel s.lutAddr = sel := tableSel_of_code h
  refine ⟨fun h hn => hstops ?_, fun c h hlt hn => hstops ?_, fun c h hn => hstops ?_,
    nextAddr s.lutAddr, nextAddr_stepped s.lutAddr, fun e h he => hreads _ ?_, fun e c h hlt he => hreads _ ?_,
    fun e c h he => hreads _ ?_, fun h1 h3 hge => hreads _ ?_, fun h => hreads _ (Luts.portEntry_nothing (hsel h))⟩
  · rw [Luts.portEntry_lvl (hsel h), hi, hn, Option.map_none]
  · rw [Luts.portEntry_g8 (hsel h) (hi ▸ hlt), hi, hn, Option.map_none]
  · rw [Luts.portEntry_g16 (hsel h), hi, hn, Option.map_none]
  · rw [Luts.portEntry_lvl (hsel h), hi, he, Option.map_some]
  · rw [Luts.portEntry_g8 (hsel h) (hi ▸ hlt), hi, he, Option.map_some]
  · rw [Luts.portEntry_g16 (hsel h), hi, he, Option.map_some]
  · obtain ⟨c, hc⟩ := exists_index_of_lt (n := T - 1) (by omega)
    exact Luts.portEntry_g8_outside (hsel (sel := .g8 c) (by rw [TableSel.code]; omega)) (hi ▸ hge)

/-- Settles O51: the busy branches of the port, and the arm of LUT_ADDR. -/
theorem portWhileBusyOnlySetsOverrun : Obligations.PortWhileBusyOnlySetsOverrun := by
  unfold Obligations.PortWhileBusyOnlySetsOverrun
  intro s v hb
  have hread : lutPortRead s = .next (s.setOverrun.answer 0) := if_pos hb
  have hwrite : lutPortWrite v s = s.setOverrun := if_pos hb
  refine ⟨?_, ?_, hostAccess_write_offset .lutAddr v s⟩
  · exact (hostAccess_read_offset .lutData s).trans (congrArg thenSettle hread)
  · exact (hostAccess_write_offset .lutData v s).trans (congrArg settle hwrite)

end Sys2Proof.Machine
end

section
/-! A LUT pass that may be cancelled (42_lut, R200): where the pass stands, what the command is once the pass is over, and
the obligation on the groups a cancel leaves. -/

namespace Sys2Proof.Machine

/-! ### Groups built and marked in two parts -/

theorem Luts.built_append (c : CfgRegs) (tol : Nat) (gs gs' : List Group) (t : Luts) :
    (t.built c tol gs).built c tol gs' = t.built c tol (gs ++ gs') := by
  induction gs generalizing t with
  | nil => rw [Luts.built_nil, List.nil_append]
  | cons g gs ih => rw [← Luts.built_cons, ih, Luts.built_cons, List.cons_append]

theorem LutValid.marked_append (gs gs' : List Group) (v : LutValid) :
    (v.marked gs).marked gs' = v.marked (gs ++ gs') := by
  induction gs generalizing v with
  | nil => rw [LutValid.marked_nil, List.nil_append]
  | cons g gs ih => rw [← LutValid.marked_cons, ih, LutValid.marked_cons, List.cons_append]

/-! ### A command whose LUT pass is over -/

/-- No LUT pass is in progress or to come. -/
def State.LutPassOver (s : State) : Prop := ∀ gs, PassPlan.lut gs ∉ s.pos.left ++ s.todo

/-- A step of a command whose LUT pass is over: tables and bits stay, and no LUT pass begins. -/
structure TablesStay (s t : State) : Prop where
  passOver : t.LutPassOver
  luts : t.luts = s.luts
  lutValid : t.lutValid = s.lutValid

section Over

variable {s t : State}

/-- A step to a position outside a LUT pass. -/
theorem tablesStay_of_pos (hpos : ∀ gs, PassPlan.lut gs ∉ t.pos.left) (htodo : ∀ gs, PassPlan.lut gs ∉ s.todo)
    (hkept : t.todo = s.todo ∧ t.luts = s.luts ∧ t.lutValid = s.lutValid := by exact ⟨rfl, rfl, rfl⟩) :
    TablesStay s t := by
  obtain ⟨ht, hl, hv⟩ := hkept
  exact ⟨fun gs h => (List.mem_append.1 h).elim (hpos gs) (ht ▸ htodo gs), hl, hv⟩

theorem finish_tablesStay (e : Ending) : TablesStay s (finish e s) :=
  ⟨by simp [State.LutPassOver, Pos.left], finish_luts e s, finish_lutValid e s⟩

theorem rawStep_tablesStay {y x : Nat} {b : Bool} {phase : RawPhase} {k : Container} {ch : Chan}
    (htodo : ∀ gs, PassPlan.lut gs ∉ s.todo) (hr : rawStep y x b phase k ch s = .next t) : TablesStay s t := by
  obtain ⟨-, -, rfl⟩ | ⟨got, a, -, -, -, rfl⟩ | ⟨raw, p, -, -, rfl⟩ | ⟨i, v, -, -, rfl⟩ | ⟨v, -, rfl⟩ | ⟨out, -, rfl⟩ :=
    rawStep_cases hr
  case inr.inr.inr.inr.inr => exact tablesStay_of_pos (by simp [Pos.left]) htodo (by simp)
  all_goals exact tablesStay_of_pos (by simp [Pos.left]) htodo

theorem yuvStep_tablesStay {y x : Nat} {b : Bool} {phase : YuvPhase} {k : Container × Container × Container}
    (htodo : ∀ gs, PassPlan.lut gs ∉ s.todo) (hr : yuvStep y x b phase k s = .next t) : TablesStay s t := by
  obtain ⟨-, -, rfl⟩ | ⟨got, n, a, -, -, -, rfl⟩ | ⟨v, -, rfl⟩ := yuvStep_cases hr
  · exact tablesStay_of_pos nofun htodo
  · exact tablesStay_of_pos nofun htodo
  · exact tablesStay_of_pos nofun htodo (by simp)

theorem stepWorker_tablesStay {i : Nat} {w : Worker} {active : List Worker} {waiting : List Nat} {stopped : Bool}
    (htodo : ∀ gs, PassPlan.lut gs ∉ s.todo) (hw : stepWorker i w active waiting stopped s = .next t) :
    TablesStay s t := by
  obtain ⟨-, -, rfl⟩ | ⟨-, -, rfl⟩ | ⟨got, own, px, py, c, -, -, -, -, rfl⟩ | ⟨v, -, -, rfl⟩ | ⟨-, rfl⟩ :=
    stepWorker_cases hw
  case inr.inr.inr.inl => exact tablesStay_of_pos nofun htodo (by simp)
  all_goals exact tablesStay_of_pos nofun htodo

theorem stepRowStart_tablesStay {y : Nat} {row : Pos} (htodo : ∀ gs, PassPlan.lut gs ∉ s.todo)
    (hrow : ∀ gs, PassPlan.lut gs ∉ row.left) : TablesStay s (stepRowStart y row s) := by
  unfold stepRowStart
  split_ifs
  · exact tablesStay_of_pos nofun htodo
  · exact finish_tablesStay .cancelled
  · exact tablesStay_of_pos hrow htodo

theorem stepRowEnd_tablesStay {b : Bool} {nextRow : Pos} (htodo : ∀ gs, PassPlan.lut gs ∉ s.todo)
    (hnext : ∀ gs, PassPlan.lut gs ∉ nextRow.left) : TablesStay s (stepRowEnd b nextRow s) :=
  tablesStay_of_pos (by cases b <;> [exact hnext; exact nofun]) htodo

/-- The next pass of a command, none to come a LUT pass. -/
theorem stepBetween_tablesStay (htodo : ∀ gs, PassPlan.lut gs ∉ s.todo) : TablesStay s (stepBetween s) := by
  unfold stepBetween
  split
  · exact finish_tablesStay .done
  · rename_i p rest hp
    cases p with
    | lut gs => exact absurd (hp ▸ List.mem_cons_self) (htodo gs)
    | _ => exact ⟨fun gs h => htodo gs (hp ▸ h), rfl, rfl⟩

/-- Past its LUT pass a command leaves tables and bits (R200, R256). -/
theorem engineMove_tablesStay (h : s.LutPassOver) (hm : engineMove s = .next t) : TablesStay s t := by
  have htodo (gs : List Group) (hgs : PassPlan.lut gs ∈ s.todo) : False := h gs (List.mem_append_right _ hgs)
  have hpos (gs : List Group) (hgs : PassPlan.lut gs ∈ s.pos.left) : False := h gs (List.mem_append_left _ hgs)
  unfold engineMove at hm
  generalize s.pos = p at hm hpos
  cases p with
  | idle => cases hm
  | checked v =>
    cases v with
    | some code => cases hm; exact finish_tablesStay _
    | none => cases hm; exact tablesStay_of_pos nofun htodo
  | between => cases hm; exact stepBetween_tablesStay htodo
  | starting p =>
    cases hm
    cases p with
    | lut gs => exact (hpos gs List.mem_cons_self).elim
    | _ => exact tablesStay_of_pos (by simp [startPass, Pos.left]) htodo
  | lutOpen gs => exact (hpos _ List.mem_cons_self).elim
  | lutClear g rest => exact (hpos _ List.mem_cons_self).elim
  | lutFill g rest n => exact (hpos _ List.mem_cons_self).elim
  | lutMark g rest => exact (hpos _ List.mem_cons_self).elim
  | lutCount rest => exact (hpos _ List.mem_cons_self).elim
  | rawClear => cases hm; exact tablesStay_of_pos (by simp [Pos.left]) htodo
  | rawRow y => cases hm; exact stepRowStart_tablesStay htodo (by simp [Pos.left])
  | rawPix y x b phase =>
    obtain ⟨-, rfl⟩ | ⟨-, -, k, ch, -, -, hr⟩ := stepRawPix_cases hm
    · exact stepRowEnd_tablesStay htodo (by simp [Pos.left])
    · exact rawStep_tablesStay htodo hr
  | demosaic active waiting stopped =>
    obtain ⟨-, -, rfl⟩ | ⟨i, w, -, hw⟩ | ⟨j, y, -, -, rfl⟩ := stepDemosaic_cases hm
    · split_ifs
      · exact finish_tablesStay .cancelled
      · exact tablesStay_of_pos nofun htodo
    · obtain ⟨hover, hl, hv⟩ := stepWorker_tablesStay (s := { s with sched := s.sched.tail }) htodo hw
      exact ⟨hover, hl, hv⟩
    · exact tablesStay_of_pos nofun htodo
  | yuvRow y => cases hm; exact stepRowStart_tablesStay htodo nofun
  | yuvPix y x b phase =>
    obtain ⟨-, rfl⟩ | ⟨-, -, k, -, hr⟩ := stepYuvPix_cases hm
    · exact stepRowEnd_tablesStay htodo nofun
    · exact yuvStep_tablesStay htodo hr
  | truncated => cases hm; exact tablesStay_of_pos nofun htodo

theorem engineStep_tablesStay (h : s.LutPassOver) (hs : engineStep s = .next t) : TablesStay s t := by
  obtain ⟨u, hu, rfl⟩ := engineStep_cases hs
  obtain ⟨hover, hl, hv⟩ := engineMove_tablesStay h hu
  exact ⟨hover, hl, hv⟩

end Over

/-! ### Where a LUT pass stands, cancelled or not -/

/-- A LUT pass over `gs` that set out from `s` stands at a position, with the groups of a first part built, marked and
counted, and the tables and bits it has come to. -/
inductive LutStands (s : State) (gs : List Group) : Luts → LutValid → List Group → Pos → Prop
  | opening {built : List Group} (rest : List Group) (h : gs = built ++ rest) :
    LutStands s gs (s.luts.built s.cfg s.params.gainTol built) (s.lutValid.marked built) built (.lutOpen rest)
  | clearing {built : List Group} (g : Group) (rest : List Group) (h : gs = built ++ g :: rest) :
    LutStands s gs (s.luts.built s.cfg s.params.gainTol built) (s.lutValid.marked built) built (.lutClear g rest)
  | filling {built : List Group} (g : Group) (rest : List Group) (n : Nat) (h : gs = built ++ g :: rest)
    (hn : n < g.entries) :
    LutStands s gs ((s.luts.built s.cfg s.params.gainTol built).stored s.cfg s.params.gainTol g n)
      ((s.lutValid.marked built).set g false) built (.lutFill g rest n)
  | marking {built : List Group} (g : Group) (rest : List Group) (h : gs = built ++ g :: rest) :
    LutStands s gs (s.luts.built s.cfg s.params.gainTol (built ++ [g])) ((s.lutValid.marked built).set g false) built
      (.lutMark g rest)
  | counting {built : List Group} (g : Group) (rest : List Group) (h : gs = built ++ g :: rest) :
    LutStands s gs (s.luts.built s.cfg s.params.gainTol (built ++ [g])) (s.lutValid.marked (built ++ [g])) built
      (.lutCount rest)

/-- A state within a LUT pass that set out from `s`, a cancel request perhaps pending. -/
abbrev State.inLutPass (s : State) (pending : Bool) (since : Option Nat) (l : Luts) (v : LutValid) (progress : Word)
    (pos : Pos) (ticks : Nat) : State :=
  { s with cancelPending := pending, cancelAt := since }.lutAt l v progress pos ticks

/-- The states that a command at the start of its LUT pass over `gs` in `s` comes to, a cancel request coming at any step:
within the pass; between it and the end of the command; cancelled before a group; ended; or, where passes over the frame
are to come, past the pass. -/
inductive LutRun (s : State) (gs : List Group) : State → Prop
  | within {l : Luts} {v : LutValid} {built : List Group} {pos : Pos} (pending : Bool) (since : Option Nat) (ticks : Nat)
    (h : LutStands s gs l v built pos) :
    LutRun s gs (s.inLutPass pending since l v (BitVec.ofNat 32 built.length) pos ticks)
  | between (pending : Bool) (since : Option Nat) (ticks : Nat) :
    LutRun s gs (s.inLutPass pending since (s.luts.built s.cfg s.params.gainTol gs) (s.lutValid.marked gs)
      (BitVec.ofNat 32 gs.length) .between ticks)
  | cancelled {built rest : List Group} (pending : Bool) (since : Option Nat) (ticks : Nat) (h : gs = built ++ rest)
    (hrest : rest ≠ []) :
    LutRun s gs (finish .cancelled (s.inLutPass pending since (s.luts.built s.cfg s.params.gainTol built)
      (s.lutValid.marked built) (BitVec.ofNat 32 built.length) (.lutOpen rest) ticks))
  | done (pending : Bool) (since : Option Nat) (ticks : Nat) (htodo : s.todo = []) :
    LutRun s gs (finish .done (s.inLutPass pending since (s.luts.built s.cfg s.params.gainTol gs) (s.lutValid.marked gs)
      (BitVec.ofNat 32 gs.length) .between ticks))
  | past {u : State} (htodo : s.todo ≠ []) (hl : u.luts = s.luts.built s.cfg s.params.gainTol gs)
    (hv : u.lutValid = s.lutValid.marked gs) (hover : u.LutPassOver) : LutRun s gs u

section LutRun

variable {s u t : State} {gs : List Group}

theorem lutPassStart_lutRun (h : LutPassStart gs s) : LutRun s gs s := by
  have hrun := LutRun.within s.cancelPending s.cancelAt s.ticks
    (LutStands.opening (s := s) gs (List.nil_append gs).symm)
  have hzero : BitVec.ofNat 32 ([] : List Group).length = s.progress := h.progress.symm
  rw [Luts.built_nil, LutValid.marked_nil, ← h.pos, hzero] at hrun
  exact hrun

theorem requestCancel_inLutPass (hb : s.busy = true) (pending : Bool) (since : Option Nat) (l : Luts) (v : LutValid)
    (p : Word) (pos : Pos) (ticks : Nat) :
    requestCancel (s.inLutPass pending since l v p pos ticks) = s.inLutPass true (since.or (some ticks)) l v p pos ticks :=
  if_pos hb

/-- A cancel request keeps a command on its run. -/
theorem writeCtrl_lutRun (hb : s.busy = true) (h : LutRun s gs u) : LutRun s gs (writeCtrl 1 u) := by
  have hcancel : writeCtrl 1 u = requestCancel u := rfl
  cases h with
  | within pending since ticks h =>
    rw [hcancel, requestCancel_inLutPass hb]
    exact .within _ _ ticks h
  | between pending since ticks =>
    rw [hcancel, requestCancel_inLutPass hb]
    exact .between _ _ ticks
  | cancelled pending since ticks h hrest => exact .cancelled pending since ticks h hrest
  | done pending since ticks htodo => exact .done pending since ticks htodo
  | past htodo hl hv hover =>
    rw [hcancel]
    exact .past htodo ((requestCancel_luts u).trans hl) ((requestCancel_lutValid u).trans hv)
      (by rw [State.LutPassOver, requestCancel_pos, requestCancel_todo]; exact hover)

/-- A step within the pass, or out of it, counted. -/
theorem engineStep_inLutPass {pending : Bool} {since : Option Nat} {l l' : Luts} {v v' : LutValid} {p p' : Word}
    {pos pos' : Pos} {j : Nat} (hb : s.busy = true)
    (h : engineMove (s.inLutPass pending since l v p pos j) = .next (s.inLutPass pending since l' v' p' pos' j)) :
    engineStep (s.inLutPass pending since l v p pos j) = .next (s.inLutPass pending since l' v' p' pos' (j + 1)) := by
  rw [engineStep, h]
  simp only [andThen, State.ticked, State.inLutPass, State.lutAt, hb, if_true]

/-- The step that ends the command. -/
theorem engineStep_finish {e : Ending} (h : engineMove s = .next (finish e s)) : engineStep s = .next (finish e s) := by
  rw [engineStep, h]
  cases e <;> rfl

/-- A step of the pass comes to its next position, leaves the pass, or ends the command cancelled. -/
theorem lutStands_step {pending : Bool} {since : Option Nat} {l : Luts} {v : LutValid} {built : List Group} {pos : Pos}
    {j : Nat} (hb : s.busy = true) (hs : s.luts.sized) (h : LutStands s gs l v built pos)
    (ht : engineStep (s.inLutPass pending since l v (BitVec.ofNat 32 built.length) pos j) = .next t) : LutRun s gs t := by
  cases h with
  | opening rest hgs =>
    cases rest with
    | nil =>
      obtain rfl : gs = built := hgs.trans (List.append_nil built)
      cases (engineStep_inLutPass hb rfl).symm.trans ht
      exact .between pending since (j + 1)
    | cons g rest =>
      cases pending with
      | true =>
        cases (engineStep_finish (e := .cancelled) rfl).symm.trans ht
        exact .cancelled true since j hgs (List.cons_ne_nil g rest)
      | false =>
        cases (engineStep_inLutPass hb rfl).symm.trans ht
        exact .within false since (j + 1) (.clearing g rest hgs)
  | clearing g rest hgs =>
    have hplace := LutStands.filling (s := s) g rest 0 hgs g.entries_pos
    rw [Luts.stored_zero] at hplace
    cases (engineStep_inLutPass hb rfl).symm.trans ht
    exact .within pending since (j + 1) hplace
  | filling g rest n hgs hn =>
    cases (engineStep_inLutPass hb
      (engineMove_lutFill (s := { s with cancelPending := pending, cancelAt := since }) hn)).symm.trans ht
    split_ifs with hlast
    · exact .within pending since (j + 1) (.filling g rest (n + 1) hgs hlast)
    · have hfull : n + 1 = g.entries := Nat.le_antisymm hn (Nat.not_lt.1 hlast)
      have hplace := LutStands.marking (s := s) g rest hgs
      rw [← Luts.built_append, ← Luts.stored_entries _ _ g (Luts.built_sized _ _ built hs), ← hfull] at hplace
      exact .within pending since (j + 1) hplace
  | marking g rest hgs =>
    have hplace := LutStands.counting (s := s) g rest hgs
    rw [← LutValid.marked_append, ← LutValid.marked_singleton] at hplace
    cases (engineStep_inLutPass hb rfl).symm.trans ht
    exact .within pending since (j + 1) hplace
  | counting g rest hgs =>
    have hrun := LutRun.within pending since (j + 1)
      (LutStands.opening (s := s) rest (hgs.trans (List.append_cons built g rest)))
    rw [List.length_append, BitVec.ofNat_add] at hrun
    cases (engineStep_inLutPass hb rfl).symm.trans ht
    exact hrun

theorem stepBetween_last (h : u.todo = []) : stepBetween u = finish .done u := by
  rw [stepBetween, h]

/-- Every engine step keeps a command on its run. -/
theorem engineStep_lutRun (h : LutPassStart gs s) (hu : u.busy = true) (hrun : LutRun s gs u)
    (ht : engineStep u = .next t) : LutRun s gs t := by
  cases hrun with
  | within pending since j hst => exact lutStands_step h.busy h.sized hst ht
  | between pending since j =>
    by_cases htodo : s.todo = []
    · have hend := engineStep_finish (s := s.inLutPass pending since (s.luts.built s.cfg s.params.gainTol gs)
        (s.lutValid.marked gs) (BitVec.ofNat 32 gs.length) .between j)
        (congrArg Host.Outcome.next (stepBetween_last htodo))
      cases hend.symm.trans ht
      exact .done pending since j htodo
    · have hover : (s.inLutPass pending since (s.luts.built s.cfg s.params.gainTol gs) (s.lutValid.marked gs)
          (BitVec.ofNat 32 gs.length) .between j).LutPassOver := h.todo
      obtain ⟨hover', hl, hv⟩ := engineStep_tablesStay hover ht
      exact .past htodo hl hv hover'
  | cancelled pending since j hgs hrest => cases (finish_busy _ _).symm.trans hu
  | done pending since j htodo => cases (finish_busy _ _).symm.trans hu
  | past htodo hl hv hover =>
    obtain ⟨hover', hl', hv'⟩ := engineStep_tablesStay hover ht
    exact .past htodo (hl'.trans hl) (hv'.trans hv) hover'

theorem Group.length_le_of_nodup (h : gs.Nodup) : gs.length ≤ 3 := by
  have hsub : gs ⊆ [.lvl, .g8, .g16] := fun g _ => by cases g <;> decide
  exact (List.subperm_of_subset h hsub).length_le

/-- A first part of the groups whole, with the tables and bits the command has left, and no other group touched. -/
theorem lutRun_built (h : LutPassStart gs s) (hgs : gs.Nodup) (hrun : LutRun s gs t) (ht : t.busy = false) :
    ∃ built rest, gs = built ++ rest ∧ TablesBuilt s.cfg s.params.gainTol built s t ∧
      (rest ≠ [] → t.cancelled = true ∧ t.progress.toNat = built.length ∧ t.stats = s.stats ∧ t.dst = s.dst) ∧
      (rest = [] → s.todo = [] →
        t.done = true ∧ t.progress.toNat = built.length ∧ t.stats = s.stats ∧ t.dst = s.dst) := by
  obtain ⟨hsf, hdf⟩ := h.unraced
  have hunread := h.untouched.srcRead
  have hcount {built rest : List Group} (hb : gs = built ++ rest) :
      (BitVec.ofNat 32 built.length).toNat = built.length := by
    have hgroups := Group.length_le_of_nodup hgs
    rw [hb, List.length_append] at hgroups
    exact Nat.mod_eq_of_lt (by omega)
  cases hrun with
  | within pending since j hst => cases h.busy.symm.trans ht
  | between pending since j => cases h.busy.symm.trans ht
  | @cancelled built rest pending since j hb hrest =>
    refine ⟨built, rest, hb, tablesBuilt_of_built (finish_luts _ _) (finish_lutValid _ _), fun _ => ⟨rfl, ?_, ?_, ?_⟩,
      fun hnil => absurd hnil hrest⟩
    · rw [finish_progress]
      exact hcount hb
    · exact finish_stats_unread _ hunread
    · exact finish_dst_unread _ hunread hsf hdf
  | done pending since j htodo =>
    have hb := (List.append_nil gs).symm
    refine ⟨gs, [], hb, tablesBuilt_of_built (finish_luts _ _) (finish_lutValid _ _), fun hne => absurd rfl hne,
      fun _ _ => ⟨rfl, ?_, ?_, ?_⟩⟩
    · rw [finish_progress]
      exact hcount hb
    · exact finish_stats_unread _ hunread
    · exact finish_dst_unread _ hunread hsf hdf
  | past htodo hl hv _ =>
    exact ⟨gs, [], (List.append_nil gs).symm, tablesBuilt_of_built hl hv, fun hne => absurd rfl hne,
      fun _ hnil => absurd hnil htodo⟩

end LutRun

/-! ### The obligation on a cancelled pass -/

theorem selectedGroups_spec (lvl g8 g16 : Bool) :
    (selectedGroups lvl g8 g16).Sublist [.lvl, .g8, .g16] ∧ (.lvl ∈ selectedGroups lvl g8 g16 ↔ lvl = true) ∧
      (.g8 ∈ selectedGroups lvl g8 g16 ↔ g8 = true) ∧ (.g16 ∈ selectedGroups lvl g8 g16 ↔ g16 = true) := by
  cases lvl <;> cases g8 <;> cases g16 <;> decide

/-- The bit of a group is cleared before its entries are stored, and set after the last (R200). -/
theorem engineStep_lutValid {s t : State} (g : Group) (rest : List Group) (h : engineStep s = .next t) :
    (s.pos = .lutOpen (g :: rest) → s.cancelPending = false → t.pos = .lutClear g rest ∧ t.lutValid = s.lutValid) ∧
    (s.pos = .lutClear g rest → t.pos = .lutFill g rest 0 ∧ t.lutValid = s.lutValid.set g false) ∧
    (∀ n, s.pos = .lutFill g rest n → t.lutValid = s.lutValid ∧
      t.pos = if n + 1 < g.entries then .lutFill g rest (n + 1) else .lutMark g rest) ∧
    (s.pos = .lutMark g rest → t.pos = .lutCount rest ∧ t.lutValid = s.lutValid.set g true) := by
  obtain ⟨u, hu, rfl⟩ := engineStep_cases h
  refine ⟨fun hp hc => ?_, fun hp => ?_, fun n hp => ?_, fun hp => ?_⟩ <;> simp only [engineMove, hp] at hu <;> cases hu
  · rw [stepLutOpen, if_neg (by simp [hc])]
    exact ⟨rfl, rfl⟩
  all_goals exact ⟨rfl, rfl⟩

/-- Settles O16: a LUT pass is at every step at one of the places of `LutRun`, cancelled or not, and those where the
command is over have a first part of the groups whole. -/
theorem cancelledLutPassLeavesWholeGroups : Obligations.CancelledLutPassLeavesWholeGroups := by
  unfold Obligations.CancelledLutPassLeavesWholeGroups
  refine ⟨selectedGroups_spec, fun s t g rest _ h => engineStep_lutValid g rest h, ?_⟩
  intro n m gs s s₁ t hgs hstart hfirst hrest hover
  have hkeep (u v : State) (hu : u.busy = true) (hrun : LutRun s gs u) (huv : engineStep u = .next v) : LutRun s gs v :=
    engineStep_lutRun hstart hu hrun huv
  have hrun₁ : LutRun s gs s₁ := runEngine_induct hkeep (lutPassStart_lutRun hstart) hfirst
  have hrun : LutRun s gs t := runEngine_induct hkeep (writeCtrl_lutRun hstart.busy hrun₁) hrest
  exact lutRun_built hstart hgs hrun hover

end Sys2Proof.Machine
end

section
/-! The YUV-to-RGB conversion (44_yuv_csc): the fixed-point matrix against exact integer arithmetic, and its obligation. -/

namespace Sys2Proof.Machine

/-! ### Register fields as bit vectors (R9, R10) -/

theorem field_eq_extractLsb' (v : Word) (lo len : Nat) : field v lo len = (v.extractLsb' lo len).toNat :=
  (BitVec.extractLsb'_toNat lo len v).symm

/-- Bit 15 weighs minus 2^16 on top of its place in the field. -/
theorem sext16_eq_toInt (v : Word) : sext16 v = (v.extractLsb' 0 16).toInt := by
  have hmsb : (v.extractLsb' 0 16).msb = flag v 15 := by
    rw [flag_eq_getLsbD, BitVec.msb_eq_getLsbD_last, BitVec.getLsbD_extractLsb']
    rfl
  rw [sext16, field_eq_extractLsb', BitVec.toInt_eq_msb_cond, hmsb]
  cases flag v 15
  · exact sub_zero _
  · rfl

/-! ### The matrix (R235) -/

/-- A coefficient times a component less its offset: the exact product of 16 signed bits and a difference of 16-bit
numbers. -/
theorem abs_coeff_mul_le (coeff off : BitVec 16) {n : Nat} (hn : n < 65536) :
    |coeff.toInt * ((n : Int) - off.toNat)| ≤ 2 ^ 15 * 65535 := by
  have hc : |coeff.toInt| ≤ 2 ^ 15 := abs_le.2 ⟨coeff.le_toInt, coeff.toInt_lt.le⟩
  have hd : |(n : Int) - off.toNat| ≤ 65535 := by
    have hoff := off.isLt
    rw [abs_le]
    omega
  rw [abs_mul]
  exact mul_le_mul hc hd (abs_nonneg _) (by decide)

/-- Flooring division by 4096 is the arithmetic shift, and the clamp keeps the result a number. -/
theorem cscRound_eq (acc : Int) : (cscRound acc : Int) = max (0 : Int) (min 65535 ((acc + 2048) >>> (12 : Nat))) := by
  rw [cscRound, Int.shiftRight_eq_div_pow]
  omega

theorem CfgRegs.cscConvert_get (c : CfgRegs) (p : Yuv) (k : Chan) :
    (c.cscConvert p).get k = cscRound (cscAcc (c.csc.get k) (p.y - field c.cscYoff 0 16) (p.u - field c.cscCoff 0 16)
      (p.v - field c.cscCoff 0 16)) := by
  cases k <;> rfl

/-! ### Grey input (R239) -/

/-- Without chroma a row's accumulator is its luma term. -/
theorem cscAcc_grey (row : CscRow) (yd : Int) : cscAcc row yd 0 0 = sext16 row.y * yd := by
  rw [cscAcc, mul_zero, mul_zero, add_zero, add_zero]

/-- Grey input gives equal channels wherever the rows share their luma coefficient. -/
theorem CfgRegs.cscConvert_grey {c : CfgRegs} {p : Yuv} {k k' : Chan} (hu : p.u = field c.cscCoff 0 16)
    (hv : p.v = field c.cscCoff 0 16) (hluma : (c.csc.get k).y = (c.csc.get k').y) :
    (c.cscConvert p).get k = (c.cscConvert p).get k' := by
  rw [cscConvert_get, cscConvert_get, hu, hv, sub_self, cscAcc_grey, cscAcc_grey, hluma]

/-- Settles O23: three bounded products make the accumulator, which `cscRound` rounds and clamps; and the rows of the
reset matrix share their luma coefficient. -/
theorem matrixRoundsHalfUpAndSaturates : Obligations.MatrixRoundsHalfUpAndSaturates := by
  unfold Obligations.MatrixRoundsHalfUpAndSaturates
  intro c p k hy hu hv row acc
  obtain ⟨hylo, hyhi⟩ := abs_le.1 (abs_coeff_mul_le (row.y.extractLsb' 0 16) (c.cscYoff.extractLsb' 0 16) hy)
  obtain ⟨hulo, huhi⟩ := abs_le.1 (abs_coeff_mul_le (row.u.extractLsb' 0 16) (c.cscCoff.extractLsb' 0 16) hu)
  obtain ⟨hvlo, hvhi⟩ := abs_le.1 (abs_coeff_mul_le (row.v.extractLsb' 0 16) (c.cscCoff.extractLsb' 0 16) hv)
  refine ⟨by omega, by omega, ?_, fun hreset hgu hgv => ⟨?_, ?_⟩⟩
  · rw [CfgRegs.cscConvert_get, cscRound_eq]
    simp only [cscAcc, sext16_eq_toInt, field_eq_extractLsb', acc, row]
  · exact CfgRegs.cscConvert_grey (k := .r) (k' := .g) hgu hgv (by rw [hreset]; rfl)
  · exact CfgRegs.cscConvert_grey (k := .g) (k' := .b) hgu hgv (by rw [hreset]; rfl)

end Sys2Proof.Machine
end

section
/-! A pass over the frame (45_bayer_decode, 44_yuv_csc, 46_demosaic): running the engine in parts, the pixels of a set
written over a destination space, and what a pass keeps of the command it belongs to; and the obligation on the centre
region. -/

namespace Sys2Proof.Machine

/-! ### The centre region (R253) -/

theorem CfgRegs.inCentre_iff (c : CfgRegs) (x y : Nat) :
    c.inCentre x y = true ↔ c.width / 3 ≤ x ∧ x < c.width - c.width / 3 ∧ c.height / 3 ≤ y ∧
      y < c.height - c.height / 3 := decide_eq_true_iff

/-- Settles O31: each clause is arithmetic on the bounds of the region. -/
theorem centreRegionIsSymmetric : Obligations.CentreRegionIsSymmetric := by
  unfold Obligations.CentreRegionIsSymmetric
  intro c
  refine ⟨c.inCentre_iff, fun x y hp => ?_, fun hw x y hp => ?_, fun n hn x y => ?_⟩
  · obtain ⟨hx, hy⟩ := hp
    rw [Bool.eq_iff_iff, c.inCentre_iff, c.inCentre_iff]
    omega
  · obtain ⟨hx, -⟩ := hp
    rw [c.inCentre_iff]
    omega
  · rw [c.inCentre_iff]
    omega

/-! ### Running the engine in parts -/

/-- A run that starts where `P` holds stays where it holds, or passes through a state where `Q` does. -/
theorem runEngine_through {P Q : State → Prop}
    (hstep : ∀ u v, u.busy = true → P u → engineStep u = .next v → P v ∨ Q v) {n : Nat} {s t : State} (hs : P s)
    (h : runEngine n s = .next t) : P t ∨ ∃ u, Q u ∧ ∃ m, runEngine m u = .next t := by
  induction n generalizing s with
  | zero => cases h; exact .inl hs
  | succ n ih =>
    obtain ⟨-, rfl⟩ | ⟨hb, u, hu, h⟩ := runEngine_succ_cases h
    · exact .inl hs
    · rcases hstep s u hb hs hu with hP | hQ
      · exact ih hP h
      · exact .inr ⟨u, hQ, n, h⟩

/-- What holds of a running command at its start, and is kept by every step and by a cancel request, holds after a run in
which the request came. -/
theorem runEngine_cancelled_induct {P : State → Prop}
    (hstep : ∀ u v, u.busy = true → P u → engineStep u = .next v → P v) (hcancel : ∀ u, P u → P (requestCancel u))
    {n m : Nat} {s s₁ t : State} (hs : P s) (h₁ : runEngine n s = .next s₁)
    (h : runEngine m (writeCtrl 1 s₁) = .next t) : P t :=
  runEngine_induct hstep (hcancel s₁ (runEngine_induct hstep hs h₁)) h

/-- A run to the end of a command passes through every state the command comes to. -/
theorem Reaches.rest {n : Nat} {s u t : State} (h : Reaches s u) (hu : u.busy = true) (ht : runEngine n s = .next t)
    (hover : t.busy = false) : ∃ m, runEngine m u = .next t := by
  obtain ⟨k, hk⟩ := h
  rcases le_total n k with hle | hle
  · have hut := (runEngine_more ht hover hle).symm.trans hk
    cases hut
    cases hu.symm.trans hover
  · obtain ⟨m, rfl⟩ := Nat.exists_eq_add_of_le hle
    rw [runEngine_add, hk] at ht
    exact ⟨m, ht⟩

/-- A cancel request stays pending as long as the command runs (R150). -/
theorem runEngine_cancelPending {n : Nat} {s t : State} (h : runEngine n s = .next t) (ht : t.busy = true) :
    t.cancelPending = s.cancelPending :=
  runEngine_induct (P := fun u => u.busy = true → u.cancelPending = s.cancelPending)
    (fun u v hb hu huv hv => by
      obtain ⟨-, -, -, -, -, hc, -⟩ := engineStep_busy huv hv
      exact hc.trans (hu hb)) (fun _ => rfl) h ht

theorem finish_ticked (e : Ending) (s : State) (n : Nat) : (finish e s).ticked n = finish e s := by cases e <;> rfl

/-- The next pass to come is shown, and begins with PROGRESS 0 (R146). -/
theorem nextPass_reaches {s : State} {p : PassPlan} {rest : List PassPlan} (hb : s.busy = true) (hp : s.pos = .between)
    (ht : s.todo = p :: rest) :
    Reaches s { startPass p (showPass p { s with todo := rest }) with ticks := s.ticks + 2 } := by
  have hshow : engineMove s = .next (showPass p { s with todo := rest }) := by simp only [engineMove, hp, stepBetween, ht]
  have hshown := Reaches.of_move hb hshow (by cases p <;> exact hb)
  refine hshown.trans (.of_step (by cases p <;> exact hb) ?_)
  cases p <;> simp [engineStep, engineMove, showPass, startPass, andThen, State.ticked, hb]

/-! ### Pixels written over a destination space -/

/-- The destination space holds the pixels of the set `S`, in the frame, as `val` gives them, and is as before elsewhere. -/
structure CfgRegs.Painted (c : CfgRegs) (S : Nat → Nat → Prop) (val : Nat → Nat → Option Rgb) (before after : Memory) :
    Prop where
  inside : ∀ x y, S x y → c.hasPixel x y
  written : ∀ x y, S x y → ∃ v, val x y = some v ∧ c.pixelIs after x y v
  untouched : ∀ a, (∀ x y, S x y → ¬c.pixelHas x y a) → Memory.read after a = Memory.read before a

section Painted

variable {c : CfgRegs} {S S' : Nat → Nat → Prop} {val : Nat → Nat → Option Rgb} {before after : Memory}

theorem CfgRegs.painted_none (hS : ∀ x y, ¬S x y) (m : Memory) : c.Painted S val m m :=
  ⟨fun x y h => absurd h (hS x y), fun x y h => absurd h (hS x y), fun _ _ => rfl⟩

theorem CfgRegs.Painted.congr (h : c.Painted S val before after) (hS : ∀ x y, S' x y ↔ S x y) :
    c.Painted S' val before after := by
  obtain rfl : S' = S := funext₂ fun x y => propext (hS x y)
  exact h

/-- One pixel more. -/
theorem CfgRegs.Painted.paint {x y : Nat} {v : Rgb} (h : c.Painted S val before after) (hd : c.badDstStride = false)
    (hwf : Memory.wf after = true) (hp : c.hasPixel x y) (hv : val x y = some v)
    (hS : ∀ x' y', S' x' y' ↔ S x' y' ∨ x' = x ∧ y' = y) :
    c.Painted S' val before (Memory.writeN after (c.dstAddr x y) c.bpp (c.pixelWord v)) where
  inside x' y' h' := by
    rcases (hS x' y').1 h' with h' | ⟨rfl, rfl⟩
    · exact h.inside x' y' h'
    · exact hp
  written x' y' h' := by
    by_cases he : (x', y') = (x, y)
    · obtain ⟨rfl, rfl⟩ := Prod.mk.inj he
      exact ⟨v, hv, fun k hk => Memory.read_writeN_inside _ hwf hk⟩
    · have hold : S x' y' := ((hS x' y').1 h').resolve_right fun e => he (Prod.ext e.1 e.2)
      obtain ⟨w, hw, hpix⟩ := h.written x' y' hold
      refine ⟨w, hw, fun k hk => ?_⟩
      have hstride : c.width * c.bpp ≤ c.dstStride.toNat := by simpa [CfgRegs.badDstStride] using hd
      have hapart := CfgRegs.dstAddr_disjoint hstride (h.inside x' y' hold).1 hp.1 he
      rw [Memory.read_writeN_outside _ _ (by omega), hpix k hk]
  untouched a ha := by
    have hout : ¬c.pixelHas x y a := ha x y ((hS x y).2 (.inr ⟨rfl, rfl⟩))
    rw [Memory.read_writeN_outside _ _ (by omega)]
    exact h.untouched a fun x' y' h' => ha x' y' ((hS x' y').2 (.inl h'))

/-- A byte outside the frame is as before. -/
theorem CfgRegs.Painted.outside {a : Nat} (h : c.Painted S val before after) (hd : c.badDstStride = false)
    (ha : c.inFrame a = false) : Memory.read after a = Memory.read before a :=
  h.untouched a fun x y hS hpix => by
    rw [CfgRegs.inFrame_of_pixelHas hd (h.inside x y hS) hpix] at ha
    cases ha

end Painted

/-! ### What a pass over the frame keeps of its command -/

/-- What a pass over the frame leaves of a running command as it was when the pass began. -/
structure PassKept (s u : State) : Prop where
  busy : u.busy = s.busy
  params : u.params = s.params
  cfg : u.cfg = s.cfg
  launch : u.launch = s.launch
  srcForeign : u.srcForeign = s.srcForeign
  dstForeign : u.dstForeign = s.dstForeign
  src : u.src = s.src
  luts : u.luts = s.luts
  lutValid : u.lutValid = s.lutValid
  todo : u.todo = s.todo
  done : u.done = s.done
  error : u.error = s.error
  cancelled : u.cancelled = s.cancelled
  errCode : u.errCode = s.errCode
  trunc : u.trunc = s.trunc

theorem PassKept.trans {s u v : State} (h : PassKept s u) (h' : PassKept u v) : PassKept s v where
  busy := h'.busy.trans h.busy
  params := h'.params.trans h.params
  cfg := h'.cfg.trans h.cfg
  launch := h'.launch.trans h.launch
  srcForeign := h'.srcForeign.trans h.srcForeign
  dstForeign := h'.dstForeign.trans h.dstForeign
  src := h'.src.trans h.src
  luts := h'.luts.trans h.luts
  lutValid := h'.lutValid.trans h.lutValid
  todo := h'.todo.trans h.todo
  done := h'.done.trans h.done
  error := h'.error.trans h.error
  cancelled := h'.cancelled.trans h.cancelled
  errCode := h'.errCode.trans h.errCode
  trunc := h'.trunc.trans h.trunc

/-- No source byte the running command has read is a destination byte it has written, or may write (R83). -/
def State.KeptApart (s : State) : Prop :=
  ∀ r ∈ s.srcRead, ∀ d, aliasOf s.params r.addr = some d → s.hasWritten d = false ∧ s.cfg.inFrame d = false

/-- A command whose pass over the frame began in `s`, and has since written the pixels of the set `S` as `val` gives
them. -/
structure FramePass (S : Nat → Nat → Prop) (val : Nat → Nat → Option Rgb) (s u : State) : Prop where
  kept : PassKept s u
  dstWf : Memory.wf u.dst = true
  painted : s.cfg.Painted S val s.dst u.dst
  wrote : ∀ c ∈ u.overwritten, c ∈ s.overwritten ∨ s.cfg.inFrame c.1 = true
  apart : u.KeptApart

section FramePass

variable {S S' : Nat → Nat → Prop} {val : Nat → Nat → Option Rgb} {s u v : State}

theorem State.hasWritten_eq_false {d : Nat} : s.hasWritten d = false ↔ ∀ c ∈ s.overwritten, c.1 ≠ d := by
  simp [State.hasWritten]

theorem FramePass.congr (h : FramePass S val s u) (hS : ∀ x y, S' x y ↔ S x y) : FramePass S' val s u :=
  ⟨h.kept, h.dstWf, h.painted.congr hS, h.wrote, h.apart⟩

/-- Nothing written yet. -/
theorem framePass_start (hS : ∀ x y, ¬S x y) (hwf : Memory.wf s.dst = true) (ha : s.KeptApart) :
    FramePass S val s s :=
  ⟨by constructor <;> rfl, hwf, CfgRegs.painted_none hS _, fun _ => .inl, ha⟩

/-- A step that neither reads nor writes a pixel. -/
theorem FramePass.goOn (h : FramePass S val s u) (hk : PassKept u v := by constructor <;> rfl)
    (hsame : v.dst = u.dst ∧ v.overwritten = u.overwritten ∧ v.srcRead = u.srcRead := by exact ⟨rfl, rfl, rfl⟩) :
    FramePass S val s v := by
  obtain ⟨hd, ho, hr⟩ := hsame
  refine ⟨h.kept.trans hk, hd ▸ h.dstWf, hd ▸ h.painted, ho ▸ h.wrote, ?_⟩
  unfold State.KeptApart State.hasWritten
  rw [ho, hr, hk.params, hk.cfg]
  exact h.apart

/-- A pixel of the frame written. -/
theorem FramePass.paint {x y : Nat} {w : Rgb} (h : FramePass S val s u) (hd : s.cfg.badDstStride = false)
    (hp : s.cfg.hasPixel x y) (hw : val x y = some w) (hS : ∀ x' y', S' x' y' ↔ S x' y' ∨ x' = x ∧ y' = y) (p : Pos) :
    FramePass S' val s { u.writePixel x y w with pos := p } := by
  have hcfg := h.kept.cfg
  have hin {c : Host.Cell} (hc : c ∈ (u.writePixel x y w).overwritten) :
      c ∈ u.overwritten ∨ s.cfg.inFrame c.1 = true :=
    (State.mem_overwritten_putWord hc).imp_right fun hpix =>
      CfgRegs.inFrame_of_pixelHas hd hp (by rw [← hcfg]; exact hpix)
  refine ⟨h.kept.trans (by constructor <;> simp), State.writePixel_wf x y w h.dstWf, ?_, fun c hc => ?_,
    fun r hr d hrd => ?_⟩
  · rw [State.writePixel_dst, hcfg]
    exact h.painted.paint hd h.dstWf hp hw hS
  · exact (hin hc).elim (h.wrote c) .inr
  · obtain ⟨hwr, hfr⟩ := h.apart r (by simpa using hr) d (by simpa using hrd)
    refine ⟨State.hasWritten_eq_false.2 fun c hc hcd => ?_, by simpa using hfr⟩
    rcases hin hc with hc | hc
    · exact State.hasWritten_eq_false.1 hwr c hc hcd
    · rw [hcd, ← hcfg, hfr] at hc
      cases hc

/-- A source byte kept apart from the frame, read for a pixel. -/
theorem FramePass.note (h : FramePass S val s u) (hover : s.overwritten = []) {a : Nat}
    (ha : ∀ d, aliasOf s.params a = some d → s.cfg.inFrame d = false) (x y : Nat) (p : Pos) :
    FramePass S val s { u.noteSrc a x y with pos := p } := by
  refine ⟨h.kept.trans (by constructor <;> rfl), h.dstWf, h.painted, h.wrote, fun r hr d hrd => ?_⟩
  rcases List.mem_cons.1 hr with rfl | hr
  · have hfr : s.cfg.inFrame d = false := ha d (h.kept.params ▸ hrd)
    refine ⟨State.hasWritten_eq_false.2 fun c hc hcd => ?_, h.kept.cfg ▸ hfr⟩
    rcases h.wrote c hc with hc | hc
    · simp [hover] at hc
    · rw [hcd, hfr] at hc
      cases hc
  · exact h.apart r hr d hrd

/-- The engine reads a source byte kept apart from the frame as it stood when the pass began. -/
theorem FramePass.srcByte (h : FramePass S val s u) (hd : s.cfg.badDstStride = false) (hun : s.Unraced)
    (hover : s.overwritten = []) {a : Nat} (ha : ∀ d, aliasOf s.params a = some d → s.cfg.inFrame d = false)
    (salt : Nat) : u.srcByte salt a = s.srcAt a := by
  have halias : u.isAliased ⟨a, 0, 0⟩ = false := by
    unfold State.isAliased
    rw [h.kept.params]
    split
    · rename_i d hda
      refine State.hasWritten_eq_false.2 fun c hc hcd => ?_
      rcases h.wrote c hc with hc | hc
      · simp [hover] at hc
      · rw [hcd, ha d hda] at hc
        cases hc
    · rfl
  have hforeign : u.srcForeign = [] := h.kept.srcForeign.trans hun.src
  rw [State.srcByte, hforeign, halias, State.srcAt, State.srcAt, h.kept.params, h.kept.src]
  cases hda : aliasOf s.params a with
  | none => rfl
  | some d => exact h.painted.outside hd (ha d hda)

/-- The end of a command leaves what its pass has made. -/
theorem FramePass.finish (h : FramePass S val s u) (hun : s.Unraced) (e : Ending) :
    (finish e u).dst = u.dst ∧ (finish e u).stats = u.stats := by
  have hover : u.overlaps = false := by
    rw [State.overlaps, List.any_eq_false]
    intro r hr
    unfold State.isAliased
    split
    · rename_i d hrd
      simp [(h.apart r hr d hrd).1]
    · simp
  rw [finish_dst, finish_stats, State.settledStats_of_apart hover]
  exact ⟨State.settledDst_of_nil (State.racedBytes_of_apart (h.kept.srcForeign.trans hun.src)
    (h.kept.dstForeign.trans hun.dst) hover), rfl⟩

end FramePass

end Sys2Proof.Machine
end

section
/-! The row passes (45_bayer_decode, 44_yuv_csc): the statistics over a set of pixels, which pixels of a frame are decodable,
where a row pass stands, and what it leaves. -/

namespace Sys2Proof.Machine

/-! ### Sums over a set of pixels (R260) -/

/-- A list without repeats that lets one more of its members pass a filter gains that member. -/
theorem filter_perm_cons {α : Type} {l : List α} {p q : α → Bool} {a : α} (hl : l.Nodup) (ha : a ∈ l) (hp : p a = false)
    (hq : q a = true) (hpq : ∀ b ∈ l, b ≠ a → q b = p b) : (l.filter q).Perm (a :: l.filter p) := by
  obtain ⟨l₁, l₂, rfl⟩ := List.append_of_mem ha
  have hnot : a ∉ l₁ ++ l₂ := (List.nodup_cons.1 (List.nodup_middle.1 hl)).1
  have hsame (b : α) (hb : b ∈ l₁ ++ l₂) : q b = p b := by
    refine hpq b ?_ fun h => hnot (h ▸ hb)
    rw [List.mem_append] at hb
    rw [List.mem_append, List.mem_cons]
    tauto
  have h₁ : l₁.filter q = l₁.filter p := List.filter_congr fun b hb => hsame b (List.mem_append_left _ hb)
  have h₂ : l₂.filter q = l₂.filter p := List.filter_congr fun b hb => hsame b (List.mem_append_right _ hb)
  simp only [List.filter_append, List.filter_cons, hp, hq, h₁, h₂, if_true, Bool.false_eq_true, if_false]
  exact List.perm_middle

theorem CfgRegs.pixels_eq (c : CfgRegs) :
    c.pixels = ((List.range c.height).product (List.range c.width)).map Prod.swap := by
  simp [CfgRegs.pixels, List.product, List.map_flatMap, Function.comp_def]

theorem CfgRegs.pixels_nodup (c : CfgRegs) : c.pixels.Nodup := by
  rw [c.pixels_eq]
  exact (List.nodup_range.product List.nodup_range).map Prod.swap_injective

theorem CfgRegs.mem_pixels {c : CfgRegs} {p : Nat × Nat} : p ∈ c.pixels ↔ c.hasPixel p.1 p.2 := by
  obtain ⟨x, y⟩ := p
  simp [CfgRegs.pixels, and_comm]

section Totals

variable {c : CfgRegs} {dec dec' : Nat → Nat → Bool}

/-- The sum depends on the pixels of the frame alone. -/
theorem CfgRegs.total_congr (h : ∀ x y, c.hasPixel x y → dec' x y = dec x y) (ch : Chan) (wgt f : Nat → Nat → Nat) :
    c.total dec' ch wgt f = c.total dec ch wgt f := by
  unfold CfgRegs.total
  rw [List.filter_congr fun p hp => by rw [h p.1 p.2 (CfgRegs.mem_pixels.1 hp)]]

/-- One pixel more adds its term to the sum of its own channel. -/
theorem CfgRegs.total_insert {x y : Nat} {own : Chan} (hp : c.hasPixel x y) (hown : c.color x y = some own)
    (hx : dec x y = false) (hx' : dec' x y = true)
    (hdec : ∀ x' y', c.hasPixel x' y' → (x', y') ≠ (x, y) → dec' x' y' = dec x' y') (ch : Chan)
    (wgt f : Nat → Nat → Nat) :
    c.total dec' ch wgt f = c.total dec ch wgt f + if ch = own then wgt x y * f x y else 0 := by
  unfold CfgRegs.total
  split_ifs with hch
  · subst hch
    have hperm := filter_perm_cons (p := fun p => dec p.1 p.2 && c.color p.1 p.2 == some ch)
      (q := fun p => dec' p.1 p.2 && c.color p.1 p.2 == some ch) c.pixels_nodup
      (CfgRegs.mem_pixels.2 hp : (x, y) ∈ c.pixels) (by simp [hx]) (by simp [hx', hown])
      fun p hp hne => by rw [hdec p.1 p.2 (CfgRegs.mem_pixels.1 hp) hne]
    rw [(hperm.map _).sum_eq, List.map_cons, List.sum_cons, Nat.add_comm]
  · have hsame : c.pixels.filter (fun p => dec' p.1 p.2 && c.color p.1 p.2 == some ch) =
        c.pixels.filter fun p => dec p.1 p.2 && c.color p.1 p.2 == some ch := by
      refine List.filter_congr fun p hp => ?_
      by_cases he : p = (x, y)
      · have hne : (some own == some ch) = false := by simpa using fun e => hch e.symm
        rw [he, hown, hne, Bool.and_false, Bool.and_false]
      · rw [hdec p.1 p.2 (CfgRegs.mem_pixels.1 hp) he]
    rw [hsame, Nat.add_zero]

variable {s16 : Nat → Nat → Nat} {t : Stats}

theorem StatsResult.congr (h : StatsResult c dec s16 t) (hdec : ∀ x y, c.hasPixel x y → dec' x y = dec x y) :
    StatsResult c dec' s16 t where
  sumU ch := by rw [CfgRegs.total_congr hdec]; exact h.sumU ch
  cntU ch := by rw [CfgRegs.total_congr hdec]; exact h.cntU ch
  sumC ch := by rw [CfgRegs.total_congr hdec]; exact h.sumC ch
  cntC ch := by rw [CfgRegs.total_congr hdec]; exact h.cntC ch

/-- No pixel, no sum (R257). -/
theorem statsResult_zero (h : ∀ x y, c.hasPixel x y → dec x y = false) : StatsResult c dec s16 Stats.zero := by
  have hzero (ch : Chan) (wgt f : Nat → Nat → Nat) : c.total dec ch wgt f = 0 := by
    rw [CfgRegs.total_congr (dec := fun _ _ => false) h]
    simp [CfgRegs.total]
  constructor <;> intro ch <;> rw [hzero] <;> cases ch <;> rfl

/-- A pixel accumulated is one pixel more (R260). -/
theorem StatsResult.accumulate {x y : Nat} {own : Chan} (h : StatsResult c dec s16 t) (hp : c.hasPixel x y)
    (hown : c.color x y = some own) (hx : dec x y = false) (hx' : dec' x y = true)
    (hdec : ∀ x' y', c.hasPixel x' y' → (x', y') ≠ (x, y) → dec' x' y' = dec x' y') :
    StatsResult c dec' s16 (t.accumulate (c.inCentre x y) own (s16 x y)) := by
  have htotal := CfgRegs.total_insert hp hown hx hx' hdec
  have hw : c.weight x y = if c.inCentre x y then 2 else 1 := rfl
  obtain ⟨hsu, hcu, hsc, hcc⟩ := h
  constructor <;> intro ch <;> rw [htotal, BitVec.ofNat_add] <;>
    simp only [Stats.accumulate, PerChan.get_set, ChanStat.add, hw] <;> split_ifs with hch <;>
    simp [hch, ← hsu, ← hcu, ← hsc, ← hcc]

end Totals

/-! ### Decodable pixels are a prefix of the scan (R261) -/

/-- The first of the source bytes a sample depends on (R171, R172, R176). -/
def CfgRegs.firstDep (c : CfgRegs) (p : PlaneRegs) (x y : Nat) : Container → Nat
  | .byte8 => c.sampleAddr p x y 0
  | .word16 _ => c.sampleAddr p x y 0
  | .mipi _ g => c.groupAddr p g x y

theorem CfgRegs.dep_eq (c : CfgRegs) (p : PlaneRegs) (k : Container) (x y : Nat) :
    c.dep p k x y = (List.range k.bytes).map (c.firstDep p x y k + ·) := by
  cases k <;> rfl

/-- A sample is decodable iff the last byte it depends on is available. -/
theorem CfgRegs.decodable_iff {c : CfgRegs} {p : PlaneRegs} {k : Container} (hk : p.container = some k) (x y : Nat) :
    c.decodable p k x y = true ↔ c.firstDep p x y k + k.bytes ≤ c.srcSize.toNat := by
  have hpos := PlaneRegs.container_bytes hk
  simp only [CfgRegs.decodable, CfgRegs.dep_eq, List.all_map, List.all_eq_true, List.mem_range, Function.comp,
    CfgRegs.avail, decide_eq_true_eq]
  refine ⟨fun h => ?_, fun h j hj => by omega⟩
  have := h (k.bytes - 1) (by omega)
  omega

/-- Under a validated stride no sample stands before one that the scan comes to earlier (R85, R176). -/
theorem CfgRegs.firstDep_le {c : CfgRegs} {p : PlaneRegs} {k : Container} {w x y x' y' : Nat}
    (hk : p.container = some k) (hs : p.badStride w = false) (hx : x < w) (h : y < y' ∨ y = y' ∧ x ≤ x') :
    c.firstDep p x y k ≤ c.firstDep p x' y' k := by
  -- `col u` is where column `u` stands in its row; no column stands beyond the row stride
  have hscan (col : Nat → Nat) (hmono : ∀ u v, u ≤ v → col u ≤ col v) (hrow : col x ≤ p.rowStride) :
      y * p.rowStride + col x ≤ y' * p.rowStride + col x' := by
    rcases h with h | ⟨rfl, h⟩
    · have := Nat.mul_le_mul_right p.rowStride h
      rw [Nat.succ_mul] at this
      omega
    · exact Nat.add_le_add_left (hmono x x' h) _
  have hpix (hstride : p.pixelStride * w ≤ p.rowStride) :
      y * p.rowStride + x * p.pixelStride ≤ y' * p.rowStride + x' * p.pixelStride :=
    hscan (· * p.pixelStride) (fun u v huv => Nat.mul_le_mul_right _ huv)
      (le_trans (by rw [Nat.mul_comm]; exact Nat.mul_le_mul_left _ hx.le) hstride)
  unfold PlaneRegs.container at hk
  unfold PlaneRegs.badStride at hs
  split_ifs at hk hs with h0 h1 h2 h3 h4
  · cases hk
    simp only [PlaneRegs.shortStride, Bool.or_eq_false_iff, decide_eq_false_iff_not, not_lt] at hs
    have := hpix hs.2
    simp only [CfgRegs.firstDep, CfgRegs.sampleAddr]
    omega
  · cases hk
    simp only [PlaneRegs.shortStride, Bool.or_eq_false_iff, decide_eq_false_iff_not, not_lt] at hs
    have := hpix hs.2
    simp only [CfgRegs.firstDep, CfgRegs.sampleAddr]
    omega
  · obtain ⟨g, hg, rfl⟩ := Option.map_eq_some_iff.1 hk
    simp only [hg, decide_eq_false_iff_not, not_lt] at hs
    have hn := (mipiGeom_samples hg).1
    have hgroup : x / g.samples ≤ ceilDiv w g.samples := Nat.div_le_div_right (by omega)
    have := hscan (fun u => u / g.samples * g.bytes)
      (fun u v huv => Nat.mul_le_mul_right _ (Nat.div_le_div_right huv))
      (le_trans (by rw [Nat.mul_comm]; exact Nat.mul_le_mul_left _ hgroup) hs)
    simp only [CfgRegs.firstDep, CfgRegs.groupAddr, CfgRegs.rowAddr]
    omega

/-- Under a validated stride no pixel after an undecodable one is decodable (R261). -/
theorem CfgRegs.not_decodable_of_later {c : CfgRegs} {p : PlaneRegs} {k : Container} {w x y x' y' : Nat}
    (hk : p.container = some k) (hs : p.badStride w = false) (hx : x < w) (h : y < y' ∨ y = y' ∧ x ≤ x')
    (hd : c.decodable p k x y = false) : c.decodable p k x' y' = false := by
  have hle := CfgRegs.firstDep_le (c := c) hk hs hx h
  rw [← Bool.not_eq_true, CfgRegs.decodable_iff hk] at hd ⊢
  omega

/-- The bytes a decodable sample of a plane depends on are available and lie in the plane (R37, R86). -/
theorem CfgRegs.inPlane_of_dep {c : CfgRegs} {n : PlaneId} {k : Container} {x y a : Nat}
    (hk : (c.plane n).container = some k) (hs : (c.plane n).badStride (c.planeWidth n) = false)
    (hx : x < c.planeWidth n) (hy : y < c.planeHeight n) (hd : c.decodable (c.plane n) k x y = true)
    (ha : a ∈ c.dep (c.plane n) k x y) : c.avail a = true ∧ c.inPlane n a = true :=
  ⟨List.all_eq_true.1 hd a ha, CfgRegs.planeHolds_of_dep hk hs hx hy ha⟩

end Sys2Proof.Machine
end

section
/-! Where a row pass stands, raw or YUV, and what it leaves (R238, R258, R265). -/

namespace Sys2Proof.Machine

/-! ### The pixels a row pass has passed -/

/-- The pixels of the frame before (x, y) in scan order (R98). -/
abbrev CfgRegs.passed (c : CfgRegs) (x y x' y' : Nat) : Prop := c.hasPixel x' y' ∧ (y' < y ∨ y' = y ∧ x' < x)

/-- A row pass that began in `s` stands before pixel (x, y) of a row that is truncated so far iff `b`, with the decodable
pixels before it written. -/
structure RowPassAt (dec : Nat → Nat → Bool) (val : Nat → Nat → Option Rgb) (s u : State) (x y : Nat) (b : Bool) :
    Prop where
  frame : FramePass (fun x' y' => s.cfg.passed x y x' y' ∧ dec x' y' = true) val s u
  progress : u.progress.toNat = y
  reaches : s.cfg.reaches dec y
  cut : b = true ↔ ∃ x' < s.cfg.width, x' < x ∧ dec x' y = false

/-- A row pass that began in `s` is over, TRUNC as it leaves it. -/
structure RowPassOver (dec : Nat → Nat → Bool) (val : Nat → Nat → Option Rgb) (s u : State) (trunc : Bool) : Prop where
  frame : FramePass (s.cfg.writes dec) val s u
  result : RowPassResult s.cfg dec val s.dst u.dst trunc u.progress.toNat

section RowPass

variable {dec : Nat → Nat → Bool} {val : Nat → Nat → Option Rgb} {s u v : State} {x y : Nat} {b : Bool}

theorem CfgRegs.height_lt (c : CfgRegs) : c.height < 65536 := Nat.mod_lt _ (by decide)

theorem State.count_progress_toNat (h : u.progress.toNat = y) (hy : y < u.cfg.height) :
    u.count.progress.toNat = y + 1 := by
  have hlt := u.cfg.height_lt
  rw [State.count, BitVec.toNat_add, h]
  exact Nat.mod_eq_of_lt (by simp; omega)

/-- A row pass begins before the first pixel. -/
theorem rowPassAt_start (hp : s.progress = 0) (hwf : Memory.wf s.dst = true) (hun : s.Untouched) :
    RowPassAt dec val s s 0 0 false where
  frame := framePass_start (fun x' y' h => by have := h.1.2; omega) hwf (by simp [State.KeptApart, hun.srcRead])
  progress := by rw [hp]; rfl
  reaches y' hy' := absurd hy' (Nat.not_lt_zero y')
  cut := by simp

theorem RowPassAt.goOn (h : RowPassAt dec val s u x y b) (hk : PassKept u v := by constructor <;> rfl)
    (hsame : v.dst = u.dst ∧ v.overwritten = u.overwritten ∧ v.srcRead = u.srcRead := by exact ⟨rfl, rfl, rfl⟩)
    (hp : v.progress = u.progress := by rfl) : RowPassAt dec val s v x y b :=
  ⟨h.frame.goOn hk hsame, hp ▸ h.progress, h.reaches, h.cut⟩

/-- The pixels passed are one more past a pixel. -/
theorem CfgRegs.passed_succ {c : CfgRegs} (hp : c.hasPixel x y) (x' y' : Nat) :
    c.passed (x + 1) y x' y' ↔ c.passed x y x' y' ∨ x' = x ∧ y' = y := by
  constructor
  · rintro ⟨hp', h⟩
    by_cases he : x' = x ∧ y' = y
    · exact .inr he
    · exact .inl ⟨hp', by omega⟩
  · rintro (⟨hp', h⟩ | ⟨rfl, rfl⟩)
    · exact ⟨hp', by omega⟩
    · exact ⟨hp, by omega⟩

/-- A pixel that is not decodable is passed over, and truncates the row (R88, R258). -/
theorem RowPassAt.skip (h : RowPassAt dec val s u x y b) (hp : s.cfg.hasPixel x y) (hd : dec x y = false) :
    RowPassAt dec val s u (x + 1) y true where
  frame := h.frame.congr fun x' y' => by
    rw [CfgRegs.passed_succ hp, or_and_right, or_iff_left]
    rintro ⟨⟨rfl, rfl⟩, hd'⟩
    rw [hd] at hd'
    cases hd'
  progress := h.progress
  reaches := h.reaches
  cut := ⟨fun _ => ⟨x, hp.1, Nat.lt_succ_self x, hd⟩, fun _ => rfl⟩

/-- A decodable pixel is written (R238, R263). -/
theorem RowPassAt.paint {w : Rgb} (h : RowPassAt dec val s u x y b) (hst : s.cfg.badDstStride = false)
    (hp : s.cfg.hasPixel x y) (hd : dec x y = true) (hw : val x y = some w) (p : Pos) :
    RowPassAt dec val s { u.writePixel x y w with pos := p } (x + 1) y b where
  frame := h.frame.paint hst hp hw (fun x' y' => by
    rw [CfgRegs.passed_succ hp, or_and_right]
    refine or_congr_right (and_iff_left_of_imp ?_)
    rintro ⟨rfl, rfl⟩
    exact hd) p
  progress := by simpa using h.progress
  reaches := h.reaches
  cut := by
    rw [h.cut]
    refine exists_congr fun x' => and_congr_right fun _ => ⟨fun hx => ⟨by omega, hx.2⟩, fun hx => ⟨?_, hx.2⟩⟩
    refine Nat.lt_of_le_of_ne (Nat.lt_succ_iff.1 hx.1) fun he => ?_
    rw [← he, hx.2] at hd
    cases hd

/-- A source byte kept apart from the frame is read. -/
theorem RowPassAt.note (h : RowPassAt dec val s u x y b) (hun : s.Untouched) {a : Nat}
    (ha : ∀ d, aliasOf s.params a = some d → s.cfg.inFrame d = false) (x' y' : Nat) (p : Pos) :
    RowPassAt dec val s { u.noteSrc a x' y' with pos := p } x y b :=
  ⟨h.frame.note hun.overwritten ha x' y' p, h.progress, h.reaches, h.cut⟩

/-- Past its last pixel a row is passed. -/
theorem CfgRegs.passed_row {c : CfgRegs} (hx : c.width ≤ x) (x' y' : Nat) :
    c.passed 0 (y + 1) x' y' ↔ c.passed x y x' y' :=
  and_congr_right fun hp => by have := hp.1; omega

/-- A row without an undecodable pixel is counted, and the next one begins (R258). -/
theorem RowPassAt.nextRow (h : RowPassAt dec val s u x y false) (hx : s.cfg.width ≤ x) (hy : y < s.cfg.height) (p : Pos) :
    RowPassAt dec val s { u.count with pos := p } 0 (y + 1) false where
  frame := (h.frame.goOn).congr fun x' y' => and_congr_left' (CfgRegs.passed_row hx x' y')
  progress := State.count_progress_toNat h.progress (h.frame.kept.cfg ▸ hy)
  reaches y' hy' x' hx' := by
    rcases Nat.lt_succ_iff_lt_or_eq.1 hy' with hlt | rfl
    · exact h.reaches y' hlt x' hx'
    · rw [← Bool.not_eq_false]
      exact fun hd => Bool.false_ne_true (h.cut.2 ⟨x', hx', by omega, hd⟩)
  cut := by simp

/-- The pass is over past the last row (R258, R261). -/
theorem RowPassAt.whole (h : RowPassAt dec val s u 0 y false) (hy : y = s.cfg.height) :
    RowPassOver dec val s u false := by
  subst hy
  have hset (x' y' : Nat) : s.cfg.writes dec x' y' ↔ s.cfg.passed 0 s.cfg.height x' y' ∧ dec x' y' = true :=
    ⟨fun ⟨hp, hd, _⟩ => ⟨⟨hp, .inl hp.2⟩, hd⟩,
      fun ⟨⟨hp, _⟩, hd⟩ => ⟨hp, hd, fun y'' hy'' => h.reaches y'' (hy''.trans hp.2)⟩⟩
  have hall (x' y' : Nat) (hp : s.cfg.hasPixel x' y') : dec x' y' ≠ false := by
    simp [h.reaches y' hp.2 x' hp.1]
  have hframe := h.frame.congr hset
  exact ⟨hframe, hframe.painted.written, hframe.painted.untouched,
    ⟨nofun, fun ⟨x', y', hp, hd⟩ => absurd hd (hall x' y' hp)⟩, fun _ => h.progress,
    fun x' y' hp hd => absurd hd (hall x' y' hp)⟩

/-- A truncated row is counted, and the pass is over (R88, R258, R261). -/
theorem RowPassAt.truncated (h : RowPassAt dec val s u x y true) (hx : s.cfg.width ≤ x) (hy : y < s.cfg.height) (p : Pos) :
    RowPassOver dec val s { u.count with pos := p } true := by
  obtain ⟨x₀, hx₀, -, hd₀⟩ := h.cut.1 rfl
  have hlast {y' : Nat} (hr : s.cfg.reaches dec y') : y' ≤ y := by
    by_contra hlt
    rw [hr y (by omega) x₀ hx₀] at hd₀
    cases hd₀
  have hset (x' y' : Nat) : s.cfg.writes dec x' y' ↔ s.cfg.passed x y x' y' ∧ dec x' y' = true := by
    constructor
    · rintro ⟨hp, hd, hr⟩
      have := hlast hr
      have := hp.1
      exact ⟨⟨hp, by omega⟩, hd⟩
    · rintro ⟨⟨hp, hlt⟩, hd⟩
      exact ⟨hp, hd, fun y'' hy'' => h.reaches y'' (by omega)⟩
  have hframe : FramePass (s.cfg.writes dec) val s { u.count with pos := p } := (h.frame.goOn).congr hset
  have hcount := State.count_progress_toNat h.progress (h.frame.kept.cfg ▸ hy)
  refine ⟨hframe, hframe.painted.written, hframe.painted.untouched,
    ⟨fun _ => ⟨x₀, y, ⟨hx₀, hy⟩, hd₀⟩, fun _ => rfl⟩, fun hall => ?_, fun x' y' hp hd hr => ?_⟩
  · rw [hall x₀ y ⟨hx₀, hy⟩] at hd₀
    cases hd₀
  · have hle := hlast hr
    have hge : y ≤ y' := by
      by_contra hlt
      rw [h.reaches y' (by omega) x' hp.1] at hd
      cases hd
    rw [Nat.le_antisymm hle hge]
    exact hcount

theorem RowPassOver.goOn {trunc : Bool} (h : RowPassOver dec val s u trunc)
    (hk : PassKept u v) (hsame : v.dst = u.dst ∧ v.overwritten = u.overwritten ∧ v.srcRead = u.srcRead)
    (hp : v.progress = u.progress) : RowPassOver dec val s v trunc :=
  ⟨h.frame.goOn hk hsame, by rw [hsame.1, hp]; exact h.result⟩

/-- A pass that is over, shown as truncated (R88, R258). -/
theorem RowPassOver.showTrunc (h : RowPassOver dec val s u true) (p : Pos) :
    RowPassOver dec val { s with trunc := true } { u with trunc := true, pos := p } true := by
  obtain ⟨⟨hk, hwf, hpaint, hwrote, hapart⟩, hresult⟩ := h
  exact ⟨⟨⟨hk.busy, hk.params, hk.cfg, hk.launch, hk.srcForeign, hk.dstForeign, hk.src, hk.luts, hk.lutValid, hk.todo,
    hk.done, hk.error, hk.cancelled, hk.errCode, rfl⟩, hwf, hpaint, hwrote, hapart⟩, hresult⟩

/-- A row pass cancelled before row y has written the rows before it whole, and nothing else (R265). -/
structure WholeRows (dec : Nat → Nat → Bool) (val : Nat → Nat → Option Rgb) (s t : State) (y : Nat) : Prop where
  below : y < s.cfg.height
  busy : t.busy = false
  done : t.done = s.done
  cancelled : t.cancelled = true
  trunc : t.trunc = false
  todo : t.todo = []
  progress : t.progress.toNat = y
  written : ∀ x y', x < s.cfg.width → y' < y → dec x y' = true ∧ ∃ v, val x y' = some v ∧ s.cfg.pixelIs t.dst x y' v
  untouched : ∀ a, (∀ x y', x < s.cfg.width → y' < y → ¬s.cfg.pixelHas x y' a) →
    Memory.read t.dst a = Memory.read s.dst a

theorem RowPassAt.cancelled (h : RowPassAt dec val s u 0 y false) (hy : y < s.cfg.height) (hun : s.Unraced)
    (ht : s.trunc = false) : WholeRows dec val s (finish .cancelled u) y where
  below := hy
  busy := finish_busy _ _
  done := h.frame.kept.done
  cancelled := rfl
  trunc := (finish_trunc _ _).trans (h.frame.kept.trunc.trans ht)
  todo := finish_todo _ _
  progress := (congrArg BitVec.toNat (finish_progress _ _)).trans h.progress
  written x y' hx hy' := by
    have hd := h.reaches y' hy' x hx
    rw [(h.frame.finish hun .cancelled).1]
    exact ⟨hd, h.frame.painted.written x y' ⟨⟨⟨hx, hy'.trans hy⟩, .inl hy'⟩, hd⟩⟩
  untouched a ha := by
    rw [(h.frame.finish hun .cancelled).1]
    exact h.frame.painted.untouched a fun x y' hp => ha x y' hp.1.1.1 (by have := hp.1.2; omega)

end RowPass

/-- At the cancel point before row y a row pass is over, is cancelled, or begins the row (R238, R258). -/
theorem stepRowStart_cases (y : Nat) (row : Pos) (s : State) :
    (s.cfg.height ≤ y ∧ stepRowStart y row s = { s with pos := .between }) ∨
      (y < s.cfg.height ∧ s.cancelPending = true ∧ stepRowStart y row s = finish .cancelled s) ∨
      (y < s.cfg.height ∧ s.cancelPending = false ∧ stepRowStart y row s = { s with pos := row }) := by
  unfold stepRowStart
  split_ifs with hlast hc
  · exact .inl ⟨hlast, rfl⟩
  · exact .inr (.inl ⟨Nat.lt_of_not_le hlast, hc, rfl⟩)
  · exact .inr (.inr ⟨Nat.lt_of_not_le hlast, Bool.eq_false_of_not_eq_true hc, rfl⟩)

/-! ### The end of a last pass -/

/-- The last pass of a command is over: the command is to end DONE, or has so ended. -/
structure LastPassOver (u : State) : Prop where
  cancelled : u.cancelled = false
  toEnd : u.busy = true → u.pos = .between ∧ u.todo = []
  ended : u.busy = false → u.done = true

theorem engineStep_lastPassOver {u v : State} (h : LastPassOver u) (hu : u.busy = true) (hv : engineStep u = .next v) :
    LastPassOver v := by
  obtain ⟨hp, ht⟩ := h.toEnd hu
  have hend := engineStep_finish (s := u) (e := .done) (by simp only [engineMove, hp, stepBetween_last ht])
  cases hend.symm.trans hv
  exact ⟨h.cancelled, fun hb => by simp at hb, fun _ => rfl⟩

theorem requestCancel_lastPassOver {u : State} (h : LastPassOver u) : LastPassOver (requestCancel u) :=
  ⟨by simpa using h.cancelled, by simpa using h.toEnd, by simpa using h.ended⟩

end Sys2Proof.Machine
end

section
/-! The raw pass (45_bayer_decode, R256 to R266), cancelled or not: where it stands, one pixel's accesses and what they give,
and what the pass leaves. -/

namespace Sys2Proof.Machine

/-- The decodable pixels that a raw pass before (x, y) has counted (R260). -/
def CfgRegs.counted (c : CfgRegs) (dec : Nat → Nat → Bool) (x y x' y' : Nat) : Bool :=
  decide (c.passed x y x' y') && dec x' y'

theorem CfgRegs.counted_iff {c : CfgRegs} {dec : Nat → Nat → Bool} {x y x' y' : Nat} :
    c.counted dec x y x' y' = true ↔ c.passed x y x' y' ∧ dec x' y' = true := by
  rw [CfgRegs.counted, Bool.and_eq_true, decide_eq_true_iff]

/-- What a raw pixel of the running command has come to (R258, R259). -/
def State.rawStands (s : State) (k : Container) (x y : Nat) : RawPhase → Prop
  | .fetch got => got = ((s.cfg.dep s.cfg.p0 k x y).take got.length).map s.srcAt ∧
      (got = [] ∨ s.cfg.decodable s.cfg.p0 k x y = true)
  | .look raw => s.cfg.decodable s.cfg.p0 k x y = true ∧ raw = s.cfg.fetch s.srcAt s.cfg.p0 k x y
  | .gain i => s.cfg.decodable s.cfg.p0 k x y = true ∧ ∃ ch, s.cfg.color x y = some ch ∧
      s.liveAt k x y = (s.luts.gain16 ch i (s.wideAt x y)).map s.cfg.value16
  | .count v => s.cfg.decodable s.cfg.p0 k x y = true ∧ s.liveAt k x y = some v
  | .write out => s.cfg.decodable s.cfg.p0 k x y = true ∧ ∃ v, s.liveAt k x y = some v ∧ v.out = out

/-- The column up to which a row's pixels are counted: a pixel is counted before it is written. -/
def RawPhase.countedTo (x : Nat) : RawPhase → Nat
  | .write _ => x + 1
  | _ => x

/-- A raw pass that began in `s` stands before pixel (x, y) of a row truncated so far iff `b`. -/
abbrev RawAt (k : Container) (s u : State) (x y : Nat) (b : Bool) : Prop :=
  RowPassAt (s.cfg.decodable s.cfg.p0 k) (s.cfg.rawRgb (s.liveAt k)) s u x y b

/-- These STATS of a raw pass that began in `s` hold the decodable pixels before (x, y). -/
abbrev RawStats (k : Container) (s : State) (stats : Stats) (x y : Nat) : Prop :=
  StatsResult s.cfg (s.cfg.counted (s.cfg.decodable s.cfg.p0 k) x y) (s16Of (s.liveAt k)) stats

/-- Where a raw pass that began in `s` stands: its STATS not yet cleared; before a row; at a pixel of a row; past a truncated
row. -/
inductive RawRun (k : Container) (s u : State) : Prop
  | clearing (hpos : u.pos = .rawClear) (h : RawAt k s u 0 0 false)
  | row (y : Nat) (hpos : u.pos = .rawRow y) (hy : y ≤ s.cfg.height) (h : RawAt k s u 0 y false)
    (stats : RawStats k s u.stats 0 y)
  | pixel (y x : Nat) (b : Bool) (phase : RawPhase) (hpos : u.pos = .rawPix y x b phase) (hy : y < s.cfg.height)
    (h : RawAt k s u x y b) (hphase : s.rawStands k x y phase) (stats : RawStats k s u.stats (phase.countedTo x) y)
  | truncated (hpos : u.pos = .truncated)
    (h : RowPassOver (s.cfg.decodable s.cfg.p0 k) (s.cfg.rawRgb (s.liveAt k)) s u true)
    (stats : StatsResult s.cfg (s.cfg.decodable s.cfg.p0 k) (s16Of (s.liveAt k)) u.stats)

/-- What a finished raw pass that began in `s` leaves (R260, R261, R263). -/
structure RawOver (k : Container) (s u : State) (trunc : Bool) : Prop where
  pos : u.pos = .between
  pass : RowPassOver (s.cfg.decodable s.cfg.p0 k) (s.cfg.rawRgb (s.liveAt k)) { s with trunc := trunc } u trunc
  stats : StatsResult s.cfg (s.cfg.decodable s.cfg.p0 k) (s16Of (s.liveAt k)) u.stats

/-- What a raw pass that began in `s` leaves where it is cancelled before row y (R265). -/
structure RawCancelled (k : Container) (s t : State) (y : Nat) : Prop where
  rows : WholeRows (s.cfg.decodable s.cfg.p0 k) (s.cfg.rawRgb (s.liveAt k)) s t y
  stats : StatsResult s.cfg (fun _ y' => decide (y' < y)) (s16Of (s.liveAt k)) t.stats

section RawPass

variable {k : Container} {s u t : State}

/-- Past a pixel the others are counted as before it, and so is the pixel itself where it is not decodable. -/
theorem CfgRegs.counted_succ {c : CfgRegs} {dec : Nat → Nat → Bool} {x y x' y' : Nat} (hp : c.hasPixel x y)
    (h : dec x y = true → (x', y') ≠ (x, y)) : c.counted dec (x + 1) y x' y' = c.counted dec x y x' y' := by
  unfold CfgRegs.counted
  cases hd : dec x' y' with
  | false => simp
  | true =>
    refine congrArg (· && true) (decide_eq_decide.2 ((CfgRegs.passed_succ hp x' y').trans (or_iff_left ?_)))
    rintro ⟨rfl, rfl⟩
    exact h hd rfl

/-- The source bytes of a decodable pixel are kept apart from the frame (R83). -/
theorem RawPassStart.clear (hs : RawPassStart k s) {x y a : Nat} (hp : s.cfg.hasPixel x y)
    (hd : s.cfg.decodable s.cfg.p0 k x y = true) (ha : a ∈ s.cfg.dep s.cfg.p0 k x y) :
    ∀ d, aliasOf s.params a = some d → s.cfg.inFrame d = false := by
  obtain ⟨hav, hin⟩ := CfgRegs.inPlane_of_dep (n := .p0) hs.container hs.stride hp.1 hp.2 hd ha
  exact fun d hda => hs.apart a d hda (by simp [CfgRegs.mayRead, hav, hin])

/-- A pixel that has read its bytes goes on with its raw code. -/
theorem rawStands_fetched (hs : RawPassStart k s) {x y : Nat} {got : List Byte} (hlt : got.length < k.bytes)
    {a : Nat} (hgot : got = ((s.cfg.dep s.cfg.p0 k x y).take got.length).map s.srcAt)
    (ha : (s.cfg.dep s.cfg.p0 k x y)[got.length]? = some a) (hd : s.cfg.decodable s.cfg.p0 k x y = true) :
    s.rawStands k x y (s.cfg.rawFetched k x y (got ++ [s.srcAt a])) := by
  have hmore : got ++ [s.srcAt a] = ((s.cfg.dep s.cfg.p0 k x y).take (got.length + 1)).map s.srcAt := by
    rw [List.take_add_one, ha, List.map_append, ← hgot]
    rfl
  by_cases hall : got.length + 1 < k.bytes
  · rw [CfgRegs.rawFetched, if_pos (by simpa [CfgRegs.dep_length] using hall)]
    exact ⟨by simpa using hmore, .inr hd⟩
  · rw [hmore, List.take_of_length_le (by rw [CfgRegs.dep_length]; omega), CfgRegs.rawFetched_map _ x y hs.container]
    exact ⟨hd, rfl⟩

/-- The first table read gives the value, or the index of the second (R201, R259). -/
theorem rawStands_look {x y raw : Nat} {ch : Chan} {p : RawPhase} (hch : s.cfg.color x y = some ch)
    (h : s.rawStands k x y (.look raw)) (hp : s.luts.look s.cfg k ch raw = some p) :
    s.rawStands k x y p ∧ p.countedTo x = x := by
  obtain ⟨hd, rfl⟩ := h
  cases k with
  | byte8 =>
    obtain ⟨v, hv, rfl⟩ := Option.map_eq_some_iff.1 hp
    exact ⟨⟨hd, by simp [State.liveAt, hch, Luts.rawValue, hv]⟩, rfl⟩
  | word16 b =>
    obtain ⟨l, hl, rfl⟩ := Option.map_eq_some_iff.1 hp
    exact ⟨⟨hd, ch, hch, by simp [State.liveAt, hch, Luts.rawValue, Luts.apply16, hl]⟩, rfl⟩
  | mipi b g =>
    obtain ⟨l, hl, rfl⟩ := Option.map_eq_some_iff.1 hp
    exact ⟨⟨hd, ch, hch, by simp [State.liveAt, hch, Luts.rawValue, Luts.apply16, hl]⟩, rfl⟩

/-- One step of a raw pixel. -/
theorem rawStep_rawRun (hs : RawPassStart k s) {y x : Nat} {b : Bool} {phase : RawPhase} {ch : Chan}
    (hy : y < s.cfg.height) (hx : x < s.cfg.width)
    (h : RawAt k s u x y b) (hphase : s.rawStands k x y phase) (stats : RawStats k s u.stats (phase.countedTo x) y)
    (hch : s.cfg.color x y = some ch) (hr : rawStep y x b phase k ch u = .next t) : RawRun k s t := by
  have hp : s.cfg.hasPixel x y := ⟨hx, hy⟩
  have hcfg := h.frame.kept.cfg
  obtain ⟨rfl, hd, rfl⟩ | ⟨got, a, rfl, hfirst, ha, rfl⟩ | ⟨raw, p, rfl, hl, rfl⟩ | ⟨i, v, rfl, hv, rfl⟩ | ⟨v, rfl, rfl⟩ |
    ⟨out, rfl, rfl⟩ := rawStep_cases hr
  · rw [hcfg] at hd
    refine .pixel y (x + 1) true (.fetch []) rfl hy ((h.skip hp hd).goOn) ⟨rfl, .inl rfl⟩ ?_
    exact stats.congr fun x' y' _ => CfgRegs.counted_succ hp fun hd' => absurd (hd.symm.trans hd') nofun
  · rw [hcfg] at hfirst ha
    obtain ⟨hgot, hdec⟩ := hphase
    have hd := hdec.elim hfirst id
    have hlt := lt_of_getElem? ha
    rw [CfgRegs.dep_length] at hlt
    have hclear := hs.clear hp hd (List.mem_of_getElem? ha)
    rw [h.frame.srcByte hs.dstStride hs.unraced hs.untouched.overwritten hclear, hcfg]
    have hnext := rawStands_fetched hs hlt hgot ha hd
    refine .pixel y x b _ rfl hy (h.note hs.untouched hclear x y _) hnext ?_
    have hto : (s.cfg.rawFetched k x y (got ++ [s.srcAt a])).countedTo x = x := by
      unfold CfgRegs.rawFetched
      dsimp only
      split_ifs <;> rfl
    rw [hto]
    exact stats
  · rw [hcfg, h.frame.kept.luts] at hl
    obtain ⟨hnext, hto⟩ := rawStands_look hch hphase hl
    exact .pixel y x b p rfl hy (h.goOn) hnext (by rw [hto]; exact stats)
  · obtain ⟨hd, ch', hch', hlive⟩ := hphase
    cases hch.symm.trans hch'
    have hwide : u.wideAt x y = s.wideAt x y := by rw [State.wideAt, State.wideAt, State.key, State.key, h.frame.kept.launch]
    rw [h.frame.kept.luts, hwide] at hv
    rw [hv, Option.map_some] at hlive
    exact .pixel y x b (.count (s.cfg.value16 v)) (by rw [hcfg]) hy (h.goOn) ⟨hd, hlive⟩ stats
  · obtain ⟨hd, hlive⟩ := hphase
    have hs16 : v.s16 = s16Of (s.liveAt k) x y := by simp [s16Of, hlive]
    refine .pixel y x b (.write v.out) rfl hy (h.goOn) ⟨hd, v, hlive, rfl⟩ ?_
    rw [hcfg, hs16]
    refine stats.accumulate hp hch ?_ ?_ fun x' y' hp' hne => ?_
    · refine Bool.eq_false_iff.2 fun hc => ?_
      obtain ⟨⟨-, hbefore⟩, -⟩ := CfgRegs.counted_iff.1 hc
      exact absurd hbefore (by simp [RawPhase.countedTo])
    · exact CfgRegs.counted_iff.2 ⟨(CfgRegs.passed_succ hp x y).2 (.inr ⟨rfl, rfl⟩), hd⟩
    · exact CfgRegs.counted_succ hp fun _ => hne
  · obtain ⟨hd, v, hlive, rfl⟩ := hphase
    have hrgb : s.cfg.rawRgb (s.liveAt k) x y = some (ownOnly ch v.out) := by simp [CfgRegs.rawRgb, hch, hlive]
    exact .pixel y (x + 1) b (.fetch []) rfl hy (h.paint hs.dstStride hp hd hrgb _) ⟨rfl, .inl rfl⟩
      (by simpa [RawPhase.countedTo] using stats)

/-- A step of a row: its end, or a step of its pixel. -/
theorem stepRawPix_rawRun (hs : RawPassStart k s) {y x : Nat} {b : Bool} {phase : RawPhase} (hy : y < s.cfg.height)
    (h : RawAt k s u x y b) (hphase : s.rawStands k x y phase) (stats : RawStats k s u.stats (phase.countedTo x) y)
    (hr : stepRawPix y x b phase u = .next t) : RawRun k s t := by
  have hcfg := h.frame.kept.cfg
  obtain ⟨hx, rfl⟩ | ⟨hx, -, k', ch, hk, hch, hr⟩ := stepRawPix_cases hr
  · rw [hcfg] at hx
    have hto : phase.countedTo x = x ∨ phase.countedTo x = x + 1 := by cases phase <;> simp [RawPhase.countedTo]
    cases b with
    | false =>
      refine .row (y + 1) rfl hy (h.nextRow hx hy _) (stats.congr fun x' y' _ => Bool.eq_iff_iff.2 ?_)
      rw [CfgRegs.counted_iff, CfgRegs.counted_iff, CfgRegs.passed_row (x := phase.countedTo x) (by omega)]
    | true =>
      have hover := h.truncated hx hy .truncated
      refine .truncated rfl hover (stats.congr fun x' y' hp' => Bool.eq_iff_iff.2 ?_)
      obtain ⟨x₀, hx₀, -, hd₀⟩ := h.cut.1 rfl
      rw [CfgRegs.counted_iff]
      refine ⟨fun hd => ⟨⟨hp', ?_⟩, hd⟩, And.right⟩
      -- a decodable pixel stands before the undecodable one of this row
      by_contra hlater
      rw [CfgRegs.not_decodable_of_later hs.container hs.stride hx₀ (by omega) hd₀] at hd
      cases hd
  · rw [hcfg] at hx hk hch
    cases hk.symm.trans hs.container
    exact rawStep_rawRun hs hy hx h hphase stats hch hr

/-- A command cancelled before row y of its raw pass (R265). -/
theorem RawAt.rawCancelled {y : Nat} (h : RawAt k s u 0 y false) (hs : RawPassStart k s) (hy : y < s.cfg.height)
    (stats : RawStats k s u.stats 0 y) :
    RawCancelled k s (finish .cancelled u) y := by
  refine ⟨h.cancelled hy hs.unraced hs.trunc, ?_⟩
  rw [(h.frame.finish hs.unraced .cancelled).2]
  refine stats.congr fun x' y' hp' => Bool.eq_iff_iff.2 ?_
  rw [CfgRegs.counted_iff, decide_eq_true_iff]
  exact ⟨fun hlt => ⟨⟨hp', .inl hlt⟩, h.reaches y' hlt x' hp'.1⟩, fun hc => by have := hc.1.2; omega⟩

/-- What a step leaves of a raw pass that is over, or of a command it cancels. -/
theorem engineMove_rawRun (hs : RawPassStart k s) (h : RawRun k s u) (hm : engineMove u = .next t) :
    RawRun k s t ∨ (∃ trunc, RawOver k s t trunc) ∨ ∃ y, RawCancelled k s t y := by
  cases h with
  | clearing hpos h =>
    simp only [engineMove, hpos] at hm
    cases hm
    exact .inl (.row 0 rfl (Nat.zero_le _) h.goOn (statsResult_zero fun x y _ => Bool.eq_false_iff.2 fun hc => by
      have := (CfgRegs.counted_iff.1 hc).1.2
      omega))
  | row y hpos hy h stats =>
    simp only [engineMove, hpos] at hm
    cases hm
    obtain ⟨hlast, he⟩ | ⟨hlt, -, he⟩ | ⟨hlt, -, he⟩ := stepRowStart_cases y (.rawPix y 0 false (.fetch [])) u <;> rw [he]
    · rw [h.frame.kept.cfg] at hlast
      obtain rfl : y = s.cfg.height := Nat.le_antisymm hy hlast
      have hsame : { s with trunc := false } = s := by rw [← hs.trunc]
      have hover := (h.goOn (v := { u with pos := .between })).whole rfl
      refine .inr (.inl ⟨false, rfl, by rw [hsame]; exact hover, stats.congr fun x' y' hp' => Bool.eq_iff_iff.2 ?_⟩)
      rw [CfgRegs.counted_iff]
      exact ⟨fun hd => ⟨⟨hp', .inl hp'.2⟩, hd⟩, And.right⟩
    · rw [h.frame.kept.cfg] at hlt
      exact .inr (.inr ⟨y, RawAt.rawCancelled h hs hlt stats⟩)
    · rw [h.frame.kept.cfg] at hlt
      exact .inl (.pixel y 0 false (.fetch []) rfl hlt h.goOn ⟨rfl, .inl rfl⟩ stats)
  | pixel y x b phase hpos hy h hphase stats =>
    simp only [engineMove, hpos] at hm
    exact .inl (stepRawPix_rawRun hs hy h hphase stats hm)
  | truncated hpos h stats =>
    simp only [engineMove, hpos] at hm
    cases hm
    exact .inr (.inl ⟨true, rfl, h.showTrunc _, stats⟩)

/-- A step counted, or a cancel request, leaves where the pass stands. -/
theorem RawRun.goOn (h : RawRun k s u) (hk : PassKept u t) (hpos : t.pos = u.pos) (hstats : t.stats = u.stats)
    (hp : t.progress = u.progress)
    (hsame : t.dst = u.dst ∧ t.overwritten = u.overwritten ∧ t.srcRead = u.srcRead) : RawRun k s t := by
  cases h with
  | clearing hu h => exact .clearing (hpos.trans hu) (h.goOn hk hsame hp)
  | row y hu hy h stats => exact .row y (hpos.trans hu) hy (h.goOn hk hsame hp) (hstats ▸ stats)
  | pixel y x b phase hu hy h hphase stats =>
    exact .pixel y x b phase (hpos.trans hu) hy (h.goOn hk hsame hp) hphase (hstats ▸ stats)
  | truncated hu h stats => exact .truncated (hpos.trans hu) (h.goOn hk hsame hp) (hstats ▸ stats)

theorem RawRun.busy (hs : RawPassStart k s) (h : RawRun k s u) : u.busy = true := by
  cases h with
  | clearing _ h => exact h.frame.kept.busy.trans hs.busy
  | row _ _ _ h _ => exact h.frame.kept.busy.trans hs.busy
  | pixel _ _ _ _ _ _ h _ _ => exact h.frame.kept.busy.trans hs.busy
  | truncated _ h _ => exact h.frame.kept.busy.trans hs.busy

theorem rawRun_start (hs : RawPassStart k s) : RawRun k s s :=
  .clearing hs.pos (rowPassAt_start hs.progress hs.dstWf hs.untouched)

theorem requestCancel_rawRun (h : RawRun k s u) : RawRun k s (requestCancel u) :=
  h.goOn (by constructor <;> simp) (by simp) (by simp) (by simp) (by simp)

theorem engineStep_rawRun (hs : RawPassStart k s) (h : RawRun k s u) (ht : engineStep u = .next t) :
    RawRun k s t ∨ (∃ trunc, RawOver k s t trunc) ∨ ∃ y, RawCancelled k s t y := by
  obtain ⟨v, hv, rfl⟩ := engineStep_cases ht
  rcases engineMove_rawRun hs h hv with h | ⟨trunc, h⟩ | ⟨y, h⟩
  · exact .inl (h.goOn (by constructor <;> rfl) rfl rfl rfl ⟨rfl, rfl, rfl⟩)
  · exact .inr (.inl ⟨trunc, h.pos, h.pass.goOn (by constructor <;> rfl) ⟨rfl, rfl, rfl⟩ rfl, h.stats⟩)
  · have hr := h.rows
    exact .inr (.inr ⟨y, ⟨hr.below, hr.busy, hr.done, hr.cancelled, hr.trunc, hr.todo, hr.progress, hr.written, hr.untouched⟩,
      h.stats⟩)

end RawPass
end Sys2Proof.Machine
end

section
/-! The YUV pass (44_yuv_csc, R230 to R238), cancelled or not: where it stands and what it leaves; and what an engine step
leaves of a command whose raw pass is over. -/

namespace Sys2Proof.Machine

/-! ### The YUV pass -/

/-- The pixel (x, y) as the YUV pass that begins in `s` writes it. -/
def State.yuvAt (s : State) (k : Container × Container × Container) (x y : Nat) : Option Rgb :=
  some (s.cfg.yuvPixel s.srcAt k x y)

/-- What a YUV pixel of the running command has come to (R234 to R236). -/
def State.yuvStands (s : State) (k : Container × Container × Container) (x y : Nat) : YuvPhase → Prop
  | .fetch got => got = ((s.cfg.yuvDeps k x y).take got.length).map (fun q => s.srcAt q.2) ∧
      (got = [] ∨ s.cfg.yuvDecodable k x y = true)
  | .write v => s.cfg.yuvDecodable k x y = true ∧ s.yuvAt k x y = some v

/-- Where a YUV pass that began in `s` stands: before a row; at a pixel of a row; past a truncated row. -/
inductive YuvRun (k : Container × Container × Container) (s u : State) : Prop
  | row (y : Nat) (hpos : u.pos = .yuvRow y) (hy : y ≤ s.cfg.height)
    (h : RowPassAt (s.cfg.yuvDecodable k) (s.yuvAt k) s u 0 y false)
  | pixel (y x : Nat) (b : Bool) (phase : YuvPhase) (hpos : u.pos = .yuvPix y x b phase) (hy : y < s.cfg.height)
    (h : RowPassAt (s.cfg.yuvDecodable k) (s.yuvAt k) s u x y b) (hphase : s.yuvStands k x y phase)
  | truncated (hpos : u.pos = .truncated) (h : RowPassOver (s.cfg.yuvDecodable k) (s.yuvAt k) s u true)

/-- What a finished YUV pass that began in `s` leaves (R238). -/
structure YuvOver (k : Container × Container × Container) (s u : State) (trunc : Bool) : Prop where
  pos : u.pos = .between
  pass : RowPassOver (s.cfg.yuvDecodable k) (s.yuvAt k) { s with trunc := trunc } u trunc

section YuvPass

variable {k : Container × Container × Container} {s u t : State}

theorem CfgRegs.yuvContainers_some {c : CfgRegs} (h : c.yuvContainers = some k) :
    c.p0.container = some k.1 ∧ c.p1.container = some k.2.1 ∧ c.p2.container = some k.2.2 := by
  unfold CfgRegs.yuvContainers at h
  split at h
  · cases h; exact ⟨‹_›, ‹_›, ‹_›⟩
  · cases h

/-- A pixel of the frame has its chroma sample in the chroma planes (R232, R233). -/
theorem div_lt_ceilDiv {a b d : Nat} (hd : 0 < d) (h : a < b) : a / d < ceilDiv b d := by
  unfold ceilDiv
  rw [← Nat.succ_le_iff, Nat.le_div_iff_mul_le hd, Nat.succ_mul]
  have := Nat.div_mul_le_self a d
  omega

/-- The source bytes of a decodable pixel are kept apart from the frame (R83). -/
theorem YuvPassStart.clear (hs : YuvPassStart k s) {x y : Nat} {q : PlaneId × Nat} (hp : s.cfg.hasPixel x y)
    (hd : s.cfg.yuvDecodable k x y = true) (hq : q ∈ s.cfg.yuvDeps k x y) :
    ∀ d, aliasOf s.params q.2 = some d → s.cfg.inFrame d = false := by
  obtain ⟨hk0, hk1, hk2⟩ := CfgRegs.yuvContainers_some hs.containers
  simp only [CfgRegs.yuvDecodable, Bool.and_eq_true] at hd
  obtain ⟨⟨hd0, hd1⟩, hd2⟩ := hd
  have hx : (s.cfg.chromaPos x y).1 < ceilDiv s.cfg.width (2 ^ s.cfg.hsub) := div_lt_ceilDiv (Nat.two_pow_pos _) hp.1
  have hy : (s.cfg.chromaPos x y).2 < ceilDiv s.cfg.height (2 ^ s.cfg.vsub) := div_lt_ceilDiv (Nat.two_pow_pos _) hp.2
  have hread : s.cfg.mayRead .yuvConvert q.2 = true := by
    simp only [CfgRegs.yuvDeps, List.mem_append, List.mem_map] at hq
    rcases hq with (⟨a, ha, rfl⟩ | ⟨a, ha, rfl⟩) | ⟨a, ha, rfl⟩
    · obtain ⟨hav, hin⟩ := CfgRegs.inPlane_of_dep (n := .p0) hk0 (hs.strides .p0) hp.1 hp.2 hd0 ha
      simp [CfgRegs.mayRead, hav, hin]
    · obtain ⟨hav, hin⟩ := CfgRegs.inPlane_of_dep (n := .p1) hk1 (hs.strides .p1) hx hy hd1 ha
      simp [CfgRegs.mayRead, hav, hin]
    · obtain ⟨hav, hin⟩ := CfgRegs.inPlane_of_dep (n := .p2) hk2 (hs.strides .p2) hx hy hd2 ha
      simp [CfgRegs.mayRead, hav, hin]
  exact fun d hda => hs.apart q.2 d hda hread

/-- A pixel that has read its bytes goes on with what they convert to. -/
theorem yuvStands_fetched (hs : YuvPassStart k s) {x y : Nat} {got : List Byte} {q : PlaneId × Nat}
    (hgot : got = ((s.cfg.yuvDeps k x y).take got.length).map fun q => s.srcAt q.2)
    (hq : (s.cfg.yuvDeps k x y)[got.length]? = some q) (hd : s.cfg.yuvDecodable k x y = true) :
    s.yuvStands k x y (s.cfg.yuvFetched k x y (got ++ [s.srcAt q.2])) := by
  have hmore : got ++ [s.srcAt q.2] = ((s.cfg.yuvDeps k x y).take (got.length + 1)).map fun q => s.srcAt q.2 := by
    rw [List.take_add_one, hq, List.map_append, ← hgot]
    rfl
  by_cases hall : got.length + 1 < (s.cfg.yuvDeps k x y).length
  · rw [CfgRegs.yuvFetched, if_pos (by simpa using hall)]
    exact ⟨by simpa using hmore, .inr hd⟩
  · rw [hmore, List.take_of_length_le (by omega), CfgRegs.yuvFetched_map (fun _ => s.srcAt) x y hs.containers]
    exact ⟨hd, rfl⟩

/-- One step of a YUV pixel. -/
theorem yuvStep_yuvRun (hs : YuvPassStart k s) {y x : Nat} {b : Bool} {phase : YuvPhase} (hy : y < s.cfg.height)
    (hx : x < s.cfg.width) (h : RowPassAt (s.cfg.yuvDecodable k) (s.yuvAt k) s u x y b)
    (hphase : s.yuvStands k x y phase) (hr : yuvStep y x b phase k u = .next t) : YuvRun k s t := by
  have hp : s.cfg.hasPixel x y := ⟨hx, hy⟩
  have hcfg := h.frame.kept.cfg
  obtain ⟨rfl, hd, rfl⟩ | ⟨got, n, a, rfl, hfirst, ha, rfl⟩ | ⟨v, rfl, rfl⟩ := yuvStep_cases hr
  · rw [hcfg] at hd
    exact .pixel y (x + 1) true (.fetch []) rfl hy ((h.skip hp hd).goOn) ⟨rfl, .inl rfl⟩
  · rw [hcfg] at hfirst ha
    obtain ⟨hgot, hdec⟩ := hphase
    have hd := hdec.elim hfirst id
    have hclear := hs.clear hp hd (List.mem_of_getElem? ha)
    rw [h.frame.srcByte hs.dstStride hs.unraced hs.untouched.overwritten hclear, hcfg]
    exact .pixel y x b _ rfl hy (h.note hs.untouched hclear x y _) (yuvStands_fetched hs hgot ha hd)
  · obtain ⟨hd, hv⟩ := hphase
    exact .pixel y (x + 1) b (.fetch []) rfl hy (h.paint hs.dstStride hp hd hv _) ⟨rfl, .inl rfl⟩

/-- What a step leaves of a YUV pass that is over, or of a command it cancels. -/
theorem engineMove_yuvRun (hs : YuvPassStart k s) (h : YuvRun k s u) (hm : engineMove u = .next t) :
    YuvRun k s t ∨ (∃ trunc, YuvOver k s t trunc) ∨ ∃ y, WholeRows (s.cfg.yuvDecodable k) (s.yuvAt k) s t y := by
  cases h with
  | row y hpos hy h =>
    simp only [engineMove, hpos] at hm
    cases hm
    obtain ⟨hlast, he⟩ | ⟨hlt, -, he⟩ | ⟨hlt, -, he⟩ := stepRowStart_cases y (.yuvPix y 0 false (.fetch [])) u <;> rw [he]
    · rw [h.frame.kept.cfg] at hlast
      obtain rfl : y = s.cfg.height := Nat.le_antisymm hy hlast
      have hsame : { s with trunc := false } = s := by rw [← hs.trunc]
      have hover := (h.goOn (v := { u with pos := .between })).whole rfl
      exact .inr (.inl ⟨false, rfl, by rw [hsame]; exact hover⟩)
    · rw [h.frame.kept.cfg] at hlt
      exact .inr (.inr ⟨y, h.cancelled hlt hs.unraced hs.trunc⟩)
    · rw [h.frame.kept.cfg] at hlt
      exact .inl (.pixel y 0 false (.fetch []) rfl hlt h.goOn ⟨rfl, .inl rfl⟩)
  | pixel y x b phase hpos hy h hphase =>
    simp only [engineMove, hpos] at hm
    have hcfg := h.frame.kept.cfg
    obtain ⟨hx, rfl⟩ | ⟨hx, -, k', hk, hr⟩ := stepYuvPix_cases hm
    · rw [hcfg] at hx
      cases b with
      | false => exact .inl (.row (y + 1) rfl hy (h.nextRow hx hy _))
      | true => exact .inl (.truncated rfl (h.truncated hx hy .truncated))
    · rw [hcfg] at hx hk
      cases hk.symm.trans hs.containers
      exact .inl (yuvStep_yuvRun hs hy hx h hphase hr)
  | truncated hpos h =>
    simp only [engineMove, hpos] at hm
    cases hm
    exact .inr (.inl ⟨true, rfl, h.showTrunc _⟩)

/-- A step counted, or a cancel request, leaves where the pass stands. -/
theorem YuvRun.goOn (h : YuvRun k s u) (hk : PassKept u t) (hpos : t.pos = u.pos) (hp : t.progress = u.progress)
    (hsame : t.dst = u.dst ∧ t.overwritten = u.overwritten ∧ t.srcRead = u.srcRead) : YuvRun k s t := by
  cases h with
  | row y hu hy h => exact .row y (hpos.trans hu) hy (h.goOn hk hsame hp)
  | pixel y x b phase hu hy h hphase => exact .pixel y x b phase (hpos.trans hu) hy (h.goOn hk hsame hp) hphase
  | truncated hu h => exact .truncated (hpos.trans hu) (h.goOn hk hsame hp)

theorem YuvRun.busy (hs : YuvPassStart k s) (h : YuvRun k s u) : u.busy = true := by
  cases h with
  | row _ _ _ h => exact h.frame.kept.busy.trans hs.busy
  | pixel _ _ _ _ _ _ h _ => exact h.frame.kept.busy.trans hs.busy
  | truncated _ h => exact h.frame.kept.busy.trans hs.busy

theorem yuvRun_start (hs : YuvPassStart k s) : YuvRun k s s :=
  .row 0 hs.pos (Nat.zero_le _) (rowPassAt_start hs.progress hs.dstWf hs.untouched)

theorem requestCancel_yuvRun (h : YuvRun k s u) : YuvRun k s (requestCancel u) :=
  h.goOn (by constructor <;> simp) (by simp) (by simp) (by simp)

theorem engineStep_yuvRun (hs : YuvPassStart k s) (h : YuvRun k s u) (ht : engineStep u = .next t) :
    YuvRun k s t ∨ (∃ trunc, YuvOver k s t trunc) ∨ ∃ y, WholeRows (s.cfg.yuvDecodable k) (s.yuvAt k) s t y := by
  obtain ⟨v, hv, rfl⟩ := engineStep_cases ht
  rcases engineMove_yuvRun hs h hv with h | ⟨trunc, h⟩ | ⟨y, h⟩
  · exact .inl (h.goOn (by constructor <;> rfl) rfl rfl ⟨rfl, rfl, rfl⟩)
  · exact .inr (.inl ⟨trunc, h.pos, h.pass.goOn (by constructor <;> rfl) ⟨rfl, rfl, rfl⟩ rfl⟩)
  · exact .inr (.inr ⟨y, h.below, h.busy, h.done, h.cancelled, h.trunc, h.todo, h.progress, h.written, h.untouched⟩)

end YuvPass

/-! ### A command whose raw pass is over -/

/-- No raw pass is in progress or to come. -/
def State.RawPassOver (s : State) : Prop := .raw ∉ s.pos.left ++ s.todo

section RawPassOver

variable {s t : State}

/-- A step to a position outside a raw pass. -/
theorem rawPassOver_of_pos (htodo : .raw ∉ s.todo) (hpos : .raw ∉ t.pos.left) (ht : t.todo = s.todo := by rfl) :
    t.RawPassOver := by
  rw [State.RawPassOver, List.mem_append, ht]
  exact fun h => h.elim hpos htodo

theorem finish_rawPassOver (e : Ending) : (finish e s).RawPassOver := by
  simp [State.RawPassOver, Pos.left]

theorem stepBetween_rawPassOver (htodo : .raw ∉ s.todo) : (stepBetween s).RawPassOver := by
  unfold stepBetween
  split
  · exact finish_rawPassOver .done
  · rename_i p rest hp
    rw [hp] at htodo
    cases p <;> exact htodo

theorem stepLutOpen_rawPassOver {gs : List Group} (htodo : .raw ∉ s.todo) : (stepLutOpen gs s).RawPassOver := by
  unfold stepLutOpen
  split
  · exact rawPassOver_of_pos htodo nofun
  · split_ifs
    · exact finish_rawPassOver .cancelled
    · exact rawPassOver_of_pos htodo (by simp [Pos.left])

theorem stepLutFill_rawPassOver {g : Group} {rest : List Group} {n : Nat} (htodo : .raw ∉ s.todo) :
    (stepLutFill g rest n s).RawPassOver := by
  refine rawPassOver_of_pos htodo ?_
  unfold stepLutFill
  split_ifs <;> simp [Pos.left]

theorem stepDemosaic_rawPassOver {active : List Worker} {waiting : List Nat} {stopped : Bool} (htodo : .raw ∉ s.todo)
    (hm : stepDemosaic active waiting stopped s = .next t) : t.RawPassOver := by
  obtain ⟨-, -, rfl⟩ | ⟨i, w, -, hw⟩ | ⟨j, y, -, -, rfl⟩ := stepDemosaic_cases hm
  · split_ifs
    · exact finish_rawPassOver .cancelled
    · exact rawPassOver_of_pos htodo nofun
  · obtain ⟨-, -, rfl⟩ | ⟨-, -, rfl⟩ | ⟨got, own, px, py, c, -, -, -, -, rfl⟩ | ⟨v, -, -, rfl⟩ | ⟨-, rfl⟩ :=
      stepWorker_cases hw
    case inr.inr.inr.inl => exact rawPassOver_of_pos htodo nofun (by simp)
    all_goals exact rawPassOver_of_pos htodo nofun
  · exact rawPassOver_of_pos htodo nofun

theorem yuvPix_rawPassOver {y x : Nat} {b : Bool} {phase : YuvPhase} (htodo : .raw ∉ s.todo)
    (hm : stepYuvPix y x b phase s = .next t) : t.RawPassOver := by
  obtain ⟨-, rfl⟩ | ⟨-, -, k, -, hr⟩ := stepYuvPix_cases hm
  · exact rawPassOver_of_pos htodo (by cases b <;> exact nofun)
  · obtain ⟨-, -, rfl⟩ | ⟨got, n, a, -, -, -, rfl⟩ | ⟨v, -, rfl⟩ := yuvStep_cases hr
    · exact rawPassOver_of_pos htodo nofun
    · exact rawPassOver_of_pos htodo nofun
    · exact rawPassOver_of_pos htodo nofun (by simp)

/-- A command whose raw pass is over enters none. -/
theorem engineMove_rawPassOver (h : s.RawPassOver) (hm : engineMove s = .next t) : t.RawPassOver := by
  have htodo : .raw ∉ s.todo := fun hr => h (List.mem_append_right _ hr)
  have hpos : .raw ∉ s.pos.left := fun hr => h (List.mem_append_left _ hr)
  unfold engineMove at hm
  generalize s.pos = p at hm hpos
  cases p with
  | idle => cases hm
  | checked v =>
    cases v with
    | some code => cases hm; exact finish_rawPassOver _
    | none => cases hm; exact rawPassOver_of_pos htodo nofun
  | between => cases hm; exact stepBetween_rawPassOver htodo
  | starting p =>
    cases hm
    cases p with
    | raw => exact absurd List.mem_cons_self hpos
    | _ => exact rawPassOver_of_pos htodo (by simp [startPass, Pos.left])
  | lutOpen gs => cases hm; exact stepLutOpen_rawPassOver htodo
  | lutFill g rest n => cases hm; exact stepLutFill_rawPassOver htodo
  | rawClear => exact absurd List.mem_cons_self hpos
  | rawRow y => exact absurd List.mem_cons_self hpos
  | rawPix y x b phase => exact absurd List.mem_cons_self hpos
  | demosaic active waiting stopped => exact stepDemosaic_rawPassOver htodo hm
  | yuvRow y =>
    cases hm
    obtain ⟨-, he⟩ | ⟨-, -, he⟩ | ⟨-, -, he⟩ := stepRowStart_cases y (.yuvPix y 0 false (.fetch [])) s <;> rw [he]
    · exact rawPassOver_of_pos htodo nofun
    · exact finish_rawPassOver .cancelled
    · exact rawPassOver_of_pos htodo nofun
  | yuvPix y x b phase => exact yuvPix_rawPassOver htodo hm
  | _ => cases hm; exact rawPassOver_of_pos htodo (by simp [stepLutClear, stepLutMark, Pos.left])

theorem engineStep_rawPassOver (h : s.RawPassOver) (hs : engineStep s = .next t) : t.RawPassOver := by
  obtain ⟨u, hu, rfl⟩ := engineStep_cases hs
  exact (engineMove_rawPassOver h hu : u.RawPassOver)

end RawPassOver

end Sys2Proof.Machine
end

section
/-! Row passes that a cancel request comes to at any step: the obligation on cancelled row passes (R265, R238). -/

namespace Sys2Proof.Machine

section Cancelled

variable {n m : Nat} {s s₁ t u v : State}

theorem requestCancel_idle (h : s.busy = false) : requestCancel s = s := by simp [requestCancel, h]

/-- A command that runs on after a cancel request has the request pending (R150). -/
theorem cancelPending_of_cancelled (h : runEngine m (writeCtrl 1 s₁) = .next u) (hu : u.busy = true) :
    u.cancelPending = true := by
  have hcancel : writeCtrl 1 s₁ = requestCancel s₁ := rfl
  rw [hcancel] at h
  cases hb : s₁.busy with
  | false =>
    rw [requestCancel_idle hb, runEngine_idle m hb] at h
    cases h
    cases hb.symm.trans hu
  | true =>
    rw [runEngine_cancelPending h hu]
    simp [requestCancel, hb]

/-! ### The raw pass -/

section Raw

variable {k : Container}

/-- A command in its raw pass, or past it. -/
abbrev RawWatched (k : Container) (s u : State) : Prop := RawRun k s u ∨ (u.busy = true → u.RawPassOver)

theorem engineStep_rawWatched (hs : RawPassStart k s) (hu : u.busy = true) (h : RawWatched k s u)
    (hv : engineStep u = .next v) : RawWatched k s v := by
  rcases h with h | h
  · rcases engineStep_rawRun hs h hv with h | ⟨trunc, h⟩ | ⟨y, h⟩
    · exact .inl h
    · refine .inr fun _ => ?_
      rw [State.RawPassOver, h.pos, h.pass.frame.kept.todo]
      exact hs.todo
    · exact .inr fun hb => by cases h.rows.busy.symm.trans hb
  · exact .inr fun _ => engineStep_rawPassOver (h hu) hv

theorem requestCancel_rawWatched (h : RawWatched k s u) : RawWatched k s (requestCancel u) :=
  h.imp requestCancel_rawRun fun h hb => by
    rw [State.RawPassOver, requestCancel_pos, requestCancel_todo]
    exact h ((requestCancel_busy u).symm.trans hb)

/-- A cancel request met at the cancel point before a row of the raw pass ends the command there (R150, R265). -/
theorem rawRow_cancelled {y : Nat} (hs : RawPassStart k s) (h₁ : runEngine n s = .next s₁)
    (h : runEngine m (writeCtrl 1 s₁) = .next u) (hu : u.busy = true) (hpos : u.pos = .rawRow y)
    (hy : y < s.cfg.height) : ∃ t, engineStep u = .next t ∧ RawCancelled k s t y := by
  have hwatched : RawWatched k s u := runEngine_cancelled_induct (fun _ _ => engineStep_rawWatched hs)
    (fun _ => requestCancel_rawWatched) (.inl (rawRun_start hs)) h₁ h
  rcases hwatched with hrun | hover
  · cases hrun with
    | row y' hpos' _ hat stats =>
      cases hpos.symm.trans hpos'
      have hheight : ¬u.cfg.height ≤ y := by rw [hat.frame.kept.cfg]; omega
      have hmove : engineMove u = .next (finish .cancelled u) := by
        simp only [engineMove, hpos, stepRowStart, if_neg hheight, cancelPending_of_cancelled h hu, if_true]
      exact ⟨_, engineStep_finish hmove, RawAt.rawCancelled hat hs hy stats⟩
    | clearing hpos' _ => cases hpos.symm.trans hpos'
    | pixel _ _ _ _ hpos' _ _ _ _ => cases hpos.symm.trans hpos'
    | truncated hpos' _ _ => cases hpos.symm.trans hpos'
  · refine absurd (List.mem_append_left _ ?_) (hover hu)
    rw [hpos]
    exact List.mem_singleton_self _

/-- A command in its raw pass, the last one; cancelled in it; or past it. -/
abbrev LastRawPass (k : Container) (s u : State) : Prop :=
  RawRun k s u ∨ (∃ y, RawCancelled k s u y) ∨ LastPassOver u

theorem engineStep_lastRawPass (hs : RawPassStart k s) (htodo : s.todo = []) (hu : u.busy = true)
    (h : LastRawPass k s u) (hv : engineStep u = .next v) : LastRawPass k s v := by
  rcases h with h | ⟨y, h⟩ | h
  · refine (engineStep_rawRun hs h hv).imp_right fun h => h.symm.imp_right ?_
    rintro ⟨trunc, h⟩
    have hk := h.pass.frame.kept
    exact ⟨hk.cancelled.trans hs.cancelled, fun _ => ⟨h.pos, hk.todo.trans htodo⟩,
      fun hb => by cases (hk.busy.trans hs.busy).symm.trans hb⟩
  · cases h.rows.busy.symm.trans hu
  · exact .inr (.inr (engineStep_lastPassOver h hu hv))

theorem requestCancel_lastRawPass (h : LastRawPass k s u) : LastRawPass k s (requestCancel u) := by
  rcases h with h | ⟨y, h⟩ | h
  · exact .inl (requestCancel_rawRun h)
  · rw [requestCancel_idle h.rows.busy]
    exact .inr (.inl ⟨y, h⟩)
  · exact .inr (.inr (requestCancel_lastPassOver h))

/-- A raw pass that is the last one and ends CANCELLED was cancelled before a row (R265). -/
theorem lastRawPass_cancelled (hs : RawPassStart k s) (htodo : s.todo = []) (h₁ : runEngine n s = .next s₁)
    (h : runEngine m (writeCtrl 1 s₁) = .next t) (hb : t.busy = false) (hc : t.cancelled = true) :
    ∃ y, RawCancelled k s t y := by
  have hlast : LastRawPass k s t := runEngine_cancelled_induct (fun _ _ => engineStep_lastRawPass hs htodo)
    (fun _ => requestCancel_lastRawPass) (.inl (rawRun_start hs)) h₁ h
  rcases hlast with hrun | hcancelled | hover
  · cases (hrun.busy hs).symm.trans hb
  · exact hcancelled
  · cases hover.cancelled.symm.trans hc

end Raw

/-! ### The YUV pass -/

section Yuv

variable {k : Container × Container × Container}

/-- A command in its YUV pass; cancelled in it; or past it. -/
abbrev LastYuvPass (k : Container × Container × Container) (s u : State) : Prop :=
  YuvRun k s u ∨ (∃ y, WholeRows (s.cfg.yuvDecodable k) (s.yuvAt k) s u y) ∨ LastPassOver u

theorem engineStep_lastYuvPass (hs : YuvPassStart k s) (hu : u.busy = true) (h : LastYuvPass k s u)
    (hv : engineStep u = .next v) : LastYuvPass k s v := by
  rcases h with h | ⟨y, h⟩ | h
  · refine (engineStep_yuvRun hs h hv).imp_right fun h => h.symm.imp_right ?_
    rintro ⟨trunc, h⟩
    have hk := h.pass.frame.kept
    exact ⟨hk.cancelled.trans hs.cancelled, fun _ => ⟨h.pos, hk.todo.trans hs.todo⟩,
      fun hb => by cases (hk.busy.trans hs.busy).symm.trans hb⟩
  · cases h.busy.symm.trans hu
  · exact .inr (.inr (engineStep_lastPassOver h hu hv))

theorem requestCancel_lastYuvPass (h : LastYuvPass k s u) : LastYuvPass k s (requestCancel u) := by
  rcases h with h | ⟨y, h⟩ | h
  · exact .inl (requestCancel_yuvRun h)
  · rw [requestCancel_idle h.busy]
    exact .inr (.inl ⟨y, h⟩)
  · exact .inr (.inr (requestCancel_lastPassOver h))

/-- A YUV pass that a cancel request came to was cancelled before a row, or ended DONE (R238). -/
theorem lastYuvPass_ended (hs : YuvPassStart k s) (h₁ : runEngine n s = .next s₁)
    (h : runEngine m (writeCtrl 1 s₁) = .next t) (hb : t.busy = false) :
    (∃ y, WholeRows (s.cfg.yuvDecodable k) (s.yuvAt k) s t y) ∨ LastPassOver t := by
  have hlast : LastYuvPass k s t := runEngine_cancelled_induct (fun _ _ => engineStep_lastYuvPass hs)
    (fun _ => requestCancel_lastYuvPass) (.inl (yuvRun_start hs)) h₁ h
  refine hlast.resolve_left fun hrun => ?_
  cases (hrun.busy hs).symm.trans hb

end Yuv

end Cancelled

/-- Settles O29: a row pass watched through the cancel request stands at a row or a pixel, is over, or has been cancelled
before a row with the rows before it whole. -/
theorem cancelledRowPassesLeaveWholeRows : Obligations.CancelledRowPassesLeaveWholeRows := by
  unfold Obligations.CancelledRowPassesLeaveWholeRows
  refine ⟨fun n m k s s₁ u y hs h₁ h hu hpos hy => ?_, fun n m k s s₁ t hs htodo h₁ h hb hc => ?_,
    fun n m k s s₁ t hs h₁ h hb => ?_⟩
  · obtain ⟨t, ht, hrows, hstats⟩ := rawRow_cancelled hs h₁ h hu hpos hy
    exact ⟨t, ht, hrows.busy, hrows.cancelled, hrows.trunc, hrows.todo, hrows.progress, hstats, hrows.written,
      hrows.untouched⟩
  · obtain ⟨y, hrows, hstats⟩ := lastRawPass_cancelled hs htodo h₁ h hb hc
    exact ⟨y, hrows.below, hrows.progress, hrows.trunc, hstats, hrows.written, hrows.untouched⟩
  · rcases lastYuvPass_ended hs h₁ h hb with ⟨y, hrows⟩ | hover
    · refine ⟨by rw [hrows.cancelled, hrows.done, hs.done]; rfl, fun _ => ⟨y, hrows.below, hrows.progress, hrows.trunc,
        fun x y' hx hy' => ?_, hrows.untouched⟩⟩
      obtain ⟨hd, v, hv, hpix⟩ := hrows.written x y' hx hy'
      cases hv
      exact ⟨hd, hpix⟩
    · exact ⟨by rw [hover.cancelled, hover.ended hb]; rfl, fun hc => by cases hover.cancelled.symm.trans hc⟩

end Sys2Proof.Machine
end

section
/-! The pixels of the demosaic pass (46_demosaic, R281 to R285): the channels they are made of, and what a pass under way
still reads of them. -/

namespace Sys2Proof.Machine

section Pixels

variable {c : CfgRegs} {x y : Nat} {own k : Chan} {m : Memory} {v : Rgb}

/-! ### The channels a pixel is made of -/

theorem neighbours_inFrame {w h r : Nat} {p : Nat × Nat} (hp : p ∈ neighbours w h r x y) : p.1 < w ∧ p.2 < h := by
  obtain ⟨q, -, hq⟩ := List.mem_filterMap.1 hp
  split_ifs at hq with hin
  obtain ⟨-, -, hw, hh, -⟩ := hin
  cases hq
  exact ⟨hw, hh⟩

theorem CfgRegs.mem_sameChannel {r : Nat} {p : Nat × Nat}
    (hp : p ∈ c.sameChannel k (neighbours c.width c.height r x y)) : c.hasPixel p.1 p.2 ∧ c.color p.1 p.2 = some k := by
  obtain ⟨hn, hk⟩ := List.mem_filter.1 hp
  exact ⟨neighbours_inFrame hn, by simpa using hk⟩

/-- A missing channel is averaged over pixels of the frame whose own channel it is (R282 to R284). -/
theorem CfgRegs.mem_averaged {p : Nat × Nat} (hp : p ∈ c.averaged x y k) :
    c.hasPixel p.1 p.2 ∧ c.color p.1 p.2 = some k := by
  unfold CfgRegs.averaged at hp
  dsimp only at hp
  split_ifs at hp
  · exact CfgRegs.mem_sameChannel hp
  · exact CfgRegs.mem_sameChannel hp

/-- The demosaic pass reads own channels of pixels of the frame alone (R285). -/
theorem CfgRegs.mem_demosaicReads {r : Nat × Nat × Chan} (hp : c.hasPixel x y) (hown : c.color x y = some own)
    (hr : r ∈ c.demosaicReads own x y) : c.hasPixel r.1 r.2.1 ∧ c.color r.1 r.2.1 = some r.2.2 := by
  rcases List.mem_cons.1 hr with rfl | hr
  · exact ⟨hp, hown⟩
  · obtain ⟨k, -, hr⟩ := List.mem_flatMap.1 hr
    obtain ⟨p, hp, rfl⟩ := List.mem_map.1 hr
    exact CfgRegs.mem_averaged hp

/-! ### Channel values fit the output depth -/

theorem CfgRegs.channelOf_lt (c : CfgRegs) (w : Nat) (k : Chan) : c.channelOf w k < 2 ^ c.depth := by
  cases k <;> exact natBits_lt _ _ _

/-- A mean of values below a bound is below it (R282). -/
theorem CfgRegs.missing_lt {rd : Nat → Nat → Chan → Nat} {b : Nat} (hb : 0 < b) (h : ∀ px py, rd px py k < b) :
    c.missing rd x y k < b := by
  rw [CfgRegs.missing_eq]
  split_ifs with hnone
  · exact hb
  · have hpos : 0 < (c.averaged x y k).length := List.length_pos_iff.2 hnone
    have hsum := List.sum_le_card_nsmul ((c.averaged x y k).map fun p => rd p.1 p.2 k) (b - 1) (by
      simp only [List.mem_map]
      rintro _ ⟨p, -, rfl⟩
      exact Nat.le_sub_one_of_lt (h p.1 p.2))
    rw [List.length_map, smul_eq_mul] at hsum
    have hdiv := Nat.div_le_of_le_mul hsum
    omega

theorem CfgRegs.demosaicPixel_get (c : CfgRegs) (rd : Nat → Nat → Chan → Nat) (own : Chan) (x y : Nat) (k : Chan) :
    (c.demosaicPixel rd own x y).get k = c.demosaicChan rd own x y k := by
  cases k <;> rfl

theorem CfgRegs.demosaicPixel_lt (c : CfgRegs) (m : Memory) (own : Chan) (x y : Nat) (k : Chan) :
    (c.demosaicPixel (c.chanIn m) own x y).get k < 2 ^ c.depth := by
  rw [CfgRegs.demosaicPixel_get, CfgRegs.demosaicChan]
  split_ifs
  · exact c.channelOf_lt _ _
  · exact CfgRegs.missing_lt (Nat.two_pow_pos _) fun px py => c.channelOf_lt _ _

/-! ### The channels of a pixel in a destination space -/

/-- A pixel that is the packed one has its channels (R222, R224). -/
theorem CfgRegs.chanIn_of_pixelIs (hv : ∀ k, v.get k < 2 ^ c.depth) (h : c.pixelIs m x y v) (k : Chan) :
    c.chanIn m x y k = v.get k := by
  have hword : Memory.readN m (c.dstAddr x y) c.bpp = c.pixelWord v % 256 ^ c.bpp := by
    simpa using Memory.readN_of_bytes h (j := 0) (Nat.le_of_eq (Nat.zero_add _))
  rw [CfgRegs.chanIn, hword, CfgRegs.channelOf_pixelWord hv]

theorem Memory.readN_congr {m m' : Memory} {a n : Nat} (h : ∀ i < n, Memory.read m' (a + i) = Memory.read m (a + i)) :
    Memory.readN m' a n = Memory.readN m a n := by
  induction n generalizing a with
  | zero => rfl
  | succ n ih =>
    have hfirst := h 0 (Nat.succ_pos n)
    rw [Nat.add_zero] at hfirst
    rw [Memory.readN, Memory.readN, hfirst, ih fun i hi => ?_]
    rw [Nat.add_assoc, Nat.add_comm 1 i]
    exact h (i + 1) (Nat.succ_lt_succ hi)

end Pixels

/-! ### What a demosaic pass writes -/

/-- The pixel (x, y) demosaiced from the destination space as it stands (R285). -/
def State.demosaicAt (s : State) (x y : Nat) : Option Rgb :=
  (s.cfg.color x y).map fun own => s.cfg.demosaicPixel (s.cfg.chanIn s.dst) own x y

section Pass

variable {S : Nat → Nat → Prop} {s u : State} {px py : Nat} {k : Chan}

/-- A pixel not written yet has the channels it had. -/
theorem CfgRegs.Painted.chanIn_before {c : CfgRegs} {val : Nat → Nat → Option Rgb} {before after : Memory}
    (h : c.Painted S val before after) (hd : c.badDstStride = false) (hp : px < c.width) (hS : ¬S px py) (k : Chan) :
    c.chanIn after px py k = c.chanIn before px py k := by
  have hstride : c.width * c.bpp ≤ c.dstStride.toNat := by simpa [CfgRegs.badDstStride] using hd
  rw [CfgRegs.chanIn, CfgRegs.chanIn, Memory.readN_congr fun i hi => h.untouched _ fun x y hxy hpix => ?_]
  have hne : (x, y) ≠ (px, py) := by
    rintro ⟨⟩
    exact hS hxy
  have hapart := CfgRegs.dstAddr_disjoint hstride (h.inside x y hxy).1 hp hne
  omega

/-- Written or not, a pixel of the frame keeps its own channel (R285, R287). -/
theorem FramePass.chanIn_own (h : FramePass S s.demosaicAt s u) (hd : s.cfg.badDstStride = false)
    (hp : s.cfg.hasPixel px py) (hk : s.cfg.color px py = some k) :
    s.cfg.chanIn u.dst px py k = s.cfg.chanIn s.dst px py k := by
  by_cases hS : S px py
  · obtain ⟨v, hv, hpix⟩ := h.painted.written px py hS
    rw [State.demosaicAt, hk, Option.map_some, Option.some.injEq] at hv
    subst hv
    rw [CfgRegs.chanIn_of_pixelIs (s.cfg.demosaicPixel_lt s.dst k px py) hpix, CfgRegs.demosaicPixel_get,
      CfgRegs.demosaicChan, if_pos rfl]
  · exact h.painted.chanIn_before hd hp.1 hS k

/-- What the pass reads of a pixel of the frame is its own channel before the pass (R285, R287). -/
theorem FramePass.readCh (h : FramePass S s.demosaicAt s u) (hun : s.Unraced) (hd : s.cfg.badDstStride = false)
    (hp : s.cfg.hasPixel px py) (hk : s.cfg.color px py = some k) (salt : Nat) :
    u.readCh salt px py k = s.cfg.chanIn s.dst px py k := by
  rw [State.readCh_exact _ _ _ _ (h.kept.dstForeign.trans hun.dst), h.kept.cfg]
  exact h.chanIn_own hd hp hk

end Pass

end Sys2Proof.Machine
end

section
/-! The demosaic pass (46_demosaic, R285 to R288), cancelled or not: where its workers stand, and what it leaves. -/

namespace Sys2Proof.Machine

/-! ### Where the pass stands -/

/-- The rows written up to their last pixel, but for those still with a worker (R286). -/
def CfgRegs.countedRows (c : CfgRegs) (upTo : Nat → Nat) (rows : List Nat) : Nat :=
  ((List.range c.height).filter fun y => decide (upTo y = c.width ∧ y ∉ rows)).length

/-- What a worker's pixel has come to, the row written before column `upTo` (R285, R288). -/
def State.workerStands (s : State) (upTo : Nat) (w : Worker) : Prop :=
  match w.phase with
  | .gate => upTo = w.x ∧ w.x < s.cfg.width
  | .read got => upTo = w.x ∧ w.x < s.cfg.width ∧ ∀ own, s.cfg.color w.x w.y = some own →
      got = ((s.cfg.demosaicReads own w.x w.y).take got.length).map fun r => s.cfg.chanIn s.dst r.1 r.2.1 r.2.2
  | .write v => upTo = w.x ∧ w.x < s.cfg.width ∧ s.demosaicAt w.x w.y = some v
  | .count => upTo = s.cfg.width

/-- A demosaic pass that began in `s` has these workers at work and these rows to start, with each row y of the frame
written before column `upTo y`; no row is missing unless a worker has stopped. -/
structure DemosaicAt (s u : State) (active : List Worker) (waiting : List Nat) (stopped : Bool) (upTo : Nat → Nat) :
    Prop where
  frame : FramePass (fun x y => s.cfg.hasPixel x y ∧ x < upTo y) s.demosaicAt s u
  stats : u.stats = s.stats
  upTo_le : ∀ y, upTo y ≤ s.cfg.width
  rows : (active.map Worker.y ++ waiting).Nodup
  inFrame : ∀ y ∈ active.map Worker.y ++ waiting, y < s.cfg.height
  fresh : ∀ y ∈ waiting, upTo y = 0
  stands : ∀ w ∈ active, s.workerStands (upTo w.y) w
  whole : stopped = false → ∀ y < s.cfg.height, y ∉ active.map Worker.y → y ∉ waiting → upTo y = s.cfg.width
  progress : u.progress.toNat = s.cfg.countedRows upTo (active.map Worker.y)

/-- A demosaic pass that began in `s` is under way. -/
def DemosaicRun (s u : State) : Prop :=
  ∃ active waiting stopped upTo, u.pos = .demosaic active waiting stopped ∧ DemosaicAt s u active waiting stopped upTo

/-- What a finished demosaic pass that began in `s` leaves (R285, R286). -/
structure DemosaicOver (s u : State) : Prop where
  pos : u.pos = .between
  frame : FramePass s.cfg.hasPixel s.demosaicAt s u
  stats : u.stats = s.stats
  progress : u.progress.toNat = s.cfg.height

/-- A demosaic pass that began in `s` has been cancelled, each row written before column `upTo y` (R288). -/
def DemosaicCancelled (s t : State) : Prop :=
  ∃ u upTo, DemosaicAt s u [] [] true upTo ∧ t = finish .cancelled u

section Demosaic

variable {s u v t : State} {active active' rest : List Worker} {waiting waiting' : List Nat} {stopped : Bool}
  {upTo : Nat → Nat} {w w' : Worker} {c : CfgRegs}

/-! ### Rows counted -/

theorem CfgRegs.countedRows_congr {upTo' : Nat → Nat} {rows rows' : List Nat}
    (h : ∀ y < c.height, (upTo' y = c.width ∧ y ∉ rows') ↔ (upTo y = c.width ∧ y ∉ rows)) :
    c.countedRows upTo' rows' = c.countedRows upTo rows :=
  congrArg List.length (List.filter_congr fun y hy => decide_eq_decide.2 (h y (List.mem_range.1 hy)))

/-- A whole row that its worker leaves is one row more. -/
theorem CfgRegs.countedRows_cons {y : Nat} {rows : List Nat} (hy : y < c.height) (hw : upTo y = c.width)
    (hn : y ∉ rows) : c.countedRows upTo rows = c.countedRows upTo (y :: rows) + 1 := by
  have hperm := filter_perm_cons (p := fun y' => decide (upTo y' = c.width ∧ y' ∉ y :: rows))
    (q := fun y' => decide (upTo y' = c.width ∧ y' ∉ rows)) List.nodup_range (List.mem_range.2 hy) (by simp)
    (by simp [hw, hn]) fun y' _ hne => by simp [hne]
  exact hperm.length_eq

theorem CfgRegs.countedRows_le (c : CfgRegs) (upTo : Nat → Nat) (rows : List Nat) :
    c.countedRows upTo rows ≤ c.height :=
  (List.length_filter_le _ _).trans_eq List.length_range

/-- Past a pixel one pixel more of its row is written. -/
theorem CfgRegs.upTo_update_iff {x y : Nat} (hp : c.hasPixel x y) (hy : upTo y = x) (x' y' : Nat) :
    (c.hasPixel x' y' ∧ x' < Function.update upTo y (x + 1) y') ↔
      (c.hasPixel x' y' ∧ x' < upTo y') ∨ x' = x ∧ y' = y := by
  by_cases he : y' = y
  · subst he
    rw [Function.update_self, hy]
    constructor
    · rintro ⟨hp', hx'⟩
      by_cases hx : x' = x
      · exact .inr ⟨hx, rfl⟩
      · exact .inl ⟨hp', by omega⟩
    · rintro (⟨hp', hx'⟩ | ⟨rfl, -⟩)
      · exact ⟨hp', by omega⟩
      · exact ⟨hp, Nat.lt_succ_self _⟩
  · rw [Function.update_of_ne he, or_iff_left fun h => he h.2]

/-! ### The steps -/

/-- The order of the workers, and of the rows to start, does not matter. -/
theorem DemosaicAt.perm (h : DemosaicAt s u active waiting stopped upTo) (ha : active'.Perm active)
    (hw : waiting'.Perm waiting) : DemosaicAt s u active' waiting' stopped upTo := by
  have hy := ha.map Worker.y
  have hall := hy.append hw
  exact ⟨h.frame, h.stats, h.upTo_le, hall.nodup_iff.2 h.rows, fun y hm => h.inFrame y (hall.mem_iff.1 hm),
    fun y hm => h.fresh y (hw.mem_iff.1 hm), fun w hm => h.stands w (ha.mem_iff.1 hm),
    fun hs y hlt hna hnw => h.whole hs y hlt (fun hm => hna (hy.mem_iff.2 hm)) fun hm => hnw (hw.mem_iff.2 hm),
    h.progress.trans (CfgRegs.countedRows_congr fun y _ => by rw [hy.mem_iff])⟩

theorem DemosaicAt.goOn (h : DemosaicAt s u active waiting stopped upTo)
    (hk : PassKept u v := by constructor <;> rfl)
    (hsame : v.dst = u.dst ∧ v.overwritten = u.overwritten ∧ v.srcRead = u.srcRead := by exact ⟨rfl, rfl, rfl⟩)
    (hst : v.stats = u.stats := by rfl) (hp : v.progress = u.progress := by rfl) :
    DemosaicAt s v active waiting stopped upTo :=
  ⟨h.frame.goOn hk hsame, hst.trans h.stats, h.upTo_le, h.rows, h.inFrame, h.fresh, h.stands, h.whole, hp ▸ h.progress⟩

/-- A row starts (R286). -/
theorem DemosaicAt.start {y : Nat} (h : DemosaicAt s u active (y :: waiting) stopped upTo) (hd : 0 < s.cfg.width) :
    DemosaicAt s u (⟨y, 0, .gate⟩ :: active) waiting stopped upTo where
  frame := h.frame
  stats := h.stats
  upTo_le := h.upTo_le
  rows := List.nodup_middle.1 h.rows
  inFrame y' hy' := h.inFrame y' (List.perm_middle.mem_iff.2 hy')
  fresh y' hy' := h.fresh y' (List.mem_cons_of_mem y hy')
  stands w hw := by
    rcases List.mem_cons.1 hw with rfl | hw
    · exact ⟨h.fresh y List.mem_cons_self, hd⟩
    · exact h.stands w hw
  whole hs y' hlt hna hnw := by
    rw [List.map_cons, List.mem_cons, not_or] at hna
    exact h.whole hs y' hlt hna.2 fun hm => (List.mem_cons.1 hm).elim hna.1 hnw
  progress := by
    have hy := h.fresh y List.mem_cons_self
    rw [h.progress]
    refine CfgRegs.countedRows_congr fun y' _ => ?_
    rw [List.map_cons, List.mem_cons, not_or]
    refine and_congr_right fun hw => ⟨fun hn => ⟨?_, hn⟩, And.right⟩
    rintro rfl
    omega

/-- A worker that stays on its row. -/
theorem DemosaicAt.move (h : DemosaicAt s u (w :: rest) waiting stopped upTo) (hy : w'.y = w.y)
    (hw' : s.workerStands (upTo w.y) w') : DemosaicAt s u (w' :: rest) waiting stopped upTo := by
  have hrows : (w' :: rest).map Worker.y = (w :: rest).map Worker.y := by rw [List.map_cons, List.map_cons, hy]
  refine ⟨h.frame, h.stats, h.upTo_le, hrows ▸ h.rows, hrows ▸ h.inFrame, h.fresh, fun a ha => ?_, hrows ▸ h.whole,
    hrows ▸ h.progress⟩
  rcases List.mem_cons.1 ha with rfl | ha
  · rw [hy]
    exact hw'
  · exact h.stands a (List.mem_cons_of_mem w ha)

/-- No other worker is on a worker's row, nor is the row to be started. -/
theorem DemosaicAt.alone (h : DemosaicAt s u (w :: rest) waiting stopped upTo) :
    w.y ∉ rest.map Worker.y ∧ w.y ∉ waiting := by
  have hn : w.y ∉ rest.map Worker.y ++ waiting := (List.nodup_cons.1 h.rows).1
  rwa [List.mem_append, not_or] at hn

/-- A pixel demosaiced is written (R285). -/
theorem DemosaicAt.paint {val : Rgb} (h : DemosaicAt s u (w :: rest) waiting stopped upTo)
    (hd : s.cfg.badDstStride = false) (hw : s.workerStands (upTo w.y) w) (hphase : w.phase = .write val) (p : Pos) :
    DemosaicAt s { u.writePixel w.x w.y val with pos := p }
      ((if w.x + 1 < s.cfg.width then ⟨w.y, w.x + 1, .gate⟩ else ⟨w.y, w.x, .count⟩) :: rest) waiting stopped
      (Function.update upTo w.y (w.x + 1)) := by
  obtain ⟨hrest, hwait⟩ := h.alone
  have hother {y : Nat} (hy : y ≠ w.y) : Function.update upTo w.y (w.x + 1) y = upTo y := Function.update_of_ne hy _ _
  have hrow : Function.update upTo w.y (w.x + 1) w.y = w.x + 1 := Function.update_self _ _ _
  simp only [State.workerStands, hphase] at hw
  obtain ⟨hupTo, hx, hval⟩ := hw
  set next : Worker := if w.x + 1 < s.cfg.width then ⟨w.y, w.x + 1, .gate⟩ else ⟨w.y, w.x, .count⟩ with hnext
  have hy : next.y = w.y := by rw [hnext]; split_ifs <;> rfl
  have hrows : (next :: rest).map Worker.y = (w :: rest).map Worker.y := by rw [List.map_cons, List.map_cons, hy]
  have hrowIn : w.y < s.cfg.height := h.inFrame w.y (by simp)
  exact {
    frame := h.frame.paint hd ⟨hx, hrowIn⟩ hval (CfgRegs.upTo_update_iff ⟨hx, hrowIn⟩ hupTo) p
    stats := by simpa using h.stats
    upTo_le := fun y => by
      by_cases hy' : y = w.y
      · rw [hy', hrow]
        exact hx
      · rw [hother hy']
        exact h.upTo_le y
    rows := hrows ▸ h.rows
    inFrame := hrows ▸ h.inFrame
    fresh := fun y hm => by
      rw [hother fun he => hwait (he ▸ hm)]
      exact h.fresh y hm
    stands := fun a ha => by
      rcases List.mem_cons.1 ha with rfl | ha
      · rw [hy, hrow, hnext]
        split_ifs with hlast
        · exact ⟨rfl, hlast⟩
        · exact Nat.le_antisymm hx (Nat.not_lt.1 hlast)
      · rw [hother fun he => hrest (he ▸ List.mem_map_of_mem ha)]
        exact h.stands a (List.mem_cons_of_mem w ha)
    whole := fun hs y hlt hna hnw => by
      rw [hrows] at hna
      rw [hother fun he => hna (by simp [he])]
      exact h.whole hs y hlt hna hnw
    progress := by
      rw [hrows, State.writePixel_progress, h.progress]
      refine CfgRegs.countedRows_congr fun y _ => and_congr_left fun hn => ?_
      rw [hother fun he => hn (by simp [he])] }

/-- A finished row is counted (R286). -/
theorem DemosaicAt.count (h : DemosaicAt s u (w :: rest) waiting stopped upTo) (hw : s.workerStands (upTo w.y) w)
    (hphase : w.phase = .count) (p : Pos) : DemosaicAt s { u.count with pos := p } rest waiting stopped upTo := by
  obtain ⟨hrest, -⟩ := h.alone
  simp only [State.workerStands, hphase] at hw
  have hrowIn : w.y < s.cfg.height := h.inFrame w.y (by simp)
  have hmore := CfgRegs.countedRows_cons hrowIn hw hrest
  refine ⟨h.frame.goOn, h.stats, h.upTo_le, (List.nodup_cons.1 h.rows).2,
    fun y hy => h.inFrame y (List.mem_cons_of_mem _ hy), h.fresh, fun a ha => h.stands a (List.mem_cons_of_mem w ha),
    fun hs y hlt hna hnw => ?_, ?_⟩
  · by_cases hy : y = w.y
    · rw [hy]
      exact hw
    · refine h.whole hs y hlt (fun hm => ?_) hnw
      exact (List.mem_cons.1 hm).elim hy hna
  · have hle := s.cfg.countedRows_le upTo (rest.map Worker.y)
    rw [hmore]
    refine State.count_progress_toNat h.progress ?_
    rw [h.frame.kept.cfg]
    omega

/-- A worker that stops at its cancel point leaves its row short (R288). -/
theorem DemosaicAt.stop (h : DemosaicAt s u (w :: rest) waiting stopped upTo) (hw : s.workerStands (upTo w.y) w)
    (hphase : w.phase = .gate) : DemosaicAt s u rest [] true upTo := by
  simp only [State.workerStands, hphase] at hw
  obtain ⟨hupTo, hx⟩ := hw
  have hrest : (rest.map Worker.y).Nodup := (List.nodup_append.1 (List.nodup_cons.1 h.rows).2).1
  refine ⟨h.frame, h.stats, h.upTo_le, by rwa [List.append_nil], fun y hy => h.inFrame y ?_, nofun,
    fun a ha => h.stands a (List.mem_cons_of_mem w ha), nofun, h.progress.trans (CfgRegs.countedRows_congr fun y _ => ?_)⟩
  · rw [List.append_nil] at hy
    exact List.mem_append_left _ (List.mem_cons_of_mem _ hy)
  · rw [List.map_cons, List.mem_cons, not_or]
    refine and_congr_right fun hfull => ⟨And.right, fun hn => ⟨?_, hn⟩⟩
    rintro rfl
    omega

/-- A worker that has read a channel reads the next one, or goes on with the pixel demosaiced (R285). -/
theorem workerStands_fetched {n x y : Nat} {got : List Nat} {own : Chan} {r : Nat × Nat × Chan} (hn : n = x)
    (hx : x < s.cfg.width) (hown : s.cfg.color x y = some own)
    (hgot : got = ((s.cfg.demosaicReads own x y).take got.length).map fun r => s.cfg.chanIn s.dst r.1 r.2.1 r.2.2)
    (hr : (s.cfg.demosaicReads own x y)[got.length]? = some r) :
    s.workerStands n ⟨y, x, s.cfg.demosaicFetched own x y (got ++ [s.cfg.chanIn s.dst r.1 r.2.1 r.2.2])⟩ := by
  have hmore : got ++ [s.cfg.chanIn s.dst r.1 r.2.1 r.2.2] =
      ((s.cfg.demosaicReads own x y).take (got.length + 1)).map fun r => s.cfg.chanIn s.dst r.1 r.2.1 r.2.2 := by
    rw [List.take_add_one, hr, List.map_append, ← hgot]
    rfl
  by_cases hall : got.length + 1 < (s.cfg.demosaicReads own x y).length
  · rw [CfgRegs.demosaicFetched, if_pos (by simpa using hall)]
    refine ⟨hn, hx, fun own' hown' => ?_⟩
    cases hown.symm.trans hown'
    simpa using hmore
  · rw [hmore, List.take_of_length_le (by omega), CfgRegs.demosaicFetched_map]
    exact ⟨hn, hx, by rw [State.demosaicAt, hown, Option.map_some]⟩

/-- A step of a worker (R285, R286, R288). -/
theorem stepWorker_demosaicRun {i : Nat} (hs : DemosaicPassStart s) (h : DemosaicAt s u active waiting stopped upTo)
    (hi : active[i]? = some w) (hr : stepWorker i w active waiting stopped u = .next t) : DemosaicRun s t := by
  have hcfg := h.frame.kept.cfg
  obtain ⟨hlt, rfl⟩ := List.getElem?_eq_some_iff.1 hi
  have hset (a : Worker) := List.set_perm_cons_eraseIdx hlt a
  have hat := h.perm (List.getElem_cons_eraseIdx_perm hlt) (List.Perm.refl waiting)
  have hw := hat.stands _ List.mem_cons_self
  have hgo {w' : Worker} (hw' : s.workerStands (upTo active[i].y) w') (hy : w'.y = active[i].y) :=
    (hat.move hy hw').perm (hset w') (List.Perm.refl waiting)
  obtain ⟨hphase, -, rfl⟩ | ⟨hphase, -, rfl⟩ | ⟨got, own, px, py, k, hphase, hown, -, hread, rfl⟩ |
    ⟨val, hphase, -, rfl⟩ | ⟨hphase, rfl⟩ := stepWorker_cases hr
  · exact ⟨_, _, _, upTo, rfl, (hat.stop hw hphase).goOn⟩
  · simp only [State.workerStands, hphase] at hw
    obtain ⟨hupTo, hx⟩ := hw
    exact ⟨_, _, _, upTo, rfl, (hgo (w' := ⟨_, _, .read []⟩) ⟨hupTo, hx, fun _ _ => rfl⟩ rfl).goOn⟩
  · simp only [State.workerStands, hphase] at hw
    obtain ⟨hupTo, hx, hgot⟩ := hw
    rw [hcfg] at hown hread
    have hp : s.cfg.hasPixel active[i].x active[i].y := ⟨hx, hat.inFrame _ (by simp)⟩
    obtain ⟨hpr, hk⟩ := CfgRegs.mem_demosaicReads hp hown (List.mem_of_getElem? hread)
    have hnext := workerStands_fetched hupTo hx hown (hgot own hown) hread
    rw [h.frame.readCh hs.unraced hs.dstStride hpr hk, hcfg]
    exact ⟨_, _, _, upTo, rfl, (hgo hnext rfl).goOn⟩
  · rw [hcfg]
    exact ⟨_, _, _, _, rfl, (hat.paint hs.dstStride hw hphase _).perm (hset _) (List.Perm.refl waiting)⟩
  · exact ⟨_, _, _, upTo, rfl, hat.count hw hphase _⟩

/-- The pass is over where no row is left and no worker has stopped (R286). -/
theorem DemosaicAt.over (h : DemosaicAt s u [] [] false upTo) : DemosaicOver s { u with pos := .between } := by
  have hwhole (y : Nat) (hy : y < s.cfg.height) : upTo y = s.cfg.width := h.whole rfl y hy nofun nofun
  refine ⟨rfl, (h.frame.goOn).congr fun x y => (and_iff_left_of_imp fun hp => ?_).symm, h.stats, h.progress.trans ?_⟩
  · rw [hwhole y hp.2]
    exact hp.1
  · rw [CfgRegs.countedRows, List.filter_eq_self.2 fun y hy => ?_, List.length_range]
    simpa using hwhole y (List.mem_range.1 hy)

theorem CfgRegs.width_pos (h : c.badDim = false) : 0 < c.width := by
  simp only [CfgRegs.badDim, Bool.or_eq_false_iff, beq_eq_false_iff_ne] at h
  exact Nat.pos_of_ne_zero h.1

/-- What a step leaves of a demosaic pass that is over, or of a command it cancels. -/
theorem engineMove_demosaicRun (hs : DemosaicPassStart s) (h : DemosaicRun s u) (hm : engineMove u = .next t) :
    DemosaicRun s t ∨ DemosaicOver s t ∨ DemosaicCancelled s t := by
  obtain ⟨active, waiting, stopped, upTo, hpos, hat⟩ := h
  simp only [engineMove, hpos] at hm
  obtain ⟨rfl, rfl, rfl⟩ | ⟨i, w, hi, hr⟩ | ⟨j, y, hj, -, rfl⟩ := stepDemosaic_cases hm
  · cases stopped with
    | false => exact .inr (.inl hat.over)
    | true => exact .inr (.inr ⟨u, upTo, hat, rfl⟩)
  · have hat' : DemosaicAt s { u with sched := u.sched.tail } active waiting stopped upTo := hat.goOn
    exact .inl (stepWorker_demosaicRun hs hat' hi hr)
  · obtain ⟨hlt, rfl⟩ := List.getElem?_eq_some_iff.1 hj
    have hat' := (hat.perm (List.Perm.refl active) (List.getElem_cons_eraseIdx_perm hlt)).start (CfgRegs.width_pos hs.dim)
    exact .inl ⟨_, _, _, upTo, rfl, (hat'.perm (List.perm_append_singleton _ active) (List.Perm.refl _)).goOn⟩

/-- A pass begins with no row started. -/
theorem demosaicRun_start (hs : DemosaicPassStart s) : DemosaicRun s s := by
  have hw := CfgRegs.width_pos hs.dim
  refine ⟨[], List.range s.cfg.height, false, fun _ => 0, hs.pos,
    framePass_start (fun x y h => Nat.not_lt_zero x h.2) hs.dstWf hs.apart, rfl, fun _ => Nat.zero_le _,
    List.nodup_range, fun y hy => List.mem_range.1 hy, fun _ _ => rfl, nofun,
    fun _ y hy _ hn => absurd (List.mem_range.2 hy) hn, ?_⟩
  rw [hs.progress, CfgRegs.countedRows, List.filter_eq_nil_iff.2 fun y _ => by simp [hw.ne]]
  rfl

theorem DemosaicRun.goOn (h : DemosaicRun s u) (hk : PassKept u t) (hpos : t.pos = u.pos) (hstats : t.stats = u.stats)
    (hp : t.progress = u.progress)
    (hsame : t.dst = u.dst ∧ t.overwritten = u.overwritten ∧ t.srcRead = u.srcRead) : DemosaicRun s t := by
  obtain ⟨active, waiting, stopped, upTo, hu, hat⟩ := h
  exact ⟨active, waiting, stopped, upTo, hpos.trans hu, hat.goOn hk hsame hstats hp⟩

theorem DemosaicRun.busy (hs : DemosaicPassStart s) (h : DemosaicRun s u) : u.busy = true := by
  obtain ⟨active, waiting, stopped, upTo, -, hat⟩ := h
  exact hat.frame.kept.busy.trans hs.busy

theorem engineStep_demosaicRun (hs : DemosaicPassStart s) (h : DemosaicRun s u) (ht : engineStep u = .next t) :
    DemosaicRun s t ∨ DemosaicOver s t ∨ DemosaicCancelled s t := by
  obtain ⟨v, hv, rfl⟩ := engineStep_cases ht
  rcases engineMove_demosaicRun hs h hv with h | h | ⟨w, upTo, h, rfl⟩
  · exact .inl (h.goOn (by constructor <;> rfl) rfl rfl rfl ⟨rfl, rfl, rfl⟩)
  · exact .inr (.inl ⟨h.pos, h.frame.goOn, h.stats, h.progress⟩)
  · exact .inr (.inr ⟨w, upTo, h, finish_ticked _ _ _⟩)

end Demosaic

end Sys2Proof.Machine
end

section
/-! The end of a raw pass (45_bayer_decode), and of the demosaic pass after it (R266): what a decode that is not cancelled
leaves. -/

namespace Sys2Proof.Machine

section Decode

variable {k : Container} {s t u : State} {n : Nat}

/-! ### To the end of a pass, and of the command -/

/-- The last pass over, the command ends DONE. -/
theorem eq_finish_of_last (hb : u.busy = true) (hp : u.pos = .between) (ht : u.todo = [])
    (hrun : runEngine n u = .next t) (hover : t.busy = false) : t = finish .done u := by
  have hmove : engineMove u = .next (finish .done u) := by simp only [engineMove, hp, stepBetween_last ht]
  cases n with
  | zero =>
    cases hrun
    cases hb.symm.trans hover
  | succ n =>
    rw [runEngine_next n hb (engineStep_finish hmove), runEngine_idle n (finish_busy _ _)] at hrun
    exact (Host.Outcome.next.inj hrun).symm

/-- A command that is not cancelled runs past its raw pass. -/
theorem rawPass_ends (hs : RawPassStart k s) (hrun : runEngine n s = .next t) (hover : t.busy = false)
    (hc : t.cancelled = false) : ∃ trunc u m, RawOver k s u trunc ∧ runEngine m u = .next t := by
  obtain h | ⟨u, h, m, hm⟩ := runEngine_through (fun _ _ _ => engineStep_rawRun hs) (rawRun_start hs) hrun
  · cases (h.busy hs).symm.trans hover
  · rcases h with ⟨trunc, h⟩ | ⟨y, h⟩
    · exact ⟨trunc, u, m, h, hm⟩
    · rw [runEngine_idle m h.rows.busy] at hm
      cases hm
      cases h.rows.cancelled.symm.trans hc

/-- A command that is not cancelled runs past its demosaic pass. -/
theorem demosaicPass_ends (hs : DemosaicPassStart s) (hrun : runEngine n s = .next t) (hover : t.busy = false)
    (hc : t.cancelled = false) : ∃ u m, DemosaicOver s u ∧ runEngine m u = .next t := by
  obtain h | ⟨u, h, m, hm⟩ := runEngine_through (fun _ _ _ => engineStep_demosaicRun hs) (demosaicRun_start hs) hrun
  · cases (h.busy hs).symm.trans hover
  · rcases h with h | ⟨w, upTo, -, rfl⟩
    · exact ⟨u, m, h, hm⟩
    · rw [runEngine_idle m (finish_busy _ _)] at hm
      cases hm
      cases hc

/-- What a command leaves that set out on its demosaic pass in `s`, and was not cancelled (R285, R286). -/
structure DemosaicDone (s t : State) : Prop where
  done : t.done = true
  kept : t.trunc = s.trunc ∧ t.error = s.error ∧ t.errCode = s.errCode ∧ t.luts = s.luts ∧ t.lutValid = s.lutValid
  stats : t.stats = s.stats
  result : DemosaicResult s.cfg s.dst t.dst
  progress : t.progress.toNat = s.cfg.height

/-- A demosaic pass not cancelled is done. -/
theorem demosaicDone (hs : DemosaicPassStart s) (hrun : runEngine n s = .next t) (hover : t.busy = false)
    (hc : t.cancelled = false) : DemosaicDone s t := by
  obtain ⟨u, m, hu, hm⟩ := demosaicPass_ends hs hrun hover hc
  have hk := hu.frame.kept
  obtain rfl := eq_finish_of_last (hk.busy.trans hs.busy) hu.pos (hk.todo.trans hs.todo) hm hover
  obtain ⟨hdst, hstats⟩ := hu.frame.finish hs.unraced .done
  refine ⟨rfl, ⟨(finish_trunc _ _).trans hk.trunc, hk.error, hk.errCode, (finish_luts _ _).trans hk.luts,
    (finish_lutValid _ _).trans hk.lutValid⟩, hstats.trans hu.stats, ⟨fun x y hp => ?_, fun a ha => ?_⟩,
    (congrArg BitVec.toNat (finish_progress _ _)).trans hu.progress⟩
  · obtain ⟨v, hv, hpix⟩ := hu.frame.painted.written x y hp
    obtain ⟨own, hown, rfl⟩ := Option.map_eq_some_iff.1 hv
    rw [hdst]
    exact ⟨own, hown, hpix⟩
  · rw [hdst]
    exact hu.frame.painted.untouched a ha

/-! ### The raw pass, and the demosaic pass after it -/

/-- What a command leaves that set out on its raw pass in `s`, and was not cancelled: the demosaic pass, where asked for,
has run on what the raw pass left, truncated or not (R258 to R263, R266). -/
structure DecodeDone (k : Container) (s t : State) : Prop where
  done : t.done = true
  kept : t.error = s.error ∧ t.errCode = s.errCode ∧ t.luts = s.luts ∧ t.lutValid = s.lutValid
  stats : StatsResult s.cfg (s.cfg.decodable s.cfg.p0 k) (s16Of (s.liveAt k)) t.stats
  result : ∃ (m : Memory) (rows : Nat),
    RowPassResult s.cfg (s.cfg.decodable s.cfg.p0 k) (s.cfg.rawRgb (s.liveAt k)) s.dst m t.trunc rows ∧
      (s.cfg.demosaicEn = false → t.dst = m ∧ t.progress.toNat = rows) ∧
      (s.cfg.demosaicEn = true → DemosaicResult s.cfg m t.dst ∧ t.progress.toNat = s.cfg.height)

/-- The state in which a command that has only its demosaic pass to come begins it. -/
abbrev State.demosaicNext (u : State) : State :=
  { startPass .demosaic (showPass .demosaic { u with todo := [] }) with ticks := u.ticks + 2 }

/-- The demosaic pass begins on what the raw pass left (R266). -/
theorem RawOver.demosaicPassStart {trunc : Bool} (h : RawOver k s u trunc) (hs : RawPassStart k s)
    (hd : s.done = false) : DemosaicPassStart u.demosaicNext := by
  have hk := h.pass.frame.kept
  have hcfg : u.cfg = s.cfg := hk.cfg
  obtain ⟨hbadDst, -⟩ : s.cfg.badDst s.params.dstBytes = false ∧ s.cfg.badSrc s.params.srcBytes = false := by
    simpa [State.inSpaces] using hs.spaces
  have hdst : u.cfg.badDst u.params.dstBytes = false := by
    rw [hcfg, hk.params]
    exact hbadDst
  exact ⟨hk.busy.trans hs.busy, hk.done.trans hd, hk.cancelled.trans hs.cancelled, rfl, rfl, rfl,
    ⟨hk.srcForeign.trans hs.unraced.src, hk.dstForeign.trans hs.unraced.dst⟩, h.pass.frame.apart, h.pass.frame.dstWf,
    hcfg ▸ hs.colors, hdst, hcfg ▸ hs.dim, hcfg ▸ hs.dstStride⟩

/-- A decode not cancelled is done. -/
theorem decodeDone (hs : RawPassStart k s) (hd : s.done = false)
    (htodo : s.todo = if s.cfg.demosaicEn then [.demosaic] else []) (hrun : runEngine n s = .next t)
    (hover : t.busy = false) (hc : t.cancelled = false) : DecodeDone k s t := by
  obtain ⟨trunc, u, m, hu, hm⟩ := rawPass_ends hs hrun hover hc
  have hk := hu.pass.frame.kept
  have hb : u.busy = true := hk.busy.trans hs.busy
  cases hen : s.cfg.demosaicEn with
  | false =>
    have hlast : u.todo = [] := by
      rw [hk.todo]
      exact htodo.trans (by rw [hen]; rfl)
    obtain rfl := eq_finish_of_last hb hu.pos hlast hm hover
    obtain ⟨hdst, hstats⟩ := hu.pass.frame.finish ⟨hs.unraced.src, hs.unraced.dst⟩ .done
    refine ⟨rfl, ⟨hk.error, hk.errCode, (finish_luts _ _).trans hk.luts, (finish_lutValid _ _).trans hk.lutValid⟩,
      hstats ▸ hu.stats, u.dst, u.progress.toNat, ?_, fun _ => ⟨hdst, by rw [finish_progress]⟩, fun h => ?_⟩
    · rw [finish_trunc, hk.trunc]
      exact hu.pass.result
    · cases hen.symm.trans h
  | true =>
    have hnext : u.todo = [.demosaic] := by
      rw [hk.todo]
      exact htodo.trans (by rw [hen]; rfl)
    obtain ⟨m', hm'⟩ := (nextPass_reaches hb hu.pos hnext).rest hb hm hover
    obtain ⟨hdone, ⟨htrunc, herr, hcode, hl, hv⟩, hstats, hres, hprog⟩ :=
      demosaicDone (hu.demosaicPassStart hs hd) hm' hover hc
    have hcfg : u.cfg = s.cfg := hk.cfg
    refine ⟨hdone, ⟨herr.trans hk.error, hcode.trans hk.errCode, hl.trans hk.luts, hv.trans hk.lutValid⟩,
      hstats ▸ hu.stats, u.dst, u.progress.toNat, ?_, fun h => ?_, fun _ => ?_⟩
    · have htr : t.trunc = trunc := htrunc.trans hk.trunc
      rw [htr]
      exact hu.pass.result
    · cases hen.symm.trans h
    · exact hcfg ▸ ⟨hres, hprog⟩

end Decode

end Sys2Proof.Machine
end

section
/-! What a decode's tables give where the command has built them (42_lut, R196 to R198, R201, R259), and the obligation on
BAYER_DECODE build (45_bayer_decode). -/

namespace Sys2Proof.Machine

/-! ### Tables built by the command -/

section Built

variable {c : CfgRegs} {tol : Nat} {s t : State} {k : Container} {ch : Chan}

/-- A gain keeps a value within its range (R192). -/
theorem gainFn_lt {n i : Nat} (g : Nat) (hi : i < 2 ^ n) : gainFn tol n i g < 2 ^ n := by
  unfold gainFn
  split_ifs
  · exact hi
  · exact lt_of_le_of_lt (min_le_right _ _) (Nat.sub_lt (Nat.two_pow_pos n) Nat.one_pos)

theorem CfgRegs.level_b_lt (c : CfgRegs) (b i : Nat) : c.level_b b i < 2 ^ b :=
  lt_of_le_of_lt (levelFn_le_full _ _ _ _) (Nat.sub_lt (Nat.two_pow_pos b) Nat.one_pos)

theorem CfgRegs.g8Entry_lt (c : CfgRegs) (tol : Nat) (ch : Chan) (i : Nat) : c.g8Entry tol ch i < 2 ^ 8 :=
  gainFn_lt _ (c.level_b_lt 8 i)

theorem CfgRegs.g16Entry_lt (c : CfgRegs) (tol : Nat) (ch : Chan) {i : Nat} (hi : i < 2 ^ 16) :
    c.g16Entry tol ch i < 2 ^ 16 :=
  gainFn_lt _ hi

/-- G8 as built gives its entry (R196, R201). -/
theorem g8_of_built (h : TablesBuilt c tol [.g8] s t) {raw : Nat} (hraw : raw < 256) :
    (Ram.read (t.luts.g8.get ch) raw).map c.value8 =
      some ⟨c.out8 (c.g8Entry tol ch raw), c.g8Entry tol ch raw * 256⟩ := by
  have hentry : (BitVec.ofNat 8 (c.g8Entry tol ch raw)).toNat = c.g8Entry tol ch raw := by
    rw [BitVec.toNat_ofNat, Nat.mod_eq_of_lt (c.g8Entry_lt tol ch raw)]
  rw [h.g8 List.mem_cons_self ch raw hraw, Option.map_some, CfgRegs.value8, hentry]

/-- LVL and G16 as built give the gain of the left-justified level (R197, R198, R201). -/
theorem apply16_of_built (h : TablesBuilt c tol [.lvl, .g16] s t) (hb : c.p0.bits ≤ 16) {raw : Nat}
    (hraw : raw < 2 ^ c.p0.bits) (wide : Half) :
    (t.luts.apply16 ch c.p0.bits raw wide).map c.value16 =
      some ⟨c.out16 (c.g16Entry tol ch (leftJustify (c.level_b c.p0.bits raw) c.p0.bits)),
        c.g16Entry tol ch (leftJustify (c.level_b c.p0.bits raw) c.p0.bits)⟩ := by
  have hsmall : 2 ^ c.p0.bits ≤ 65536 := Nat.pow_le_pow_right Nat.two_pos hb
  have hlevel : (BitVec.ofNat 16 (c.lvlEntry raw)).toNat = c.level_b c.p0.bits raw := by
    rw [BitVec.toNat_ofNat, CfgRegs.lvlEntry, Nat.mod_eq_of_lt ((c.level_b_lt c.p0.bits raw).trans_le hsmall)]
  have hindex : leftJustify (c.level_b c.p0.bits raw) c.p0.bits < 65536 := leftJustify_lt hb (c.level_b_lt _ _)
  have hentry (i : Nat) (hi : i < 65536) : (BitVec.ofNat 16 (c.g16Entry tol ch i)).toNat = c.g16Entry tol ch i := by
    rw [BitVec.toNat_ofNat, Nat.mod_eq_of_lt (c.g16Entry_lt tol ch hi)]
  rw [Luts.apply16, h.lvl (by decide) raw (hraw.trans_le hsmall), Option.bind_some, hlevel, Luts.gain16, if_pos hindex,
    h.g16 (by decide) ch _ hindex, Option.map_some, CfgRegs.value16, hentry _ hindex]

/-- The tables a decode needs, built, give every raw code what R201 and R259 say. -/
theorem rawValue_of_built (h : TablesBuilt c tol c.needed s t) (hk : c.p0.container = some k) {raw : Nat}
    (hraw : raw < 2 ^ k.depth) (wide : Half) : t.luts.rawValue c k ch raw wide = some (c.builtValue tol k ch raw) := by
  unfold CfgRegs.needed at h
  obtain ⟨h0, rfl⟩ | ⟨h0, hb, rfl⟩ | ⟨h0, g, hg, rfl⟩ := PlaneRegs.container_cases hk
  · rw [if_pos h0] at h
    exact g8_of_built h hraw
  · rw [if_neg h0] at h
    exact apply16_of_built h hb hraw wide
  · rw [if_neg h0] at h
    exact apply16_of_built h (mipiGeom_depth hg).2 hraw wide

end Built

/-! ### BAYER_DECODE build, up to its raw pass -/

/-- The passes that BAYER_DECODE runs after its raw pass (R266). -/
def CfgRegs.afterRaw (c : CfgRegs) : List PassPlan := if c.demosaicEn then [.demosaic] else []

/-- The state in which BAYER_DECODE build, accepted in `a`, begins its raw pass. -/
def State.builtNext (a : State) (ticks : Nat) : State :=
  { startPass .raw (showPass .raw (({ a with pass := .lut, todo := a.cfg.afterRaw }).lutAt
      (a.luts.built a.cfg a.params.gainTol a.cfg.needed) (a.lutValid.marked a.cfg.needed)
      (BitVec.ofNat 32 a.cfg.needed.length) .between ticks)) with ticks := ticks + 2 }

section Build

variable {a s t : State}

/-- Its tables built, the command begins its raw pass (R256). -/
theorem bayerBuild_reaches (hb : a.busy = true) (hc : a.cancelPending = false) (hs : a.luts.sized)
    (hp : a.pos = .checked none) (ht : a.todo = bayerPlan true a.cfg) : ∃ j, Reaches a (a.builtNext j) := by
  have hmove : engineMove a = .next { a with pos := .between } := by simp [engineMove, hp]
  have hplan : a.todo = .lut a.cfg.needed :: .raw :: a.cfg.afterRaw := ht
  obtain ⟨j, hlut⟩ := nextLutPass_reaches (s := { a with pos := .between, ticks := a.ticks + 1 }) hb hc hs rfl hplan
  exact ⟨j, (Reaches.of_move hb hmove hb).trans (hlut.trans (nextPass_reaches hb rfl rfl))⟩

/-- A valid command other than NOP, undisturbed, runs from where it sets out to its answer. -/
theorem run_of_exec {i : Instr} (hi : i ≠ .nop) (hb : s.busy = false) (hu : s.Undisturbed) (hv : Valid i s)
    (ht : exec i s = .next t) :
    ∃ n, runEngine n ((accept (encode i) s).launched none (planOf i (accept (encode i) s))) = .next t := by
  rw [exec_eq_settle_issued, settle_undisturbed (by rwa [State.Undisturbed, (issued_idle hb).1.host]),
    issued_of_valid hi hb hv] at ht
  exact ⟨_, ht⟩

/-- BAYER_DECODE build as accepted on an idle block with a valid configuration (R140, R144). -/
abbrev State.decodeBuild (s : State) : State :=
  (accept (encode (.bayerDecode true)) s).launched none
    (planOf (.bayerDecode true) (accept (encode (.bayerDecode true)) s))

/-- On a valid configuration the raw pass finds what it relies on (R83, R144). -/
theorem decodeBuild_rawPassStart (hwf : Memory.wf s.dst = true) (hv : Valid (.bayerDecode true) s)
    (ha : Apart (.bayerDecode true) s) (j : Nat) :
    ∃ k, s.regs.p0.container = some k ∧ RawPassStart k (s.decodeBuild.builtNext j) := by
  have hok := checksOf_pass hv
  simp only [checksOf, bayerChecks, List.forall_mem_cons, Bool.or_eq_false_iff] at hok
  obtain ⟨hdim, hdst, hsrc, -, hbits, ⟨hstride, hdstStride⟩, -, -, hpattern, -⟩ := hok
  obtain ⟨k, hk⟩ := PlaneRegs.exists_container hbits
  have htodo : .raw ∉ s.regs.afterRaw := by
    unfold CfgRegs.afterRaw
    split_ifs <;> simp
  have hspaces : (accept (encode (.bayerDecode true)) s).inSpaces = true := by
    rw [State.inSpaces, hdst, hsrc]
    rfl
  exact ⟨k, hk, rfl, rfl, rfl, htodo, rfl, rfl, ⟨rfl, rfl⟩, ⟨rfl, rfl, rfl⟩, hwf, hk, CfgRegs.color_ne_none hpattern,
    hspaces, hdim, hstride, hdstStride, ha⟩

/-- The tables are built where the raw pass begins (R200, R256). -/
theorem decodeBuild_tablesBuilt (s : State) (j : Nat) :
    TablesBuilt s.regs s.params.gainTol s.regs.needed s (s.decodeBuild.builtNext j) :=
  tablesBuilt_of_built rfl rfl

/-- The raw pass gives each pixel what the tables of the snapshot give (R201, R259). -/
theorem decodeBuild_liveAt {k : Container} (hk : s.regs.p0.container = some k) (j : Nat) :
    (s.decodeBuild.builtNext j).liveAt k = s.builtAt k := by
  funext x y
  have hvalue (ch : Chan) (wide : Half) := rawValue_of_built (ch := ch) (decodeBuild_tablesBuilt s j) hk
    (s.regs.fetch_lt s.srcAt x y hk) wide
  unfold State.builtAt
  cases hch : s.regs.color x y with
  | none => exact Option.bind_eq_none_iff.2 fun ch h => by cases hch.symm.trans h
  | some ch => exact Option.bind_eq_some_iff.2 ⟨ch, hch, hvalue ch _⟩

end Build

/-- Settles O25: run to its raw pass, the command is at the start of a decode, and what the decode leaves is what the tables
as built give. -/
theorem bayerDecodeBuildDecodesTheFrame : Obligations.BayerDecodeBuildDecodesTheFrame := by
  unfold Obligations.BayerDecodeBuildDecodesTheFrame
  intro s hb hu hwf hsized hv ha
  obtain ⟨t, ht, hover, -, hc⟩ := (everyCommandEnds.1 (.bayerDecode true) s hb hu).resolve_right nofun
  obtain ⟨n, hrun⟩ := run_of_exec (i := .bayerDecode true) nofun hb hu hv ht
  obtain ⟨j, hreach⟩ := bayerBuild_reaches (a := s.decodeBuild) rfl rfl hsized rfl rfl
  obtain ⟨k, hk, hs⟩ := decodeBuild_rawPassStart hwf hv ha j
  obtain ⟨m, hm⟩ := hreach.rest hs.busy hrun hover.busy
  obtain ⟨hdone, ⟨herr, hcode, hl, hlv⟩, hstats, hresult⟩ := decodeDone hs rfl rfl hm hover.busy hc
  rw [decodeBuild_liveAt hk] at hstats hresult
  obtain ⟨hsrc, -, -, hregs, hirq, haddr, hparams, hhost, hreads, hoverrun⟩ := commandsLeaveTheHostSideAlone _ s t ht
  rw [hb, Bool.or_false] at hoverrun
  exact ⟨k, t, hk, ht, hover, ⟨hdone, herr, hc, hcode, rfl⟩,
    ⟨hparams, hregs, hirq, hoverrun, haddr, hsrc (.inl hb), hhost, hreads⟩, tablesBuilt_of_built hl hlv, hstats, hresult⟩

end Sys2Proof.Machine
end

section
/-! The averaging rule (46_demosaic, R281 to R284, R289 to R292): the members of a neighbourhood, the same-channel
neighbours of the RGGB pattern, the mean, uniform frames, and their obligations. -/

namespace Sys2Proof.Machine

/-! ### Neighbourhoods (R281, R289) -/

/-- The square of radius r, shifted by r, holds each of its pixels once. -/
theorem square_nodup (n x y : Nat) :
    ((List.range n).flatMap fun dy => (List.range n).map fun dx => (x + dx, y + dy)).Nodup := by
  rw [List.nodup_flatMap]
  refine ⟨fun dy _ => List.nodup_range.map fun a b h => ?_, List.nodup_range.imp fun {a b} hne p ha hb => ?_⟩
  · exact Nat.add_left_cancel (Prod.mk.inj h).1
  · obtain ⟨_, -, rfl⟩ := List.mem_map.1 ha
    obtain ⟨_, -, h⟩ := List.mem_map.1 hb
    exact hne (Nat.add_left_cancel (Prod.mk.inj h).2.symm)

theorem neighbours_nodup (w h r x y : Nat) : (neighbours w h r x y).Nodup := by
  refine (square_nodup (2 * r + 1) x y).filterMap fun q q' p hq hq' => ?_
  simp only [Option.mem_def, Option.ite_none_right_eq_some, Option.some.injEq] at hq hq'
  obtain ⟨⟨hx, hy, -⟩, rfl⟩ := hq
  obtain ⟨⟨hx', hy', -⟩, heq⟩ := hq'
  obtain ⟨h₁, h₂⟩ := Prod.mk.inj heq
  exact Prod.ext (by omega) (by omega)

/-- A pixel is in the neighbourhood of radius r iff it is another pixel of the frame, at most r away both ways. -/
theorem mem_neighbours {w h r x y : Nat} {p : Nat × Nat} :
    p ∈ neighbours w h r x y ↔
      p ≠ (x, y) ∧ p.1 < w ∧ p.2 < h ∧ x ≤ p.1 + r ∧ p.1 ≤ x + r ∧ y ≤ p.2 + r ∧ p.2 ≤ y + r := by
  simp only [neighbours, List.mem_filterMap, List.mem_flatMap, List.mem_map, List.mem_range,
    Option.ite_none_right_eq_some, Option.some.injEq]
  constructor
  · rintro ⟨_, ⟨dy, hdy, dx, hdx, rfl⟩, ⟨hx, hy, hw, hh, hne⟩, rfl⟩
    exact ⟨hne, hw, hh, by omega⟩
  · rintro ⟨hne, hw, hh, hx₁, hx₂, hy₁, hy₂⟩
    obtain ⟨px, py⟩ := p
    have hpx : x + (px + r - x) - r = px := by omega
    have hpy : y + (py + r - y) - r = py := by omega
    refine ⟨_, ⟨py + r - y, by omega, px + r - x, by omega, rfl⟩, ?_, by rw [hpx, hpy]⟩
    dsimp only
    rw [hpx, hpy]
    exact ⟨by omega, by omega, hw, hh, hne⟩

/-- A neighbourhood and its centre lie in a square of side 2r + 1. -/
theorem neighbours_length_lt (w h r x y : Nat) : (neighbours w h r x y).length < (2 * r + 1) * (2 * r + 1) := by
  have hnodup : ((x, y) :: neighbours w h r x y).Nodup :=
    List.nodup_cons.2 ⟨fun hm => (mem_neighbours.1 hm).1 rfl, neighbours_nodup w h r x y⟩
  have hsub : ((x, y) :: neighbours w h r x y).toFinset ⊆
      Finset.Icc (x - r) (x + r) ×ˢ Finset.Icc (y - r) (y + r) := fun p hp => by
    rw [Finset.mem_product, Finset.mem_Icc, Finset.mem_Icc]
    rcases List.mem_cons.1 (List.mem_toFinset.1 hp) with rfl | hp
    · omega
    · obtain ⟨-, -, -, hp⟩ := mem_neighbours.1 hp
      omega
  have hcard := Finset.card_le_card hsub
  rw [List.toFinset_card_of_nodup hnodup, List.length_cons, Finset.card_product, Nat.card_Icc, Nat.card_Icc] at hcard
  exact hcard.trans (Nat.mul_le_mul (by omega) (by omega))

/-- Settles O35: the neighbours are the square of radius r, clipped, each once; with the centre they are no more than the
square holds. -/
theorem neighbourhoodsAreClippedSquares : Obligations.NeighbourhoodsAreClippedSquares := by
  unfold Obligations.NeighbourhoodsAreClippedSquares
  exact fun w h r x y => ⟨fun _ => mem_neighbours, neighbours_nodup w h r x y,
    Nat.le_of_lt_succ (neighbours_length_lt w h 1 x y), Nat.le_of_lt_succ (neighbours_length_lt w h 2 x y)⟩

/-! ### Same-channel neighbours of the RGGB pattern (R292) -/

section Rggb

variable {c : CfgRegs} {x y px py : Nat} {k : Chan}

theorem CfgRegs.mem_sameChannel_neighbours {r : Nat} {p : Nat × Nat} :
    p ∈ c.sameChannel k (neighbours c.width c.height r x y) ↔
      p ∈ neighbours c.width c.height r x y ∧ c.color p.1 p.2 = some k := by
  rw [CfgRegs.sameChannel, List.mem_filter, beq_iff_eq]

theorem CfgRegs.sameChannel_nodup {r : Nat} : (c.sameChannel k (neighbours c.width c.height r x y)).Nodup :=
  (neighbours_nodup _ _ _ _ _).filter _

/-- The same-channel neighbours are those a list without repeats names, and as many. -/
theorem CfgRegs.sameChannel_named {r n : Nat} {ps : List (Nat × Nat)} (hps : ps.Nodup ∧ ps.length = n)
    (h : ∀ p, p ∈ neighbours c.width c.height r x y ∧ c.color p.1 p.2 = some k ↔ p ∈ ps) :
    (c.sameChannel k (neighbours c.width c.height r x y)).length = n ∧
      ∀ p, p ∈ c.sameChannel k (neighbours c.width c.height r x y) ↔ p ∈ ps := by
  have hnamed (p : Nat × Nat) : p ∈ c.sameChannel k (neighbours c.width c.height r x y) ↔ p ∈ ps :=
    CfgRegs.mem_sameChannel_neighbours.trans (h p)
  exact ⟨((List.perm_ext_iff_of_nodup CfgRegs.sameChannel_nodup hps.1).2 hnamed).length_eq.trans hps.2, hnamed⟩

/-- Red on even columns of even rows, blue on odd columns of odd rows, green elsewhere (R121). -/
theorem CfgRegs.color_rggb (h : c.patternId = 0) (px py : Nat) :
    c.color px py = some (if px % 2 ≠ py % 2 then .g else if px % 2 = 0 then .r else .b) := by
  rw [CfgRegs.color, CfgRegs.tileSize_two (.inl (by omega)), CfgRegs.label_of_bayer (by omega), h]
  rcases Nat.mod_two_eq_zero_or_one px with hx | hx <;> rcases Nat.mod_two_eq_zero_or_one py with hy | hy <;>
    rw [hx, hy] <;> rfl

theorem CfgRegs.color_rggb_green (h : c.patternId = 0) : c.color px py = some .g ↔ px % 2 ≠ py % 2 := by
  rw [CfgRegs.color_rggb h]
  split_ifs <;> simp <;> omega

theorem CfgRegs.color_rggb_red (h : c.patternId = 0) (px py : Nat) :
    c.color px py = some .r ↔ px % 2 = 0 ∧ py % 2 = 0 := by
  rw [CfgRegs.color_rggb h]
  split_ifs <;> simp <;> omega

theorem CfgRegs.color_rggb_blue (h : c.patternId = 0) (px py : Nat) :
    c.color px py = some .b ↔ px % 2 = 1 ∧ py % 2 = 1 := by
  rw [CfgRegs.color_rggb h]
  split_ifs <;> simp <;> omega

/-- At the corner the green neighbours are those to the right and below, and the diagonal one is blue. -/
theorem CfgRegs.rggb_corner (h : c.patternId = 0) (hw : 2 ≤ c.width) (hh : 2 ≤ c.height) :
    (c.sameChannel .g (neighbours c.width c.height 1 0 0)).length = 2 ∧
      (c.sameChannel .b (neighbours c.width c.height 1 0 0)).length = 1 := by
  refine ⟨(CfgRegs.sameChannel_named (ps := [(1, 0), (0, 1)]) (by decide) fun p => ?_).1,
    (CfgRegs.sameChannel_named (ps := [(1, 1)]) (by decide) fun p => ?_).1⟩
  · rw [mem_neighbours, CfgRegs.color_rggb_green h]
    simp only [List.mem_cons, List.not_mem_nil, or_false, Prod.ext_iff, ne_eq]
    omega
  · rw [mem_neighbours, CfgRegs.color_rggb_blue h]
    simp only [List.mem_cons, List.not_mem_nil, or_false, Prod.ext_iff, ne_eq]
    omega

section Interior

variable {a b : Nat} (hx : 1 ≤ x) (hxw : x + 2 ≤ c.width) (hy : 1 ≤ y) (hyh : y + 2 ≤ c.height)

include hx hxw hy hyh

/-- At an interior red or blue site the green neighbours are the orthogonal ones. -/
theorem CfgRegs.rggb_cross (h : c.patternId = 0) (hsite : x % 2 = y % 2) :
    (c.sameChannel .g (neighbours c.width c.height 1 x y)).length = 4 ∧
      ∀ p, p ∈ c.sameChannel .g (neighbours c.width c.height 1 x y) ↔
        p ∈ [(x - 1, y), (x + 1, y), (x, y - 1), (x, y + 1)] := by
  refine CfgRegs.sameChannel_named (by simp; omega) fun p => ?_
  rw [mem_neighbours, CfgRegs.color_rggb_green h]
  simp only [List.mem_cons, List.not_mem_nil, or_false, Prod.ext_iff, ne_eq]
  omega

/-- Where a channel lies on the columns and the rows of the other parity, its neighbours are the diagonal ones. -/
theorem CfgRegs.neighbours_diagonal (hk : ∀ px py, c.color px py = some k ↔ px % 2 = a ∧ py % 2 = b)
    (ha : a = (x + 1) % 2) (hb : b = (y + 1) % 2) :
    (c.sameChannel k (neighbours c.width c.height 1 x y)).length = 4 ∧
      ∀ p, p ∈ c.sameChannel k (neighbours c.width c.height 1 x y) ↔
        p ∈ [(x - 1, y - 1), (x + 1, y - 1), (x - 1, y + 1), (x + 1, y + 1)] := by
  refine CfgRegs.sameChannel_named (by simp) fun p => ?_
  rw [mem_neighbours, hk]
  simp only [List.mem_cons, List.not_mem_nil, or_false, Prod.ext_iff, ne_eq]
  omega

omit hy in
/-- Where a channel lies on the columns of the other parity and the rows of the pixel's own, its neighbours are those
beside the pixel. -/
theorem CfgRegs.neighbours_beside (hk : ∀ px py, c.color px py = some k ↔ px % 2 = a ∧ py % 2 = b)
    (ha : a = (x + 1) % 2) (hb : b = y % 2) :
    (c.sameChannel k (neighbours c.width c.height 1 x y)).length = 2 ∧
      ∀ p, p ∈ c.sameChannel k (neighbours c.width c.height 1 x y) ↔ p ∈ [(x - 1, y), (x + 1, y)] := by
  refine CfgRegs.sameChannel_named (by simp) fun p => ?_
  rw [mem_neighbours, hk]
  simp only [List.mem_cons, List.not_mem_nil, or_false, Prod.ext_iff, ne_eq]
  omega

omit hx in
/-- Where a channel lies on the columns of the pixel's own parity and the rows of the other, its neighbours are those above
and below. -/
theorem CfgRegs.neighbours_above (hk : ∀ px py, c.color px py = some k ↔ px % 2 = a ∧ py % 2 = b)
    (ha : a = x % 2) (hb : b = (y + 1) % 2) :
    (c.sameChannel k (neighbours c.width c.height 1 x y)).length = 2 ∧
      ∀ p, p ∈ c.sameChannel k (neighbours c.width c.height 1 x y) ↔ p ∈ [(x, y - 1), (x, y + 1)] := by
  refine CfgRegs.sameChannel_named (by simp) fun p => ?_
  rw [mem_neighbours, hk]
  simp only [List.mem_cons, List.not_mem_nil, or_false, Prod.ext_iff, ne_eq]
  omega

end Interior

end Rggb

/-- Settles O36: the sites of the tile by parity, and at each the neighbours of the parity a channel lies on. -/
theorem rggbNeighbourCounts : Obligations.RggbNeighbourCounts := by
  unfold Obligations.RggbNeighbourCounts
  intro c x y h found count cross diagonal beside above
  have hred := CfgRegs.color_rggb_red h
  have hblue := CfgRegs.color_rggb_blue h
  refine ⟨fun hx hxw hy hyh => ⟨fun hx0 hy0 => ?_, fun hx1 hy1 => ?_, fun hx1 hy0 => ?_, fun hx0 hy1 => ?_⟩, ?_⟩
  · obtain ⟨hgc, hg⟩ := CfgRegs.rggb_cross hx hxw hy hyh h (by omega)
    obtain ⟨hbc, hb⟩ := CfgRegs.neighbours_diagonal hx hxw hy hyh hblue (by omega) (by omega)
    exact ⟨hgc, hbc, hg, hb⟩
  · obtain ⟨hgc, hg⟩ := CfgRegs.rggb_cross hx hxw hy hyh h (by omega)
    obtain ⟨hrc, hr⟩ := CfgRegs.neighbours_diagonal hx hxw hy hyh hred (by omega) (by omega)
    exact ⟨hgc, hrc, hg, hr⟩
  · obtain ⟨hrc, hr⟩ := CfgRegs.neighbours_beside hx hxw hyh hred (by omega) (by omega)
    obtain ⟨hbc, hb⟩ := CfgRegs.neighbours_above hxw hy hyh hblue (by omega) (by omega)
    exact ⟨hrc, hbc, hr, hb⟩
  · obtain ⟨hbc, hb⟩ := CfgRegs.neighbours_beside hx hxw hyh hblue (by omega) (by omega)
    obtain ⟨hrc, hr⟩ := CfgRegs.neighbours_above hxw hy hyh hred (by omega) (by omega)
    exact ⟨hbc, hrc, hb, hr⟩
  · rintro rfl rfl hw hh
    exact CfgRegs.rggb_corner h hw hh

/-! ### The mean (R282 to R284, R290) -/

theorem CfgRegs.averaged_near {c : CfgRegs} {x y : Nat} {k : Chan}
    (h : c.sameChannel k (neighbours c.width c.height 1 x y) ≠ [] ∨ c.tileSize = 2) :
    c.averaged x y k = c.sameChannel k (neighbours c.width c.height 1 x y) :=
  if_neg fun ⟨hnone, hfour⟩ => h.elim (fun hne => hne hnone) fun htwo => by omega

theorem CfgRegs.averaged_wide {c : CfgRegs} {x y : Nat} {k : Chan}
    (h : c.sameChannel k (neighbours c.width c.height 1 x y) = []) (h4 : c.tileSize = 4) :
    c.averaged x y k = c.sameChannel k (neighbours c.width c.height 2 x y) := if_pos ⟨h, h4⟩

/-- Settles O37: a missing channel is the mean over the pixels it is averaged over, those of the near or the wide
neighbourhood. -/
theorem averagingRule : Obligations.AveragingRule := by
  unfold Obligations.AveragingRule
  refine ⟨fun c rd x y k => ?_, CfgRegs.demosaicPixel_lt⟩
  have hmissing := c.missing_eq rd x y k
  refine ⟨fun hne => ?_, fun hnone h2 => ?_, fun hnone h4 hne => ?_, fun hnone h4 hnone' => ?_, fun own => ?_⟩
  · rw [CfgRegs.averaged_near (.inl hne)] at hmissing
    exact hmissing.trans (if_neg hne)
  · rw [CfgRegs.averaged_near (.inr h2)] at hmissing
    exact hmissing.trans (if_pos hnone)
  · rw [CfgRegs.averaged_wide hnone h4] at hmissing
    exact hmissing.trans (if_neg hne)
  · rw [CfgRegs.averaged_wide hnone h4] at hmissing
    exact hmissing.trans (if_pos hnone')
  · rw [CfgRegs.demosaicPixel_get, CfgRegs.demosaicChan]

/-! ### Uniform frames (R291) -/

section Uniform

variable {c : CfgRegs} {rd : Nat → Nat → Chan → Nat} {const : Chan → Nat} {x y : Nat} {k own : Chan}

/-- The mean of a constant is the constant. -/
theorem sum_map_div_length_const {α : Type} {l : List α} {f : α → Nat} {b : Nat} (hl : l ≠ [])
    (h : ∀ a ∈ l, f a = b) : (l.map f).sum / l.length = b := by
  rw [List.map_congr_left h, List.map_const', List.sum_replicate, smul_eq_mul]
  exact Nat.mul_div_cancel_left b (List.length_pos_iff.2 hl)

/-- A same-channel neighbour resolves a missing channel: a near one always, one two away in a 4x4 pattern (R283, R284). -/
theorem CfgRegs.averaged_ne_nil {px py r : Nat} (hr : r = 1 ∨ r = 2 ∧ c.tileSize = 4)
    (hp : (px, py) ∈ c.sameChannel k (neighbours c.width c.height r x y)) : c.averaged x y k ≠ [] := by
  by_cases hnear : c.sameChannel k (neighbours c.width c.height 1 x y) = []
  · rcases hr with rfl | ⟨rfl, h4⟩
    · rw [hnear] at hp
      cases hp
    · rw [CfgRegs.averaged_wide hnear h4]
      exact List.ne_nil_of_mem hp
  · rwa [CfgRegs.averaged_near (.inl hnear)]

/-- Of either parity a column of a frame two wide is at most one away. -/
theorem exists_near_parity {w q : Nat} (hw : 2 ≤ w) (hx : x < w) (hq : q < 2) :
    ∃ px, px < w ∧ x ≤ px + 1 ∧ px ≤ x + 1 ∧ px % 2 = q := by
  by_cases hpar : x % 2 = q
  · exact ⟨x, by omega⟩
  · by_cases hinner : x + 1 < w
    · exact ⟨x + 1, by omega⟩
    · exact ⟨x - 1, by omega⟩

/-- In either half of a 4x4 tile a column of a frame three wide is at most two away. -/
theorem exists_near_half {w q : Nat} (hw : 3 ≤ w) (hx : x < w) (hq : q < 2) :
    ∃ px, px < w ∧ x ≤ px + 2 ∧ px ≤ x + 2 ∧ px % 4 / 2 = q := by
  by_cases hhalf : x % 4 / 2 = q
  · exact ⟨x, by omega⟩
  · by_cases hstart : x < 2
    · exact ⟨2, by omega⟩
    · exact ⟨x - 2, by omega⟩

/-- Every built-in 2x2 pattern has all three channels (R121). -/
theorem exists_bayer2 : ∀ id < 4, ∀ k : Chan, ∃ row < 2, ∃ col < 2, bayer2 id row col = k := by
  intro id hid k
  interval_cases id <;> cases k <;> decide

/-- A missing channel of a built-in pattern is resolved in a frame that is not too small (R291). -/
theorem CfgRegs.averaged_ne_nil_of_builtin (hp : c.hasPixel x y) (hown : c.color x y = some own) (hk : k ≠ own)
    (hsize : c.patternId ≤ 3 ∧ 2 ≤ c.width ∧ 2 ≤ c.height ∨
      4 ≤ c.patternId ∧ c.patternId ≤ 7 ∧ 3 ≤ c.width ∧ 3 ≤ c.height) : c.averaged x y k ≠ [] := by
  have hmem {px py r : Nat} (hcol : c.color px py = some k) (hn : px < c.width ∧ py < c.height ∧ x ≤ px + r ∧
      px ≤ x + r ∧ y ≤ py + r ∧ py ≤ y + r) : (px, py) ∈ c.sameChannel k (neighbours c.width c.height r x y) := by
    refine CfgRegs.mem_sameChannel_neighbours.2 ⟨mem_neighbours.2 ⟨?_, hn⟩, hcol⟩
    rintro ⟨⟩
    exact hk (Option.some.inj (hcol.symm.trans hown))
  rcases hsize with ⟨hid, hw, hh⟩ | ⟨hid, hid', hw, hh⟩
  · obtain ⟨row, hrow, col, hcol, hlabel⟩ := exists_bayer2 c.patternId (by omega) k
    obtain ⟨px, hpxw, hpxlo, hpxhi, hpx⟩ := exists_near_parity hw hp.1 hcol
    obtain ⟨py, hpyh, hpylo, hpyhi, hpy⟩ := exists_near_parity hh hp.2 hrow
    have hcolor : c.color px py = some k := by
      rw [CfgRegs.color, CfgRegs.tileSize_two (.inl (by omega)), CfgRegs.label_of_bayer (by omega), hpx, hpy,
        hlabel]
    exact CfgRegs.averaged_ne_nil (.inl rfl) (hmem hcolor ⟨hpxw, hpyh, hpxlo, hpxhi, hpylo, hpyhi⟩)
  · obtain ⟨row, hrow, col, hcol, hlabel⟩ := exists_bayer2 (c.patternId - 4) (by omega) k
    obtain ⟨px, hpxw, hpxlo, hpxhi, hpx⟩ := exists_near_half hw hp.1 hcol
    obtain ⟨py, hpyh, hpylo, hpyhi, hpy⟩ := exists_near_half hh hp.2 hrow
    have h4 : c.tileSize = 4 := CfgRegs.tileSize_four (by omega)
    have hcolor : c.color px py = some k := by
      rw [CfgRegs.color, h4, CfgRegs.label_of_quad hid (by omega), hpx, hpy, hlabel]
    exact CfgRegs.averaged_ne_nil (.inr ⟨rfl, h4⟩) (hmem hcolor ⟨hpxw, hpyh, hpxlo, hpxhi, hpylo, hpyhi⟩)

end Uniform

/-- Settles O38: a mean of one constant is that constant; every built-in pattern has each channel near; and a channel found
nowhere is 0. -/
theorem uniformFrameStaysUniform : Obligations.UniformFrameStaysUniform := by
  unfold Obligations.UniformFrameStaysUniform
  intro c rd const huniform
  refine ⟨fun r x y k m hm => ?_, fun x y k own hp hown hsize => ?_, fun x y k own hown hk hnear hwide => ?_⟩
  · rw [CfgRegs.mean, Option.ite_none_left_eq_some] at hm
    obtain ⟨hne, hm⟩ := hm
    rw [← Option.some.inj hm]
    refine sum_map_div_length_const hne fun p hp => ?_
    obtain ⟨hin, hcolor⟩ := CfgRegs.mem_sameChannel hp
    exact huniform _ _ _ hin hcolor
  · rw [CfgRegs.demosaicPixel_get, CfgRegs.demosaicChan]
    split_ifs with hk
    · rw [hk]
      exact huniform x y own hp hown
    · have hne := CfgRegs.averaged_ne_nil_of_builtin hp hown hk hsize
      rw [CfgRegs.missing_eq, if_neg hne]
      refine sum_map_div_length_const hne fun p hp => ?_
      obtain ⟨hin, hcolor⟩ := CfgRegs.mem_averaged hp
      exact huniform _ _ _ hin hcolor
  · rw [CfgRegs.demosaicPixel_get, CfgRegs.demosaicChan, if_neg hk, CfgRegs.missing, hnear]
    dsimp only
    split_ifs with h4
    · rw [hwide h4, Option.getD_none]
    · rfl

end Sys2Proof.Machine
end

section
/-! DEMOSAIC (46_demosaic, R280, R285 to R288, R293): the command from its start to its end, and a demosaic pass that a
cancel request comes to at any step, with their obligations. -/

namespace Sys2Proof.Machine

/-! ### What a demosaic pass leaves in the destination space -/

/-- Memories in canonical form that read alike are the same. -/
theorem Memory.ext_of_wf {m m' : Memory} (h : Memory.wf m = true) (h' : Memory.wf m' = true)
    (hread : ∀ a, Memory.read m a = Memory.read m' a) : m = m' := by
  induction m generalizing m' with
  | nil =>
    cases m' with
    | nil => rfl
    | cons c m' =>
      obtain ⟨hv, -, -⟩ := (Memory.wf_cons c.1 c.2 m').1 h'
      have hfirst := hread c.1
      rw [Memory.read, Memory.read, if_pos rfl] at hfirst
      exact absurd hfirst.symm hv
  | cons c m ih =>
    obtain ⟨a, v⟩ := c
    obtain ⟨hv, hlt, hwf⟩ := (Memory.wf_cons a v m).1 h
    have hfirst := hread a
    rw [Memory.read, if_pos rfl] at hfirst
    cases m' with
    | nil => exact absurd hfirst hv
    | cons c' m' =>
      obtain ⟨a', v'⟩ := c'
      obtain ⟨hv', hlt', hwf'⟩ := (Memory.wf_cons a' v' m').1 h'
      have hfirst' := hread a'
      rw [Memory.read, Memory.read, if_pos rfl] at hfirst'
      obtain rfl : a = a' := by
        by_contra hne
        rw [if_neg (Ne.symm hne)] at hfirst'
        rw [Memory.read, if_neg hne] at hfirst
        rcases Nat.lt_or_gt_of_ne hne with hl | hl
        · rw [Memory.read_of_lt fun d hd => hl.trans (hlt' d hd)] at hfirst
          exact hv hfirst
        · rw [Memory.read_of_lt fun d hd => hl.trans (hlt d hd)] at hfirst'
          exact hv' hfirst'.symm
      rw [if_pos rfl] at hfirst'
      rw [hfirst', ih hwf hwf' fun b => ?_]
      by_cases hb : b = a
      · rw [hb, Memory.read_of_lt hlt, Memory.read_of_lt hlt']
      · simpa [Memory.read, hb] using hread b

section Result

variable {c : CfgRegs} {before after after' : Memory} {x y : Nat}

/-- The bytes past the channels of a packed pixel are opaque alpha (R222, R223). -/
theorem CfgRegs.byteOf_pixelWord_alpha {v : Rgb} (hv : ∀ k, v.get k < 2 ^ c.depth) {i : Nat}
    (hlo : 3 * (c.bpp / 4) ≤ i) (hhi : i < c.bpp) : byteOf (c.pixelWord v) i = 0xFF := by
  cases hf : c.bgra64 with
  | false =>
    have hbpp : c.bpp = 4 := by simp [CfgRegs.bpp, hf]
    obtain ⟨-, -, -, halpha⟩ := CfgRegs.bytes_pixelWord_bgra32 hf hv
    obtain rfl : i = 3 := by omega
    exact halpha
  | true =>
    have hbpp : c.bpp = 8 := by simp [CfgRegs.bpp, hf]
    obtain ⟨-, -, -, halpha⟩ := CfgRegs.halves_pixelWord_bgra64 hf hv
    refine BitVec.eq_of_toNat_eq ((byteOf_toNat _ _).trans (?_ : _ = 255))
    obtain rfl | rfl : i = 6 ∨ i = 7 := by omega
    · omega
    · omega

/-- A demosaiced pixel keeps its own channel, and its alpha is opaque (R293). -/
theorem DemosaicResult.own_and_alpha (h : DemosaicResult c before after) (hp : c.hasPixel x y) :
    (∃ own, c.color x y = some own ∧ c.chanIn after x y own = c.chanIn before x y own) ∧
      ∀ i, 3 * (c.bpp / 4) ≤ i → i < c.bpp → Memory.read after (c.dstAddr x y + i) = 0xFF := by
  obtain ⟨own, hown, hpix⟩ := h.written x y hp
  have hlt := c.demosaicPixel_lt before own x y
  refine ⟨⟨own, hown, ?_⟩, fun i hlo hhi => (hpix i hhi).trans (CfgRegs.byteOf_pixelWord_alpha hlt hlo hhi)⟩
  rw [CfgRegs.chanIn_of_pixelIs hlt hpix, CfgRegs.demosaicPixel_get, CfgRegs.demosaicChan, if_pos rfl]

/-- What a finished demosaic pass leaves is fixed by what it began with (R287). -/
theorem DemosaicResult.unique (h : DemosaicResult c before after) (h' : DemosaicResult c before after')
    (hwf : Memory.wf after = true) (hwf' : Memory.wf after' = true) : after = after' := by
  refine Memory.ext_of_wf hwf hwf' fun a => ?_
  by_cases hin : ∃ x y, c.hasPixel x y ∧ c.pixelHas x y a
  · obtain ⟨x, y, hp, hlo, hhi⟩ := hin
    obtain ⟨own, hown, hpix⟩ := h.written x y hp
    obtain ⟨own', hown', hpix'⟩ := h'.written x y hp
    cases hown.symm.trans hown'
    obtain ⟨i, rfl⟩ := Nat.exists_eq_add_of_le hlo
    have hi : i < c.bpp := by omega
    rw [hpix i hi, hpix' i hi]
  · have hout (x y : Nat) (hp : c.hasPixel x y) : ¬c.pixelHas x y a := fun ha => hin ⟨x, y, hp, ha⟩
    rw [h.untouched a hout, h'.untouched a hout]

end Result

/-! ### The command (R280) -/

section Command

variable {s t : State} {n : Nat}

/-- DEMOSAIC as accepted on an idle block with a valid configuration (R140, R144). -/
abbrev State.demosaicLaunched (s : State) : State :=
  (accept (encode .demosaic) s).launched none (planOf .demosaic (accept (encode .demosaic) s))

/-- The state in which DEMOSAIC, its verdict reported, begins its pass (R144, R146). -/
abbrev State.demosaicBegun (s : State) : State :=
  ({ s.demosaicLaunched with pos := .between, ticks := 1 } : State).demosaicNext

/-- On a valid configuration the pass finds what it relies on (R144). -/
theorem demosaicBegun_start (hwf : Memory.wf s.dst = true) (hv : Valid .demosaic s) :
    DemosaicPassStart s.demosaicBegun := by
  have hok := checksOf_pass hv
  simp only [checksOf, demosaicChecks, List.forall_mem_cons] at hok
  obtain ⟨hdim, hdst, hstride, hpattern, -⟩ := hok
  exact ⟨rfl, rfl, rfl, rfl, rfl, rfl, ⟨rfl, rfl⟩, nofun, hwf, CfgRegs.color_ne_none hpattern, hdst, hdim, hstride⟩

theorem demosaicLaunched_reaches (s : State) : Reaches s.demosaicLaunched s.demosaicBegun := by
  have hmove : engineMove s.demosaicLaunched = .next { s.demosaicLaunched with pos := .between } := rfl
  exact (Reaches.of_move rfl hmove rfl).trans (nextPass_reaches rfl rfl rfl)

/-- A demosaic pass not cancelled ends its command with the destination space in canonical form. -/
theorem demosaicPass_dstWf (hs : DemosaicPassStart s) (hrun : runEngine n s = .next t) (hover : t.busy = false)
    (hc : t.cancelled = false) : Memory.wf t.dst = true := by
  obtain ⟨u, m, hu, hm⟩ := demosaicPass_ends hs hrun hover hc
  have hk := hu.frame.kept
  obtain rfl := eq_finish_of_last (hk.busy.trans hs.busy) hu.pos (hk.todo.trans hs.todo) hm hover
  rw [finish_dst]
  exact State.settledDst_wf hu.frame.dstWf

/-- A valid DEMOSAIC, undisturbed, runs its pass to the end. -/
theorem execDemosaic_done (hb : s.busy = false) (hu : s.Undisturbed) (hwf : Memory.wf s.dst = true)
    (hv : Valid .demosaic s) : ∃ t, exec .demosaic s = .next t ∧ CommandOver (encode .demosaic) s t ∧
      t.cancelled = false ∧ DemosaicDone s.demosaicBegun t ∧ Memory.wf t.dst = true := by
  obtain ⟨t, ht, hover, -, hc⟩ := (everyCommandEnds.1 .demosaic s hb hu).resolve_right nofun
  obtain ⟨n, hrun⟩ := run_of_exec (i := .demosaic) nofun hb hu hv ht
  have hs := demosaicBegun_start hwf hv
  obtain ⟨m, hm⟩ := (demosaicLaunched_reaches s).rest hs.busy hrun hover.busy
  exact ⟨t, ht, hover, hc, demosaicDone hs hm hover.busy hc, demosaicPass_dstWf hs hm hover.busy hc⟩

end Command

/-- Settles O32: the command run to its pass, and what the pass leaves; own channels and alpha are read off the pixels. -/
theorem demosaicWritesTheFrame : Obligations.DemosaicWritesTheFrame := by
  unfold Obligations.DemosaicWritesTheFrame
  intro s hb hu hwf hv
  obtain ⟨t, ht, hover, hc, ⟨hdone, ⟨htrunc, herr, hcode, hl, hlv⟩, hstats, hres, hprog⟩, -⟩ :=
    execDemosaic_done hb hu hwf hv
  obtain ⟨hsrc, -, -, hregs, hirq, haddr, hparams, hhost, hreads, hoverrun⟩ := commandsLeaveTheHostSideAlone _ s t ht
  rw [hb, Bool.or_false] at hoverrun
  exact ⟨t, ht, hover, ⟨hdone, herr, hc, hcode, htrunc⟩,
    ⟨hparams, hregs, hirq, hoverrun, haddr, hsrc (.inl hb), hhost, hreads⟩, ⟨hl, hlv, hstats⟩, hres, hprog,
    fun x y hp => hres.own_and_alpha hp⟩

/-- Settles O33: both runs leave what the contents before them fix. -/
theorem demosaicResultIsScheduleFree : Obligations.DemosaicResultIsScheduleFree := by
  unfold Obligations.DemosaicResultIsScheduleFree
  intro s picks workers hb hu hwf hv
  obtain ⟨t, ht, -, -, h, hdst⟩ := execDemosaic_done hb hu hwf hv
  obtain ⟨t', ht', -, -, h', hdst'⟩ :=
    execDemosaic_done (s := { s with sched := picks, params := { s.params with workers := workers } }) hb hu hwf hv
  exact ⟨t, t', ht, ht', h'.result.unique h.result hdst' hdst,
    BitVec.eq_of_toNat_eq (h'.progress.trans h.progress.symm)⟩

/-! ### A demosaic pass that a cancel request comes to (R288) -/

section Cancelled

variable {n m : Nat} {s s₁ t u v : State}

/-- A command in its demosaic pass, the last one; past it; or ended by it. -/
inductive DemosaicWatched (s u : State) : Prop
  | run (h : DemosaicRun s u)
  | passOver (h : DemosaicOver s u)
  | cancelled (h : DemosaicCancelled s u)
  | done (w : State) (h : DemosaicOver s w) (hu : u = finish .done w)

theorem engineStep_demosaicWatched (hs : DemosaicPassStart s) (hu : u.busy = true) (h : DemosaicWatched s u)
    (hv : engineStep u = .next v) : DemosaicWatched s v := by
  cases h with
  | run h =>
    rcases engineStep_demosaicRun hs h hv with h | h | h
    · exact .run h
    · exact .passOver h
    · exact .cancelled h
  | passOver h =>
    have hmove : engineMove u = .next (finish .done u) := by
      simp only [engineMove, h.pos, stepBetween_last (h.frame.kept.todo.trans hs.todo)]
    cases (engineStep_finish hmove).symm.trans hv
    exact .done u h rfl
  | cancelled h =>
    obtain ⟨w, upTo, -, rfl⟩ := h
    cases (finish_busy _ _).symm.trans hu
  | done w h heq =>
    subst heq
    cases (finish_busy _ _).symm.trans hu

theorem requestCancel_passKept (u : State) : PassKept u (requestCancel u) := by constructor <;> simp

theorem requestCancel_demosaicWatched (h : DemosaicWatched s u) : DemosaicWatched s (requestCancel u) := by
  have hk := requestCancel_passKept u
  have hsame : (requestCancel u).dst = u.dst ∧ (requestCancel u).overwritten = u.overwritten ∧
      (requestCancel u).srcRead = u.srcRead := by simp
  cases h with
  | run h => exact .run (h.goOn hk (by simp) (by simp) (by simp) hsame)
  | passOver h =>
    exact .passOver
      ⟨by simpa using h.pos, h.frame.goOn hk hsame, by simpa using h.stats, by simpa using h.progress⟩
  | cancelled h =>
    obtain ⟨w, upTo, hat, rfl⟩ := h
    rw [requestCancel_idle (finish_busy _ _)]
    exact .cancelled ⟨w, upTo, hat, rfl⟩
  | done w h heq =>
    subst heq
    rw [requestCancel_idle (finish_busy _ _)]
    exact .done w h rfl

/-- Once the command has ended, its demosaic pass was cancelled or is done. -/
theorem demosaicWatched_ended (hs : DemosaicPassStart s) (h₁ : runEngine n s = .next s₁)
    (h : runEngine m (writeCtrl 1 s₁) = .next t) (hb : t.busy = false) :
    DemosaicCancelled s t ∨ ∃ w, DemosaicOver s w ∧ t = finish .done w := by
  have hlast : DemosaicWatched s t := runEngine_cancelled_induct (fun _ _ => engineStep_demosaicWatched hs)
    (fun _ => requestCancel_demosaicWatched) (.run (demosaicRun_start hs)) h₁ h
  cases hlast with
  | run h => cases (h.busy hs).symm.trans hb
  | passOver h => cases (h.frame.kept.busy.trans hs.busy).symm.trans hb
  | cancelled h => exact .inl h
  | done w h heq => exact .inr ⟨w, h, heq⟩

theorem State.demosaicAt_written {x y : Nat} {after : Memory}
    (h : ∃ v, s.demosaicAt x y = some v ∧ s.cfg.pixelIs after x y v) :
    ∃ own, s.cfg.color x y = some own ∧
      s.cfg.pixelIs after x y (s.cfg.demosaicPixel (s.cfg.chanIn s.dst) own x y) := by
  obtain ⟨v, hv, hpix⟩ := h
  obtain ⟨own, hown, rfl⟩ := Option.map_eq_some_iff.1 hv
  exact ⟨own, hown, hpix⟩

end Cancelled

/-- Settles O39: the pass watched through the cancel request ends cancelled, each row written up to some column, or done,
each row written whole. -/
theorem cancelledDemosaicWritesRowPrefixes : Obligations.CancelledDemosaicWritesRowPrefixes := by
  unfold Obligations.CancelledDemosaicWritesRowPrefixes
  intro n m s s₁ t hs h₁ h hb
  rcases demosaicWatched_ended hs h₁ h hb with ⟨u, upTo, hat, rfl⟩ | ⟨u, hover, rfl⟩
  · obtain ⟨hdst, -⟩ := hat.frame.finish hs.unraced .cancelled
    rw [hdst]
    refine ⟨upTo, hat.upTo_le, fun x y hp hx => State.demosaicAt_written (hat.frame.painted.written x y ⟨hp, hx⟩),
      fun a ha => hat.frame.painted.untouched a fun x y hxy => ha x y hxy.1 hxy.2, ?_, .inl rfl⟩
    rw [finish_progress, hat.progress, CfgRegs.countedRows]
    simp [beq_eq_decide]
  · obtain ⟨hdst, -⟩ := hover.frame.finish hs.unraced .done
    rw [hdst]
    refine ⟨fun _ => s.cfg.width, fun _ => le_rfl,
      fun x y hp _ => State.demosaicAt_written (hover.frame.painted.written x y hp),
      fun a ha => hover.frame.painted.untouched a fun x y hp => ha x y hp hp.1, ?_, .inr ⟨rfl, fun _ _ => rfl⟩⟩
    rw [finish_progress, hover.progress]
    simp

end Sys2Proof.Machine
end

section
/-! Validation and the interrupt (60_exceptions): when each check fails, which check a verdict reports, the end of a
command that fails its validation, and IRQ; with the obligations of this family. -/

namespace Sys2Proof.Machine

/-! ### When each check fails (R301) -/

theorem CfgRegs.badDim_iff (c : CfgRegs) : c.badDim = true ↔ c.width = 0 ∨ c.height = 0 := by
  simp [CfgRegs.badDim]

/-- On unbounded integers the stride that `badDst` adds on both sides falls out. -/
theorem CfgRegs.badDst_iff (c : CfgRegs) (n : Nat) : c.badDst n = true ↔
    (n : Int) < c.dstBase.toNat + ((c.height : Int) - 1) * c.dstStride.toNat +
      c.width * (if c.bgra64 then 8 else 4) := by
  have hbpp : (c.bpp : Int) = if c.bgra64 then 8 else 4 := by unfold CfgRegs.bpp; split <;> rfl
  rw [CfgRegs.badDst, decide_eq_true_eq, ← hbpp, sub_mul, one_mul, ← Int.natCast_mul, ← Int.natCast_mul]
  omega

theorem CfgRegs.badSrc_iff (c : CfgRegs) (n : Nat) : c.badSrc n = true ↔ n < c.srcSize.toNat := decide_eq_true_iff

theorem PlaneRegs.reservedLayout_iff (p : PlaneRegs) : p.reservedLayout = true ↔ p.layout = 3 := beq_iff_eq

theorem PlaneRegs.notYuvLayout_iff (p : PlaneRegs) : p.notYuvLayout = true ↔ p.layout = 2 ∨ p.layout = 3 := by
  simp [PlaneRegs.notYuvLayout]

/-- The depths a MIPI group has (R175). -/
theorem mipiGeom_eq_none (b : Nat) : mipiGeom b = none ↔ ¬(b = 10 ∨ b = 12 ∨ b = 14) := by
  unfold mipiGeom
  split_ifs <;> simp [*]

/-- A plane has a container exactly where its depth is legal for its layout (R122). -/
theorem PlaneRegs.badBits_iff (p : PlaneRegs) : p.badBits = true ↔
    ¬(p.layout = 0 ∧ p.bits = 8 ∨ p.layout = 1 ∧ 9 ≤ p.bits ∧ p.bits ≤ 16 ∨
      p.layout = 2 ∧ (p.bits = 10 ∨ p.bits = 12 ∨ p.bits = 14)) := by
  rw [PlaneRegs.badBits, beq_iff_eq, PlaneRegs.container]
  by_cases h0 : p.layout = 0
  · simp [h0]
  by_cases h1 : p.layout = 1
  · simp [h1]
  by_cases h2 : p.layout = 2
  · simp [h2, mipiGeom_eq_none]
  · simp [h0, h1, h2]

theorem CfgRegs.badLvlBits_iff (c : CfgRegs) : c.badLvlBits = true ↔ c.p0.bits < 9 ∨ 16 < c.p0.bits := by
  rw [CfgRegs.badLvlBits, Bool.not_eq_true', decide_eq_false_iff_not]
  omega

theorem PlaneRegs.shortStride_iff (p : PlaneRegs) (cb w : Nat) :
    p.shortStride cb w = true ↔ p.pixelStride < cb ∨ p.rowStride < p.pixelStride * w := by
  simp [PlaneRegs.shortStride]

/-- A row of a MIPI plane holds whole groups (R175, R176). -/
theorem PlaneRegs.badStride_mipi {p : PlaneRegs} (h : p.layout = 2) (w : Nat) : p.badStride w = true ↔
    p.bits = 10 ∧ p.rowStride < 5 * ((w + 3) / 4) ∨ p.bits = 12 ∧ p.rowStride < 3 * ((w + 1) / 2) ∨
      p.bits = 14 ∧ p.rowStride < 7 * ((w + 3) / 4) := by
  rw [PlaneRegs.badStride, if_neg (by omega), if_neg (by omega), if_pos h]
  cases hg : mipiGeom p.bits with
  | none =>
    have hbits := (mipiGeom_eq_none p.bits).1 hg
    simp only [not_or] at hbits
    simp [hbits]
  | some g =>
    dsimp only
    rw [decide_eq_true_eq]
    obtain ⟨hb, rfl⟩ | ⟨hb, rfl⟩ | ⟨hb, rfl⟩ := mipiGeom_cases hg <;> simp [hb, ceilDiv]

theorem PlaneRegs.badStride_iff (p : PlaneRegs) (w : Nat) : p.badStride w = true ↔
    p.layout = 0 ∧ (p.pixelStride < 1 ∨ p.rowStride < p.pixelStride * w) ∨
    p.layout = 1 ∧ (p.pixelStride < 2 ∨ p.rowStride < p.pixelStride * w) ∨
    p.layout = 2 ∧ p.bits = 10 ∧ p.rowStride < 5 * ((w + 3) / 4) ∨
    p.layout = 2 ∧ p.bits = 12 ∧ p.rowStride < 3 * ((w + 1) / 2) ∨
    p.layout = 2 ∧ p.bits = 14 ∧ p.rowStride < 7 * ((w + 3) / 4) := by
  by_cases h2 : p.layout = 2
  · simp [PlaneRegs.badStride_mipi h2, h2]
  unfold PlaneRegs.badStride
  split_ifs with h0 h1
  · simp [PlaneRegs.shortStride_iff, h0]
  · simp [PlaneRegs.shortStride_iff, h1]
  · simp [h0, h1, h2]

theorem CfgRegs.badDstStride_iff (c : CfgRegs) :
    c.badDstStride = true ↔ c.dstStride.toNat < c.width * (if c.bgra64 then 8 else 4) := decide_eq_true_iff

theorem CfgRegs.badLevel_iff (c : CfgRegs) (b : Nat) :
    c.badLevel b = true ↔ c.lvlEn = true ∧ ¬(c.black < c.white ∧ c.white ≤ 2 ^ b - 1) := by
  rw [CfgRegs.badLevel, Bool.and_eq_true, Bool.not_eq_true', decide_eq_false_iff_not]

theorem CfgRegs.gainCode_eq_zero (c : CfgRegs) (k : Chan) : c.gainCode k = 0 ↔ c.gain.get k = 0 :=
  BitVec.toNat_inj (y := 0)

theorem Chan.exists_iff {P : Chan → Prop} : (∃ k, P k) ↔ P .r ∨ P .g ∨ P .b := by
  refine ⟨fun ⟨k, hk⟩ => ?_, ?_⟩
  · cases k with
    | r => exact .inl hk
    | g => exact .inr (.inl hk)
    | b => exact .inr (.inr hk)
  · rintro (h | h | h) <;> exact ⟨_, h⟩

theorem CfgRegs.badGain_iff (c : CfgRegs) : c.badGain = true ↔ ∃ k, c.gain.get k = 0 := by
  simp only [CfgRegs.badGain, Bool.or_eq_true, beq_iff_eq, CfgRegs.gainCode_eq_zero, Chan.exists_iff, or_assoc]

/-- Only the code 3 is reserved among the labels of two bits (R120). -/
theorem labelCode_eq_none {n : Nat} (h : n < 4) : labelCode n = none ↔ n = 3 := by
  unfold labelCode
  split_ifs <;> simp <;> omega

theorem CfgRegs.label_eq_none_of_custom {c : CfgRegs} (h : c.patternId = 8 ∨ c.patternId = 9) (r k : Nat) :
    c.label r k = none ↔ field c.patternTile (8 * r + 2 * k) 2 = 3 := by
  rw [CfgRegs.label_of_custom h]
  exact labelCode_eq_none (Nat.mod_lt _ (by decide))

/-- CFG_PATTERN fails where the id is reserved or the active tile has a reserved label (R301). -/
theorem CfgRegs.badPattern_iff_label (c : CfgRegs) : c.badPattern = true ↔
    10 ≤ c.patternId ∨ ∃ r < c.tileSize, ∃ k < c.tileSize, c.label r k = none := by
  simp [CfgRegs.badPattern]

/-- The fixed tiles have no reserved label; the two custom tiles are read from PATTERN_TILE (R35, R121). -/
theorem CfgRegs.badPattern_iff (c : CfgRegs) : c.badPattern = true ↔
    10 ≤ c.patternId ∨ (c.patternId = 8 ∧ ∃ r < 2, ∃ k < 2, field c.patternTile (8 * r + 2 * k) 2 = 3) ∨
      (c.patternId = 9 ∧ ∃ r < 4, ∃ k < 4, field c.patternTile (8 * r + 2 * k) 2 = 3) := by
  rw [CfgRegs.badPattern_iff_label]
  by_cases h10 : 10 ≤ c.patternId
  · simp [h10]
  by_cases h9 : c.patternId = 9
  · simp [CfgRegs.tileSize_four (c := c) (by omega), CfgRegs.label_eq_none_of_custom (.inr h9), h9]
  by_cases h8 : c.patternId = 8
  · simp [CfgRegs.tileSize_two (.inr h8), CfgRegs.label_eq_none_of_custom (.inl h8), h8]
  have hfixed (r k : Nat) : c.label r k ≠ none := by
    by_cases h4 : c.patternId < 4
    · simp [CfgRegs.label_of_bayer h4]
    · simp [CfgRegs.label_of_quad (c := c) (by omega) (by omega)]
  simp [hfixed, h9, h8]

theorem CfgRegs.badLut_iff (c : CfgRegs) (v : LutValid) : c.badLut v = true ↔
    c.p0.layout = 0 ∧ v.g8 = false ∨ c.p0.layout ≠ 0 ∧ (v.lvl = false ∨ v.g16 = false) := by
  by_cases h : c.p0.layout = 0 <;> simp [CfgRegs.badLut, CfgRegs.needed, LutValid.get, h]

/-- The chroma planes share their width (R232). -/
theorem CfgRegs.planeWidth_chroma (c : CfgRegs) {n : PlaneId} (h : n ≠ .p0) :
    c.planeWidth n = (c.width + 2 ^ c.hsub - 1) / 2 ^ c.hsub := by
  cases n with
  | p0 => exact absurd rfl h
  | p1 => rfl
  | p2 => rfl

/-- Settles O13: each check by its own rule, and the lists of the commands as they stand. -/
theorem checksFailExactlyWhenStated : Obligations.ChecksFailExactlyWhenStated := by
  unfold Obligations.ChecksFailExactlyWhenStated
  intro c
  refine ⟨c.badDim_iff, c.badDst_iff, c.badSrc_iff, PlaneRegs.reservedLayout_iff, PlaneRegs.notYuvLayout_iff,
    PlaneRegs.badBits_iff, c.badLvlBits_iff, PlaneRegs.badStride_iff, c.badDstStride_iff, c.badLevel_iff, c.badGain_iff,
    c.badPattern_iff, c.badLut_iff, rfl, fun n => c.planeWidth_chroma, ?_⟩
  rintro b s rfl
  exact ⟨rfl, rfl, rfl⟩

/-! ### The first failing check (R302, R303) -/

theorem firstFailing_append {l : List (ErrCode × Bool)} (h : ∀ c ∈ l, c.2 = false) (l' : List (ErrCode × Bool)) :
    firstFailing (l ++ l') = firstFailing l' := by
  induction l with
  | nil => rfl
  | cons c l ih =>
    obtain ⟨hc, hl⟩ := List.forall_mem_cons.1 h
    rw [List.cons_append, firstFailing, hc]
    exact ih hl

theorem firstFailing_eq_some_iff {l : List (ErrCode × Bool)} {code : ErrCode} : firstFailing l = some code ↔
    ∃ before after, l = before ++ (code, true) :: after ∧ ∀ c ∈ before, c.2 = false := by
  refine ⟨firstFailing_eq_some, ?_⟩
  rintro ⟨before, after, rfl, hbefore⟩
  exact firstFailing_append hbefore _

theorem verdictOf_eq_firstFailing (i : Instr) (a : State) : verdictOf i a = firstFailing (checksOf i a) := by
  cases i <;> rfl

/-- The codes of the checks of each command, in their order (R303). -/
def checkCodes : Instr → List ErrCode
  | .nop => []
  | .lutBuild _ _ _ => [.cfgBits, .cfgLevel, .cfgGain]
  | .bayerDecode _ =>
    [.cfgDim, .cfgDst, .cfgSrc, .unsupported, .cfgBits, .cfgStride, .cfgLevel, .cfgGain, .cfgPattern, .cfgLut]
  | .demosaic => [.cfgDim, .cfgDst, .cfgStride, .cfgPattern]
  | .yuvConvert => [.cfgDim, .cfgDst, .cfgSrc, .unsupported, .cfgBits, .cfgStride]

theorem checksOf_codes (i : Instr) (a : State) : (checksOf i a).map Prod.fst = checkCodes i := by
  cases i <;> rfl

theorem checkCodes_ascending (i : Instr) : (checkCodes i).Pairwise fun p q => p.code.toNat < q.code.toNat := by
  cases i <;> (rw [checkCodes]; decide)

/-- Settles O12: the verdict is the first failing check of the list, whose codes are the table's. -/
theorem firstFailingCheckIsReported : Obligations.FirstFailingCheckIsReported := by
  unfold Obligations.FirstFailingCheckIsReported
  refine ⟨fun i a code => ?_, fun i a => ?_, fun _ => rfl, fun _ _ _ _ => rfl, fun b => checksOf_codes (.bayerDecode b),
    fun a => ⟨?_, ?_, ?_⟩, checksOf_codes .demosaic, checksOf_codes .yuvConvert⟩
  · rw [verdictOf_eq_firstFailing, firstFailing_eq_some_iff]
  · rw [← List.pairwise_map (f := Prod.fst) (R := fun p q : ErrCode => p.code.toNat < q.code.toNat), checksOf_codes]
    exact checkCodes_ascending i
  all_goals simp [checksOf, bayerChecks]

/-! ### A command that fails its validation (R153, R305) -/

section Rejected

variable {i : Instr} {s : State} {code : ErrCode}

/-- The first step of a rejected command ends it: validation has no cancel point (R153). -/
theorem engineStep_rejected (hp : s.pos = .checked (some code)) : engineStep s = .next (finish (.error code) s) := by
  rw [engineStep, engineMove, hp]
  rfl

theorem runEngine_rejected (n : Nat) (hb : s.busy = true) (hp : s.pos = .checked (some code)) :
    runEngine (n + 1) s = .next (finish (.error code) s) := by
  rw [runEngine_next n hb (engineStep_rejected hp)]
  exact runEngine_idle n (finish_busy _ _)

/-- What a command with a verdict to report sets out from: NOP has none. -/
theorem issued_rejected (hb : s.busy = false) (hv : verdictOf i (accept (encode i) s) = some code) :
    issued i s = (accept (encode i) s).launched (some code) (planOf i (accept (encode i) s)) := by
  unfold issued
  rw [if_neg (by simp [hb]), ← hv]
  cases i with
  | nop => cases hv
  | _ => rfl

/-- A rejected command, undisturbed, answers with its end. -/
theorem exec_rejected (hb : s.busy = false) (hu : s.Undisturbed)
    (hv : verdictOf i (accept (encode i) s) = some code) :
    exec i s = .next (finish (.error code)
      ((accept (encode i) s).launched (some code) (planOf i (accept (encode i) s)))) := by
  rw [exec_eq_settle_issued, issued_rejected hb hv]
  exact settle_of_reaches hu (.of_step rfl (engineStep_rejected rfl)) (finish_busy _ _)

end Rejected

/-- Settles O7: the one step of a rejected command is `finish`, of a command that has read and written nothing. -/
theorem failedValidationChangesNothing : Obligations.FailedValidationChangesNothing := by
  unfold Obligations.FailedValidationChangesNothing
  refine ⟨fun i s code hb hu hv => ⟨_, exec_rejected hb hu hv, ?_, ?_,
    ⟨rfl, rfl, rfl, rfl, rfl, finish_src_unraced _ rfl, rfl, rfl⟩, ⟨rfl, rfl, finish_stats_unread _ rfl⟩,
    finish_dst_unread _ rfl rfl rfl⟩, fun s code n hb hp => ⟨runEngine_rejected n hb hp, rfl, rfl, rfl⟩⟩
  · constructor <;> rfl
  · constructor <;> rfl

/-! ### The interrupt (R312) -/

theorem bitAt_eq_zero (b : Bool) {i : Nat} (hi : i < 32) : bitAt b i = 0#32 ↔ b = false := by
  cases b with
  | false => exact iff_of_true rfl rfl
  | true =>
    refine iff_of_false (fun h => ?_) nofun
    have hbit := congrArg (BitVec.getLsbD · i) h
    simp [bitAt, hi] at hbit

/-- Of STATUS the mask of IRQ_EN picks DONE, ERROR, CANCELLED and OVERRUN (R27, R29). -/
theorem State.status_and_irqMask (s : State) (w : Word) : s.status &&& w &&& 0x1E =
    bitAt (s.done && w.getLsbD 1) 1 ||| bitAt (s.error && w.getLsbD 2) 2 ||| bitAt (s.cancelled && w.getLsbD 3) 3 |||
      bitAt (s.overrun && w.getLsbD 4) 4 := by
  have hcode : s.errCode.code <<< 8 &&& 0x1E = 0 := by cases s.errCode <;> decide
  have hpass : s.pass.code <<< 12 &&& 0x1E = 0 := by cases s.pass <;> decide
  rw [BitVec.and_assoc, BitVec.and_comm w, ← BitVec.and_assoc]
  simp only [State.status, BitVec.and_or_distrib_right, bitAt_and, hcode, hpass]
  simp [bitAt]

theorem State.irq_eq (s : State) :
    s.irq = (s.done && s.irqEn.getLsbD 1 || s.error && s.irqEn.getLsbD 2 || s.cancelled && s.irqEn.getLsbD 3 ||
      s.overrun && s.irqEn.getLsbD 4) := rfl

/-- Settles O46: the mask leaves the four enabled bits, each at its own place. -/
theorem interruptFollowsEnabledStatus : Obligations.InterruptFollowsEnabledStatus := by
  unfold Obligations.InterruptFollowsEnabledStatus
  refine ⟨fun s => ?_, State.irq_eq, fun s => ⟨rfl, rfl⟩⟩
  rw [State.status_and_irqMask, State.irq_eq, ne_eq, ← Bool.not_eq_false, not_iff_not]
  simp only [BitVec.ofNat_eq_ofNat, BitVec.or_eq_zero_iff, bitAt_eq_zero, Nat.reduceLT, Bool.or_eq_false_iff]

end Sys2Proof.Machine
end

section
/-! The two resets (70_reset_and_hazards): what an abandoned command leaves of the state, and the obligation
on the state after a reset. -/

namespace Sys2Proof.Machine

/-! ### A command abandoned (R342) -/

/-- An idle block has no command to abandon. -/
theorem abandon_idle {s : State} (h : s.busy = false) : abandon s = s := by simp [abandon, h]

@[simp] theorem abandon_params (s : State) : (abandon s).params = s.params := by unfold abandon; split <;> rfl
@[simp] theorem abandon_host (s : State) : (abandon s).host = s.host := by unfold abandon; split <;> rfl
@[simp] theorem abandon_reads (s : State) : (abandon s).reads = s.reads := by unfold abandon; split <;> rfl
@[simp] theorem abandon_sched (s : State) : (abandon s).sched = s.sched := by unfold abandon; split <;> rfl

/-! ### The state after a reset (R340, R341, R343) -/

/-- Of a state, clearing the registers and the engine keeps what a reset does not own, and gives the rest as
`State.reset` has it. -/
theorem State.resetRegisters_eq (s : State) :
    s.resetRegisters =
      { State.reset with
        params := s.params, src := s.src, dst := s.dst, host := s.host, reads := s.reads, sched := s.sched,
        draws := s.draws, luts := s.luts } := rfl

/-- The command abandoned, a soft reset clears registers and engine. -/
theorem softReset_eq (s : State) :
    softReset s =
      { State.reset with
        params := s.params, src := (softReset s).src, dst := (softReset s).dst, host := s.host, reads := s.reads,
        sched := s.sched, draws := (softReset s).draws, luts := (softReset s).luts } := by
  simpa [softReset] using (abandon s).resetRegisters_eq

/-- A hardware reset is a soft reset that also makes every table entry unwritten. -/
theorem hardReset_eq_softReset (s : State) : hardReset s = { softReset s with luts := Luts.unwritten } := rfl

theorem hardReset_eq (s : State) :
    hardReset s =
      { State.reset with
        params := s.params, src := (hardReset s).src, dst := (hardReset s).dst, host := s.host, reads := s.reads,
        sched := s.sched, draws := (hardReset s).draws } :=
  congrArg (fun t : State => { t with luts := Luts.unwritten }) (softReset_eq s)

theorem softReset_idle {s : State} (h : s.busy = false) : softReset s = s.resetRegisters := by
  rw [softReset, abandon_idle h]

/-- A reset leaves the block idle, so that no engine step follows it. -/
theorem hostAccess_hardReset (s : State) : hostAccess .hardReset s = .next (hardReset s) := settle_idle rfl

theorem hostAccess_softReset {v : Word} (s : State) (h : v.getLsbD 1 = true) :
    hostAccess (.write 0x008 v 32) s = .next (softReset s) :=
  calc hostAccess (.write 0x008 v 32) s = settle (writeCtrl v s) := hostAccess_write_offset .ctrl v s
    _ = settle (softReset s) := by rw [writeCtrl_reset s h]
    _ = .next (softReset s) := settle_idle rfl

/-- Settles O53: a reset abandons the command, if one runs, then clears registers and engine; the block is then idle. -/
theorem resetsGiveTheResetState : Obligations.ResetsGiveTheResetState := by
  unfold Obligations.ResetsGiveTheResetState
  intro s
  refine ⟨hostAccess_hardReset s, hardReset_eq s, fun hb => ?_, fun _ => hostAccess_softReset s, softReset_eq s,
    fun hb => ?_⟩
  · rw [hardReset_eq_softReset, softReset_idle hb]
    exact ⟨rfl, rfl⟩
  · rw [softReset_idle hb]
    exact ⟨rfl, rfl, rfl⟩

end Sys2Proof.Machine
end

section
/-! Invariants of a step: what holds of a state, is kept by the engine's steps, and is kept by each thing an access of the
host does, is kept by every step of the machine. -/

namespace Sys2Proof.Machine

/-- A next state has `P`, and a fault is one that `F` allows. -/
def Keeps (P : State → Prop) (F : Fault → Prop) : Result → Prop
  | .next t => P t
  | .fault e => F e
  | .refused _ => True

/-- What the accesses of the outside world and the engine's steps are made of keeps `P`, and stops with a fault of `F`
only. -/
structure StepInvariant (P : State → Prop) (F : Fault → Prop) : Prop where
  engine {s : State} : s.busy = true → P s → Keeps P F (engineStep s)
  uninitLut : F .uninitLut
  hostLeft {s : State} (rest : List HostEvent) : P s → P { s with host := rest }
  answer {s : State} (v : Word) : P s → P (s.answer v)
  draw {s : State} : P s → P s.draw
  setOverrun {s : State} : P s → P s.setOverrun
  issued {s : State} (i : Instr) : s.busy = false → P s → P (issued i s)
  illegal {s : State} (w : Word) : s.busy = false → P s → P (finish (.error .illegalCmd) (accept w s))
  clearStatus {s : State} (v : Word) : P s → P (s.clearStatus v)
  irqEn {s : State} (v : Word) : P s → P { s with irqEn := v &&& irqEnMask }
  regs {s : State} (r : CfgReg) (v : Word) : P s → P { s with regs := s.regs.write r v }
  lutAddr {s : State} (v : Word) : P s → P { s with lutAddr := v &&& lutAddrMask }
  portRead {s : State} : P s → P { s with lutAddr := nextAddr s.lutAddr }
  portWrite {s : State} (v : Word) : P s → P { s with
    luts := s.luts.portStore s.lutAddr v
    lutValid := s.lutValid.portStore s.lutAddr
    lutAddr := nextAddr s.lutAddr }
  cancel {s : State} : P s → P (requestCancel s)
  softReset {s : State} : P s → P (softReset s)
  hardReset {s : State} : P s → P (hardReset s)
  srcWrite {s : State} (a : Nat) (v : Byte) : P s → P { s with src := Memory.write s.src a v }
  dstWrite {s : State} (d : Nat) (v : Byte) : P s → P { s with dst := Memory.write s.dst d v }
  launchWrite {s : State} (d : Nat) (v : Byte) : P s →
    P { s with launch := s.launch.map fun l => { l with dst := Memory.write l.dst d v } }
  foreign {s : State} (src dst : List Nat) : P s → P { s with srcForeign := src, dstForeign := dst }
  relaunch {s : State} {l : Launch} : s.busy = true → s.launch = some l → P s → P (relaunch l s)

variable {P Q : State → Prop} {F : Fault → Prop}

theorem Keeps.andThen {r : Result} {k : State → Result} (hr : Keeps P F r) (hk : ∀ t, P t → Keeps Q F (k t)) :
    Keeps Q F (andThen r k) := by
  cases r with
  | next t => exact hk t hr
  | fault e => exact hr
  | refused q => exact hr

theorem Keeps.ite {c : Prop} [Decidable c] {r r' : Result} (hr : c → Keeps P F r) (hr' : ¬c → Keeps P F r') :
    Keeps P F (if c then r else r') := by
  split_ifs with hc
  · exact hr hc
  · exact hr' hc

namespace StepInvariant

variable {s : State} (h : StepInvariant P F)

include h

theorem runEngine (n : Nat) (hs : P s) : Keeps P F (runEngine n s) := by
  induction n generalizing s with
  | zero => exact hs
  | succ n ih =>
    cases hb : s.busy with
    | false =>
      rw [runEngine_idle _ hb]
      exact hs
    | true =>
      rw [runEngine_succ _ hb]
      exact (h.engine hb hs).andThen fun t ht => ih ht

theorem settle (hs : P s) : Keeps P F (settle s) := h.runEngine _ hs

theorem thenSettle {r : Result} (hr : Keeps P F r) : Keeps P F (thenSettle r) := hr.andThen fun _ => h.settle

/-- The running command run again, with its cancel request where one has come. -/
theorem replay (hb : s.busy = true) (hs : P s) : Keeps P F (replay s) := by
  unfold Machine.replay
  split
  · exact hs
  · rename_i l hl
    have hback := h.relaunch hb hl hs
    split
    · exact h.runEngine _ hback
    · exact (h.runEngine _ hback).andThen fun t ht => h.runEngine _ (h.cancel ht)

/-- Another agent's write of a destination byte is a write of the space and of the record of what the command set out
from, and it adds to the record of such writes. -/
theorem foreignDstWrite (d : Nat) (v : Byte) (hb : s.busy = true) (hs : P s) : Keeps P F (foreignDstWrite d v s) := by
  have ht := h.foreign ((sourcesOf s.params d).filter s.usesSrc ++ s.srcForeign)
    (if s.usesDst d then d :: s.dstForeign else s.dstForeign) (h.launchWrite d v (h.dstWrite d v hs))
  exact .ite (fun _ => h.replay hb ht) fun _ => ht

theorem foreignSrcWrite (a : Nat) (v : Byte) (hb : s.busy = true) (hs : P s) : Keeps P F (foreignSrcWrite a v s) := by
  have ht := h.srcWrite a v hs
  exact .ite (fun _ => h.replay hb (h.foreign (a :: s.srcForeign) s.dstForeign ht)) fun _ => ht

theorem hostDstWrite (d : Nat) (v : Byte) (hs : P s) : Keeps P F (hostDstWrite d v s) := by
  exact .ite (fun hb => h.foreignDstWrite d v hb hs) fun _ => h.dstWrite d v hs

theorem hostSrcWrite (a : Nat) (v : Byte) (hs : P s) : Keeps P F (hostSrcWrite a v s) := by
  unfold Machine.hostSrcWrite
  split
  · exact h.hostDstWrite _ v hs
  · exact .ite (fun hb => h.foreignSrcWrite a v hb hs) fun _ => h.srcWrite a v hs

theorem hostDstRead (a : Nat) (hs : P s) : P (hostDstRead a s) := by
  unfold Machine.hostDstRead
  split_ifs
  · exact h.answer _ (h.draw hs)
  · exact h.answer _ (h.draw hs)
  · exact h.answer _ hs

theorem hostSrcRead (a : Nat) (hs : P s) : P (hostSrcRead a s) := by
  unfold Machine.hostSrcRead
  split
  · exact h.hostDstRead _ hs
  · split_ifs
    · exact h.answer _ (h.draw hs)
    · exact h.answer _ hs

theorem lutPortRead (hs : P s) : Keeps P F (lutPortRead s) := by
  unfold Machine.lutPortRead
  split_ifs
  · exact h.answer _ (h.setOverrun hs)
  · split
    · exact h.answer _ (h.portRead hs)
    · exact h.uninitLut

theorem lutPortWrite (v : Word) (hs : P s) : P (lutPortWrite v s) := by
  unfold Machine.lutPortWrite
  split_ifs
  · exact h.setOverrun hs
  · exact h.portWrite v hs

theorem readReg (r : Reg) (hs : P s) : Keeps P F (readReg r s) := by
  cases r with
  | stat centre c w =>
    show P (readStat centre c w s)
    unfold readStat
    split_ifs
    · exact h.answer _ (h.draw hs)
    · exact h.answer _ hs
  | lutData => exact h.lutPortRead hs
  | _ => exact h.answer _ hs

theorem writeCtrl (v : Word) (hs : P s) : P (writeCtrl v s) := by
  unfold Machine.writeCtrl
  split_ifs
  · exact h.softReset hs
  · exact h.cancel hs
  · exact hs

/-- A word written to CMD: while a command runs it sets OVERRUN only. -/
theorem issueWord (w : Word) (hs : P s) : Keeps P F (issueWord w s) := by
  unfold Machine.issueWord
  split
  · rename_i i _
    rw [exec_eq_settle_issued]
    refine h.settle ?_
    cases hb : s.busy with
    | false => exact h.issued i hb hs
    | true =>
      rw [issued_busy hb]
      exact h.setOverrun hs
  · refine h.settle ?_
    unfold illegalCommand
    split_ifs with hb
    · exact h.setOverrun hs
    · exact h.illegal w (by simpa using hb) hs

theorem writeReg (r : Reg) (v : Word) (hs : P s) : Keeps P F (writeReg r v s) := by
  cases r with
  | ctrl => exact h.settle (h.writeCtrl v hs)
  | cmd => exact h.issueWord v hs
  | status => exact h.settle (h.clearStatus v hs)
  | irqEn => exact h.settle (h.irqEn v hs)
  | cfg r => exact h.settle (h.regs r v hs)
  | lutAddr => exact h.settle (h.lutAddr v hs)
  | lutData => exact h.settle (h.lutPortWrite v hs)
  | _ => exact h.settle hs

theorem hostWrite (off : Nat) (v : Word) (width : Nat) (hs : P s) : Keeps P F (hostWrite off v width s) := by
  unfold Machine.hostWrite
  split
  · trivial
  · split
    · exact h.writeReg _ v hs
    · exact h.settle hs

theorem hostRead (off width : Nat) (hs : P s) : Keeps P F (hostRead off width s) := by
  unfold Machine.hostRead
  split
  · trivial
  · split
    · exact h.thenSettle (h.readReg _ hs)
    · exact h.settle (h.answer 0 hs)

theorem hostAccess (op : HostOp) (hs : P s) : Keeps P F (hostAccess op s) := by
  cases op with
  | write off v width => exact h.hostWrite off v width hs
  | read off width => exact h.hostRead off width hs
  | wait => exact h.thenSettle (h.runEngine _ hs)
  | hardReset => exact h.settle (h.hardReset hs)
  | srcWrite a v => exact .ite (fun _ => h.thenSettle (h.hostSrcWrite a v hs)) fun _ => trivial
  | srcRead a => exact .ite (fun _ => h.settle (h.hostSrcRead a hs)) fun _ => trivial
  | dstWrite a v => exact .ite (fun _ => h.thenSettle (h.hostDstWrite a v hs)) fun _ => trivial
  | dstRead a => exact .ite (fun _ => h.settle (h.hostDstRead a hs)) fun _ => trivial

/-- A step is an access of the host, or the rest of the running command. -/
theorem step (hs : P s) : Keeps P F (step s) := by
  unfold Machine.step
  split
  · exact h.settle hs
  · exact h.hostAccess _ (h.hostLeft _ hs)

/-- So what a step answers next has the invariant. -/
theorem step_next {t : State} (hs : P s) (ht : Machine.step s = .next t) : P t := by
  have := h.step hs
  rwa [ht] at this

end StepInvariant

end Sys2Proof.Machine
end

section
/-! What one engine move does to the outcome bits, the tables, STATS and the destination space, said once for the
obligations on them. -/

namespace Sys2Proof.Machine

/-- A byte a pixel write records as overwritten is recorded with the value it held before the write (R100). -/
theorem State.overwritten_putWord {s : State} {a n v : Nat} {c : Host.Cell} (h : c ∈ (s.putWord a n v).overwritten) :
    c ∈ s.overwritten ∨ a ≤ c.1 ∧ c.2 = Memory.read s.dst c.1 := by
  induction n generalizing s a v with
  | zero => exact .inl h
  | succ n ih =>
    rcases ih h with h | ⟨ha, hv⟩
    · rcases List.mem_cons.1 h with rfl | h
      · exact .inr ⟨le_rfl, rfl⟩
      · exact .inl h
    · rw [State.putByte_dst, Memory.read_write_other _ _ (by omega)] at hv
      exact .inr ⟨by omega, hv⟩

/-- What an engine move that does not end the command does to what a program sees of it: the outcome bits stay; a table
changes by an entry of a LUT pass stored (R200), STATS by their clearing or by a pixel counted (R257, R260), the
destination space by a pixel written (R222), the bytes replaced on record (R100). -/
structure MoveKept (s t : State) : Prop where
  outcome : t.done = s.done ∧ t.error = s.error ∧ t.cancelled = s.cancelled
  luts : t.luts = s.luts ∨
    ∃ g rest n, s.pos = .lutFill g rest n ∧ t.luts = s.luts.storeEntry s.cfg s.params.gainTol g n
  stats : t.stats = s.stats ∨ s.pos = .rawClear ∨ ∃ y x b v, s.pos = .rawPix y x b (.count v)
  dst : ∃ a n v, t.dst = Memory.writeN s.dst a n v
  overwritten : ∀ c ∈ t.overwritten, c ∈ s.overwritten ∨ c.2 = Memory.read s.dst c.1

section Move

variable {s t : State}

/-- A move of the position only, with the records that go with it. -/
theorem moveKept_of_same
    (h : (t.done = s.done ∧ t.error = s.error ∧ t.cancelled = s.cancelled) ∧ t.luts = s.luts ∧ t.stats = s.stats ∧
      t.dst = s.dst ∧ t.overwritten = s.overwritten := by exact ⟨⟨rfl, rfl, rfl⟩, rfl, rfl, rfl, rfl⟩) :
    MoveKept s t := by
  obtain ⟨ho, hl, hs, hd, hw⟩ := h
  exact ⟨ho, .inl hl, .inl hs, ⟨0, 0, 0, hd⟩, fun c hc => .inl (hw ▸ hc)⟩

/-- A pixel written. -/
theorem moveKept_writePixel (x y : Nat) (v : Rgb) (p : Pos) : MoveKept s { s.writePixel x y v with pos := p } :=
  ⟨by simp, .inl (by simp), .inl (by simp), ⟨_, _, _, s.writePixel_dst x y v⟩,
    fun _ hc => (State.overwritten_putWord hc).imp_right And.right⟩

theorem rawStep_moveKept {y x : Nat} {b : Bool} {phase : RawPhase} {k : Container} {ch : Chan}
    (hpos : s.pos = .rawPix y x b phase) (hr : rawStep y x b phase k ch s = .next t) : MoveKept s t := by
  obtain ⟨-, -, rfl⟩ | ⟨got, a, -, -, -, rfl⟩ | ⟨raw, p, -, -, rfl⟩ | ⟨i, v, -, -, rfl⟩ | ⟨v, rfl, rfl⟩ | ⟨out, -, rfl⟩ :=
    rawStep_cases hr
  case inr.inr.inr.inr.inl =>
    exact ⟨⟨rfl, rfl, rfl⟩, .inl rfl, .inr (.inr ⟨y, x, b, v, hpos⟩), ⟨0, 0, 0, rfl⟩, fun _ => .inl⟩
  case inr.inr.inr.inr.inr => exact moveKept_writePixel _ _ _ _
  all_goals exact moveKept_of_same

theorem yuvStep_moveKept {y x : Nat} {b : Bool} {phase : YuvPhase} {k : Container × Container × Container}
    (hr : yuvStep y x b phase k s = .next t) : MoveKept s t := by
  obtain ⟨-, -, rfl⟩ | ⟨got, n, a, -, -, -, rfl⟩ | ⟨v, -, rfl⟩ := yuvStep_cases hr
  · exact moveKept_of_same
  · exact moveKept_of_same
  · exact moveKept_writePixel _ _ _ _

theorem stepWorker_moveKept {i : Nat} {w : Worker} {active : List Worker} {waiting : List Nat} {stopped : Bool}
    (hw : stepWorker i w active waiting stopped s = .next t) : MoveKept s t := by
  obtain ⟨-, -, rfl⟩ | ⟨-, -, rfl⟩ | ⟨got, own, px, py, c, -, -, -, -, rfl⟩ | ⟨v, -, -, rfl⟩ | ⟨-, rfl⟩ :=
    stepWorker_cases hw
  case inr.inr.inr.inl => exact moveKept_writePixel _ _ _ _
  all_goals exact moveKept_of_same

/-- An engine move ends the command, or does what `MoveKept` says. -/
theorem engineMove_moveKept (hm : engineMove s = .next t) : (∃ e, t = finish e s) ∨ MoveKept s t := by
  unfold engineMove at hm
  generalize hp : s.pos = p at hm
  cases p with
  | idle => cases hm
  | checked v =>
    cases v with
    | some code => cases hm; exact .inl ⟨_, rfl⟩
    | none => cases hm; exact .inr moveKept_of_same
  | between =>
    cases hm
    unfold stepBetween
    split
    · exact .inl ⟨_, rfl⟩
    · rename_i q rest _
      exact .inr (by cases q <;> exact moveKept_of_same)
  | starting q => cases hm; exact .inr (by cases q <;> exact moveKept_of_same)
  | lutOpen groups =>
    cases hm
    unfold stepLutOpen
    split
    · exact .inr moveKept_of_same
    · split_ifs
      · exact .inl ⟨_, rfl⟩
      · exact .inr moveKept_of_same
  | lutFill g rest n =>
    cases hm
    exact .inr ⟨⟨rfl, rfl, rfl⟩, .inr ⟨g, rest, n, hp, rfl⟩, .inl rfl, ⟨0, 0, 0, rfl⟩, fun _ => .inl⟩
  | rawClear =>
    cases hm
    exact .inr ⟨⟨rfl, rfl, rfl⟩, .inl rfl, .inr (.inl hp), ⟨0, 0, 0, rfl⟩, fun _ => .inl⟩
  | rawRow y =>
    cases hm
    unfold stepRowStart
    split_ifs
    · exact .inr moveKept_of_same
    · exact .inl ⟨_, rfl⟩
    · exact .inr moveKept_of_same
  | rawPix y x b phase =>
    obtain ⟨-, rfl⟩ | ⟨-, -, k, ch, -, -, hr⟩ := stepRawPix_cases hm
    · exact .inr moveKept_of_same
    · exact .inr (rawStep_moveKept hp hr)
  | demosaic active waiting stopped =>
    obtain ⟨-, -, rfl⟩ | ⟨i, w, -, hw⟩ | ⟨j, y, -, -, rfl⟩ := stepDemosaic_cases hm
    · split_ifs
      · exact .inl ⟨_, rfl⟩
      · exact .inr moveKept_of_same
    · obtain ⟨ho, hl, hs, hd, hov⟩ := stepWorker_moveKept hw
      exact .inr ⟨ho, hl, hs, hd, hov⟩
    · exact .inr moveKept_of_same
  | yuvRow y =>
    cases hm
    unfold stepRowStart
    split_ifs
    · exact .inr moveKept_of_same
    · exact .inl ⟨_, rfl⟩
    · exact .inr moveKept_of_same
  | yuvPix y x b phase =>
    obtain ⟨-, rfl⟩ | ⟨-, -, k, -, hr⟩ := stepYuvPix_cases hm
    · exact .inr moveKept_of_same
    · exact .inr (yuvStep_moveKept hr)
  | _ => cases hm; exact .inr moveKept_of_same

/-- The same of a counted step. -/
theorem engineStep_moveKept (ht : engineStep s = .next t) : (∃ e, t = finish e s) ∨ MoveKept s t := by
  obtain ⟨u, hu, rfl⟩ := engineStep_cases ht
  rcases engineMove_moveKept hu with ⟨e, rfl⟩ | ⟨ho, hl, hs, hd, hov⟩
  · exact .inl ⟨e, finish_ticked e s _⟩
  · exact .inr ⟨ho, hl, hs, hd, hov⟩

end Move

end Sys2Proof.Machine
end

section
/-! The storage of the block (R53, R84): every operation on a table keeps its size, every write of a memory its canonical
form, and the obligation that every step does. -/

namespace Sys2Proof.Machine

/-! ### Operations on the tables keep their sizes -/

theorem PerChan.hasDepth_set {α : Type} {p : PerChan (Ram α)} {d : Nat} {t : Ram α} (ch : Chan)
    (h : ∀ c, (p.get c).hasDepth d = true) (ht : t.hasDepth d = true) (c : Chan) :
    ((p.set ch t).get c).hasDepth d = true := by
  rw [PerChan.get_set]
  split_ifs
  · exact ht
  · exact h c

theorem Luts.unwritten_sized : Luts.unwritten.sized :=
  ⟨Ram.hasDepth_const 16 none, fun c => by cases c <;> exact Ram.hasDepth_const 8 none,
    fun c => by cases c <;> exact Ram.hasDepth_const 16 none⟩

theorem Luts.storeEntry_sized {t : Luts} (c : CfgRegs) (tol : Nat) (g : Group) (n : Nat) (h : t.sized) :
    (t.storeEntry c tol g n).sized := by
  obtain ⟨hl, h8, h16⟩ := h
  cases g with
  | lvl => exact ⟨Ram.hasDepth_write _ _ hl, h8, h16⟩
  | g8 => exact ⟨hl, PerChan.hasDepth_set _ h8 (Ram.hasDepth_write _ _ (h8 _)), h16⟩
  | g16 => exact ⟨hl, h8, PerChan.hasDepth_set _ h16 (Ram.hasDepth_write _ _ (h16 _))⟩

theorem Luts.portStore_sized {t : Luts} (addr v : Word) (h : t.sized) : (t.portStore addr v).sized := by
  obtain ⟨hl, h8, h16⟩ := h
  unfold Luts.portStore
  dsimp only
  split
  · exact ⟨Ram.hasDepth_write _ _ hl, h8, h16⟩
  · exact ⟨hl, h8, PerChan.hasDepth_set _ h16 (Ram.hasDepth_write _ _ (h16 _))⟩
  · split_ifs
    · exact ⟨hl, PerChan.hasDepth_set _ h8 (Ram.hasDepth_write _ _ (h8 _)), h16⟩
    · exact ⟨hl, h8, h16⟩
  · exact ⟨hl, h8, h16⟩

theorem Luts.torn_sized {t : Luts} (old : Luts) (c : CfgRegs) (tol draw : Nat) (g : Group) (n : Nat) (h : t.sized) :
    (t.torn old c tol draw g n).sized := by
  obtain ⟨hl, h8, h16⟩ := h
  cases g with
  | lvl => exact ⟨Ram.hasDepth_build _ _, h8, h16⟩
  | g8 => exact ⟨hl, PerChan.hasDepth_set _ h8 (Ram.hasDepth_build _ _), h16⟩
  | g16 => exact ⟨hl, h8, PerChan.hasDepth_set _ h16 (Ram.hasDepth_build _ _)⟩

theorem State.tornLuts_sized {s : State} (h : s.luts.sized) : s.tornLuts.sized := by
  unfold State.tornLuts
  split
  · exact Luts.torn_sized _ _ _ _ _ _ h
  · exact h

/-! ### The storage of a state -/

section Storage

variable {s t : State}

/-- Writes of a memory, each made or not, keep the canonical form. -/
theorem State.tornDst_wf (h : Memory.wf s.dst = true) : Memory.wf s.tornDst = true := by
  unfold State.tornDst
  induction s.inFlight generalizing s with
  | nil => exact h
  | cons c l ih =>
    rw [List.foldl_cons]
    split_ifs
    · exact ih (s := { s with dst := Memory.write s.dst c.1 c.2 }) (Memory.write_wf _ _ h)
    · exact ih h

theorem finish_storageOk (e : Ending) (h : s.StorageOk) : (finish e s).StorageOk := by
  obtain ⟨⟨hsrc, hdst⟩, hl, -⟩ := h
  refine ⟨⟨?_, ?_⟩, ?_, fun l hlaunch => ?_⟩
  · rw [finish_src]
    exact State.settledSrc_wf hsrc
  · rw [finish_dst]
    exact State.settledDst_wf hdst
  · rw [finish_luts]
    exact hl
  · simp at hlaunch

theorem accept_storageOk (w : Word) (h : s.StorageOk) : (accept w s).StorageOk := ⟨h.1, h.2.1, fun _ hl => by cases hl⟩

theorem issued_storageOk (i : Instr) (hb : s.busy = false) (h : s.StorageOk) : (issued i s).StorageOk := by
  rcases issued_idle_cases i hb with e | e <;> rw [e]
  · exact finish_storageOk .done (accept_storageOk _ h)
  · refine ⟨h.1, h.2.1, fun l hlaunch => ?_⟩
    cases hlaunch
    exact ⟨h.1.2, h.2.1⟩

theorem engineStep_storageOk (h : s.StorageOk) (ht : engineStep s = .next t) : t.StorageOk := by
  obtain ⟨u, hu, rfl⟩ := engineStep_cases ht
  suffices u.StorageOk from this
  rcases (engineMove_kept hu).2 with hk | ⟨e, rfl⟩
  · rcases engineMove_moveKept hu with ⟨e, rfl⟩ | hmove
    · exact finish_storageOk e h
    · obtain ⟨⟨hsrc, hdst⟩, hl, hlaunch⟩ := h
      obtain ⟨a, n, v, hwrite⟩ := hmove.dst
      refine ⟨⟨hk.src ▸ hsrc, hwrite ▸ Memory.writeN_wf a n v hdst⟩, ?_, hk.launch ▸ hlaunch⟩
      rcases hmove.luts with hsame | ⟨g, rest, n, -, hstore⟩
      · rw [hsame]
        exact hl
      · rw [hstore]
        exact Luts.storeEntry_sized _ _ _ _ hl
  · exact finish_storageOk e h

theorem abandon_storage (h : s.StorageOk) : (abandon s).MemoriesCanonical ∧ (abandon s).luts.sized := by
  obtain ⟨⟨hsrc, hdst⟩, hl, -⟩ := h
  unfold abandon
  split_ifs
  · exact ⟨⟨State.settledSrc_wf hsrc, State.settledDst_wf (State.tornDst_wf hdst)⟩, State.tornLuts_sized hl⟩
  · exact ⟨⟨hsrc, hdst⟩, hl⟩

theorem resetRegisters_storageOk (hm : s.MemoriesCanonical) (hl : s.luts.sized) : s.resetRegisters.StorageOk :=
  ⟨hm, hl, fun _ hlaunch => by cases hlaunch⟩

theorem storageOk_unwritten (h : s.StorageOk) : State.StorageOk { s with luts := Luts.unwritten } :=
  ⟨h.1, Luts.unwritten_sized, h.2.2⟩

theorem softReset_storageOk (h : s.StorageOk) : (softReset s).StorageOk :=
  resetRegisters_storageOk (abandon_storage h).1 (abandon_storage h).2

theorem requestCancel_storageOk (h : s.StorageOk) : (requestCancel s).StorageOk := by
  unfold requestCancel
  split_ifs <;> exact h

theorem storageInvariant : StepInvariant State.StorageOk fun _ => True where
  engine {s} _ h := by
    cases ht : engineStep s with
    | next t => exact engineStep_storageOk h ht
    | fault e => trivial
    | refused q => trivial
  uninitLut := trivial
  hostLeft _ h := h
  answer _ h := h
  draw h := h
  setOverrun h := h
  issued := issued_storageOk
  illegal w _ h := finish_storageOk _ (accept_storageOk w h)
  clearStatus _ h := h
  irqEn _ h := h
  regs _ _ h := h
  lutAddr _ h := h
  portRead h := h
  portWrite v h := ⟨h.1, Luts.portStore_sized _ v h.2.1, h.2.2⟩
  cancel := requestCancel_storageOk
  softReset := softReset_storageOk
  hardReset h := storageOk_unwritten (softReset_storageOk h)
  srcWrite _ _ h := ⟨⟨Memory.write_wf _ _ h.1.1, h.1.2⟩, h.2⟩
  dstWrite _ _ h := ⟨⟨h.1.1, Memory.write_wf _ _ h.1.2⟩, h.2⟩
  launchWrite d v h := by
    refine ⟨h.1, h.2.1, fun l' hl' => ?_⟩
    obtain ⟨l, hl, rfl⟩ := Option.map_eq_some_iff.1 hl'
    exact ⟨Memory.write_wf _ _ (h.2.2 l hl).1, (h.2.2 l hl).2⟩
  foreign _ _ h := h
  relaunch _ hl h := ⟨⟨h.1.1, (h.2.2 _ hl).1⟩, (h.2.2 _ hl).2, h.2.2⟩

end Storage

/-- Settles O55: each write of a memory or of a table keeps its form, and no step does anything else to them. -/
theorem stepKeepsStorageWellFormed : Obligations.StepKeepsStorageWellFormed := by
  unfold Obligations.StepKeepsStorageWellFormed
  exact fun s t h ht => storageInvariant.step_next h ht

end Sys2Proof.Machine
end

section
/-! Three invariants of a step: the outcome bits (R27, R147), the reserved bits (R22), and the engine of a validated command
(R144, log 16). -/

namespace Sys2Proof.Machine

variable {s t : State}

/-! ### The outcome bits -/

/-- A command that ends leaves the engine idle and clean, and its one outcome bit set. -/
theorem finish_oneOutcome (e : Ending) (h : s.done = false ∧ s.error = false ∧ s.cancelled = false) :
    (finish e s).IdleIsClean ∧ (finish e s).OneOutcome := by
  obtain ⟨hd, he, hc⟩ := h
  refine ⟨fun _ => by simp, ?_⟩
  cases e <;> simp [State.OneOutcome, hd, he, hc]

/-- While a command runs, only its outcome bits count. -/
theorem oneOutcome_of_busy (hb : s.busy = true) (h : s.done = false ∧ s.error = false ∧ s.cancelled = false) :
    s.IdleIsClean ∧ s.OneOutcome := by
  obtain ⟨hd, he, hc⟩ := h
  simp [State.IdleIsClean, State.OneOutcome, hb, hd, he, hc]

theorem engineStep_oneOutcome (hb : s.busy = true) (h : s.OneOutcome) (ht : engineStep s = .next t) :
    t.IdleIsClean ∧ t.OneOutcome := by
  have hs := h.1 hb
  obtain ⟨u, hu, rfl⟩ := engineStep_cases ht
  rcases (engineMove_kept hu).2 with hk | ⟨e, rfl⟩
  · rcases engineMove_moveKept hu with ⟨e, rfl⟩ | hmove
    · rw [finish_ticked]
      exact finish_oneOutcome e hs
    · obtain ⟨hd, he, hc⟩ := hmove.outcome
      exact oneOutcome_of_busy (hk.busy.trans hb) ⟨hd.trans hs.1, he.trans hs.2.1, hc.trans hs.2.2⟩
  · rw [finish_ticked]
    exact finish_oneOutcome e hs

theorem issued_oneOutcome (i : Instr) (hb : s.busy = false) : (issued i s).IdleIsClean ∧ (issued i s).OneOutcome := by
  rcases issued_idle_cases i hb with e | e <;> rw [e]
  · exact finish_oneOutcome .done ⟨rfl, rfl, rfl⟩
  · exact oneOutcome_of_busy rfl ⟨rfl, rfl, rfl⟩

/-- Clearing outcome bits leaves at most one. -/
theorem clearStatus_oneOutcome (v : Word) (h : s.OneOutcome) : (s.clearStatus v).OneOutcome := by
  have hsub (b c : Bool) (hbc : (b && !c) = true) : b = true := (Bool.and_eq_true_iff.1 hbc).1
  obtain ⟨hb, hde, hdc, hec⟩ := h
  refine ⟨fun hbusy => ?_, fun hx => hde (hx.imp (hsub _ _) (hsub _ _)), fun hx => hdc (hx.imp (hsub _ _) (hsub _ _)),
    fun hx => hec (hx.imp (hsub _ _) (hsub _ _))⟩
  obtain ⟨hd, he, hc⟩ := hb hbusy
  simp [State.clearStatus, hd, he, hc]

theorem requestCancel_oneOutcome (h : s.IdleIsClean ∧ s.OneOutcome) :
    (requestCancel s).IdleIsClean ∧ (requestCancel s).OneOutcome := by
  unfold requestCancel
  split_ifs with hb
  · exact oneOutcome_of_busy hb (h.2.1 hb)
  · exact h

theorem resetRegisters_oneOutcome (s : State) : s.resetRegisters.IdleIsClean ∧ s.resetRegisters.OneOutcome :=
  ⟨fun _ => ⟨rfl, rfl, rfl, rfl⟩, by simp [State.OneOutcome, State.resetRegisters]⟩

theorem outcomeInvariant : StepInvariant (fun s => s.IdleIsClean ∧ s.OneOutcome) fun _ => True where
  engine {s} hb h := by
    cases ht : engineStep s with
    | next t => exact engineStep_oneOutcome hb h.2 ht
    | fault e => trivial
    | refused q => trivial
  uninitLut := trivial
  hostLeft _ h := h
  answer _ h := h
  draw h := h
  setOverrun h := h
  issued i hb _ := issued_oneOutcome i hb
  illegal _ _ _ := finish_oneOutcome _ ⟨rfl, rfl, rfl⟩
  clearStatus v h := ⟨h.1, clearStatus_oneOutcome v h.2⟩
  irqEn _ h := h
  regs _ _ h := h
  lutAddr _ h := h
  portRead h := h
  portWrite _ h := h
  cancel := requestCancel_oneOutcome
  softReset _ := resetRegisters_oneOutcome _
  hardReset {s} _ := resetRegisters_oneOutcome (abandon s)
  srcWrite _ _ h := h
  dstWrite _ _ h := h
  launchWrite _ _ h := h
  foreign _ _ h := h
  relaunch hb _ h := oneOutcome_of_busy hb (h.2.1 hb)

/-- Settles O56: an outcome bit is set only where a command ends, whose acceptance has cleared all three. -/
theorem stepKeepsOutcomeBitsExclusive : Obligations.StepKeepsOutcomeBitsExclusive := by
  unfold Obligations.StepKeepsOutcomeBitsExclusive
  exact fun s t hi ho ht => outcomeInvariant.step_next ⟨hi, ho⟩ ht

/-! ### The reserved bits -/

theorem CfgRegs.reservedZero_iff {c : CfgRegs} : c.reservedZero = true ↔ ∀ r, c.get r &&& r.mask = c.get r := by
  simp [CfgRegs.reservedZero, CfgReg.mem_all]

theorem and_mask_idem (v m : Word) : v &&& m &&& m = v &&& m := by rw [BitVec.and_assoc, BitVec.and_self]

theorem CfgRegs.write_reservedZero {c : CfgRegs} (r : CfgReg) (v : Word) (h : c.reservedZero = true) :
    (c.write r v).reservedZero = true := by
  rw [CfgRegs.reservedZero_iff] at h ⊢
  intro r'
  by_cases hr : r' = r
  · rw [hr, CfgRegs.get_write_same, and_mask_idem]
  · rw [CfgRegs.get_write_other c v hr, h r']

/-- The index step stays within the implemented bits of LUT_ADDR (R45, R203). -/
theorem nextAddr_and_mask {addr : Word} (h : addr &&& lutAddrMask = addr) : nextAddr addr &&& lutAddrMask = nextAddr addr := by
  have hindex (n : Nat) : BitVec.ofNat 32 (n % 65536) &&& lutAddrMask = BitVec.ofNat 32 (n % 65536) := by
    have hlow : BitVec.ofNat 32 (n % 65536) = BitVec.ofNat 32 n &&& 0xFFFF#32 := by
      apply BitVec.eq_of_toNat_eq
      rw [BitVec.toNat_and, show (0xFFFF#32).toNat = 2 ^ 16 - 1 from rfl, Nat.and_two_pow_sub_one_eq_mod,
        BitVec.toNat_ofNat, BitVec.toNat_ofNat]
      omega
    rw [hlow, BitVec.and_assoc, show 0xFFFF#32 &&& lutAddrMask = 0xFFFF#32 by decide]
  unfold nextAddr
  split_ifs
  · rw [BitVec.and_or_distrib_right, hindex, BitVec.and_assoc, BitVec.and_comm _ lutAddrMask, ← BitVec.and_assoc, h]
  · exact h

theorem reservedZero_of_kept (h : s.ReservedZero) (hr : t.regs = s.regs) (hi : t.irqEn = s.irqEn)
    (hl : t.lutAddr = s.lutAddr) : t.ReservedZero := by
  rwa [State.ReservedZero, hr, hi, hl]

theorem requestCancel_reservedZero (h : s.ReservedZero) : (requestCancel s).ReservedZero := by
  unfold requestCancel
  split_ifs <;> exact h

theorem resetRegisters_reservedZero (s : State) : s.resetRegisters.ReservedZero := by
  have hregs : CfgRegs.reset.reservedZero = true := by decide
  exact ⟨hregs, BitVec.zero_and, BitVec.zero_and⟩

theorem reservedInvariant : StepInvariant State.ReservedZero fun _ => True where
  engine {s} _ h := by
    cases ht : engineStep s with
    | next t =>
      have hk := engineStep_kept ht
      exact reservedZero_of_kept h hk.regs hk.irqEn hk.lutAddr
    | fault e => trivial
    | refused q => trivial
  uninitLut := trivial
  hostLeft _ h := h
  answer _ h := h
  draw h := h
  setOverrun h := h
  issued i hb h := by
    have hk := (issued_idle (i := i) hb).1
    exact reservedZero_of_kept h hk.regs hk.irqEn hk.lutAddr
  illegal _ _ h := reservedZero_of_kept h (by simp) (by simp) (by simp)
  clearStatus _ h := h
  irqEn v h := ⟨h.1, and_mask_idem v irqEnMask, h.2.2⟩
  regs r v h := ⟨CfgRegs.write_reservedZero r v h.1, h.2⟩
  lutAddr v h := ⟨h.1, h.2.1, and_mask_idem v lutAddrMask⟩
  portRead h := ⟨h.1, h.2.1, nextAddr_and_mask h.2.2⟩
  portWrite _ h := ⟨h.1, h.2.1, nextAddr_and_mask h.2.2⟩
  cancel := requestCancel_reservedZero
  softReset _ := resetRegisters_reservedZero _
  hardReset {s} _ := resetRegisters_reservedZero (abandon s)
  srcWrite _ _ h := h
  dstWrite _ _ h := h
  launchWrite _ _ h := h
  foreign _ _ h := h
  relaunch _ _ h := h

/-- Settles O57: every write of a register is masked, and the index step of the port stays within LUT_ADDR's bits. -/
theorem stepKeepsReservedBitsZero : Obligations.StepKeepsReservedBitsZero := by
  unfold Obligations.StepKeepsReservedBitsZero
  exact fun s t h ht => reservedInvariant.step_next h ht

/-! ### The engine of a validated command -/

theorem requestCancel_ready (h : s.EngineReady) : (requestCancel s).EngineReady := by
  unfold requestCancel
  split_ifs <;> exact h

/-- A step of a validated command meets no snapshot that validation rejects (log 16). -/
theorem engineStep_keepsReady (hb : s.busy = true) (h : s.EngineReady) :
    Keeps State.EngineReady (· ≠ .unvalidated) (engineStep s) := by
  cases hm : engineMove s with
  | next u =>
    have ht : engineStep s = .next (u.ticked s.ticks) := by rw [engineStep, hm]; rfl
    rw [ht]
    exact engineStep_ready h ht
  | fault e =>
    obtain ⟨rfl, -⟩ := engineMove_fault (h hb).1 hm
    rw [engineStep, hm]
    exact nofun
  | refused q => exact absurd hm (engineMove_notRefused s q)

theorem readyInvariant : StepInvariant State.EngineReady (· ≠ .unvalidated) where
  engine := engineStep_keepsReady
  uninitLut := nofun
  hostLeft _ h := h
  answer _ h := h
  draw h := h
  setOverrun h := h
  issued i hb _ := issued_ready i hb
  illegal _ _ _ hb := absurd hb (by simp)
  clearStatus _ h := h
  irqEn _ h := h
  regs _ _ h := h
  lutAddr _ h := h
  portRead h := h
  portWrite _ h := h
  cancel := requestCancel_ready
  softReset _ hb := by cases hb
  hardReset _ hb := by cases hb
  srcWrite _ _ h := h
  dstWrite _ _ h := h
  launchWrite d v h hb := by
    refine ⟨(h hb).1, fun l' hl' => ?_⟩
    obtain ⟨l, hl, rfl⟩ := Option.map_eq_some_iff.1 hl'
    exact (h hb).2 l hl
  foreign _ _ h := h
  relaunch hb hl h _ := ⟨(h hb).2 _ hl, (h hb).2⟩

/-- Settles O58: a command sets out on passes its verdict allows, and each step, and a command run again, stays on them. -/
theorem stepKeepsTheEngineValidated : Obligations.StepKeepsTheEngineValidated := by
  unfold Obligations.StepKeepsTheEngineValidated
  intro s h
  refine ⟨fun hf => ?_, fun t ht => readyInvariant.step_next h ht⟩
  have hk := readyInvariant.step h
  rw [hf] at hk
  exact hk rfl

end Sys2Proof.Machine
end

section
/-! PROGRESS counts the finished units of the pass in progress (R30): its move through each pass, and the obligation that
every step keeps the count. -/

namespace Sys2Proof.Machine

section Count

variable {s t : State}

theorem State.toNat_count {n : Nat} (h : s.progress.toNat = n) (hn : n < 65535) : s.count.progress.toNat = n + 1 := by
  rw [State.count, BitVec.toNat_add, h]
  exact Nat.mod_eq_of_lt (show n + 1 < 4294967296 by omega)

/-- What `ProgressTracked` says of the engine's position and plan (R30, R97). -/
structure State.Tracked (s : State) : Prop where
  le : s.progress.toNat ≤ 65535
  counted : s.counted s.pos
  todo : lutPassFirst s.firstPass s.todo

theorem firstPass_congr (h : t.launch = s.launch) : t.firstPass = s.firstPass := by
  rw [State.firstPass, State.firstPass, h]

/-- A count is a matter of PROGRESS, the first pass and the snapshot. -/
theorem counted_congr (hp : t.progress = s.progress) (hf : t.firstPass = s.firstPass) (hc : t.cfg = s.cfg) :
    t.counted = s.counted := by
  funext p
  have hlut (gs : List Group) : t.lutCounted gs = s.lutCounted gs := by
    simp only [State.lutCounted, hf, hp]
  cases p with
  | starting q => cases q <;> simp only [State.counted, hf]
  | demosaic active waiting stopped => cases stopped <;> simp only [State.counted, hp, hc]
  | _ => simp only [State.counted, hlut, hp, hc]

/-- A move to a position whose count holds, the plan left. -/
theorem State.Tracked.goOn (h : s.Tracked) (hle : t.progress.toNat ≤ 65535) (hc : t.counted t.pos)
    (hk : t.firstPass = s.firstPass ∧ t.todo = s.todo := by exact ⟨rfl, rfl⟩) : t.Tracked := by
  obtain ⟨hf, ht⟩ := hk
  exact ⟨hle, hc, by rw [hf, ht]; exact h.todo⟩

/-- A move that leaves PROGRESS, to a position with the same count. -/
theorem State.Tracked.moved (h : s.Tracked) (hc : s.counted t.pos)
    (hk : t.progress = s.progress ∧ t.firstPass = s.firstPass ∧ t.cfg = s.cfg ∧ t.todo = s.todo := by
      exact ⟨rfl, rfl, rfl, rfl⟩) : t.Tracked := by
  obtain ⟨hp, hf, hcfg, ht⟩ := hk
  exact h.goOn (hp ▸ h.le) (counted_congr hp hf hcfg ▸ hc) ⟨hf, ht⟩

theorem finish_tracked (e : Ending) (h : s.progress.toNat ≤ 65535) : (finish e s).Tracked := by
  refine ⟨by rwa [finish_progress], by rw [finish_pos]; trivial, ?_⟩
  rw [finish_todo]
  exact fun _ hg => nomatch hg

/-! ### The moves of each pass -/

/-- The next pass is shown: a LUT pass is the command's first (R256). -/
theorem stepBetween_tracked (h : s.Tracked) : (stepBetween s).Tracked := by
  unfold stepBetween
  split
  · exact finish_tracked .done h.le
  · rename_i p rest hp
    have hrest : lutPassFirst s.firstPass rest := fun gs hg => h.todo gs (hp ▸ List.mem_cons_of_mem _ hg)
    cases p with
    | lut gs => exact ⟨h.le, h.todo gs (hp ▸ List.mem_cons_self), hrest⟩
    | _ => exact ⟨h.le, trivial, hrest⟩

theorem startPass_tracked {p : PassPlan} (h : s.Tracked) (hpos : s.pos = .starting p) : (startPass p s).Tracked := by
  have hc := h.counted
  rw [hpos] at hc
  cases p with
  | lut gs => exact h.goOn (Nat.zero_le _) ⟨[], hc.1, rfl, hc.2⟩
  | raw => exact h.goOn (Nat.zero_le _) rfl
  | demosaic => exact h.goOn (Nat.zero_le _) (by simp [startPass, State.counted])
  | yuv => exact h.goOn (Nat.zero_le _) ⟨rfl, Nat.zero_le _⟩

/-- A group counted: it is one of the three at most of the pass (R200). -/
theorem lutCount_tracked {rest : List Group} (h : s.Tracked) (hpos : s.pos = .lutCount rest) :
    State.Tracked { s.count with pos := .lutOpen rest } := by
  have hc := h.counted
  rw [hpos] at hc
  obtain ⟨g, finished, hfirst, hprog, hlen⟩ := hc
  have hn : finished.length ≤ 2 := by
    rw [List.length_append, List.length_cons] at hlen
    omega
  have hcount := State.toNat_count hprog (by omega)
  refine h.goOn (by rw [hcount]; omega) ⟨finished ++ [g], ?_, ?_, ?_⟩
  · rw [List.append_assoc]
    exact hfirst
  · rw [List.length_append]
    exact hcount
  · rw [List.append_assoc]
    exact hlen

theorem stepRowStart_tracked {y : Nat} {row : Pos} (h : s.Tracked) (hrow : y < s.cfg.height → s.counted row) :
    (stepRowStart y row s).Tracked := by
  unfold stepRowStart
  split_ifs with hy
  · exact h.moved trivial
  · exact finish_tracked .cancelled h.le
  · exact h.moved (hrow (by omega))

/-- The end of row y: counted, and then at the next row or truncated (R238, R258). -/
theorem stepRowEnd_tracked {y : Nat} {b : Bool} {next : Pos} (h : s.Tracked) (hy : s.progress.toNat = y)
    (hlt : y < s.cfg.height) (hnext : ∀ u : State, u.counted next ↔ u.progress.toNat = y + 1 ∧ y + 1 ≤ u.cfg.height) :
    (stepRowEnd b next s).Tracked := by
  have hheight := s.cfg.height_lt
  have hcount := State.toNat_count hy (by omega)
  refine h.goOn ?_ ?_
  · show s.count.progress.toNat ≤ 65535
    omega
  · cases b with
    | false => exact (hnext _).2 ⟨hcount, hlt⟩
    | true => exact ⟨le_of_le_of_eq (Nat.le_add_left 1 y) hcount.symm, le_of_eq_of_le hcount hlt⟩

theorem rawStep_counted {y x : Nat} {b : Bool} {phase : RawPhase} {k : Container} {ch : Chan}
    (hr : rawStep y x b phase k ch s = .next t) :
    t.progress = s.progress ∧ t.todo = s.todo ∧ ∃ x' b' phase', t.pos = .rawPix y x' b' phase' := by
  obtain ⟨-, -, rfl⟩ | ⟨got, a, -, -, -, rfl⟩ | ⟨raw, p, -, -, rfl⟩ | ⟨i, v, -, -, rfl⟩ | ⟨v, -, rfl⟩ | ⟨out, -, rfl⟩ :=
    rawStep_cases hr
  case inr.inr.inr.inr.inr =>
    exact ⟨State.writePixel_progress _ _ _ _, State.writePixel_todo _ _ _ _, _, _, _, rfl⟩
  all_goals exact ⟨rfl, rfl, _, _, _, rfl⟩

theorem yuvStep_counted {y x : Nat} {b : Bool} {phase : YuvPhase} {k : Container × Container × Container}
    (hr : yuvStep y x b phase k s = .next t) :
    t.progress = s.progress ∧ t.todo = s.todo ∧ ∃ x' b' phase', t.pos = .yuvPix y x' b' phase' := by
  obtain ⟨-, -, rfl⟩ | ⟨got, n, a, -, -, -, rfl⟩ | ⟨v, -, rfl⟩ := yuvStep_cases hr
  · exact ⟨rfl, rfl, _, _, _, rfl⟩
  · exact ⟨rfl, rfl, _, _, _, rfl⟩
  · exact ⟨State.writePixel_progress _ _ _ _, State.writePixel_todo _ _ _ _, _, _, _, rfl⟩

/-- The rows a demosaic pass has finished, has in progress and has waiting are H; once a worker has seen a cancel, those
forgotten are missing (R286, R288). -/
theorem counted_demosaic_iff {active : List Worker} {waiting : List Nat} {stopped : Bool} :
    s.counted (.demosaic active waiting stopped) ↔
      (stopped = true → waiting = []) ∧ s.progress.toNat + active.length + waiting.length ≤ s.cfg.height ∧
        (stopped = false → s.progress.toNat + active.length + waiting.length = s.cfg.height) := by
  cases stopped with
  | false => simpa [State.counted] using le_of_eq
  | true =>
    simp only [State.counted, forall_const, reduceCtorEq, false_implies, and_true]
    exact and_congr_right fun hw => by rw [hw]; rfl

theorem stepWorker_tracked {i : Nat} {w : Worker} {active : List Worker} {waiting : List Nat} {stopped : Bool}
    (h : s.Tracked) (hpos : s.counted (.demosaic active waiting stopped)) (hi : active[i]? = some w)
    (hw : stepWorker i w active waiting stopped s = .next t) : t.Tracked := by
  have hheight := s.cfg.height_lt
  have hlen : (active.eraseIdx i).length + 1 = active.length := by
    have hlt := lt_of_getElem? hi
    rw [List.length_eraseIdx_of_lt hlt]
    omega
  have hset (p : Worker) : s.counted (.demosaic (active.set i p) waiting stopped) := by
    rw [counted_demosaic_iff, List.length_set]
    exact counted_demosaic_iff.1 hpos
  obtain ⟨hstop, hle, heq⟩ := counted_demosaic_iff.1 hpos
  obtain ⟨-, -, rfl⟩ | ⟨-, -, rfl⟩ | ⟨got, own, px, py, c, -, -, -, -, rfl⟩ | ⟨v, -, -, rfl⟩ | ⟨-, rfl⟩ :=
    stepWorker_cases hw
  · exact h.moved ⟨rfl, by omega⟩
  · exact h.moved (hset _)
  · exact h.moved (hset _)
  · exact h.moved (hset _) (by simp [State.firstPass])
  · have hcount := State.toNat_count (s := s) rfl (by omega)
    refine h.goOn (show s.count.progress.toNat ≤ 65535 by omega) (counted_demosaic_iff.2 ⟨hstop, ?_, fun hs => ?_⟩)
    · show s.count.progress.toNat + _ + _ ≤ s.cfg.height
      omega
    · have := heq hs
      show s.count.progress.toNat + _ + _ = s.cfg.height
      omega

theorem stepDemosaic_tracked {active : List Worker} {waiting : List Nat} {stopped : Bool} (h : s.Tracked)
    (hpos : s.counted (.demosaic active waiting stopped)) (hm : stepDemosaic active waiting stopped s = .next t) :
    t.Tracked := by
  obtain ⟨-, -, rfl⟩ | ⟨i, w, hi, hw⟩ | ⟨j, y, hj, -, rfl⟩ := stepDemosaic_cases hm
  · split_ifs
    · exact finish_tracked .cancelled h.le
    · exact h.moved trivial
  · exact stepWorker_tracked (s := { s with sched := s.sched.tail }) (h.moved h.counted) hpos hi hw
  · obtain ⟨hstop, hle, heq⟩ := counted_demosaic_iff.1 hpos
    have hlt := lt_of_getElem? hj
    have hlen : (waiting.eraseIdx j).length + 1 = waiting.length := by
      rw [List.length_eraseIdx_of_lt hlt]
      omega
    refine h.moved (counted_demosaic_iff.2 ⟨fun hs => ?_, ?_, fun hs => ?_⟩)
    · rw [hstop hs]
      rfl
    · rw [List.length_append, List.length_singleton]
      omega
    · have := heq hs
      rw [List.length_append, List.length_singleton]
      omega

theorem engineMove_tracked (h : s.Tracked) (hm : engineMove s = .next t) : t.Tracked := by
  have hc := h.counted
  unfold engineMove at hm
  generalize hp : s.pos = p at hm hc
  cases p with
  | idle => cases hm
  | checked v =>
    cases v with
    | some code => cases hm; exact finish_tracked _ h.le
    | none => cases hm; exact h.moved trivial
  | between => cases hm; exact stepBetween_tracked h
  | starting q => cases hm; exact startPass_tracked h hp
  | lutOpen groups =>
    cases hm
    unfold stepLutOpen
    split
    · exact h.moved trivial
    · split_ifs
      · exact finish_tracked .cancelled h.le
      · exact h.moved hc
  | lutClear g rest => cases hm; exact h.moved hc
  | lutFill g rest n =>
    cases hm
    refine h.moved ?_
    unfold stepLutFill
    dsimp only
    split_ifs <;> exact hc
  | lutMark g rest => cases hm; exact h.moved ⟨g, hc⟩
  | lutCount rest => cases hm; exact lutCount_tracked h hp
  | rawClear =>
    cases hm
    have hzero : s.progress = 0 := hc
    exact h.moved ⟨congrArg BitVec.toNat hzero, Nat.zero_le _⟩
  | rawRow y => cases hm; exact stepRowStart_tracked h fun hy => ⟨hc.1, hy⟩
  | rawPix y x b phase =>
    obtain ⟨-, rfl⟩ | ⟨-, -, k, ch, -, -, hr⟩ := stepRawPix_cases hm
    · exact stepRowEnd_tracked h hc.1 hc.2 fun _ => Iff.rfl
    · obtain ⟨hprog, htodo, x', b', phase', hpos⟩ := rawStep_counted hr
      obtain ⟨hk, hk'⟩ := rawStep_kept hr
      exact h.moved (hpos ▸ hc) ⟨hprog, firstPass_congr hk'.launch, hk.cfg, htodo⟩
  | demosaic active waiting stopped => exact stepDemosaic_tracked h hc hm
  | yuvRow y => cases hm; exact stepRowStart_tracked h fun hy => ⟨hc.1, hy⟩
  | yuvPix y x b phase =>
    obtain ⟨-, rfl⟩ | ⟨-, -, k, -, hr⟩ := stepYuvPix_cases hm
    · exact stepRowEnd_tracked h hc.1 hc.2 fun _ => Iff.rfl
    · obtain ⟨hprog, htodo, x', b', phase', hpos⟩ := yuvStep_counted hr
      obtain ⟨hk, hk'⟩ := yuvStep_kept hr
      exact h.moved (hpos ▸ hc) ⟨hprog, firstPass_congr hk'.launch, hk.cfg, htodo⟩
  | truncated => cases hm; exact h.moved trivial

end Count

/-! ### The whole invariant -/

section Progress

variable {s t : State}

/-- The command can be run again: it sets out from a verdict, on a plan of its own (log 10). -/
def Launch.Tracked (l : Launch) : Prop := (∃ verdict, l.pos = .checked verdict) ∧ lutPassFirst l.todo.head? l.todo

theorem progressTracked_iff : s.ProgressTracked ↔ s.Tracked ∧ ∀ l, s.launch = some l → l.Tracked :=
  ⟨fun ⟨hle, hc, ht, hl⟩ => ⟨⟨hle, hc, ht⟩, hl⟩, fun ⟨⟨hle, hc, ht⟩, hl⟩ => ⟨hle, hc, ht, hl⟩⟩

/-- A command no longer runs. -/
theorem progressTracked_of_over (h : s.Tracked) (hl : s.launch = none) : s.ProgressTracked :=
  progressTracked_iff.2 ⟨h, fun l hlaunch => by cases hl.symm.trans hlaunch⟩

theorem engineStep_progressTracked (h : s.ProgressTracked) (ht : engineStep s = .next t) : t.ProgressTracked := by
  obtain ⟨u, hu, rfl⟩ := engineStep_cases ht
  obtain ⟨hs, hlaunch⟩ := progressTracked_iff.1 h
  have htracked := engineMove_tracked hs hu
  suffices u.ProgressTracked from this
  rcases (engineMove_kept hu).2 with hk | ⟨e, rfl⟩
  · exact progressTracked_iff.2 ⟨htracked, hk.launch ▸ hlaunch⟩
  · exact progressTracked_of_over htracked (finish_launch e s)

/-- A LUT pass is the first of its command's plan, and has at most three groups (R199, R200, R254, R256). -/
theorem planOf_lutPassFirst (i : Instr) (a : State) : lutPassFirst (planOf i a).head? (planOf i a) := by
  have hsingle (p : PassPlan) (hp : ∀ gs, p = .lut gs → gs.length ≤ 3) : lutPassFirst [p].head? [p] := by
    intro gs hg
    obtain rfl := List.mem_singleton.1 hg
    exact ⟨rfl, hp gs rfl⟩
  cases i with
  | nop => exact fun gs hg => nomatch hg
  | lutBuild lvl g8 g16 =>
    simp only [planOf, lutBuildPlan]
    split_ifs
    · exact fun gs hg => nomatch hg
    · exact hsingle _ fun gs hgs => by cases hgs; cases lvl <;> cases g8 <;> cases g16 <;> decide
  | bayerDecode build =>
    intro gs hg
    cases build with
    | false => simp [planOf, bayerPlan] at hg
    | true =>
      have hgs : gs = a.cfg.needed := by simpa [planOf, bayerPlan] using hg
      refine ⟨by rw [hgs]; rfl, ?_⟩
      rw [hgs, CfgRegs.needed]
      split_ifs <;> decide
  | demosaic => exact hsingle _ fun gs hgs => by cases hgs
  | yuvConvert => exact hsingle _ fun gs hgs => by cases hgs

theorem issued_progressTracked (i : Instr) (hb : s.busy = false) : (issued i s).ProgressTracked := by
  rcases issued_idle_cases i hb with e | e <;> rw [e]
  · exact progressTracked_of_over (finish_tracked .done (Nat.zero_le _)) (finish_launch _ _)
  · have hplan := planOf_lutPassFirst i (accept (encode i) s)
    refine progressTracked_iff.2 ⟨⟨Nat.zero_le _, trivial, hplan⟩, fun l hl => ?_⟩
    cases hl
    exact ⟨⟨_, rfl⟩, hplan⟩

theorem resetRegisters_progressTracked (s : State) : s.resetRegisters.ProgressTracked :=
  progressTracked_of_over ⟨Nat.zero_le _, trivial, fun _ hg => nomatch hg⟩ rfl

theorem requestCancel_progressTracked (h : s.ProgressTracked) : (requestCancel s).ProgressTracked := by
  unfold requestCancel
  split_ifs
  · obtain ⟨ht, hl⟩ := progressTracked_iff.1 h
    exact progressTracked_iff.2 ⟨ht.moved ht.counted, hl⟩
  · exact h

/-- A command run again starts its count anew. -/
theorem relaunch_progressTracked {l : Launch} (hl : s.launch = some l) (h : s.ProgressTracked) :
    (relaunch l s).ProgressTracked := by
  obtain ⟨-, hlaunch⟩ := progressTracked_iff.1 h
  obtain ⟨⟨v, hv⟩, htodo⟩ := hlaunch l hl
  refine progressTracked_iff.2 ⟨⟨Nat.zero_le _, ?_, ?_⟩, hlaunch⟩
  · rw [relaunch, hv]
    trivial
  · rw [firstPass_congr (show (relaunch l s).launch = s.launch from rfl), State.firstPass, hl]
    exact htodo

/-- What the command set out from, a byte of its destination space replaced (R102). -/
theorem launchWrite_progressTracked (d : Nat) (v : Byte) (h : s.ProgressTracked) :
    State.ProgressTracked { s with launch := s.launch.map fun l => { l with dst := Memory.write l.dst d v } } := by
  obtain ⟨ht, hlaunch⟩ := progressTracked_iff.1 h
  refine progressTracked_iff.2 ⟨ht.moved ht.counted ⟨rfl, ?_, rfl, rfl⟩, fun l' hl' => ?_⟩
  · unfold State.firstPass
    cases s.launch <;> rfl
  · obtain ⟨l, hl, rfl⟩ := Option.map_eq_some_iff.1 hl'
    exact hlaunch l hl

theorem progressInvariant : StepInvariant State.ProgressTracked fun _ => True where
  engine {s} _ h := by
    cases ht : engineStep s with
    | next t => exact engineStep_progressTracked h ht
    | fault e => trivial
    | refused q => trivial
  uninitLut := trivial
  hostLeft _ h := h
  answer _ h := h
  draw h := h
  setOverrun h := h
  issued i hb _ := issued_progressTracked i hb
  illegal _ _ _ := progressTracked_of_over (finish_tracked _ (Nat.zero_le _)) (finish_launch _ _)
  clearStatus _ h := h
  irqEn _ h := h
  regs _ _ h := h
  lutAddr _ h := h
  portRead h := h
  portWrite _ h := h
  cancel := requestCancel_progressTracked
  softReset _ := resetRegisters_progressTracked _
  hardReset {s} _ := resetRegisters_progressTracked (abandon s)
  srcWrite _ _ h := h
  dstWrite _ _ h := h
  launchWrite := launchWrite_progressTracked
  foreign _ _ h := h
  relaunch _ := relaunch_progressTracked

end Progress

/-- Settles O59: PROGRESS is cleared where a pass begins, and counts each unit once as the position leaves it. -/
theorem stepKeepsProgressTracked : Obligations.StepKeepsProgressTracked := by
  unfold Obligations.StepKeepsProgressTracked
  exact fun s t h ht => progressInvariant.step_next h ht

/-! ### The state after reset -/

/-- Settles O60: the reset state is idle with every entry unwritten, its memories made of the cells of power-on. -/
theorem resetMeetsEveryInvariant : Obligations.ResetMeetsEveryInvariant := by
  unfold Obligations.ResetMeetsEveryInvariant
  obtain ⟨hidle, hone⟩ := resetRegisters_oneOutcome State.reset
  have hready : State.reset.EngineReady := fun hb => by cases hb
  exact ⟨⟨⟨Memory.ofCells_wf _ _, Memory.ofCells_wf _ _⟩, Luts.unwritten_sized, fun _ hl => by cases hl⟩, hidle, hone,
    resetRegisters_reservedZero State.reset, hready, resetRegisters_progressTracked State.reset⟩

end Sys2Proof.Machine
end

section
/-! What changes tables and STATS (R52, R206), and the obligation on it. -/

namespace Sys2Proof.Machine

section Tables

variable {s t : State} {i : Instr}

/-- The end of a command leaves STATS unless the command overlaps and may write them (R83, I4; log 14). -/
theorem settledStats_of_op (ho : s.op = encode i) (hi : writesStats i = false) : s.settledStats = s.stats := by
  unfold State.settledStats
  rw [ho, decode_encode]
  simp [Decoded.command?, hi]

/-- A command without a LUT pass to come leaves tables and LUT_VALID. -/
theorem runEngine_tablesStay {n : Nat} (h : s.LutPassOver) (ht : runEngine n s = .next t) : TablesStay s t :=
  runEngine_induct (P := TablesStay s)
    (fun _ _ _ hu hstep => by
      obtain ⟨hover, hl, hv⟩ := engineStep_tablesStay hu.passOver hstep
      exact ⟨hover, hl.trans hu.luts, hv.trans hu.lutValid⟩)
    ⟨h, rfl, rfl⟩ ht

/-- A command that neither is in nor comes to a raw pass, and is no BAYER_DECODE, leaves STATS. -/
theorem engineStep_statsStay (h : s.RawPassOver) (ho : s.op = encode i) (hi : writesStats i = false)
    (ht : engineStep s = .next t) : t.stats = s.stats := by
  have hpos : .raw ∉ s.pos.left := fun hr => h (List.mem_append_left _ hr)
  rcases engineStep_moveKept ht with ⟨e, rfl⟩ | hmove
  · rw [finish_stats]
    exact settledStats_of_op ho hi
  · rcases hmove.stats with hsame | hclear | ⟨y, x, b, v, hcount⟩
    · exact hsame
    · exact absurd (by rw [hclear]; exact List.mem_cons_self) hpos
    · exact absurd (by rw [hcount]; exact List.mem_cons_self) hpos

theorem runEngine_statsStay {n : Nat} (h : s.RawPassOver) (ho : s.op = encode i) (hi : writesStats i = false)
    (ht : runEngine n s = .next t) : t.stats = s.stats := by
  have hall := runEngine_induct (P := fun u => u.RawPassOver ∧ u.op = encode i ∧ u.stats = s.stats)
    (fun _ _ _ hu hstep => by
      obtain ⟨hover, hop, hstats⟩ := hu
      exact ⟨engineStep_rawPassOver hover hstep, (engineStep_kept hstep).op.trans hop,
        (engineStep_statsStay hover hop hi hstep).trans hstats⟩)
    ⟨h, ho, rfl⟩ ht
  exact hall.2.2

/-- What a command sets out with of tables and STATS is what stood before it (R140). -/
theorem issued_tablesAndStats (hb : s.busy = false) : TablesAndStatsKept s (issued i s) := by
  rcases issued_idle_cases i hb with e | e <;> rw [e]
  · exact ⟨finish_luts _ _, finish_lutValid _ _, finish_stats_unread .done rfl⟩
  · exact ⟨rfl, rfl, rfl⟩

theorem issued_lutPassOver (hb : s.busy = false) (hl : ∀ l a b, i ≠ .lutBuild l a b) (hd : i ≠ .bayerDecode true) :
    (issued i s).LutPassOver := by
  rcases issued_idle_cases i hb with e | e <;> rw [e]
  · exact (finish_tablesStay .done).passOver
  · intro gs hg
    obtain ⟨hfirst, -⟩ := planOf_lutPassFirst i (accept (encode i) s) gs hg
    cases i with
    | lutBuild l a b => exact hl l a b rfl
    | bayerDecode build =>
      cases build with
      | false => cases hfirst
      | true => exact hd rfl
    | _ => cases hfirst

theorem issued_rawPassOver (hb : s.busy = false) (hi : writesStats i = false) : (issued i s).RawPassOver := by
  rcases issued_idle_cases i hb with e | e <;> rw [e]
  · exact finish_rawPassOver .done
  · intro hr
    cases i with
    | nop => cases hr
    | lutBuild l a b =>
      simp only [State.launched, Pos.left, planOf, lutBuildPlan, List.nil_append] at hr
      split_ifs at hr
      · cases hr
      · simp at hr
    | bayerDecode build => cases hi
    | demosaic => simp [State.launched, Pos.left, planOf] at hr
    | yuvConvert => simp [State.launched, Pos.left, planOf] at hr

theorem requestCancel_tablesAndStats (s : State) : TablesAndStatsKept s (requestCancel s) := by
  unfold requestCancel
  split_ifs <;> exact ⟨rfl, rfl, rfl⟩

/-- Outside the filling of a table a reset finds none to tear (R342). -/
theorem softReset_luts (h : ∀ g rest n, s.pos ≠ .lutFill g rest n) : (softReset s).luts = s.luts := by
  have htorn : s.tornLuts = s.luts := by
    unfold State.tornLuts
    split
    · rename_i g rest n hp
      exact absurd hp (h g rest n)
    · rfl
  show (abandon s).luts = s.luts
  unfold abandon
  split_ifs
  · exact htorn
  · rfl

end Tables

/-- Settles O10: `MoveKept` step by step, and for a command that has no LUT pass, or no raw pass, to come. -/
theorem tablesAndStatsChangeOnlyWhereStated : Obligations.TablesAndStatsChangeOnlyWhereStated := by
  unfold Obligations.TablesAndStatsChangeOnlyWhereStated
  refine ⟨fun s t ht => ?_, fun i s t hb ht => ⟨fun hl hd => ?_, fun hi => ?_⟩, fun s => ?_, fun s => softReset_luts⟩
  · rcases engineStep_moveKept ht with ⟨e, rfl⟩ | hmove
    · refine ⟨fun hne => absurd (finish_luts e s) hne, fun hne => .inr (.inr ⟨?_, finish_busy e s⟩)⟩
      refine (Bool.eq_false_or_eq_true s.overlaps).resolve_right fun ho => hne ?_
      rw [finish_stats, State.settledStats_of_apart ho]
    · refine ⟨fun hne => ?_, fun hne => (hmove.stats.resolve_left hne).imp_right .inl⟩
      obtain ⟨g, rest, n, hp, -⟩ := hmove.luts.resolve_left hne
      exact ⟨g, rest, n, hp⟩
  · rw [exec_eq_settle_issued] at ht
    have hk := issued_tablesAndStats (i := i) hb
    obtain ⟨-, hluts, hvalid⟩ := runEngine_tablesStay (issued_lutPassOver hb hl hd) ht
    exact ⟨hluts.trans hk.luts, hvalid.trans hk.lutValid⟩
  · have hw : writesStats i = false := by
      cases i with
      | bayerDecode b => exact absurd rfl (hi b)
      | _ => rfl
    rw [exec_eq_settle_issued] at ht
    have hk := issued_tablesAndStats (i := i) hb
    exact (runEngine_statsStay (issued_rawPassOver hb hw) (issued_cmd hb).2.1 hw ht).trans hk.stats
  · obtain ⟨hl, hv, hs⟩ := requestCancel_tablesAndStats s
    exact ⟨hl, hv, hs⟩

end Sys2Proof.Machine
end

section
/-! What a reset of a running block tears (R342), and what the host reads of the memories (R93, R100 to R102). -/

namespace Sys2Proof.Machine

section Torn

variable {s t : State}

/-! ### The writes in flight at a reset -/

/-- Each byte holds what it held, or what a write in flight would have stored (R342, log 8). -/
theorem State.tornDst_read (h : Memory.wf s.dst = true) (a : Nat) :
    Memory.read s.tornDst a = Memory.read s.dst a ∨ (a, Memory.read s.tornDst a) ∈ s.inFlight := by
  have hfold (l : List Host.Cell) (m : Memory) (hm : Memory.wf m = true) (r : Byte)
      (hr : r = Memory.read (l.foldl (fun m c => if Config.tornByte s.draws c.1 then Memory.write m c.1 c.2 else m) m) a) :
      r = Memory.read m a ∨ (a, r) ∈ l := by
    induction l generalizing m with
    | nil => exact .inl hr
    | cons c l ih =>
      rw [List.foldl_cons] at hr
      split_ifs at hr
      · rcases ih _ (Memory.write_wf _ _ hm) hr with e | hmem
        · by_cases ha : a = c.1
          · rw [ha, Memory.read_write_same _ _ hm] at e
            exact .inr (by rw [ha, e]; exact List.mem_cons_self)
          · rw [Memory.read_write_other _ _ ha] at e
            exact .inl e
        · exact .inr (List.mem_cons_of_mem _ hmem)
      · exact (ih _ hm hr).imp_right (List.mem_cons_of_mem _)
  exact hfold s.inFlight s.dst h _ rfl

/-- With no byte raced for or shared, the end of an abandoned command leaves the source space, and of the destination
space what the torn writes leave. -/
theorem abandon_memories (hb : s.busy = true) (hun : s.Unraced) (hshared : ∀ r ∈ s.srcRead, aliasOf s.params r.addr = none) :
    (abandon s).src = s.src ∧ (abandon s).dst = s.tornDst := by
  unfold abandon
  rw [if_pos hb]
  refine ⟨State.settledSrc_of_nil hun.src, State.settledDst_of_nil ?_⟩
  exact State.racedBytes_of_apart hun.src hun.dst (State.overlaps_of_unshared hshared)

theorem softReset_memories (hb : s.busy = true) (hun : s.Unraced)
    (hshared : ∀ r ∈ s.srcRead, aliasOf s.params r.addr = none) :
    (softReset s).src = s.src ∧ (softReset s).dst = s.tornDst := abandon_memories hb hun hshared

theorem softReset_tornLuts (hb : s.busy = true) : (softReset s).luts = s.tornLuts := by
  show (abandon s).luts = s.tornLuts
  unfold abandon
  rw [if_pos hb]

theorem State.tornLuts_fill {l : Launch} {g : Group} {rest : List Group} {n : Nat} (hl : s.launch = some l)
    (hp : s.pos = .lutFill g rest n) :
    s.tornLuts = s.luts.torn l.luts s.cfg s.params.gainTol s.draws g n := by
  rw [State.tornLuts, hp, hl]
  rfl

/-- An entry of a torn table is the old or the new one. -/
theorem read_tornTable {α : Type} {d : Nat} (stored : Nat → Bool) (old : Ram α) (f : Nat → α) {i : Nat} (hi : i < 2 ^ d) :
    Ram.read (tornTable d stored old (Ram.build d f)) i = Ram.read old i ∨
      Ram.read (tornTable d stored old (Ram.build d f)) i = f i := by
  rw [tornTable, Ram.read_build d _ hi]
  split_ifs
  · exact .inr (Ram.read_build d f hi)
  · exact .inl rfl

/-- STATUS after a reset: no flag, code or pass (R340). -/
theorem resetRegisters_status (s : State) : s.resetRegisters.status = 0 := by
  simp [State.status, State.resetRegisters, bitAt, ErrCode.code, Pass.code]

end Torn

/-- Settles O54: the torn memory and the torn table read entry by entry. -/
theorem resetsTearOnlyTheWritesInFlight : Obligations.ResetsTearOnlyTheWritesInFlight := by
  unfold Obligations.ResetsTearOnlyTheWritesInFlight
  refine ⟨fun s t hb hun hshared hwf ht => ?_, fun s => ⟨hostAccess_hardReset s, fun _ => hostAccess_softReset s⟩,
    fun s hb => ⟨softReset_luts, fun l g rest n hl hp => ?_⟩⟩
  · obtain ⟨hsrc, hdst⟩ := softReset_memories hb hun hshared
    have hread := State.tornDst_read hwf
    rw [← hdst] at hread
    have hstatus : (softReset s).status = 0 := resetRegisters_status _
    rcases ht with rfl | rfl <;> exact ⟨rfl, hstatus, rfl, rfl, rfl, rfl, rfl, hsrc, hread⟩
  · rw [softReset_tornLuts hb, State.tornLuts_fill hl hp]
    refine ⟨fun hg => ?_, fun hg => ?_, fun hg => ?_⟩ <;> subst hg
    · exact ⟨rfl, rfl, fun i hi => read_tornTable (d := 16) _ _ _ hi⟩
    · refine ⟨rfl, rfl, fun c hc => ?_, fun i hi => ?_⟩
      · exact (PerChan.get_set _ _ _ _).trans (if_neg hc)
      · simp only [Luts.torn, PerChan.get_set, if_pos]
        exact read_tornTable (d := 8) _ _ _ hi
    · refine ⟨rfl, rfl, fun c hc => ?_, fun i hi => ?_⟩
      · exact (PerChan.get_set _ _ _ _).trans (if_neg hc)
      · simp only [Luts.torn, PerChan.get_set, if_pos]
        exact read_tornTable (d := 16) _ _ _ hi

/-! ### The host's use of the memories -/

section HostMemory

variable {s t : State} {a : Nat}

theorem hostDstRead_idle (hb : s.busy = false) (a : Nat) :
    hostDstRead a s = s.answer (BitVec.zeroExtend 32 (Memory.read s.dst a)) := by
  unfold hostDstRead
  rw [if_neg (by simp [hb])]

/-- While idle a source byte reads as it stands, the destination byte it is mapped to included (R83, R93). -/
theorem hostSrcRead_idle (hb : s.busy = false) (a : Nat) :
    hostSrcRead a s = s.answer (BitVec.zeroExtend 32 (s.srcAt a)) := by
  cases hal : aliasOf s.params a with
  | some d =>
    simp only [hostSrcRead, State.srcAt, hal]
    exact hostDstRead_idle hb d
  | none =>
    simp only [hostSrcRead, State.srcAt, hal]
    rw [if_neg (by simp [hb])]

theorem hostDstWrite_idle (hb : s.busy = false) (d : Nat) (v : Byte) :
    hostDstWrite d v s = .next { s with dst := Memory.write s.dst d v } := by
  unfold hostDstWrite
  rw [if_neg (by simp [hb])]

theorem hostSrcWrite_idle (hb : s.busy = false) (ha : aliasOf s.params a = none) (v : Byte) :
    hostSrcWrite a v s = .next { s with src := Memory.write s.src a v } := by
  unfold hostSrcWrite
  rw [ha]
  exact if_neg (by simp [hb])

theorem hostSrcWrite_alias {d : Nat} (ha : aliasOf s.params a = some d) (v : Byte) :
    hostSrcWrite a v s = hostDstWrite d v s := by
  unfold hostSrcWrite
  rw [ha]

/-- While a command runs, a read of a byte not raced for answers one of the values on record (R100, log 9). -/
theorem hostDstRead_busy (hb : s.busy = true) (hr : a ∉ s.racedBytes) :
    ∃ v ∈ s.dstValues a, hostDstRead a s = s.draw.answer (BitVec.zeroExtend 32 v) := by
  have hlt : Config.dstReadChoice s.draws % (s.dstValues a).length < (s.dstValues a).length :=
    Nat.mod_lt _ (Nat.succ_pos _)
  refine ⟨_, List.getElem_mem hlt, ?_⟩
  unfold hostDstRead
  rw [if_pos hb, if_neg (by simpa using hr), List.getD_eq_getElem _ _ hlt]

theorem hostSrcRead_busy (ha : aliasOf s.params a = none) (hr : a ∉ s.racedSources) :
    hostSrcRead a s = s.answer (BitVec.zeroExtend 32 (Memory.read s.src a)) := by
  unfold hostSrcRead
  rw [ha]
  exact if_neg (by simp [hr])

theorem andThen_next {r : Result} {k : State → Result} (h : andThen r k = .next t) :
    ∃ u, r = .next u ∧ k u = .next t := by
  cases r with
  | next u => exact ⟨u, rfl, h⟩
  | fault e => cases h
  | refused q => cases h

/-- A run of one more step, taken apart at its last step. -/
theorem runEngine_last {n : Nat} (h : runEngine (n + 1) s = .next t) :
    ∃ u, runEngine n s = .next u ∧ (t = u ∨ engineStep u = .next t) := by
  rw [runEngine_add] at h
  obtain ⟨u, hu, h⟩ := andThen_next h
  refine ⟨u, hu, ?_⟩
  obtain ⟨-, rfl⟩ | ⟨-, v, hv, h⟩ := runEngine_succ_cases h
  · exact .inl rfl
  · cases h
    exact .inr hv

/-- A value on record is one the byte held after some engine step since the record began (R100). -/
theorem overwritten_held {n : Nat} (hs : s.overwritten = []) (h : runEngine n s = .next t) :
    ∀ c ∈ t.overwritten, ∃ (m : Nat) (u : State), m ≤ n ∧ runEngine m s = .next u ∧ Memory.read u.dst c.1 = c.2 := by
  induction n generalizing t with
  | zero =>
    cases h
    simp [hs]
  | succ n ih =>
    intro c hc
    obtain ⟨u, hu, hlast⟩ := runEngine_last h
    have hearlier (hc : c ∈ u.overwritten) :
        ∃ (m : Nat) (u : State), m ≤ n + 1 ∧ runEngine m s = .next u ∧ Memory.read u.dst c.1 = c.2 := by
      obtain ⟨m, w, hm, hw, hread⟩ := ih hu c hc
      exact ⟨m, w, by omega, hw, hread⟩
    rcases hlast with rfl | hstep
    · exact hearlier hc
    · rcases engineStep_moveKept hstep with ⟨e, rfl⟩ | hmove
      · simp at hc
      · rcases hmove.overwritten c hc with hc | hread
        · exact hearlier hc
        · exact ⟨n, u, by omega, hu, hread.symm⟩

end HostMemory

/-- Settles O52: idle accesses are exact; a busy read answers a value on record, and each value on record was held. -/
theorem hostReadsOfMemoryAnswerAValueHeld : Obligations.HostReadsOfMemoryAnswerAValueHeld := by
  unfold Obligations.HostReadsOfMemoryAnswerAValueHeld
  refine ⟨fun s a v hb hwf => ⟨fun ha => ⟨?_, ?_⟩, fun ha => ⟨?_, fun hal => ?_, fun d hal => ?_⟩⟩,
    fun s a v => ⟨fun ha => ⟨if_neg (by omega), if_neg (by omega)⟩, fun ha => ⟨if_neg (by omega), if_neg (by omega)⟩⟩,
    fun s a hb ha hr => ?_, fun s a hb ha hal hr => ?_, fun n s t a hs h v hv => ?_⟩
  · rw [hostAccess, if_pos ha, hostDstRead_idle hb]
    exact settle_idle hb
  · refine ⟨Memory.write s.dst a v, ?_, Memory.read_write_same a v hwf.2, fun b hne => Memory.read_write_other _ _ hne⟩
    rw [hostAccess, if_pos ha, hostDstWrite_idle hb]
    exact settle_idle hb
  · rw [hostAccess, if_pos ha, hostSrcRead_idle hb]
    exact settle_idle hb
  · refine ⟨by rw [State.srcAt, hal], Memory.write s.src a v, ?_, Memory.read_write_same a v hwf.1,
      fun b hne => Memory.read_write_other _ _ hne⟩
    rw [hostAccess, if_pos ha, hostSrcWrite_idle hb hal]
    exact settle_idle hb
  · refine ⟨by rw [State.srcAt, hal], Memory.write s.dst d v, ?_, Memory.read_write_same d v hwf.2,
      fun b hne => Memory.read_write_other _ _ hne⟩
    rw [hostAccess, if_pos ha, hostSrcWrite_alias hal, hostDstWrite_idle hb]
    exact settle_idle hb
  · obtain ⟨v, hv, hread⟩ := hostDstRead_busy hb hr
    exact ⟨v, hv, by rw [hostAccess, if_pos ha, hread]⟩
  · rw [hostAccess, if_pos ha, hostSrcRead_busy hal hr]
  · rcases List.mem_cons.1 hv with rfl | hv
    · exact ⟨n, t, le_rfl, h, rfl⟩
    · obtain ⟨c, hc, rfl⟩ := List.mem_map.1 hv
      obtain ⟨hc, hca⟩ := List.mem_filter.1 hc
      have hca : c.1 = a := by simpa using hca
      exact hca ▸ overwritten_held hs h c hc

end Sys2Proof.Machine
end

section
/-! The gain function (R192, R193), the scan order of decodable pixels (R261), the words of the opcode map (R112, R126) and
the fields of STATUS (R27, R300): the obligations on them. -/

namespace Sys2Proof.Machine

/-! ### The gain function -/

section Gain

variable {tol n i j g h : Nat}

/-- R192 with the distance from 1.0 as an absolute value. -/
theorem gainFn_eq (tol n i g : Nat) :
    gainFn tol n i g = if |(g : Int) - 65536| ≤ tol then i else min (i * g / 65536) (2 ^ n - 1) :=
  if_congr (by rw [abs_le]; omega) rfl rfl

theorem gainFn_inside (hg : (g - 65536) + (65536 - g) ≤ tol) : gainFn tol n i g = i := if_pos hg

theorem gainFn_outside (hg : tol < (g - 65536) + (65536 - g)) :
    gainFn tol n i g = min (i * g / 65536) (2 ^ n - 1) := if_neg (by omega)

theorem gainFn_mono_input (hij : i ≤ j) : gainFn tol n i g ≤ gainFn tol n j g := by
  unfold gainFn
  split_ifs
  · exact hij
  · exact min_le_min_right _ (Nat.div_le_div_right (Nat.mul_le_mul_right g hij))

/-- Below 1.0 a gain lowers, above 1.0 it raises, up to full scale. -/
theorem scaled_le (hg : g ≤ 65536) : i * g / 65536 ≤ i :=
  Nat.div_le_of_le_mul (by rw [Nat.mul_comm 65536]; exact Nat.mul_le_mul_left i hg)

theorem le_scaled (hg : 65536 ≤ g) : i ≤ i * g / 65536 :=
  (Nat.le_div_iff_mul_le (by decide)).2 (Nat.mul_le_mul_left i hg)

/-- In the gain: the unity band lies between the gains below it, which lower, and those above it, which raise. -/
theorem gainFn_mono_gain (hgh : g ≤ h) (hi : i ≤ 2 ^ n - 1) : gainFn tol n i g ≤ gainFn tol n i h := by
  rcases Nat.lt_or_ge tol ((g - 65536) + (65536 - g)) with hg | hg <;>
    rcases Nat.lt_or_ge tol ((h - 65536) + (65536 - h)) with hh | hh
  · rw [gainFn_outside hg, gainFn_outside hh]
    exact min_le_min_right _ (Nat.div_le_div_right (Nat.mul_le_mul_left i hgh))
  · rw [gainFn_outside hg, gainFn_inside hh]
    exact (min_le_left _ _).trans (scaled_le (by omega))
  · rw [gainFn_inside hg, gainFn_outside hh]
    exact le_min (le_scaled (by omega)) hi
  · rw [gainFn_inside hg, gainFn_inside hh]

/-- R193's saturation: from the stated input on the scaled value reaches full scale; at gain 1.0 that input is full scale
itself. -/
theorem gainFn_saturates (hg : 65536 ≤ g) (hband : tol = 0 ∨ tol < g - 65536)
    (hi : ((2 ^ n - 1) * 65536 + g - 1) / g ≤ i) (hfull : i ≤ 2 ^ n - 1) : gainFn tol n i g = 2 ^ n - 1 := by
  have hreach : (2 ^ n - 1) * 65536 ≤ i * g := by
    have hlt := (Nat.div_lt_iff_lt_mul (by omega)).1 (Nat.lt_succ_of_le hi)
    rw [Nat.succ_mul] at hlt
    omega
  rcases Nat.lt_or_ge tol ((g - 65536) + (65536 - g)) with hout | hin
  · rw [gainFn_outside hout]
    exact min_eq_right ((Nat.le_div_iff_mul_le (by decide)).2 hreach)
  · rw [gainFn_inside hin]
    have hunity : g = 65536 := by omega
    rw [hunity] at hreach
    omega

end Gain

/-- Settles O18: inside the band the gain is the identity, outside it the scaled value up to full scale. -/
theorem gainFunctionProperties : Obligations.GainFunctionProperties := by
  unfold Obligations.GainFunctionProperties
  intro tol n _
  refine ⟨gainFn_eq tol n, gainFn_unity tol n, fun g i j hij _ => gainFn_mono_input hij,
    fun g h i => gainFn_mono_gain, fun g => ?_, fun g i hi => ?_, fun g i => gainFn_saturates, ?_, ?_, ?_, ?_⟩
  · unfold gainFn
    split_ifs <;> simp
  · have hlt := gainFn_lt (tol := tol) g (Nat.lt_of_le_pred (Nat.two_pow_pos n) hi)
    omega
  all_goals decide

/-! ### The scan order -/

/-- Settles O28: the first byte a pixel depends on rises along the scan. -/
theorem decodedPixelsAreAPrefixOfTheScan : Obligations.DecodedPixelsAreAPrefixOfTheScan := by
  unfold Obligations.DecodedPixelsAreAPrefixOfTheScan
  exact fun c k x y x' y' hk hs hp _ h hd => CfgRegs.not_decodable_of_later hk hs hp.1 h hd

/-! ### Command words -/

/-- Settles O3, word by word. -/
theorem writtenOutWordsDecode : Obligations.WrittenOutWordsDecode := by
  unfold Obligations.WrittenOutWordsDecode
  decide

section Fetch

variable {s : State} {n : Nat} {w : Word} {rest : List HostEvent}

/-- A step whose oldest access writes CMD is the write's meaning (R106, R143). -/
theorem step_commandWrite (h : s.host = ⟨n, .write 0x00C w 32⟩ :: rest) : step s = issueWord w { s with host := rest } := by
  rw [step, h]
  exact hostAccess_write_offset .cmd w _

theorem issueWord_command {i : Instr} (hw : decode w = .command i) (s : State) : issueWord w s = exec i s := by
  rw [issueWord, hw]

theorem issueWord_illegalCommand {why : IllegalReason} (hw : decode w = .illegal why) (s : State) :
    issueWord w s = settle (illegalCommand w s) := by
  rw [issueWord, hw]

theorem ofNat_toNat_mod (w : Word) : BitVec.ofNat 32 (w.toNat % 2 ^ 32) = w := by
  rw [Nat.mod_eq_of_lt w.isLt, BitVec.ofNat_toNat, BitVec.setWidth_eq]

end Fetch

/-- Settles O4: the write to CMD is issued as the word it carries, which decodes to the command it encodes. -/
theorem stepRunsTheDecodedCommand : Obligations.StepRunsTheDecodedCommand := by
  unfold Obligations.StepRunsTheDecodedCommand
  refine ⟨fun s n w rest i hs hw => ?_, fun s n w rest why hs hw => ?_, fun s i => ?_, fun i => ?_⟩
  · rw [step_commandWrite hs, issueWord_command hw]
  · rw [step_commandWrite hs, issueWord_illegalCommand hw]
  · have hw := ofNat_toNat_mod (encode i)
    rw [step_commandWrite (rest := s.host) (w := encode i) (n := 0) (by rw [State.withFetchWord, hw]; rfl),
      issueWord_command (decode_encode i)]
    rfl
  · rw [decodeTableWord, if_pos (Nat.mod_lt _ (Nat.two_pow_pos 32)), ofNat_toNat_mod, decode_encode]
    rfl

/-! ### The fields of STATUS -/

theorem getLsbD_bitAt (b : Bool) {i : Nat} (j : Nat) (hi : i < 32) :
    (bitAt b i).getLsbD j = (b && decide (j = i)) := by
  cases b with
  | false => simp [bitAt]
  | true =>
    rw [bitAt, if_pos rfl, BitVec.getLsbD_shiftLeft, BitVec.getLsbD_one, Bool.eq_iff_iff]
    simp
    omega

/-- A code of n bits has no bit from n up. -/
theorem getLsbD_of_code {w : Word} {n j : Nat} (hw : w.toNat < 2 ^ n) (hj : n ≤ j) : w.getLsbD j = false :=
  Nat.testBit_lt_two_pow (hw.trans_le (Nat.pow_le_pow_right Nat.two_pos hj))

/-- A code of n bits put at bit k of a word, bit by bit. -/
theorem getLsbD_codeAt {w : Word} {n k : Nat} (j : Nat) (hw : w.toNat < 2 ^ n) (hk : n + k ≤ 32) :
    (w <<< k).getLsbD j = (decide (k ≤ j) && w.getLsbD (j - k)) := by
  rw [BitVec.getLsbD_shiftLeft]
  rcases Nat.lt_or_ge j 32 with hj | hj
  · rw [decide_eq_true hj, Bool.true_and, ← decide_not]
    simp only [Nat.not_lt]
  · simp [getLsbD_of_code (j := j - k) hw (by omega)]

section Status

variable (s : State)

theorem ErrCode.code_lt (e : ErrCode) : e.code.toNat < 2 ^ 4 := by cases e <;> decide

theorem Pass.code_lt (p : Pass) : p.code.toNat < 2 ^ 3 := by cases p <;> decide

/-- STATUS bit by bit: six flags, a code of four bits and one of three (R27). -/
theorem State.getLsbD_status (j : Nat) :
    s.status.getLsbD j =
      (s.busy && decide (j = 0) || s.done && decide (j = 1) || s.error && decide (j = 2) ||
        s.cancelled && decide (j = 3) || s.overrun && decide (j = 4) || s.trunc && decide (j = 5) ||
        decide (8 ≤ j) && s.errCode.code.getLsbD (j - 8) || decide (12 ≤ j) && s.pass.code.getLsbD (j - 12)) := by
  simp only [State.status, BitVec.getLsbD_or, getLsbD_bitAt, getLsbD_codeAt j s.errCode.code_lt,
    getLsbD_codeAt j s.pass.code_lt, Nat.reduceLT, Nat.reduceAdd, Nat.reduceLeDiff]

/-- Past the flags STATUS holds its two codes. -/
theorem State.getLsbD_status_codes {j : Nat} (hj : 6 ≤ j) :
    s.status.getLsbD j =
      (decide (8 ≤ j) && s.errCode.code.getLsbD (j - 8) || decide (12 ≤ j) && s.pass.code.getLsbD (j - 12)) := by
  have hne (k : Nat) (hk : k < 6) : decide (j = k) = false := decide_eq_false (by omega)
  simp [State.getLsbD_status, hne]

theorem State.status_reserved_low : s.status.extractLsb' 6 2 = 0 := by
  refine BitVec.eq_of_getLsbD_eq fun i hi => ?_
  have h8 : decide (8 ≤ 6 + i) = false := decide_eq_false (by omega)
  have h12 : decide (12 ≤ 6 + i) = false := decide_eq_false (by omega)
  simp [BitVec.getLsbD_extractLsb', s.getLsbD_status_codes (Nat.le_add_right 6 i), h8, h12]

theorem State.status_reserved_high : s.status.extractLsb' 15 17 = 0 := by
  refine BitVec.eq_of_getLsbD_eq fun i hi => ?_
  have hcode : s.errCode.code.getLsbD (15 + i - 8) = false := getLsbD_of_code s.errCode.code_lt (by omega)
  have hpass : s.pass.code.getLsbD (15 + i - 12) = false := getLsbD_of_code s.pass.code_lt (by omega)
  simp [BitVec.getLsbD_extractLsb', s.getLsbD_status_codes (show 6 ≤ 15 + i by omega), hcode, hpass]

theorem State.status_errCode : s.status.extractLsb' 8 4 = s.errCode.code.extractLsb' 0 4 := by
  refine BitVec.eq_of_getLsbD_eq fun i hi => ?_
  have h12 : decide (12 ≤ 8 + i) = false := decide_eq_false (by omega)
  simp [BitVec.getLsbD_extractLsb', s.getLsbD_status_codes (show 6 ≤ 8 + i by omega), h12]

theorem State.status_pass : s.status.extractLsb' 12 3 = s.pass.code.extractLsb' 0 3 := by
  refine BitVec.eq_of_getLsbD_eq fun i hi => ?_
  have hcode : s.errCode.code.getLsbD (12 + i - 8) = false := getLsbD_of_code s.errCode.code_lt (by omega)
  simp [BitVec.getLsbD_extractLsb', s.getLsbD_status_codes (show 6 ≤ 12 + i by omega), hcode]

theorem State.status_flags :
    s.status.getLsbD 0 = s.busy ∧ s.status.getLsbD 1 = s.done ∧ s.status.getLsbD 2 = s.error ∧
      s.status.getLsbD 3 = s.cancelled ∧ s.status.getLsbD 4 = s.overrun ∧ s.status.getLsbD 5 = s.trunc := by
  simp only [s.getLsbD_status]
  simp

end Status

/-- Settles O44: STATUS bit by bit, the codes of errors and passes read off. -/
theorem statusFieldsStandWhereStated : Obligations.StatusFieldsStandWhereStated := by
  unfold Obligations.StatusFieldsStandWhereStated
  intro s
  obtain ⟨hbusy, hdone, herror, hcancelled, hoverrun, htrunc⟩ := s.status_flags
  refine ⟨hbusy, hdone, herror, hcancelled, hoverrun, htrunc, s.status_reserved_low, s.status_reserved_high, ?_, ?_,
    hostAccess_read_offset .status s⟩
  · rw [s.status_errCode]
    cases s.errCode <;> rfl
  · rw [s.status_pass]
    cases s.pass <;> rfl

end Sys2Proof.Machine
end

section
/-! BAYER_DECODE, with build or without, up to its raw pass and from there to its end: where it stops at an unwritten table
entry (R60, R259), and the obligations on the decode without build (45_bayer_decode). -/

namespace Sys2Proof.Machine

/-! ### The tables a decode works with -/

/-- The tables with the groups filled one after the other, of whatever size they are (R200). -/
def Luts.filledIn (c : CfgRegs) (tol : Nat) (gs : List Group) (t : Luts) : Luts :=
  gs.foldl (fun t g => t.stored c tol g g.entries) t

section Filling

variable {s : State} {l : Luts} {v : LutValid} {p : Word} {j : Nat}

/-- A group is cleared, filled, marked and counted (R200). -/
theorem lutGroup_fills (hb : s.busy = true) (g : Group) (rest : List Group) :
    ∃ v' p' j', Reaches (s.lutAt l v p (.lutClear g rest) j)
      (s.lutAt (l.stored s.cfg s.params.gainTol g g.entries) v' p' (.lutOpen rest) j') := by
  have hlast : g.entries - 1 + 1 = g.entries := Nat.sub_add_cancel g.entries_pos
  have hlt : g.entries - 1 < g.entries := Nat.sub_one_lt_of_lt g.entries_pos
  have hclear : Reaches (s.lutAt l v p (.lutClear g rest) j)
      (s.lutAt l (v.set g false) p (.lutFill g rest 0) (j + 1)) := .lutAt hb rfl
  have hstored := (hclear.trans (lutFill_reaches hb g rest hlt)).trans (.lutAt hb (engineMove_lutFill hlt))
  rw [hlast, if_neg (lt_irrefl _)] at hstored
  exact ⟨_, _, _, hstored.trans ((Reaches.lutAt (pos' := .lutCount rest) hb rfl).trans (.lutAt hb rfl))⟩

theorem lutPass_fills (hb : s.busy = true) (hc : s.cancelPending = false) (gs : List Group) :
    ∃ v' p' j', Reaches (s.lutAt l v p (.lutOpen gs) j)
      (s.lutAt (l.filledIn s.cfg s.params.gainTol gs) v' p' .between j') := by
  induction gs generalizing l v p j with
  | nil => exact ⟨v, p, j + 1, .lutAt hb rfl⟩
  | cons g gs ih =>
    have hopen : Reaches (s.lutAt l v p (.lutOpen (g :: gs)) j) (s.lutAt l v p (.lutClear g gs) (j + 1)) :=
      .lutAt hb (by simp [engineMove, stepLutOpen, State.lutAt, hc])
    obtain ⟨v₁, p₁, j₁, hgroup⟩ := lutGroup_fills (l := l) (v := v) (p := p) (j := j + 1) hb g gs
    obtain ⟨v₂, p₂, j₂, hpass⟩ := ih (l := l.stored s.cfg s.params.gainTol g g.entries) (v := v₁) (p := p₁) (j := j₁)
    exact ⟨v₂, p₂, j₂, hopen.trans (hgroup.trans hpass)⟩

end Filling

/-! ### From its acceptance to its raw pass -/

section Decode

variable {b : Bool} {k : Container} {s t u : State} {n : Nat}

/-- BAYER_DECODE as accepted on an idle block with a valid configuration (R140, R144). -/
abbrev State.decodeLaunched (s : State) (b : Bool) : State :=
  (accept (encode (.bayerDecode b)) s).launched none (planOf (.bayerDecode b) (accept (encode (.bayerDecode b)) s))

/-- The tables its raw pass reads: those it has built, or those that stand (R254 to R256). -/
def State.decodeTables (s : State) (b : Bool) : Luts :=
  if b then s.luts.filledIn s.regs s.params.gainTol s.regs.needed else s.luts

/-- The state in which it begins its raw pass. -/
def State.decodeBegun (s : State) (b : Bool) (valid : LutValid) (ticks : Nat) : State :=
  { startPass .raw (showPass .raw { s.decodeLaunched b with
      todo := s.regs.afterRaw, luts := s.decodeTables b, lutValid := valid }) with ticks := ticks }

/-- What it gives at pixel (x, y), the free values those of its own key (log 7, log 17). -/
def State.decodedAt (s : State) (b : Bool) (k : Container) (x y : Nat) : Option RawValue :=
  (s.regs.color x y).bind fun ch => (s.decodeTables b).rawValue s.regs k ch (s.regs.fetch s.srcAt s.regs.p0 k x y)
    (Config.wideIndex (s.draws + 1) (x + 65536 * y))

theorem decodeBegun_liveAt (s : State) (b : Bool) (valid : LutValid) (ticks : Nat) (k : Container) :
    (s.decodeBegun b valid ticks).liveAt k = s.decodedAt b k := rfl

theorem decodeLaunched_reaches (s : State) (b : Bool) :
    ∃ valid ticks, Reaches (s.decodeLaunched b) (s.decodeBegun b valid ticks) ∧ (b = false → valid = s.lutValid) := by
  have hmove : engineMove (s.decodeLaunched b) = .next { s.decodeLaunched b with pos := .between } := rfl
  have hfirst : Reaches (s.decodeLaunched b) { s.decodeLaunched b with pos := .between, ticks := 1 } :=
    .of_move rfl hmove rfl
  have hraw (a : State) (hb : a.busy = true) (hp : a.pos = .between) (ht : a.todo = .raw :: s.regs.afterRaw) :=
    nextPass_reaches hb hp ht
  cases b with
  | false =>
    have hthen := hraw { s.decodeLaunched false with pos := .between, ticks := 1 } rfl rfl rfl
    exact ⟨s.lutValid, 3, hfirst.trans hthen, fun _ => rfl⟩
  | true =>
    have hlut := nextPass_reaches (s := { s.decodeLaunched true with pos := .between, ticks := 1 })
      (p := .lut s.regs.needed) (rest := .raw :: s.regs.afterRaw) rfl rfl rfl
    obtain ⟨valid, p, j, hpass⟩ := lutPass_fills (s := { s.decodeLaunched true with
      pass := .lut, todo := .raw :: s.regs.afterRaw }) (l := s.luts) (v := s.lutValid) (p := 0) (j := 3) rfl rfl
      s.regs.needed
    have hthen := hpass.trans (hraw _ rfl rfl rfl)
    exact ⟨valid, j + 2, hfirst.trans (hlut.trans hthen), nofun⟩

/-- On a valid configuration the raw pass finds what it relies on (R83, R144). -/
theorem decodeBegun_start (hwf : Memory.wf s.dst = true) (hv : Valid (.bayerDecode b) s) (ha : Apart (.bayerDecode b) s)
    (hk : s.regs.p0.container = some k) (valid : LutValid) (ticks : Nat) :
    RawPassStart k (s.decodeBegun b valid ticks) := by
  have hok := checksOf_pass hv
  simp only [checksOf, bayerChecks, List.forall_mem_cons, Bool.or_eq_false_iff] at hok
  obtain ⟨hdim, hdst, hsrc, -, -, ⟨hstride, hdstStride⟩, -, -, hpattern, -⟩ := hok
  have htodo : .raw ∉ s.regs.afterRaw := by
    unfold CfgRegs.afterRaw
    split_ifs <;> simp
  have hspaces : (accept (encode (.bayerDecode b)) s).inSpaces = true := by
    rw [State.inSpaces, hdst, hsrc]
    rfl
  exact ⟨rfl, rfl, rfl, htodo, rfl, rfl, ⟨rfl, rfl⟩, ⟨rfl, rfl, rfl⟩, hwf, hk, CfgRegs.color_ne_none hpattern,
    hspaces, hdim, hstride, hdstStride, ha⟩

/-! ### From its raw pass to its end -/

/-- A valid command other than NOP, undisturbed, is its run from where it sets out. -/
theorem exec_eq_run {i : Instr} (hi : i ≠ .nop) (hb : s.busy = false) (hu : s.Undisturbed) (hv : Valid i s) :
    exec i s = runEngine (issued i s).work
      ((accept (encode i) s).launched none (planOf i (accept (encode i) s))) := by
  rw [exec_eq_settle_issued, settle_undisturbed (by rwa [State.Undisturbed, (issued_idle hb).1.host]),
    ← issued_of_valid hi hb hv]

/-- What an answered decode leaves, from its raw pass on. -/
theorem execDecode_done (hb : s.busy = false) (hu : s.Undisturbed) (hwf : Memory.wf s.dst = true)
    (hv : Valid (.bayerDecode b) s) (ha : Apart (.bayerDecode b) s) (hk : s.regs.p0.container = some k)
    (ht : exec (.bayerDecode b) s = .next t) :
    ∃ valid ticks, DecodeDone k (s.decodeBegun b valid ticks) t ∧ (b = false → valid = s.lutValid) := by
  have hend := exec_endedOnce hb hu ht
  rw [exec_eq_run (i := .bayerDecode b) nofun hb hu hv] at ht
  obtain ⟨valid, ticks, hreach, hvalid⟩ := decodeLaunched_reaches s b
  have hs := decodeBegun_start hwf hv ha hk valid ticks
  obtain ⟨m, hm⟩ := hreach.rest hs.busy ht hend.busy
  exact ⟨valid, ticks, decodeDone hs rfl rfl hm hend.busy hend.cancelled, hvalid⟩

/-! ### Where it stops at an unwritten entry -/

theorem Luts.rawValue_of_look {l : Luts} {c : CfgRegs} {ch : Chan} {raw : Nat} (wide : Half)
    (h : l.look c k ch raw = none) : l.rawValue c k ch raw wide = none := by
  cases k <;> simp_all [Luts.look, Luts.rawValue, Luts.apply16]

/-- A pixel of the raw pass stops the machine only where its value is of an unwritten entry (R259). -/
theorem rawPix_fault (hs : RawPassStart k s) {y x : Nat} {b : Bool} {phase : RawPhase} {e : Fault}
    (hk : PassKept s u) (hphase : s.rawStands k x y phase) (hready : phase.ready u.cfg)
    (hf : stepRawPix y x b phase u = .fault e) :
    x < s.cfg.width ∧ s.cfg.decodable s.cfg.p0 k x y = true ∧ s.liveAt k x y = none := by
  have hspaces : u.inSpaces = true := by
    rw [State.inSpaces, hk.cfg, hk.params]
    exact hs.spaces
  have hcont : u.cfg.p0.container = some k := by
    rw [hk.cfg]
    exact hs.container
  have hwide : u.wideAt x y = s.wideAt x y := by rw [State.wideAt, State.wideAt, State.key, State.key, hk.launch]
  obtain ⟨ch, hch⟩ := Option.ne_none_iff_exists'.1 (hs.colors x y)
  have hch' : u.cfg.color x y = some ch := by
    rw [hk.cfg]
    exact hch
  simp only [stepRawPix, hspaces, hcont, hch', if_true] at hf
  split_ifs at hf with hx
  obtain ⟨-, hun⟩ := rawStep_fault hcont hready hf
  rw [hk.luts, hk.cfg, hwide] at hun
  rw [hk.cfg] at hx
  refine ⟨by omega, ?_⟩
  cases phase with
  | look raw =>
    obtain ⟨hd, rfl⟩ := hphase
    refine ⟨hd, ?_⟩
    rw [State.liveAt, hch]
    exact Luts.rawValue_of_look _ hun
  | gain i =>
    obtain ⟨hd, ch', hch', hlive⟩ := hphase
    cases hch.symm.trans hch'
    refine ⟨hd, ?_⟩
    rw [hlive, show s.luts.gain16 ch i (s.wideAt x y) = none from hun]
    rfl
  | fetch got => exact hun.elim
  | count v => exact hun.elim
  | write out => exact hun.elim

/-- While its raw pass has all the entries it comes to, a decode does not stop. -/
theorem rawWatched_ne_fault (hs : RawPassStart k s)
    (hw : ∀ x y, s.cfg.writes (s.cfg.decodable s.cfg.p0 k) x y → s.liveAt k x y ≠ none) (hu : u.busy = true)
    (hready : u.EngineReady) (h : RawWatched k s u) (e : Fault) : engineMove u ≠ .fault e := by
  intro hf
  obtain ⟨-, y, x, b, phase, k', ch, hpos, -⟩ := engineMove_fault (hready hu).1 hf
  have hphaseReady : phase.ready u.cfg := by
    have hposReady := (hready hu).1.1
    rw [hpos] at hposReady
    exact hposReady.2
  rcases h with h | hover
  · cases h with
    | pixel y' x' b' phase' hpos' hy h hphase stats =>
      cases hpos.symm.trans hpos'
      rw [engineMove, hpos] at hf
      obtain ⟨hx, hd, hnone⟩ := rawPix_fault hs h.frame.kept hphase hphaseReady hf
      exact hw x y ⟨⟨hx, hy⟩, hd, h.reaches⟩ hnone
    | clearing hpos' h => cases hpos.symm.trans hpos'
    | row y hpos' hy h stats => cases hpos.symm.trans hpos'
    | truncated hpos' h stats => cases hpos.symm.trans hpos'
  · exact hover hu (by rw [hpos]; exact List.mem_cons_self)

/-- From where a run comes to, it stops where the run stops. -/
theorem Reaches.rest_fault {e : Fault} (h : Reaches s u) (hf : runEngine n s = .fault e) :
    ∃ m, runEngine m u = .fault e := by
  obtain ⟨i, hi⟩ := h
  rcases le_total n i with hle | hle
  · obtain ⟨m, rfl⟩ := Nat.exists_eq_add_of_le hle
    rw [runEngine_add, hf] at hi
    cases hi
  · obtain ⟨m, rfl⟩ := Nat.exists_eq_add_of_le hle
    rw [runEngine_add, hi] at hf
    exact ⟨m, hf⟩

theorem reaches_ready (h : Reaches s u) (hs : s.EngineReady) : u.EngineReady := by
  obtain ⟨n, hn⟩ := h
  exact runEngine_induct (fun _ _ _ => engineStep_ready) hs hn

/-- A decode that has every entry it reads answers (R148, R259). -/
theorem execDecode_next (hb : s.busy = false) (hu : s.Undisturbed) (hwf : Memory.wf s.dst = true)
    (hv : Valid (.bayerDecode b) s) (ha : Apart (.bayerDecode b) s) (hk : s.regs.p0.container = some k)
    (hw : ∀ x y, s.regs.writes (s.regs.decodable s.regs.p0 k) x y → s.decodedAt b k x y ≠ none) :
    ∃ t, exec (.bayerDecode b) s = .next t := by
  rcases everyCommandEnds.1 (.bayerDecode b) s hb hu with ⟨t, ht, -⟩ | ⟨-, hf⟩
  · exact ⟨t, ht⟩
  · have hready := issued_ready (.bayerDecode b) hb
    rw [exec_eq_run (i := .bayerDecode b) nofun hb hu hv] at hf
    rw [issued_of_valid (i := .bayerDecode b) nofun hb hv] at hready
    obtain ⟨valid, ticks, hreach, -⟩ := decodeLaunched_reaches s b
    have hs := decodeBegun_start hwf hv ha hk valid ticks
    obtain ⟨m, hm⟩ := hreach.rest_fault hf
    obtain ⟨u, hbusy, ⟨hr, hwatch⟩, hfault⟩ := runEngine_fault
      (P := fun u => u.EngineReady ∧ RawWatched k (s.decodeBegun b valid ticks) u)
      (fun _ _ hbusy hu hstep => ⟨engineStep_ready hu.1 hstep, engineStep_rawWatched hs hbusy hu.2 hstep⟩)
      ⟨reaches_ready hreach hready, .inl (rawRun_start hs)⟩ hm
    exact absurd hfault (rawWatched_ne_fault hs hw hbusy hr hwatch _)

/-- Each pixel a decode has written had its entries written. -/
theorem DecodeDone.value_ne_none (h : DecodeDone k s t) {x y : Nat}
    (hp : s.cfg.writes (s.cfg.decodable s.cfg.p0 k) x y) : s.liveAt k x y ≠ none := by
  obtain ⟨m, rows, hrows, -⟩ := h.result
  obtain ⟨v, hv, -⟩ := hrows.written x y hp
  intro hnone
  rw [CfgRegs.rawRgb, hnone] at hv
  cases hc : s.cfg.color x y <;> simp [hc] at hv

end Decode

/-- Settles O26: with every entry written the raw pass does not stop, and what it leaves is what the stored tables give. -/
theorem bayerDecodeUsesTheTablesAsTheyStand : Obligations.BayerDecodeUsesTheTablesAsTheyStand := by
  unfold Obligations.BayerDecodeUsesTheTablesAsTheyStand
  intro s k hb hu hwf hv ha hk hw
  obtain ⟨t, ht⟩ := execDecode_next hb hu hwf hv ha hk hw
  have hend := exec_endedOnce hb hu ht
  obtain ⟨valid, ticks, ⟨hdone, ⟨herr, hcode, hl, hlv⟩, hstats, hresult⟩, hvalid⟩ :=
    execDecode_done hb hu hwf hv ha hk ht
  obtain ⟨hsrc, -, -, hregs, hirq, haddr, hparams, hhost, hreads, hoverrun⟩ := commandsLeaveTheHostSideAlone _ s t ht
  rw [hb, Bool.or_false] at hoverrun
  exact ⟨t, ht, exec_commandOver hb ht hend, ⟨hdone, herr, hend.cancelled, hcode, rfl⟩,
    ⟨hparams, hregs, hirq, hoverrun, haddr, hsrc (.inl hb), hhost, hreads⟩, hl, hlv.trans (hvalid rfl), hstats, hresult⟩

/-- Settles O27: a decode that answered has written each pixel it came to, which an unwritten entry gives no value for. -/
theorem unwrittenEntryStopsTheModel : Obligations.UnwrittenEntryStopsTheModel := by
  unfold Obligations.UnwrittenEntryStopsTheModel
  refine ⟨fun s k x y hb hu hv ha hwf hk hp hnone => ?_, fun s hb hentry => (hostAccess_portRead hb).2 hentry⟩
  rcases everyCommandEnds.1 (.bayerDecode false) s hb hu with ⟨t, ht, -⟩ | ⟨-, hf⟩
  · obtain ⟨valid, ticks, hdone, -⟩ := execDecode_done hb hu hwf hv ha hk ht
    exact absurd hnone (hdone.value_ne_none hp)
  · exact hf

end Sys2Proof.Machine
end

section
/-! BAYER_DECODE with demosaicing off, then DEMOSAIC, against the one BAYER_DECODE with it on (46_demosaic, R280). Nothing a
decode or a demosaic pass computes depends on DEMOSAIC_EN, so the two write the same pixels from the same bytes. -/

namespace Sys2Proof.Machine

/-! ### What does not depend on DEMOSAIC_EN -/

namespace CfgRegs

/-- The registers with DEMOSAIC_EN cleared (R34). -/
def withoutDemosaic (c : CfgRegs) : CfgRegs := { c with renderCfg := c.renderCfg &&& 0xFFFFFFFB }

variable (c : CfgRegs)

@[simp] theorem withoutDemosaic_demosaicEn : c.withoutDemosaic.demosaicEn = false := by
  simp [demosaicEn, withoutDemosaic, flag_eq_getLsbD]

@[simp] theorem withoutDemosaic_bigEndian : c.withoutDemosaic.bigEndian = c.bigEndian := by
  simp [bigEndian, withoutDemosaic, flag_eq_getLsbD]

@[simp] theorem withoutDemosaic_bgra64 : c.withoutDemosaic.bgra64 = c.bgra64 := by
  simp [bgra64, withoutDemosaic, flag_eq_getLsbD]

@[simp] theorem withoutDemosaic_patternId : c.withoutDemosaic.patternId = c.patternId := by
  have hmask : (0xFFFFFFFB : Word).extractLsb' 4 4 = BitVec.allOnes 4 := by decide
  rw [patternId, withoutDemosaic, field_eq_extractLsb', BitVec.extractLsb'_and, hmask, BitVec.and_allOnes,
    ← field_eq_extractLsb', patternId]

@[simp] theorem withoutDemosaic_bpp : c.withoutDemosaic.bpp = c.bpp := by simp [bpp]

@[simp] theorem withoutDemosaic_dstAddr (x y : Nat) : c.withoutDemosaic.dstAddr x y = c.dstAddr x y := by
  rw [dstAddr, withoutDemosaic_bpp]
  rfl

@[simp] theorem withoutDemosaic_pixelWord (v : Rgb) : c.withoutDemosaic.pixelWord v = c.pixelWord v := by simp [pixelWord]

@[simp] theorem withoutDemosaic_chanIn : c.withoutDemosaic.chanIn = c.chanIn := by
  funext m x y k
  cases k <;> simp [chanIn, channelOf, depth]

@[simp] theorem withoutDemosaic_tileSize : c.withoutDemosaic.tileSize = c.tileSize := by simp [tileSize]

@[simp] theorem withoutDemosaic_label : c.withoutDemosaic.label = c.label := by
  funext row col
  rw [label, withoutDemosaic_patternId]
  rfl

@[simp] theorem withoutDemosaic_color : c.withoutDemosaic.color = c.color := by
  funext x y
  simp [color]

@[simp] theorem withoutDemosaic_rawRgb : c.withoutDemosaic.rawRgb = c.rawRgb := by
  funext v x y
  simp [rawRgb]

@[simp] theorem withoutDemosaic_demosaicPixel : c.withoutDemosaic.demosaicPixel = c.demosaicPixel := by
  have hmissing : c.withoutDemosaic.missing = c.missing := by
    funext rd x y k
    simp only [missing, mean, sameChannel, withoutDemosaic_color, withoutDemosaic_tileSize]
    rfl
  funext rd own x y
  simp [demosaicPixel, demosaicChan, hmissing]

@[simp] theorem withoutDemosaic_fetch (rd : Nat → Byte) (p : PlaneRegs) (k : Container) (x y : Nat) :
    c.withoutDemosaic.fetch rd p k x y = c.fetch rd p k x y := by
  cases k <;> simp only [fetch, withoutDemosaic_bigEndian] <;> rfl

theorem withoutDemosaic_rawValue (t : Luts) (k : Container) (ch : Chan) (raw : Nat) (wide : Half) :
    t.rawValue c.withoutDemosaic k ch raw wide = t.rawValue c k ch raw wide := by
  have hvalue8 : c.withoutDemosaic.value8 = c.value8 := by
    funext v
    simp [value8, out8]
  have hvalue16 : c.withoutDemosaic.value16 = c.value16 := by
    funext v
    simp [value16, out16]
  cases k <;> simp [Luts.rawValue, hvalue8, hvalue16]

@[simp] theorem withoutDemosaic_badPattern : c.withoutDemosaic.badPattern = c.badPattern := by simp [badPattern]

@[simp] theorem withoutDemosaic_badDst (n : Nat) : c.withoutDemosaic.badDst n = c.badDst n := by
  rw [badDst, withoutDemosaic_bpp]
  rfl

@[simp] theorem withoutDemosaic_badDstStride : c.withoutDemosaic.badDstStride = c.badDstStride := by
  rw [badDstStride, withoutDemosaic_bpp]
  rfl

theorem withoutDemosaic_inFrame (a : Nat) : c.withoutDemosaic.inFrame a = c.inFrame a := by
  rw [inFrame, withoutDemosaic_bpp]
  rfl

theorem withoutDemosaic_rowPassResult {dec : Nat → Nat → Bool} {val : Nat → Nat → Option Rgb} {before after : Memory}
    {trunc : Bool} {rows : Nat} (h : RowPassResult c.withoutDemosaic dec val before after trunc rows) :
    RowPassResult c dec val before after trunc rows := by
  obtain ⟨hwritten, huntouched, htruncated, hwhole, hcut⟩ := h
  simp only [pixelIs, pixelHas, withoutDemosaic_bpp, withoutDemosaic_dstAddr, withoutDemosaic_pixelWord] at hwritten huntouched
  exact ⟨hwritten, huntouched, htruncated, hwhole, hcut⟩

theorem withoutDemosaic_demosaicResult {before after : Memory} (h : DemosaicResult c.withoutDemosaic before after) :
    DemosaicResult c before after := by
  obtain ⟨hwritten, huntouched⟩ := h
  simp only [pixelIs, pixelHas, withoutDemosaic_bpp, withoutDemosaic_dstAddr, withoutDemosaic_pixelWord,
    withoutDemosaic_color, withoutDemosaic_chanIn, withoutDemosaic_demosaicPixel] at hwritten huntouched
  exact ⟨hwritten, huntouched⟩

end CfgRegs

/-- The block with DEMOSAIC_EN cleared. -/
abbrev State.withoutDemosaic (s : State) : State := { s with regs := s.regs.withoutDemosaic }

section Decode

variable {b : Bool} {k : Container} {s t : State} {n : Nat}

/-- A decode computes the same pixels with demosaicing on or off. -/
theorem decodedAt_withoutDemosaic (s : State) (b : Bool) (k : Container) :
    s.withoutDemosaic.decodedAt b k = s.decodedAt b k := by
  funext x y
  have htables : s.withoutDemosaic.decodeTables b = s.decodeTables b := rfl
  have hsrc : s.withoutDemosaic.srcAt = s.srcAt := rfl
  simp only [State.decodedAt, CfgRegs.withoutDemosaic_color, CfgRegs.withoutDemosaic_fetch,
    CfgRegs.withoutDemosaic_rawValue, htables, hsrc]
  rfl

theorem valid_withoutDemosaic (hv : Valid (.bayerDecode b) s) : Valid (.bayerDecode b) s.withoutDemosaic := by
  refine firstFailing_eq_none.2 fun c hc => ?_
  have hsame : bayerChecks b (accept (encode (.bayerDecode b)) s.withoutDemosaic) =
      bayerChecks b (accept (encode (.bayerDecode b)) s) := by
    simp only [bayerChecks, accept_cfg, CfgRegs.withoutDemosaic_badPattern, CfgRegs.withoutDemosaic_badDst,
      CfgRegs.withoutDemosaic_badDstStride]
    rfl
  have hmem : c ∈ bayerChecks b (accept (encode (.bayerDecode b)) s) := hsame ▸ hc
  exact checksOf_pass hv c hmem

theorem apart_withoutDemosaic (ha : Apart (.bayerDecode b) s) : Apart (.bayerDecode b) s.withoutDemosaic :=
  fun a d hd hr => (s.regs.withoutDemosaic_inFrame d).trans (ha a d hd hr)

/-- What DEMOSAIC checks, a decode has checked (R254, R280). -/
theorem valid_demosaic_of_decode (hv : Valid (.bayerDecode b) s) (hregs : t.regs = s.regs) (hparams : t.params = s.params) :
    Valid .demosaic t := by
  have hok := checksOf_pass hv
  simp only [checksOf, bayerChecks, List.forall_mem_cons, Bool.or_eq_false_iff, accept_cfg, accept_params] at hok
  obtain ⟨hdim, hdst, -, -, -, ⟨-, hstride⟩, -, -, hpattern, -⟩ := hok
  refine firstFailing_eq_none.2 ?_
  simp only [demosaicChecks, List.forall_mem_cons, accept_cfg, accept_params, hregs, hparams]
  exact ⟨hdim, hdst, hstride, hpattern, nofun⟩

/-! ### The destination of two runs -/

theorem engineStep_dstWf (h : Memory.wf s.dst = true) (ht : engineStep s = .next t) : Memory.wf t.dst = true := by
  rcases engineStep_moveKept ht with ⟨e, rfl⟩ | hkept
  · rw [finish_dst]
    exact State.settledDst_wf h
  · obtain ⟨a, n, v, hdst⟩ := hkept.dst
    rw [hdst]
    exact Memory.writeN_wf a n v h

theorem exec_dstWf (hb : s.busy = false) (h : Memory.wf s.dst = true) {i : Instr} (ht : exec i s = .next t) :
    Memory.wf t.dst = true := by
  rw [exec_eq_settle_issued] at ht
  have hissued : Memory.wf (issued i s).dst = true := by
    rcases issued_idle_cases i hb with hi | hi <;> rw [hi]
    · rw [finish_dst]
      exact State.settledDst_wf h
    · exact h
  exact runEngine_induct (fun _ _ _ => engineStep_dstWf) hissued ht

/-- What a row pass leaves at each address is fixed by what it began with. -/
theorem RowPassResult.read_eq {c : CfgRegs} {dec : Nat → Nat → Bool} {val : Nat → Nat → Option Rgb}
    {before after after' : Memory} {trunc trunc' : Bool} {rows rows' : Nat}
    (h : RowPassResult c dec val before after trunc rows) (h' : RowPassResult c dec val before after' trunc' rows')
    (a : Nat) : Memory.read after a = Memory.read after' a := by
  by_cases hin : ∃ x y, c.writes dec x y ∧ c.pixelHas x y a
  · obtain ⟨x, y, hw, hlo, hhi⟩ := hin
    obtain ⟨v, hv, hpix⟩ := h.written x y hw
    obtain ⟨v', hv', hpix'⟩ := h'.written x y hw
    cases hv.symm.trans hv'
    obtain ⟨i, rfl⟩ := Nat.exists_eq_add_of_le hlo
    have hi : i < c.bpp := Nat.lt_of_add_lt_add_left hhi
    rw [hpix i hi, hpix' i hi]
  · have hout (x y : Nat) (hw : c.writes dec x y) : ¬c.pixelHas x y a := fun ha => hin ⟨x, y, hw, ha⟩
    rw [h.untouched a hout, h'.untouched a hout]

/-- A demosaic pass works on what each address holds. -/
theorem DemosaicResult.of_reads {c : CfgRegs} {before before' after : Memory} (h : DemosaicResult c before after)
    (hsame : ∀ a, Memory.read before' a = Memory.read before a) : DemosaicResult c before' after := by
  have hchan : c.chanIn before' = c.chanIn before := by
    funext x y ch
    rw [CfgRegs.chanIn, CfgRegs.chanIn, Memory.readN_congr fun i _ => hsame _]
  exact ⟨hchan ▸ h.written, fun a ha => (h.untouched a ha).trans (hsame a).symm⟩

/-- A decode with demosaicing off answers where one with it on does, and leaves the destination as its raw pass does. -/
theorem execDecode_withoutDemosaic (hb : s.busy = false) (hu : s.Undisturbed) (hwf : Memory.wf s.dst = true)
    (hv : Valid (.bayerDecode b) s) (ha : Apart (.bayerDecode b) s) (hk : s.regs.p0.container = some k)
    {valid : LutValid} {ticks : Nat} (hdone : DecodeDone k (s.decodeBegun b valid ticks) t) :
    ∃ t₀ trunc rows, exec (.bayerDecode b) s.withoutDemosaic = .next t₀ ∧
      RowPassResult s.regs (s.regs.decodable s.regs.p0 k) (s.regs.rawRgb (s.decodedAt b k)) s.dst t₀.dst trunc rows := by
  have hv' := valid_withoutDemosaic hv
  have ha' := apart_withoutDemosaic ha
  obtain ⟨t₀, ht₀⟩ := execDecode_next (s := s.withoutDemosaic) hb hu hwf hv' ha' hk fun x y hp => by
    rw [decodedAt_withoutDemosaic]
    exact hdone.value_ne_none hp
  obtain ⟨valid₀, ticks₀, hdone₀, -⟩ := execDecode_done (s := s.withoutDemosaic) hb hu hwf hv' ha' hk ht₀
  obtain ⟨m, rows, hrows, hoff, -⟩ := hdone₀.result
  obtain ⟨rfl, -⟩ := hoff s.regs.withoutDemosaic_demosaicEn
  rw [decodeBegun_liveAt, decodedAt_withoutDemosaic] at hrows
  have hoffRows : RowPassResult s.regs.withoutDemosaic (s.regs.decodable s.regs.p0 k)
      (s.regs.withoutDemosaic.rawRgb (s.decodedAt b k)) s.dst t₀.dst t₀.trunc rows := hrows
  rw [CfgRegs.withoutDemosaic_rawRgb] at hoffRows
  exact ⟨t₀, _, rows, ht₀, s.regs.withoutDemosaic_rowPassResult hoffRows⟩

end Decode

/-- Settles O34: the decode with demosaicing off leaves what the raw pass of the one command does, DEMOSAIC works on that,
and what it leaves is fixed by it. -/
theorem demosaicAfterDecodeEqualsOneCommand : Obligations.DemosaicAfterDecodeEqualsOneCommand := by
  unfold Obligations.DemosaicAfterDecodeEqualsOneCommand
  intro b s t hb hu hwf hv ha hen ht
  have hok := checksOf_pass hv
  simp only [checksOf, bayerChecks, List.forall_mem_cons] at hok
  obtain ⟨-, -, -, -, hbits, -⟩ := hok
  obtain ⟨k, hk⟩ := PlaneRegs.exists_container hbits
  obtain ⟨valid, ticks, hdone, -⟩ := execDecode_done hb hu hwf hv ha hk ht
  obtain ⟨t₀, trunc, rows, ht₀, hrows₀⟩ := execDecode_withoutDemosaic hb hu hwf hv ha hk hdone
  obtain ⟨m, n, hrows, -, hon⟩ := hdone.result
  obtain ⟨hdemosaic, -⟩ := hon hen
  rw [decodeBegun_liveAt] at hrows
  have hidle₀ := exec_commandOver (s := s.withoutDemosaic) hb ht₀ (exec_endedOnce (s := s.withoutDemosaic) hb hu ht₀)
  obtain ⟨-, -, -, hregs, -, -, hparams, hhost, -, -⟩ := commandsLeaveTheHostSideAlone _ _ t₀ ht₀
  have hu₀ : t₀.Undisturbed := by rwa [State.Undisturbed, hhost]
  have hwf₀ := exec_dstWf (s := s.withoutDemosaic) hb hwf ht₀
  obtain ⟨t₁, ht₁, -, -, hdone₁, hwf₁⟩ := execDemosaic_done hidle₀.busy hu₀ hwf₀
    (valid_demosaic_of_decode (valid_withoutDemosaic hv) hregs hparams)
  have hsecond : DemosaicResult t₀.regs t₀.dst t₁.dst := hdone₁.result
  rw [hregs] at hsecond
  have hfirst : DemosaicResult s.regs t₀.dst t.dst := hdemosaic.of_reads (hrows₀.read_eq hrows)
  exact ⟨t₀, t₁, ht₀, ht₁,
    (s.regs.withoutDemosaic_demosaicResult hsecond).unique hfirst hwf₁ (exec_dstWf hb hwf ht)⟩

end Sys2Proof.Machine
end

section
/-! YUV_CONVERT (44_yuv_csc): the samples of a pixel, the command from its acceptance to the end of its pass, and the
obligation on it. -/

namespace Sys2Proof.Machine

/-! ### The samples of a pixel (R231 to R234) -/

section Samples

variable {c : CfgRegs}

/-- A container codes the depth of its plane (R122). -/
theorem PlaneRegs.depth_eq_bits {p : PlaneRegs} {k : Container} (h : p.container = some k) : k.depth = p.bits := by
  unfold PlaneRegs.container at h
  split_ifs at h with h0 h8
  · cases h
    exact h8.symm
  · cases h
    rfl
  · obtain ⟨g, -, rfl⟩ := Option.map_eq_some_iff.1 h
    rfl

/-- Subsampled, a coordinate is halved; otherwise it stands (R233). -/
theorem div_two_pow_field_one (v : Word) (i n : Nat) : n / 2 ^ field v i 1 = if v.getLsbD i then n / 2 else n := by
  have hbit : field v i 1 = (v.getLsbD i).toNat := by
    rw [field, ← flag_eq_getLsbD, flag, Nat.toNat_testBit, Nat.shiftRight_eq_div_pow, pow_one]
  rw [hbit]
  cases v.getLsbD i <;> simp

theorem CfgRegs.chromaPos_eq (x y : Nat) : c.chromaPos x y =
    (if c.yuvCfg.getLsbD 0 then x / 2 else x, if c.yuvCfg.getLsbD 1 then y / 2 else y) := by
  rw [CfgRegs.chromaPos, CfgRegs.hsub, CfgRegs.vsub, div_two_pow_field_one, div_two_pow_field_one]

theorem CfgRegs.decodable_iff_below {p : PlaneRegs} {k : Container} {x y : Nat} :
    c.decodable p k x y = true ↔ ∀ a ∈ c.dep p k x y, a < c.srcSize.toNat := by
  simp [CfgRegs.decodable, CfgRegs.avail]

end Samples

/-! ### From its acceptance to the end of its pass -/

section Yuv

variable {k : Container × Container × Container} {s t : State} {n : Nat}

/-- YUV_CONVERT as accepted on an idle block with a valid configuration (R140, R144). -/
abbrev State.yuvLaunched (s : State) : State :=
  (accept (encode .yuvConvert) s).launched none (planOf .yuvConvert (accept (encode .yuvConvert) s))

/-- The state in which YUV_CONVERT, its verdict reported, begins its pass (R144, R146). -/
abbrev State.yuvBegun (s : State) : State :=
  { startPass .yuv (showPass .yuv { s.yuvLaunched with pos := .between, todo := [] }) with ticks := 3 }

theorem yuvLaunched_reaches (s : State) : Reaches s.yuvLaunched s.yuvBegun := by
  have hmove : engineMove s.yuvLaunched = .next { s.yuvLaunched with pos := .between } := rfl
  have hfirst : Reaches s.yuvLaunched { s.yuvLaunched with pos := .between, ticks := 1 } := .of_move rfl hmove rfl
  have hpass := nextPass_reaches (s := { s.yuvLaunched with pos := .between, ticks := 1 }) (p := .yuv) (rest := [])
    rfl rfl rfl
  exact hfirst.trans hpass

/-- On a valid configuration the pass finds what it relies on (R83, R144, R230). -/
theorem yuvBegun_start (hwf : Memory.wf s.dst = true) (hv : Valid .yuvConvert s) (ha : Apart .yuvConvert s) :
    ∃ k, YuvPassStart k s.yuvBegun := by
  have hok := checksOf_pass hv
  simp only [checksOf, yuvChecks, List.forall_mem_cons, Bool.or_eq_false_iff] at hok
  obtain ⟨hdim, hdst, hsrc, -, ⟨⟨hb0, hb1⟩, hb2⟩, ⟨⟨⟨hs0, hs1⟩, hs2⟩, hdstStride⟩, -⟩ := hok
  obtain ⟨k0, hk0⟩ := PlaneRegs.exists_container hb0
  obtain ⟨k1, hk1⟩ := PlaneRegs.exists_container hb1
  obtain ⟨k2, hk2⟩ := PlaneRegs.exists_container hb2
  rw [accept_cfg] at hk0 hk1 hk2
  have hk : s.regs.yuvContainers = some (k0, k1, k2) := by simp [CfgRegs.yuvContainers, hk0, hk1, hk2]
  have hspaces : (accept (encode .yuvConvert) s).inSpaces = true := by
    rw [State.inSpaces, hdst, hsrc]
    rfl
  have hstrides (n : PlaneId) : (s.regs.plane n).badStride (s.regs.planeWidth n) = false := by
    cases n
    · exact hs0
    · exact hs1
    · exact hs2
  exact ⟨(k0, k1, k2), rfl, rfl, rfl, rfl, rfl, rfl, rfl, ⟨rfl, rfl⟩, ⟨rfl, rfl, rfl⟩, hwf, hk, hspaces, hdim, hstrides,
    hdstStride, ha⟩

/-- What a finished YUV pass leaves, the rest of its command included (R147, R238). -/
structure YuvDone (k : Container × Container × Container) (s t : State) : Prop where
  done : t.done = true
  error : t.error = s.error
  errCode : t.errCode = s.errCode
  result : RowPassResult s.cfg (s.cfg.yuvDecodable k) (s.yuvAt k) s.dst t.dst t.trunc t.progress.toNat

/-- A YUV pass not cancelled is done. -/
theorem yuvDone (hs : YuvPassStart k s) (hrun : runEngine n s = .next t) (hover : t.busy = false)
    (hc : t.cancelled = false) : YuvDone k s t := by
  obtain h | ⟨u, h, m, hm⟩ := runEngine_through (fun _ _ _ => engineStep_yuvRun hs) (yuvRun_start hs) hrun
  · cases (h.busy hs).symm.trans hover
  rcases h with ⟨trunc, hpos, hframe, hresult⟩ | ⟨y, h⟩
  · have hk := hframe.kept
    obtain rfl := eq_finish_of_last (hk.busy.trans hs.busy) hpos (hk.todo.trans hs.todo) hm hover
    obtain ⟨hdst, -⟩ := hframe.finish ⟨hs.unraced.src, hs.unraced.dst⟩ .done
    refine ⟨rfl, hk.error, hk.errCode, ?_⟩
    rw [hdst, finish_progress, (finish_trunc _ _).trans hk.trunc]
    exact hresult
  · rw [runEngine_idle m h.busy] at hm
    cases hm
    cases h.cancelled.symm.trans hc

end Yuv

/-- Settles O24: the samples read off their definitions; the command run to its pass, and what the pass leaves. -/
theorem yuvConvertWritesTheDecodablePixels : Obligations.YuvConvertWritesTheDecodablePixels := by
  unfold Obligations.YuvConvertWritesTheDecodablePixels
  refine ⟨fun c rd k x y hk => ?_, fun s hb hu hwf hv ha => ?_⟩
  · obtain ⟨hk0, hk1, hk2⟩ := CfgRegs.yuvContainers_some hk
    refine ⟨hk0, hk1, hk2, ?_, ?_, ?_, ?_⟩ <;>
      simp only [CfgRegs.yuvSample, CfgRegs.yuvDecodable, CfgRegs.chromaPos_eq, leftJustify,
        PlaneRegs.depth_eq_bits hk0, PlaneRegs.depth_eq_bits hk1, PlaneRegs.depth_eq_bits hk2, Bool.and_eq_true,
        CfgRegs.decodable_iff_below, and_assoc]
  · obtain ⟨t, ht, hover, -, hc⟩ := (everyCommandEnds.1 .yuvConvert s hb hu).resolve_right nofun
    obtain ⟨n, hrun⟩ := run_of_exec (i := .yuvConvert) nofun hb hu hv ht
    obtain ⟨k, hs⟩ := yuvBegun_start hwf hv ha
    obtain ⟨m, hm⟩ := (yuvLaunched_reaches s).rest hs.busy hrun hover.busy
    obtain ⟨hdone, herr, hcode, hresult⟩ := yuvDone hs hm hover.busy hc
    obtain ⟨hsrc, -, -, hregs, hirq, haddr, hparams, hhost, hreads, hoverrun⟩ := commandsLeaveTheHostSideAlone _ s t ht
    rw [hb, Bool.or_false] at hoverrun
    obtain ⟨htables, hstats⟩ := tablesAndStatsChangeOnlyWhereStated.2.1 .yuvConvert s t hb ht
    obtain ⟨hl, hlv⟩ := htables nofun nofun
    exact ⟨k, t, hs.containers, ht, hover, ⟨hdone, herr, hc, hcode, rfl⟩,
      ⟨hparams, hregs, hirq, hoverrun, haddr, hsrc (.inl hb), hhost, hreads⟩, ⟨hl, hlv, hstats nofun⟩, hresult⟩

end Sys2Proof.Machine
end
